-- ==== Sys2Proof/Word.lean ====
section
/-!
DEFINITION. The word types of the Izgal 9 and the plainest arithmetic on them (R2, R7).
-/
namespace Sys2Proof

/-- A 64-bit scalar (R8). -/
abbrev Word := BitVec 64

/-- One byte of memory. -/
abbrev Byte := BitVec 8

/-- A vector register: 16 lanes of 32 bits, lane l at bits 32 l + 31 : 32 l (R8, R37). -/
abbrev VReg := BitVec 512

/-- A ballast vector register: 64 lanes of 32 bits (R184). -/
abbrev ZReg := BitVec 2048

/-- `bits(x, h, l)` of R7 as an unsigned number. -/
def bitsOf (x h l : Nat) : Nat := (x >>> l) % 2 ^ (h + 1 - l)

/-- `wrap(x, w)` of R7, as an unsigned number below 2^w. -/
def wrapNat (x : Int) (w : Nat) : Nat := (x % (2 ^ w : Nat)).toNat

/-- `sext(x, w)` of R7: the w-bit value x read signed. -/
def sextNat (x w : Nat) : Int :=
  let y := x % 2 ^ w
  if w = 0 then 0 else if y < 2 ^ (w - 1) then (y : Int) else (y : Int) - (2 ^ w : Nat)

/-- x clamped to the range lo to hi. -/
def clampInt (x lo hi : Int) : Int := if x < lo then lo else if hi < x then hi else x

/-- `satN(x)` and `satuN(x)` of R7: x clamped to the signed or unsigned range of w bits. -/
def satInt (signed : Bool) (w : Nat) (x : Int) : Int :=
  if signed then clampInt x (-(2 ^ (w - 1) : Nat)) ((2 ^ (w - 1) : Nat) - 1)
  else clampInt x 0 ((2 ^ w : Nat) - 1)

/-- `n` rounded up to a multiple of `m`. -/
def roundUp (n m : Nat) : Nat := (n + m - 1) / m * m

/-- A coupler flit (R257): header fields and payload; `ek` is the epoch of the participant key under which a collective flit is
encrypted inside an enclave (R268). -/
structure Flit where
  dst : Nat
  src : Nat
  kind : Nat
  cls : Nat
  len : Nat
  addr : Nat
  lseq : Nat
  data : List Byte
  ek : Nat
deriving DecidableEq, Repr

/-- What a power-on reset boots from (R425): the firmware stages with their signatures, the trusted container signers with their
signatures, and the system segment's place. -/
structure BootImage where
  stage1 : List Byte
  sig1 : List Byte
  stage2 : List Byte
  key2 : List Byte
  sig2 : List Byte
  ipool : Nat
  signers : List (List Byte × List Byte)
  signerKey : List Byte
  sysSegment : List Byte
  sysAddr : Nat
deriving DecidableEq, Repr

end Sys2Proof
end

