-- ==== Sys2Proof/Config.lean ====
section
/-!
DEFINITION. What the spec leaves open: free values, constants with no body, so that nothing can be proved of them
beyond what holds for every value. A fresh value is had by applying one to the counter State.freeCtr (log entry 2).
-/
namespace Sys2Proof.Config

/-- Which of `k` enabled actions happens next (reduced modulo k); also which of several allowed orders (log entry 3). -/
opaque choice : Nat → Nat → Nat

/-- A free bit: whether a line has been replaced, whether an element has landed, old or new (R110, R156, R173). -/
opaque freeBit : Nat → Bool

/-- The bits a special function returns before its bound is applied, by opcode and operand (R358). -/
opaque special : Nat → BitVec 32 → BitVec 32

/-- GiB of each stack that another device of the set gives to its interleaved pool (R109, R254), by rank. -/
opaque farPool : Nat → Nat

/-- Bytes of the save area for context images, as the firmware has sized it (R238). -/
opaque saveArea : Nat

/-- The marker word of a slice, by the line number (R117). -/
opaque marker : Nat → BitVec 32

/-- Two devices of a set, by rank, are neighbours: a coupler link joins them (R257, R267). -/
opaque neighbour : Nat → Nat → Bool

/-- The master secret of the SPDM session between two neighbours, the lower rank first, and by how many sets have formed (R253, R267). -/
opaque linkSecret : Nat → Nat → Nat → List Byte

/-- The bytes of RAND's DRBG (R394). -/
opaque random : Nat → BitVec 64

/-- The 32-byte seed of the device identity key (R425, R427). -/
opaque identitySeed : Nat → Byte

/-- The root key fused at manufacture, and the part revision and fuse settings that the hardware configuration record opens with
(R425, R427). -/
opaque rootKey : List Byte
opaque hwconf : List Byte

/-- The native segment that the Fitter translates a portable kernel into, from the container's bytes and the kernel's index
(R212), and its map from native to portable offsets. -/
opaque translated : List Byte → Nat → List Byte
opaque translatedMap : List Byte → Nat → List (Nat × Nat)

/-- The segment a retime job makes of an old one for a latency table (R213). -/
opaque retimed : List Byte → BitVec 32 → List Byte

/-- The text of an install log (R209). -/
opaque installLog : List Byte → List Byte

/-- Which of the places that are free the Fitter takes, in device memory and in an image's space (R214 "of its choice"). -/
opaque place : Nat → Nat

/-- Secrets and nonces of SPDM answers: certificate chain, random nonces, DHE shares (R263). -/
opaque spdmBytes : Nat → Nat → List Byte

end Sys2Proof.Config
end

