-- ==== Sys2Proof/Machine/Tab.lean ====
section
/-!
DEFINITION. Sparse tables: a list of (key, value) pairs in ONE canonical form (keys strictly rising, no entry
equal to what an unlisted key reads as). Register files, memory, scratch and banks are tables. Also the lane and
byte-list helpers that every family uses.
-/
namespace Sys2Proof.Machine

/-- A sparse table: the value of an unlisted key is fixed by the reader (the default `d` below). -/
abbrev Tab (α : Type) := List (Nat × α)

/-- The value at key `a`. -/
def tget {α : Type} (d : α) : Tab α → Nat → α
  | [], _ => d
  | (k, v) :: r, a => if k = a then v else tget d r a

/-- The table without key `a`. -/
def tdel {α : Type} : Tab α → Nat → Tab α
  | [], _ => []
  | (k, v) :: r, a => if k = a then tdel r a else (k, v) :: tdel r a

/-- The table with the pair (a, v) before the first greater key. -/
def tins {α : Type} : Tab α → Nat → α → Tab α
  | [], a, v => [(a, v)]
  | (k, w) :: r, a, v => if a < k then (a, v) :: (k, w) :: r else (k, w) :: tins r a v

/-- The table with value `v` at key `a`; writing the default removes the entry. -/
def tset {α : Type} [DecidableEq α] (d : α) (t : Tab α) (a : Nat) (v : α) : Tab α :=
  if v = d then tdel t a else tins (tdel t a) a v

/-- Every key is above `b`, the keys rise strictly and no value is the default. -/
def twfFrom {α : Type} [DecidableEq α] (d : α) : Option Nat → Tab α → Bool
  | _, [] => true
  | b, (k, v) :: r =>
    (match b with | none => true | some x => decide (x < k)) && decide (v ≠ d) && twfFrom d (some k) r

/-- The canonical form of a table. -/
def twf {α : Type} [DecidableEq α] (d : α) (t : Tab α) : Bool := twfFrom d none t

/-- The table with key `a` holding `f` of what it held. -/
def tmod {α : Type} [DecidableEq α] (d : α) (t : Tab α) (a : Nat) (f : α → α) : Tab α :=
  tset d t a (f (tget d t a))

/-- The keys of a table that satisfy `p`, removed. -/
def tfilter {α : Type} (p : Nat → Bool) : Tab α → Tab α
  | [] => []
  | (k, v) :: r => if p k then (k, v) :: tfilter p r else tfilter p r

/-- The entry at key `a`, if listed. -/
def tfind {α : Type} : Tab α → Nat → Option α
  | [], _ => none
  | (k, v) :: r, a => if k = a then some v else tfind r a

/-- The table with an entry for key `a`, whatever the value. -/
def tput {α : Type} (t : Tab α) (a : Nat) (v : α) : Tab α := tins (tdel t a) a v

/-- `n` bytes at `a`, lowest address first. -/
def tbytes (t : Tab Byte) (a : Nat) : Nat → List Byte
  | 0 => []
  | n + 1 => tget 0 t a :: tbytes t (a + 1) n

/-- The table with the bytes of the list stored at `a` upwards. -/
def tstore (t : Tab Byte) (a : Nat) : List Byte → Tab Byte
  | [] => t
  | b :: r => tstore (tset 0 t a b) (a + 1) r

/-- A little-endian byte string as a number (R2). -/
def leNat : List Byte → Nat
  | [] => 0
  | b :: r => b.toNat + 256 * leNat r

/-- The `n` low bytes of a number, little-endian (R2). -/
def leBytes (x : Nat) : Nat → List Byte
  | 0 => []
  | n + 1 => BitVec.ofNat 8 x :: leBytes (x / 256) n

/-- Element `i` of a list, with a default. -/
def nth {α : Type} (d : α) : List α → Nat → α
  | [], _ => d
  | x :: _, 0 => x
  | _ :: r, i + 1 => nth d r i

/-- The list with element `i` replaced (unchanged if there is none). -/
def setNth {α : Type} : List α → Nat → α → List α
  | [], _, _ => []
  | _ :: r, 0, v => v :: r
  | x :: r, i + 1, v => x :: setNth r i v

/-- The numbers a, a + 1, …, n of them. -/
def upFrom (a : Nat) : Nat → List Nat
  | 0 => []
  | n + 1 => a :: upFrom (a + 1) n

/-- Lane `l` (32 bits) of a packed register. -/
def laneOf {w : Nat} (x : BitVec w) (l : Nat) : BitVec 32 := x.extractLsb' (32 * l) 32

/-- The number whose 32-bit lane l, from `l` upwards, is `f l`, for `n` lanes. -/
def lanesNat (f : Nat → BitVec 32) (l : Nat) : Nat → Nat
  | 0 => 0
  | n + 1 => (f l).toNat + 2 ^ 32 * lanesNat f (l + 1) n

/-- The 16-lane register whose lane l is `f l` (R37). -/
def mkV (f : Nat → BitVec 32) : VReg := BitVec.ofNat 512 (lanesNat f 0 16)

/-- The 64-lane ballast register whose lane l is `f l` (R184). -/
def mkZ (f : Nat → BitVec 32) : ZReg := BitVec.ofNat 2048 (lanesNat f 0 64)

/-- A bit at a place. -/
def bitAt (b : Bool) (n : Nat) : Nat := if b then 2 ^ n else 0

/-- A list cut after `n` elements. -/
def chunk {α : Type} (n : Nat) : Nat → List α → List (List α)
  | 0, _ => []
  | f + 1, l => if l.isEmpty then [] else l.take n :: chunk n f (l.drop n)

end Sys2Proof.Machine
end

