-- ==== Sys2Proof/Machine/Fp.lean ====
section
/-!
DEFINITION. Number formats (R73 to R91): exact values, rounding, conversion, block formats. A finite value is a sign,
a magnitude and a power of two; nothing is rounded before it is said to be.
-/
namespace Sys2Proof.Machine
open Sys2Proof

/-- A value read from a format: NaN, an infinity, or ±n × 2^e (the sign of a zero is kept). -/
inductive Fv where
  | nan
  | inf (neg : Bool)
  | fin (neg : Bool) (n : Nat) (e : Int)
deriving DecidableEq, Repr

/-- The number of bits of `n`. -/
def bitLen (n : Nat) : Nat := if n = 0 then 0 else Nat.log2 n + 1

/-- The integer square root below 2^(b), bit by bit. -/
def isqrtFrom (n r : Nat) : Nat → Nat
  | 0 => r
  | b + 1 => let r' := r + 2 ^ b
    if r' * r' ≤ n then isqrtFrom n r' b else isqrtFrom n r b
/-- The integer square root. -/
def isqrt (n : Nat) : Nat := isqrtFrom n 0 (bitLen n / 2 + 1)

/-- A floating-point format (R77, R78): exponent bits, fraction bits, bias, and its special codes
(0 IEEE, 1 E4M3, 2 E2M1). -/
structure FFmt where
  eb : Nat
  fb : Nat
  bias : Int
  sp : Nat
deriving DecidableEq, Repr

def fp32 : FFmt := { eb := 8, fb := 23, bias := 127, sp := 0 }
def fp16 : FFmt := { eb := 5, fb := 10, bias := 15, sp := 0 }
def bf16 : FFmt := { eb := 8, fb := 7, bias := 127, sp := 0 }
def fpE4m3 : FFmt := { eb := 4, fb := 3, bias := 7, sp := 1 }
def fpE5m2 : FFmt := { eb := 5, fb := 2, bias := 15, sp := 0 }
def fpE2m1 : FFmt := { eb := 2, fb := 1, bias := 1, sp := 2 }

/-- The floating-point format of a code of R74. -/
def ffmtOf (code : Nat) : Option FFmt :=
  match code with
  | 0 => some fp32 | 1 => some fp16 | 2 => some bf16 | 3 => some fpE4m3 | 4 => some fpE5m2 | 5 => some fpE2m1
  | _ => none

/-- Bits per element of a code of R74 (`w` for BFPw). -/
def fmtBits (code w : Nat) : Nat :=
  match code with
  | 0 => 32 | 1 => 16 | 2 => 16 | 3 => 8 | 4 => 8 | 5 => 4 | 6 => w | 7 => 8 | 8 => 8 | 9 => 4 | 10 => 4
  | 11 => 16 | 12 => 32 | _ => 0

/-- The value of a code of a floating-point format (R77, R78). -/
def fdec (f : FFmt) (x : Nat) : Fv :=
  let neg := (x >>> (f.eb + f.fb)) % 2 == 1
  let e := (x >>> f.fb) % 2 ^ f.eb
  let m := x % 2 ^ f.fb
  if f.sp = 0 && e == 2 ^ f.eb - 1 then (if m = 0 then .inf neg else .nan)
  else if f.sp = 1 && x % 2 ^ (f.eb + f.fb) == 2 ^ (f.eb + f.fb) - 1 then .nan
  else if e = 0 then .fin neg m (1 - f.bias - f.fb)
  else .fin neg (m + 2 ^ f.fb) ((e : Int) - f.bias - f.fb)

/-- The canonical NaN of a format (R78); 0 for E2M1 (R86). -/
def fnan (f : FFmt) : Nat :=
  if f.sp = 0 then (2 ^ f.eb - 1) * 2 ^ f.fb + 2 ^ (f.fb - 1)
  else if f.sp = 1 then 2 ^ (f.eb + f.fb) - 1 else 0

/-- The code of the largest finite magnitude (R77). -/
def fmax (f : FFmt) : Nat :=
  if f.sp = 0 then (2 ^ f.eb - 1) * 2 ^ f.fb - 1
  else if f.sp = 1 then 2 ^ (f.eb + f.fb) - 2 else 2 ^ (f.eb + f.fb) - 1

/-- The sign bit placed in a format. -/
def fsign (f : FFmt) (neg : Bool) : Nat := if neg then 2 ^ (f.eb + f.fb) else 0

/-- A magnitude n / 2^k rounded to an integer under rounding mode `rm` (R85: 0 RNE, 1 RTZ, 2 RUP, 3 RDN). -/
def roundMag (rm : Nat) (neg : Bool) (n k : Nat) : Nat :=
  if k = 0 then n
  else
    let q := n >>> k
    let r := n % 2 ^ k
    let inc := match rm with
      | 0 => decide (2 ^ k < 2 * r) || (2 * r == 2 ^ k && q % 2 == 1)
      | 1 => false
      | 2 => !neg && r != 0
      | _ => neg && r != 0
    if inc then q + 1 else q

/-- ±n × 2^e rounded to an integer magnitude. -/
def roundInt (rm : Nat) (neg : Bool) (n : Nat) (e : Int) : Nat :=
  if 0 ≤ e then n * 2 ^ e.toNat else roundMag rm neg n (-e).toNat

/-- What an overflow of a finite value delivers under IEEE rules (R85, R86): an infinity, or the largest finite. -/
def ovfInf (rm : Nat) (neg : Bool) : Bool :=
  match rm with
  | 0 => true
  | 1 => false
  | 2 => !neg
  | _ => neg

/-- A non-NaN, finite magnitude rounded into a format: `none` when it overflows (the magnitude rounded with an
unbounded exponent exceeds the largest finite value), else the code without its sign. -/
def froundMag (f : FFmt) (rm : Nat) (neg : Bool) (n : Nat) (e : Int) : Option Nat :=
  if n = 0 then some 0
  else
    let lsb := max (e + (bitLen n : Int) - 1 - f.fb) (1 - f.bias - f.fb)
    let m := roundInt rm neg n (e - lsb)
    let (m, lsb) := if m = 2 ^ (f.fb + 1) then (2 ^ f.fb, lsb + 1) else (m, lsb)
    if m < 2 ^ f.fb then some m
    else
      let ex := (lsb + f.fb + f.bias).toNat
      let c := ex * 2 ^ f.fb + (m - 2 ^ f.fb)
      if fmax f < c then none else some c

/-- A value converted to a floating-point format under rounding mode `rm`, `sat` being FMT.SAT (R85, R86). -/
def fenc (f : FFmt) (rm : Nat) (sat : Bool) (x : Fv) : Nat :=
  let fp8 := f.sp = 1 || f.eb + f.fb = 7
  match x with
  | .nan => fnan f
  | .inf neg =>
    if f.sp = 2 then fsign f neg + fmax f
    else if fp8 && sat then fsign f neg + fmax f
    else if f.sp = 1 then fnan f
    else fsign f neg + (2 ^ f.eb - 1) * 2 ^ f.fb
  | .fin neg n e =>
    match froundMag f rm neg n e with
    | some c => fsign f neg + c
    | none =>
      if f.sp = 2 then fsign f neg + fmax f
      else if fp8 && sat then fsign f neg + fmax f
      else if f.sp = 1 then fnan f
      else if ovfInf rm neg then fsign f neg + (2 ^ f.eb - 1) * 2 ^ f.fb
      else fsign f neg + fmax f

/-- The value of an FP32 pattern. -/
def f32 (x : BitVec 32) : Fv := fdec fp32 x.toNat

/-- A value rounded to FP32 under `rm` (`rnd` of R7). -/
def r32 (rm : Nat) (x : Fv) : BitVec 32 := BitVec.ofNat 32 (fenc fp32 rm false x)

/-- The canonical FP32 NaN (R78). -/
def nan32 : BitVec 32 := 0x7FC00000

def isNan : Fv → Bool
  | .nan => true
  | _ => false

def fneg : Fv → Fv
  | .nan => .nan
  | .inf s => .inf (!s)
  | .fin s n e => .fin (!s) n e

/-- The exact product (R89: infinity × 0 is NaN). -/
def fmul : Fv → Fv → Fv
  | .nan, _ => .nan
  | _, .nan => .nan
  | .inf s, .inf t => .inf (s != t)
  | .inf s, .fin t n _ => if n = 0 then .nan else .inf (s != t)
  | .fin s n _, .inf t => if n = 0 then .nan else .inf (s != t)
  | .fin s n e, .fin t m d => .fin (s != t) (n * m) (e + d)

/-- The exact product; a zero product of two integers is +0. -/
def fmulInt (int : Bool) (x y : Fv) : Fv :=
  match fmul x y with
  | .fin s n e => if int && n = 0 then .fin false 0 0 else .fin s n e
  | v => v

def fvNeg : Fv → Bool
  | .nan => false
  | .inf s => s
  | .fin s _ _ => s

def fvExp : Fv → Option Int
  | .fin _ n e => if n = 0 then none else some e
  | _ => none

/-- The least exponent among the non-zero terms. -/
def minExp : List Fv → Option Int
  | [] => none
  | x :: r => match fvExp x, minExp r with
    | some a, some b => some (min a b)
    | some a, none => some a
    | none, o => o

/-- The exact total at exponent `b` of the finite terms. -/
def totalAt (b : Int) : List Fv → Int
  | [] => 0
  | .fin s n e :: r => (if s then -((n * 2 ^ (e - b).toNat : Nat) : Int) else ((n * 2 ^ (e - b).toNat : Nat) : Int)) + totalAt b r
  | _ :: r => totalAt b r

/-- The exact sum of a list of terms, with the zero sign of R78 under rounding mode `rm` (R89, R91). -/
def fsum (rm : Nat) (xs : List Fv) : Fv :=
  if xs.any isNan then .nan
  else
    let pi := xs.any (fun x => x == .inf false)
    let ni := xs.any (fun x => x == .inf true)
    if pi && ni then .nan
    else if pi then .inf false
    else if ni then .inf true
    else
      let b := (minExp xs).getD 0
      let t := totalAt b (xs.filter (fun x => (fvExp x).isSome))
      if t = 0 then
        let neg := if xs.all fvNeg then true else if xs.any fvNeg then rm == 3 else false
        .fin neg 0 0
      else .fin (decide (t < 0)) t.natAbs b

/-- The exact sum of two terms. -/
def fadd (rm : Nat) (x y : Fv) : Fv := fsum rm [x, y]

/-- x < y, with −0 equal to +0 (neither is NaN). -/
def flt (x y : Fv) : Bool :=
  match x, y with
  | .inf true, .inf true => false
  | .inf true, _ => true
  | _, .inf false => !(x == .inf false)
  | .fin s n e, .fin t m d => match fsum 0 [.fin s n e, .fin (!t) m d] with
    | .fin u k _ => u && k != 0
    | _ => false
  | _, _ => false

/-- x = y, with −0 equal to +0 (neither is NaN). -/
def feq (x y : Fv) : Bool := !isNan x && !isNan y && !flt x y && !flt y x

/-- FMIN and FMAX of two FP32 patterns (R322): −0 is less than +0, one NaN yields the other, two the canonical NaN. -/
def fminmax (isMax : Bool) (a b : BitVec 32) : BitVec 32 :=
  let x := f32 a
  let y := f32 b
  if isNan x && isNan y then nan32
  else if isNan x then b
  else if isNan y then a
  else
    let less := flt x y || (!flt y x && fvNeg x && !fvNeg y)
    if isMax then (if less then b else a) else (if less then a else b)

/-- A floating-point value converted to an integer of range lo to hi under `rm` (R87). -/
def fToInt (rm : Nat) (lo hi : Int) (x : Fv) : Int :=
  match x with
  | .nan => 0
  | .inf s => if s then lo else hi
  | .fin s n e =>
    let m := roundInt rm s n e
    clampInt (if s then -(m : Int) else m) lo hi

/-- An integer as a value (an integer zero is +0). -/
def fOfInt (x : Int) : Fv := .fin (decide (x < 0)) x.natAbs 0

/-- The signed reading of a w-bit code. -/
def sgn (w x : Nat) : Int := sextNat x w

/-- The value of an integer code of R74 after the reserved-code rule of R84; `none` for FORMAT_INVALID. -/
def intCode (code rsub x : Nat) : Option Int :=
  let sym (w : Nat) : Option Int :=
    if x % 2 ^ w = 2 ^ (w - 1) then
      (match rsub with
       | 0 => some (sgn w x)
       | 1 => some (-(2 ^ (w - 1) - 1 : Nat))
       | 2 => some 0
       | _ => none)
    else some (sgn w x)
  match code with
  | 7 => sym 8
  | 8 => some (x % 256 : Nat)
  | 9 => sym 4
  | 10 => some (x % 16 : Nat)
  | 11 => some (sgn 16 x)
  | 12 => some (sgn 32 x)
  | _ => none

/-- The output range of a conversion to an integer format (R84). -/
def intRange (code rsub : Nat) : Int × Int :=
  match code with
  | 7 => (if rsub = 0 then -128 else -127, 127)
  | 8 => (0, 255)
  | 9 => (if rsub = 0 then -8 else -7, 7)
  | 10 => (0, 15)
  | 11 => (-32768, 32767)
  | _ => (-2147483648, 2147483647)

/-- The value of a single element (R74, R79 with no block scale, R84): `none` for a reserved format, BFPw, or a
reserved integer code under RSUB = 11. -/
def elemVal (code rsub x : Nat) : Option Fv :=
  match ffmtOf code with
  | some f => some (fdec f (x % 2 ^ (1 + f.eb + f.fb)))
  | none => (intCode code rsub x).map fOfInt

/-- A value converted to a single element of a format (R86, R87): `none` for a reserved format or BFPw. -/
def elemEnc (code rm rsub : Nat) (sat : Bool) (x : Fv) : Option Nat :=
  match ffmtOf code with
  | some f => some (fenc f rm sat x)
  | none =>
    if 7 ≤ code && code ≤ 12 then
      let r := intRange code rsub
      some (wrapNat (fToInt rm r.1 r.2 x) (fmtBits code 0))
    else none

/-- The value of a BFPw mantissa under exponent E (R80). -/
def bfpVal (w e m : Nat) : Fv :=
  if e = 255 then .nan
  else
    let v := sgn w m
    .fin (decide (v < 0)) v.natAbs ((e : Int) - 127 - ((w : Int) - 2))

/-- The value of an E2M1 code under scale s (R79). -/
def e2m1Val (s x : Nat) : Fv :=
  if s = 255 then .nan
  else match fdec fpE2m1 (x % 16) with
    | .fin g n e => .fin g n (e + (s : Int) - 127)
    | v => v

/-- A finite value's rounded mantissa for BFPw exponent e (R82). -/
def bfpMant (rm w : Nat) (e : Nat) (x : Fv) : Int :=
  match x with
  | .fin s n d =>
    let m := roundInt rm s n (d - ((e : Int) - 127 - ((w : Int) - 2)))
    if s then -(m : Int) else m
  | _ => 0

/-- The mantissa is in the range of w bits. -/
def bfpFits (w : Nat) (m : Int) : Bool := decide (-(2 ^ (w - 1) : Nat) ≤ m) && decide (m ≤ (2 ^ (w - 1) : Nat) - 1)

/-- The least exponent from `e`, of `fuel` tried, under which every value fits; 0xFE when none does (R82). -/
def bfpExp (rm w : Nat) (xs : List Fv) (e : Nat) : Nat → Nat
  | 0 => 0xFE
  | fuel + 1 => if xs.all (fun x => bfpFits w (bfpMant rm w e x)) then e else bfpExp rm w xs (e + 1) fuel

/-- A finite value. -/
def isFin : Fv → Bool
  | .fin _ _ _ => true
  | _ => false

/-- Thirty-two values as one BFPw block: the exponent and the mantissa codes (R82). -/
def bfpEnc (rm w : Nat) (xs : List Fv) : Nat × List Nat :=
  if !xs.all isFin then (255, xs.map (fun _ => 0))
  else
    let e := bfpExp rm w xs 0 255
    (e, xs.map (fun x => wrapNat (clampInt (bfpMant rm w e x) (-(2 ^ (w - 1) : Nat)) ((2 ^ (w - 1) : Nat) - 1)) w))

/-- floor(log2) of a non-zero magnitude. -/
def flog2 : Fv → Option Int
  | .fin _ n e => if n = 0 then none else some (e + (Nat.log2 n : Int))
  | _ => none

/-- The largest floor(log2) of the values. -/
def maxLog2 : List Fv → Option Int
  | [] => none
  | x :: r => match flog2 x, maxLog2 r with
    | some a, some b => some (max a b)
    | some a, none => some a
    | none, o => o

/-- Thirty-two values as one E2M1 block: the scale and the codes (R83). -/
def e2m1Enc (rm : Nat) (xs : List Fv) : Nat × List Nat :=
  if !xs.all isFin then (255, xs.map (fun _ => 0))
  else match maxLog2 xs with
    | none => (0, xs.map (fun x => if fvNeg x then 8 else 0))
    | some l =>
      let s := (clampInt (l - 2 + 127) 0 254).toNat
      (s, xs.map (fun x => match x with
        | .fin g n e => fenc fpE2m1 rm true (.fin g n (e - ((s : Int) - 127)))
        | _ => 0))

/-- FMT fields (R73). -/
def fmtVFA (f : Word) : Nat := bitsOf f.toNat 3 0
def fmtVFB (f : Word) : Nat := bitsOf f.toNat 7 4
def fmtMXA (f : Word) : Nat := bitsOf f.toNat 11 8
def fmtMXW (f : Word) : Nat := bitsOf f.toNat 15 12
def fmtACF (f : Word) : Nat := bitsOf f.toNat 16 16
def fmtRM (f : Word) : Nat := bitsOf f.toNat 18 17
def fmtISGN (f : Word) : Bool := bitsOf f.toNat 19 19 == 1
def fmtIWID (f : Word) : Nat := bitsOf f.toNat 21 20
def fmtRSUB (f : Word) : Nat := bitsOf f.toNat 23 22
def fmtBFPW (f : Word) : Nat := bitsOf f.toNat 26 24
def fmtSAT (f : Word) : Bool := bitsOf f.toNat 27 27 == 1

end Sys2Proof.Machine
end

