-- ==== Sys2Proof/Syntax.lean ====
section
/-!
DEFINITION. The syntax: one constructor per row of the opcode table. The fields of an encoded row are the operand
fields of its word (R275, R279, R281, R283, R285, R287, R289, R290, R291, R399), `p` being PRED (R277) and, in a V
slot, `cl` the slot's own number 0 to 7 (R37). The rows that have no word are events: what reaches the device from
outside, and what its units do of themselves; their fields name the core, context, channel or message concerned.
-/
namespace Sys2Proof

/-- One row of the opcode table. -/
inductive Instr where
  /-- header. A bundle with M set waits for every earlier result and engine operation, then commits the gate, performs its atomic, starts held shunts, performs POST and STEP, and retires (R23) -/
  | restartMark (c : BitVec 8) (f : BitVec 5) (y : BitVec 2) (k : BitVec 15)
  /-- header. An empty 4-byte bundle that does nothing but takes an issue position (R29) -/
  | idle
  /-- header. Header sync: the bundle issues only once flag k is at least c, and the flag is left unchanged (R39) -/
  | wait (c : BitVec 8) (f : BitVec 5) (mk : BitVec 1) (k : BitVec 15)
  /-- header. Header sync: the bundle issues once flag k is at least c, then subtracts c; rollback adds c back (R39) -/
  | take (c : BitVec 8) (f : BitVec 5) (mk : BitVec 1) (k : BitVec 15)
  /-- header. Header sync in a mark bundle: adds c to flag k at step 4 of the mark, saturating (R39) -/
  | post (c : BitVec 8) (f : BitVec 5) (mk : BitVec 1) (k : BitVec 15)
  /-- CTL. Unconditional relative branch (R303) -/
  | br (off : BitVec 22) (p : BitVec 5)
  /-- CTL. Branch on a predicate or its negation (R303) -/
  | brp (q : BitVec 4) (n : BitVec 1) (off : BitVec 17) (p : BitVec 5)
  /-- CTL. Branch, writing the link address to sD (R304) -/
  | call (d : BitVec 6) (off : BitVec 16) (p : BitVec 5)
  /-- CTL. Jump to the address in sA (R304) -/
  | ret (a : BitVec 6) (p : BitVec 5)
  /-- CTL. Jump to sA plus a word offset (R304) -/
  | jmpr (a : BitVec 6) (off : BitVec 16) (p : BitVec 5)
  /-- CTL. Sets up a loop buffer over the next bundles with an immediate count (R305) -/
  | loop (ln : BitVec 3) (body : BitVec 4) (cnt : BitVec 15) (p : BitVec 5)
  /-- CTL. Sets up a loop buffer with the count in sA (R305) -/
  | loopx (ln : BitVec 3) (a : BitVec 6) (body : BitVec 4) (p : BitVec 5)
  /-- CTL. Marks the context not ready for the next issue selection only (R35) -/
  | yield (p : BitVec 5)
  /-- CTL. Makes the bundle a mark bundle and ends the thread (R24) -/
  | exit (p : BitVec 5)
  /-- CTL. Mark bundle entering the system segment as a trap (R311) -/
  | trap (imm : BitVec 16) (p : BitVec 5)
  /-- CTL. Mark bundle entering the system segment for a service call (R311) -/
  | svc (imm : BitVec 16) (p : BitVec 5)
  /-- CTL. Privileged mark bundle returning from system code to XPC (R311) -/
  | eret (p : BitVec 5)
  /-- CTL. Writes FMT from sA, effective four positions on (R313) -/
  | setfmt (a : BitVec 6) (p : BitVec 5)
  /-- CTL. Reads the FMT in effect into sD (R313) -/
  | fmtrd (d : BitVec 6) (p : BitVec 5)
  /-- CTL. Sets MPC to sA plus an 8-byte-word offset (R314) -/
  | mdpc (a : BitVec 6) (off : BitVec 16) (p : BitVec 5)
  /-- CTL. In a mark bundle, arrives at the domain's sync point and swaps plane regions (R315) -/
  | step (lvl : BitVec 3) (p : BitVec 5)
  /-- CTL. In a mark bundle, arrives at the domain's sync point without swapping (R315) -/
  | barr (lvl : BitVec 3) (p : BitVec 5)
  /-- CTL. Blocks until every batch closed under the tag has finished (R180) -/
  | mwait (tag : BitVec 3) (p : BitVec 5)
  /-- CTL. Makes the thread's next bundle not ready for IMM cycles (R308) -/
  | park (imm : BitVec 16) (p : BitVec 5)
  /-- SA/SB. sD := a + b, wrapping (R316) -/
  | add (d a b : BitVec 6) (p : BitVec 5)
  /-- SA/SB. sD := a + signed immediate (R316) -/
  | addi (d a : BitVec 6) (imm : BitVec 9) (p : BitVec 5)
  /-- SA/SB. sD := a − b, wrapping (R316) -/
  | sub (d a b : BitVec 6) (p : BitVec 5)
  /-- SA/SB. Low 64 bits of a × b (R316) -/
  | mul (d a b : BitVec 6) (p : BitVec 5)
  /-- SA/SB. High 64 bits of the signed product (R316) -/
  | mulh (d a b : BitVec 6) (p : BitVec 5)
  /-- SA/SB. High 64 bits of the unsigned product (R316) -/
  | mulhu (d a b : BitVec 6) (p : BitVec 5)
  /-- SA/SB. Signed truncating division, with no fault on zero (R317) -/
  | div (d a b : BitVec 6) (p : BitVec 5)
  /-- SA/SB. Unsigned division, with no fault on zero (R317) -/
  | divu (d a b : BitVec 6) (p : BitVec 5)
  /-- SA/SB. Signed remainder (R317) -/
  | rem (d a b : BitVec 6) (p : BitVec 5)
  /-- SA/SB. Unsigned remainder (R317) -/
  | remu (d a b : BitVec 6) (p : BitVec 5)
  /-- SA/SB. Bitwise and (R318) -/
  | and (d a b : BitVec 6) (p : BitVec 5)
  /-- SA/SB. Bitwise and with the sign-extended immediate (R318) -/
  | andi (d a : BitVec 6) (imm : BitVec 9) (p : BitVec 5)
  /-- SA/SB. Bitwise or (R318) -/
  | or (d a b : BitVec 6) (p : BitVec 5)
  /-- SA/SB. Bitwise or with the immediate (R318) -/
  | ori (d a : BitVec 6) (imm : BitVec 9) (p : BitVec 5)
  /-- SA/SB. Bitwise exclusive-or (R318) -/
  | xor (d a b : BitVec 6) (p : BitVec 5)
  /-- SA/SB. Exclusive-or with the immediate (R318) -/
  | xori (d a : BitVec 6) (imm : BitVec 9) (p : BitVec 5)
  /-- SA/SB. a and not b (R318) -/
  | andn (d a b : BitVec 6) (p : BitVec 5)
  /-- SA/SB. Shift left by b mod 64 (R318) -/
  | shl (d a b : BitVec 6) (p : BitVec 5)
  /-- SA/SB. Logical shift right (R318) -/
  | shr (d a b : BitVec 6) (p : BitVec 5)
  /-- SA/SB. Arithmetic shift right (R318) -/
  | sar (d a b : BitVec 6) (p : BitVec 5)
  /-- SA/SB. Rotate left (R318) -/
  | rot (d a b : BitVec 6) (p : BitVec 5)
  /-- SA/SB. Count leading zeros (R318) -/
  | clz (d a : BitVec 6) (p : BitVec 5)
  /-- SA/SB. Count trailing zeros (R318) -/
  | ctz (d a : BitVec 6) (p : BitVec 5)
  /-- SA/SB. Count one bits (R318) -/
  | popc (d a : BitVec 6) (p : BitVec 5)
  /-- SA/SB. Reverse bits (R318) -/
  | brev (d a : BitVec 6) (p : BitVec 5)
  /-- SA/SB. Reverse bytes (R318) -/
  | bswap (d a : BitVec 6) (p : BitVec 5)
  /-- SA/SB. Signed minimum (R316) -/
  | min (d a b : BitVec 6) (p : BitVec 5)
  /-- SA/SB. Signed maximum (R316) -/
  | max (d a b : BitVec 6) (p : BitVec 5)
  /-- SA/SB. Unsigned minimum (R316) -/
  | minu (d a b : BitVec 6) (p : BitVec 5)
  /-- SA/SB. Unsigned maximum (R316) -/
  | maxu (d a b : BitVec 6) (p : BitVec 5)
  /-- SA/SB. Absolute value, wrapping (R316) -/
  | abs (d a : BitVec 6) (p : BitVec 5)
  /-- SA/SB. Sign- or zero-extends the low 8, 16 or 32 bits (R319) -/
  | ext (d a : BitVec 6) (wd : BitVec 2) (sg : BitVec 1) (p : BitVec 5)
  /-- SA/SB. Extracts a bit field (R319) -/
  | bfx (d a b : BitVec 6) (p : BitVec 5)
  /-- SA/SB. Inserts a bit field into sD (R319) -/
  | bfi (d a b : BitVec 6) (p : BitVec 5)
  /-- SA/SB. Copies sA (R320) -/
  | mov (d a : BitVec 6) (p : BitVec 5)
  /-- SA/SB. Loads a sign-extended 15-bit immediate (R320) -/
  | movi (d : BitVec 6) (imm : BitVec 15) (p : BitVec 5)
  /-- SA/SB. Shifts sD left 15 and adds an unsigned immediate (R320) -/
  | movhi (d : BitVec 6) (imm : BitVec 15) (p : BitVec 5)
  /-- SA/SB. Selects a or b by predicate (R320) -/
  | sel (d : BitVec 6) (ps : BitVec 3) (a b : BitVec 6) (p : BitVec 5)
  /-- SA/SB. Compares registers into a predicate (R321) -/
  | cmp (pd : BitVec 4) (a b : BitVec 6) (cond : BitVec 3) (p : BitVec 5)
  /-- SA/SB. Compares with an immediate into a predicate (R321) -/
  | cmpi (pd : BitVec 4) (a : BitVec 6) (imm : BitVec 8) (cond : BitVec 3) (p : BitVec 5)
  /-- SA/SB. Predicate from a truth table of two predicates (R321) -/
  | pset (pd pa pb tt : BitVec 4) (p : BitVec 5)
  /-- SA/SB. Reads all predicates into sD (R321) -/
  | pmovRd (d : BitVec 6) (p : BitVec 5)
  /-- SA/SB. Writes p1 to p15 from sA (R321) -/
  | pmovWr (a : BitVec 6) (p : BitVec 5)
  /-- SA/SB. FP32 add (R322) -/
  | fadd (d a b : BitVec 6) (p : BitVec 5)
  /-- SA/SB. FP32 subtract (R322) -/
  | fsub (d a b : BitVec 6) (p : BitVec 5)
  /-- SA/SB. FP32 multiply (R322) -/
  | fmul (d a b : BitVec 6) (p : BitVec 5)
  /-- SA/SB. FP32 fused multiply-add into sD (R322) -/
  | ffma (d a b : BitVec 6) (p : BitVec 5)
  /-- SA/SB. FP32 minimum (R322) -/
  | fmin (d a b : BitVec 6) (p : BitVec 5)
  /-- SA/SB. FP32 maximum (R322) -/
  | fmax (d a b : BitVec 6) (p : BitVec 5)
  /-- SA/SB. Magnitude of a with the sign of b (R322) -/
  | fsgnCp (d a b : BitVec 6) (p : BitVec 5)
  /-- SA/SB. Magnitude of a with the negated sign of b (R322) -/
  | fsgnNeg (d a b : BitVec 6) (p : BitVec 5)
  /-- SA/SB. a with its sign exclusive-ored with b's (R322) -/
  | fsgnXor (d a b : BitVec 6) (p : BitVec 5)
  /-- SA/SB. FP32 compare into a predicate (R323) -/
  | fcmp (pd : BitVec 4) (a b : BitVec 6) (cond : BitVec 3) (p : BitVec 5)
  /-- SA/SB. FP32 to INT32, saturating (R324) -/
  | fcvtI32F32 (d a : BitVec 6) (p : BitVec 5)
  /-- SA/SB. INT32 to FP32 (R324) -/
  | fcvtF32I32 (d a : BitVec 6) (p : BitVec 5)
  /-- SA/SB. FP32 to UINT32, saturating (R324) -/
  | fcvtU32F32 (d a : BitVec 6) (p : BitVec 5)
  /-- SA/SB. UINT32 to FP32 (R324) -/
  | fcvtF32U32 (d a : BitVec 6) (p : BitVec 5)
  /-- SA/SB. FP32 to FP16 (R324) -/
  | fcvtF16F32 (d a : BitVec 6) (p : BitVec 5)
  /-- SA/SB. FP16 to FP32, exact (R324) -/
  | fcvtF32F16 (d a : BitVec 6) (p : BitVec 5)
  /-- SA/SB. FP32 to BF16 (R324) -/
  | fcvtBf16F32 (d a : BitVec 6) (p : BitVec 5)
  /-- SA/SB. BF16 to FP32, exact (R324) -/
  | fcvtF32Bf16 (d a : BitVec 6) (p : BitVec 5)
  /-- SA/SB. Sets one bit naming the FP32 class of a (R323) -/
  | fclass (d a : BitVec 6) (p : BitVec 5)
  /-- LS. Loads 1 to 8 bytes, from the gate first, into sD (R327) -/
  | ld (d : BitVec 6) (h : BitVec 4) (x : BitVec 6) (imm : BitVec 24) (sz : BitVec 2) (sx : BitVec 1) (cls : BitVec 4) (p : BitVec 5)
  /-- LS. Places 1 to 8 bytes of sD in the gate (R327) -/
  | st (d : BitVec 6) (h : BitVec 4) (x : BitVec 6) (imm : BitVec 24) (sz : BitVec 2) (cls : BitVec 4) (p : BitVec 5)
  /-- LS. Loads a 64-byte walk descriptor image into wD (R328) -/
  | ldWalk (w : BitVec 3) (h : BitVec 4) (x : BitVec 6) (imm : BitVec 24) (cls : BitVec 4) (p : BitVec 5)
  /-- LS. Stores a walk descriptor's 64-byte image through the gate (R328) -/
  | stWalk (w : BitVec 3) (h : BitVec 4) (x : BitVec 6) (imm : BitVec 24) (cls : BitVec 4) (p : BitVec 5)
  /-- LS. Translates a VA by page walk into a memory handle (R329) -/
  | xlate (hd : BitVec 4) (a : BitVec 6) (p : BitVec 5)
  /-- LS. Makes a scratch handle on the group's 8 MiB window (R329) -/
  | xlateScratch (hd : BitVec 4) (p : BitVec 5)
  /-- LS. Makes a plane handle on a declared plane region (R329) -/
  | xlatePlane (hd pidx : BitVec 4) (p : BitVec 5)
  /-- LS. Makes a handle empty (R330) -/
  | hfree (hd : BitVec 4) (p : BitVec 5)
  /-- LS. Returns a handle's state and attributes (R331) -/
  | htest (d : BitVec 6) (hd : BitVec 4) (p : BitVec 5)
  /-- LS. Atomic add at step 2 of its mark (R332) -/
  | aadd (d : BitVec 6) (h : BitVec 4) (x : BitVec 6) (imm : BitVec 14) (a : BitVec 6) (dw : BitVec 1) (cls : BitVec 4) (p : BitVec 5)
  /-- LS. Atomic and (R332) -/
  | aand (d : BitVec 6) (h : BitVec 4) (x : BitVec 6) (imm : BitVec 14) (a : BitVec 6) (dw : BitVec 1) (cls : BitVec 4) (p : BitVec 5)
  /-- LS. Atomic or (R332) -/
  | aor (d : BitVec 6) (h : BitVec 4) (x : BitVec 6) (imm : BitVec 14) (a : BitVec 6) (dw : BitVec 1) (cls : BitVec 4) (p : BitVec 5)
  /-- LS. Atomic exclusive-or (R332) -/
  | axor (d : BitVec 6) (h : BitVec 4) (x : BitVec 6) (imm : BitVec 14) (a : BitVec 6) (dw : BitVec 1) (cls : BitVec 4) (p : BitVec 5)
  /-- LS. Atomic signed minimum (R332) -/
  | amin (d : BitVec 6) (h : BitVec 4) (x : BitVec 6) (imm : BitVec 14) (a : BitVec 6) (dw : BitVec 1) (cls : BitVec 4) (p : BitVec 5)
  /-- LS. Atomic signed maximum (R332) -/
  | amax (d : BitVec 6) (h : BitVec 4) (x : BitVec 6) (imm : BitVec 14) (a : BitVec 6) (dw : BitVec 1) (cls : BitVec 4) (p : BitVec 5)
  /-- LS. Atomic unsigned minimum (R332) -/
  | aminu (d : BitVec 6) (h : BitVec 4) (x : BitVec 6) (imm : BitVec 14) (a : BitVec 6) (dw : BitVec 1) (cls : BitVec 4) (p : BitVec 5)
  /-- LS. Atomic unsigned maximum (R332) -/
  | amaxu (d : BitVec 6) (h : BitVec 4) (x : BitVec 6) (imm : BitVec 14) (a : BitVec 6) (dw : BitVec 1) (cls : BitVec 4) (p : BitVec 5)
  /-- LS. Atomic exchange (R332) -/
  | axchg (d : BitVec 6) (h : BitVec 4) (x : BitVec 6) (imm : BitVec 14) (a : BitVec 6) (dw : BitVec 1) (cls : BitVec 4) (p : BitVec 5)
  /-- LS. Atomic compare-and-swap that always writes (R332) -/
  | acas (d : BitVec 6) (h : BitVec 4) (x : BitVec 6) (imm : BitVec 14) (a b : BitVec 6) (dw : BitVec 1) (cls : BitVec 4) (p : BitVec 5)
  /-- LS. Atomic FP32 add, rounded RNE (R332) -/
  | afadd (d : BitVec 6) (h : BitVec 4) (x : BitVec 6) (imm : BitVec 14) (a : BitVec 6) (cls : BitVec 4) (p : BitVec 5)
  /-- LS. Near-memory integer add at the line's point of performance (R335) -/
  | nmrAdd (h : BitVec 4) (x : BitVec 6) (imm : BitVec 14) (a : BitVec 6) (dw : BitVec 1) (cls : BitVec 4) (p : BitVec 5)
  /-- LS. Near-memory FP32 add (R335) -/
  | nmrFadd (h : BitVec 4) (x : BitVec 6) (imm : BitVec 14) (a : BitVec 6) (cls : BitVec 4) (p : BitVec 5)
  /-- LS. Near-memory signed minimum (R335) -/
  | nmrMin (h : BitVec 4) (x : BitVec 6) (imm : BitVec 14) (a : BitVec 6) (dw : BitVec 1) (cls : BitVec 4) (p : BitVec 5)
  /-- LS. Near-memory signed maximum (R335) -/
  | nmrMax (h : BitVec 4) (x : BitVec 6) (imm : BitVec 14) (a : BitVec 6) (dw : BitVec 1) (cls : BitVec 4) (p : BitVec 5)
  /-- LS. Near-memory unsigned minimum (R335) -/
  | nmrMinu (h : BitVec 4) (x : BitVec 6) (imm : BitVec 14) (a : BitVec 6) (dw : BitVec 1) (cls : BitVec 4) (p : BitVec 5)
  /-- LS. Near-memory unsigned maximum (R335) -/
  | nmrMaxu (h : BitVec 4) (x : BitVec 6) (imm : BitVec 14) (a : BitVec 6) (dw : BitVec 1) (cls : BitVec 4) (p : BitVec 5)
  /-- LS. Near-memory and (R335) -/
  | nmrAnd (h : BitVec 4) (x : BitVec 6) (imm : BitVec 14) (a : BitVec 6) (dw : BitVec 1) (cls : BitVec 4) (p : BitVec 5)
  /-- LS. Near-memory or (R335) -/
  | nmrOr (h : BitVec 4) (x : BitVec 6) (imm : BitVec 14) (a : BitVec 6) (dw : BitVec 1) (cls : BitVec 4) (p : BitVec 5)
  /-- LS. Near-memory exclusive-or (R335) -/
  | nmrXor (h : BitVec 4) (x : BitVec 6) (imm : BitVec 14) (a : BitVec 6) (dw : BitVec 1) (cls : BitVec 4) (p : BitVec 5)
  /-- LS. Orders masked-class accesses before and after it (R143) -/
  | fence (mask : BitVec 16) (p : BitVec 5)
  /-- LS. In a mark bundle, inserts a release marker into the dirty FIFO after the gate commits (R144) -/
  | rel (mask : BitVec 16) (scope : BitVec 3) (p : BitVec 5)
  /-- LS. Waits for earlier masked loads and invalidates clean masked sectors at scopes wider than core (R145) -/
  | acq (mask : BitVec 16) (scope : BitVec 3) (p : BitVec 5)
  /-- LS. Blocks until the counter at home is at least a (R334) -/
  | waitge (h : BitVec 4) (x : BitVec 6) (imm : BitVec 14) (a : BitVec 6) (cls : BitVec 4) (p : BitVec 5)
  /-- LS. In a mark bundle, adds to a counter at home and notifies the Yard and WAITGEs (R333) -/
  | ctradd (h : BitVec 4) (x : BitVec 6) (imm : BitVec 14) (a : BitVec 6) (cls : BitVec 4) (p : BitVec 5)
  /-- LS. Pins all lines of a scratch range or none, returning a status (R337) -/
  | pin (d a b : BitVec 6) (p : BitVec 5)
  /-- LS. Releases a scratch range's lines except ring storage (R337) -/
  | unpin (a b : BitVec 6) (p : BitVec 5)
  /-- LS. Prefetch hint that fills a line into the core array (R338) -/
  | pref (h : BitVec 4) (x : BitVec 6) (imm : BitVec 24) (cls : BitVec 4) (p : BitVec 5)
  /-- LS. Starts the write-back of a line's dirty bytes (R338) -/
  | clean (h : BitVec 4) (x : BitVec 6) (imm : BitVec 24) (p : BitVec 5)
  /-- LS. Writes back and invalidates a line (R338) -/
  | inval (h : BitVec 4) (x : BitVec 6) (imm : BitVec 24) (p : BitVec 5)
  /-- LS. Synchronous tile load from memory to a ring slot or scratch, seeing the gate (R339) -/
  | tld (h : BitVec 4) (x : BitVec 6) (wm : BitVec 3) (tk : BitVec 1) (q : BitVec 3) (ht : BitVec 4) (xt : BitVec 6) (wt : BitVec 3) (cls : BitVec 4) (p : BitVec 5)
  /-- LS. Tile store from a ring slot or scratch into the gate (R339) -/
  | tst (h : BitVec 4) (x : BitVec 6) (wm : BitVec 3) (tk : BitVec 1) (q : BitVec 3) (ht : BitVec 4) (xt : BitVec 6) (wt : BitVec 3) (cls : BitVec 4) (p : BitVec 5)
  /-- LS. In a mark bundle, lowers a stack-local window to the base die (R340) -/
  | lower (d : BitVec 6) (h : BitVec 4) (x : BitVec 6) (imm : BitVec 14) (a : BitVec 6) (cls : BitVec 4) (p : BitVec 5)
  /-- LS. In a mark bundle, returns a lowered window to ordinary caching (R340) -/
  | raise (h : BitVec 4) (x : BitVec 6) (imm : BitVec 14) (a : BitVec 6) (cls : BitVec 4) (p : BitVec 5)
  /-- LS. Locates a portable-coordinate element or scale in the private layout (R217) -/
  | wcloc (d a b : BitVec 6) (sel : BitVec 1) (p : BitVec 5)
  /-- LS. Reads a weight element's exact decoded value by portable coordinate (R218) -/
  | wcrd (d a b : BitVec 6) (cls : BitVec 4) (p : BitVec 5)
  /-- LS. In a mark bundle, writes a weight element by portable coordinate, re-encoding its block if needed (R219) -/
  | wcwr (d a b c : BitVec 6) (cls : BitVec 4) (p : BitVec 5)
  /-- LS. In a mark bundle, reads a descriptor and enqueues a ballast launch on a lowered window (R190) -/
  | blaunch (d : BitVec 6) (h : BitVec 4) (imm : BitVec 24) (cls : BitVec 4) (p : BitVec 5)
  /-- LS. Reads a system register at issue (R387) -/
  | rdsys (d a : BitVec 6) (imm : BitVec 22) (p : BitVec 5)
  /-- LS. Held write of a system register at the closing mark (R387) -/
  | wrsys (a b : BitVec 6) (imm : BitVec 22) (p : BitVec 5)
  /-- LS. Shoot-down of a page range at package scope (R388) -/
  | shootPkg (d a b c : BitVec 6) (p : BitVec 5)
  /-- LS. Shoot-down of a page range across the device set (R388) -/
  | shootSet (d a b c : BitVec 6) (p : BitVec 5)
  /-- LS. Writes the context image of a saved group on a core (R389) -/
  | ctxsv (d a b c : BitVec 6) (cls : BitVec 4) (p : BitVec 5)
  /-- LS. Restores a context image onto a core (R389) -/
  | ctxrs (d a b : BitVec 6) (cls : BitVec 4) (p : BitVec 5)
  /-- LS. Interrupts and halts the group on a core (R390) -/
  | haltcStop (d a : BitVec 6) (p : BitVec 5)
  /-- LS. Lets a halted group issue again (R390) -/
  | haltcGo (d a : BitVec 6) (p : BitVec 5)
  /-- LS. Loads a participant AES key into a key slot (R391) -/
  | keyldPart (d a b c : BitVec 6) (cls : BitVec 4) (p : BitVec 5)
  /-- LS. Loads a link AES key into a key slot (R391) -/
  | keyldLink (d a b c : BitVec 6) (cls : BitVec 4) (p : BitVec 5)
  /-- LS. Loads a trusted container signer's public key (R391) -/
  | keyldSign (d a b c : BitVec 6) (cls : BitVec 4) (p : BitVec 5)
  /-- LS. Empties one key slot, or every part and link slot (R391) -/
  | keydrop (a : BitVec 6) (p : BitVec 5)
  /-- LS. Empties a SHA-512 context (R392) -/
  | hsinit (cx : BitVec 2) (p : BitVec 5)
  /-- LS. Appends bytes to a SHA-512 context (R392) -/
  | hsupd (cx : BitVec 2) (a b : BitVec 6) (cls : BitVec 4) (p : BitVec 5)
  /-- LS. Writes a context's SHA-512 digest (R392) -/
  | hsfin (d : BitVec 6) (cx : BitVec 2) (a : BitVec 6) (cls : BitVec 4) (p : BitVec 5)
  /-- LS. Signs a message with the device identity key (R393) -/
  | edsign (d a b c : BitVec 6) (cls : BitVec 4) (p : BitVec 5)
  /-- LS. Verifies a signature under a given public key (R393) -/
  | edver (d a b c : BitVec 6) (cls : BitVec 4) (p : BitVec 5)
  /-- LS. Verifies a signature against the trusted signer key slots (R393) -/
  | edverSlots (d a b c : BitVec 6) (cls : BitVec 4) (p : BitVec 5)
  /-- LS. Extends meas6 or meas7 with a digest (R394) -/
  | mext (d a b : BitVec 6) (cls : BitVec 4) (p : BitVec 5)
  /-- LS. Returns 64 bits from the DRBG (R394) -/
  | rand (d : BitVec 6) (p : BitVec 5)
  /-- CP. Copies a memory walk into a ring tail slot or scratch (R366) -/
  | cpy (ch : BitVec 2) (hm : BitVec 4) (xm : BitVec 6) (wm : BitVec 3) (tk : BitVec 1) (q : BitVec 3) (ht : BitVec 4) (xt : BitVec 6) (wt : BitVec 3) (pst : BitVec 1) (k : BitVec 5) (cnt : BitVec 8) (cls : BitVec 4) (p : BitVec 5)
  /-- CP. Copies a ring slot or scratch to memory, committed at the closing mark (R368) -/
  | cpyo (ch : BitVec 2) (hm : BitVec 4) (xm : BitVec 6) (wm : BitVec 3) (tk : BitVec 1) (q : BitVec 3) (ht : BitVec 4) (xt : BitVec 6) (wt : BitVec 3) (pst : BitVec 1) (k : BitVec 5) (cnt : BitVec 8) (cls : BitVec 4) (p : BitVec 5)
  /-- CP. Emits a patch matrix from position and window walks (R366) -/
  | unfold (ch : BitVec 2) (hm : BitVec 4) (xm : BitVec 6) (wm : BitVec 3) (tk : BitVec 1) (q : BitVec 3) (ht : BitVec 4) (xt : BitVec 6) (wt : BitVec 3) (pst : BitVec 1) (k : BitVec 5) (cnt : BitVec 8) (cls : BitVec 4) (p : BitVec 5)
  /-- CP. Fills a scratch walk with a 32-bit constant (R369) -/
  | fill (ch : BitVec 2) (ht : BitVec 4) (xt : BitVec 6) (wt : BitVec 3) (val : BitVec 32) (pst : BitVec 1) (k p : BitVec 5)
  /-- CP. Transposes a memory matrix into a ring slot or scratch (R366) -/
  | xpose (ch : BitVec 2) (hm : BitVec 4) (xm : BitVec 6) (wm : BitVec 3) (tk : BitVec 1) (q : BitVec 3) (ht : BitVec 4) (xt : BitVec 6) (wt : BitVec 3) (pst : BitVec 1) (k : BitVec 5) (cnt : BitVec 8) (cls : BitVec 4) (p : BitVec 5)
  /-- CP. Held memory-to-memory transfer with an optional counter add and flag increment (R372) -/
  | shunt (qu : BitVec 2) (hd : BitVec 4) (xd : BitVec 6) (wd : BitVec 3) (hs : BitVec 4) (xs : BitVec 6) (ws : BitVec 3) (ce fe : BitVec 1) (rc : BitVec 6) (hc cls : BitVec 4) (p : BitVec 5)
  /-- CP. All-reduce collective over a domain's groups (R374) -/
  | shuntcAllreduce (qu : BitVec 2) (lvl : BitVec 3) (ty : BitVec 1) (hd : BitVec 4) (xd : BitVec 6) (hs : BitVec 4) (xs rb : BitVec 6) (ce fe : BitVec 1) (rc : BitVec 6) (hc cls : BitVec 4) (p : BitVec 5)
  /-- CP. All-gather collective (R374) -/
  | shuntcAllgather (qu : BitVec 2) (lvl : BitVec 3) (ty : BitVec 1) (hd : BitVec 4) (xd : BitVec 6) (hs : BitVec 4) (xs rb : BitVec 6) (ce fe : BitVec 1) (rc : BitVec 6) (hc cls : BitVec 4) (p : BitVec 5)
  /-- CP. Reduce-scatter collective (R374) -/
  | shuntcReducescatter (qu : BitVec 2) (lvl : BitVec 3) (ty : BitVec 1) (hd : BitVec 4) (xd : BitVec 6) (hs : BitVec 4) (xs rb : BitVec 6) (ce fe : BitVec 1) (rc : BitVec 6) (hc cls : BitVec 4) (p : BitVec 5)
  /-- CP. Broadcast collective from a root (R374) -/
  | shuntcBroadcast (qu : BitVec 2) (lvl : BitVec 3) (ty : BitVec 1) (hd : BitVec 4) (xd : BitVec 6) (hs : BitVec 4) (xs rb : BitVec 6) (ce fe : BitVec 1) (rc : BitVec 6) (hc cls : BitVec 4) (p : BitVec 5)
  /-- CP. Loads bank rows of the shadow or a named bank from memory and records provenance (R370) -/
  | wload (ch : BitVec 2) (row : BitVec 13) (pb : BitVec 2) (hs : BitVec 4) (xs : BitVec 6) (ws : BitVec 3) (pst : BitVec 1) (k : BitVec 5) (cnt : BitVec 8) (cls : BitVec 4) (p : BitVec 5)
  /-- CP. Returns a channel or queue status word (R371) -/
  | qstat (d : BitVec 6) (u : BitVec 3) (p : BitVec 5)
  /-- MX. Matrix multiply-accumulate from a ring slot and a weight set (R376) -/
  | mma (acc q : BitVec 3) (ws : BitVec 1) (m0 : BitVec 6) (m : BitVec 7) (k0 : BitVec 10) (dep : BitVec 11) (p : BitVec 5)
  /-- MX. Sparse 2:4 matrix multiply-accumulate (R376) -/
  | mmas (acc q : BitVec 3) (ws : BitVec 1) (m0 : BitVec 6) (m : BitVec 7) (k0 : BitVec 10) (dep : BitVec 11) (p : BitVec 5)
  /-- MX. Loads a weight set from active bank rows (R377) -/
  | wtile (ws : BitVec 1) (row : BitVec 13) (p : BitVec 5)
  /-- MX. Exchanges the active and shadow banks (R378) -/
  | wswap (p : BitVec 5)
  /-- MX. Closes the open MX batch under a tag (R378) -/
  | mcommit (tag : BitVec 3) (p : BitVec 5)
  /-- MX. Zeroes accumulator rows (R379) -/
  | accz (acc : BitVec 3) (m0 : BitVec 6) (m : BitVec 7) (p : BitVec 5)
  /-- MX. Reads accumulator rows out with conversion to a ring, scratch or vector registers (R380) -/
  | accrd (acc q : BitVec 3) (dk : BitVec 2) (m0 : BitVec 6) (m : BitVec 7) (cv ht : BitVec 4) (xt rs : BitVec 6) (vb p : BitVec 5)
  /-- MX. Writes accumulator rows from a ring slot (R379) -/
  | accwr (acc q : BitVec 3) (m0 : BitVec 6) (m : BitVec 7) (p : BitVec 5)
  /-- MX. Pops a ring's head slot without reading it (R379) -/
  | rpop (q : BitVec 3) (p : BitVec 5)
  /-- V. Three-unit vector cascade writing one register (R345) -/
  | vx (cl : BitVec 3) (vd va vb vc ve opa opb opc : BitVec 5) (tya tyb tyc : BitVec 2) (mda mdb mdc : BitVec 3) (p : BitVec 5)
  /-- V. Packed dot product per lane with an exact total (R351) -/
  | vdot (cl : BitVec 3) (vd va vb vc : BitVec 5) (form dest : BitVec 2) (p : BitVec 5)
  /-- V. Reduces sixteen lanes into a scalar (R352) -/
  | vred (cl : BitVec 3) (s : BitVec 6) (v : BitVec 5) (op : BitVec 3) (ty : BitVec 2) (p : BitVec 5)
  /-- V. Permutes lanes from two registers (R353) -/
  | vperm (cl : BitVec 3) (vd va vb vc p : BitVec 5)
  /-- V. Broadcasts a scalar into every lane (R353) -/
  | vbcast (cl : BitVec 3) (v : BitVec 5) (s : BitVec 6) (md : BitVec 2) (p : BitVec 5)
  /-- V. Copies a register from another cluster (R354) -/
  | vxc (cl : BitVec 3) (vd : BitVec 5) (cs : BitVec 3) (va p : BitVec 5)
  /-- V. Copies a vector register (R353) -/
  | vmov (cl : BitVec 3) (vd va p : BitVec 5)
  /-- V. Writes lane indices or offsets (R353) -/
  | viota (cl : BitVec 3) (vd : BitVec 5) (md : BitVec 2) (p : BitVec 5)
  /-- V. Loads sixteen contiguous words (R356) -/
  | vld (cl : BitVec 3) (v : BitVec 5) (h : BitVec 4) (x : BitVec 6) (imm : BitVec 24) (cls : BitVec 4) (p : BitVec 5)
  /-- V. Stores sixteen contiguous words through the gate (R356) -/
  | vst (cl : BitVec 3) (v : BitVec 5) (h : BitVec 4) (x : BitVec 6) (imm : BitVec 24) (cls : BitVec 4) (p : BitVec 5)
  /-- V. Gathers sixteen words at per-lane offsets (R356) -/
  | vldx (cl : BitVec 3) (v : BitVec 5) (h : BitVec 4) (x : BitVec 6) (imm : BitVec 24) (vi : BitVec 5) (cls : BitVec 4) (p : BitVec 5)
  /-- V. Scatters sixteen words at per-lane offsets (R356) -/
  | vstx (cl : BitVec 3) (v : BitVec 5) (h : BitVec 4) (x : BitVec 6) (imm : BitVec 24) (vi : BitVec 5) (cls : BitVec 4) (p : BitVec 5)
  /-- V. Scratch vector load after busy bits (R356) -/
  | vldt (cl : BitVec 3) (v : BitVec 5) (h : BitVec 4) (x : BitVec 6) (imm : BitVec 24) (cls : BitVec 4) (p : BitVec 5)
  /-- V. Scratch vector store after busy bits (R356) -/
  | vstt (cl : BitVec 3) (v : BitVec 5) (h : BitVec 4) (x : BitVec 6) (imm : BitVec 24) (cls : BitVec 4) (p : BitVec 5)
  /-- V. Configures a front and empties it (R93) -/
  | pfcfg (cl fr : BitVec 3) (s : BitVec 6) (p : BitVec 5)
  /-- V. Inserts up to sixteen tuples into a front (R96) -/
  | pfins (cl fr : BitVec 3) (vb : BitVec 5) (s : BitVec 6) (p : BitVec 5)
  /-- V. Tests tuples against a front without changing it (R99) -/
  | pftst (cl : BitVec 3) (vd : BitVec 5) (fr : BitVec 3) (vb : BitVec 5) (s : BitVec 6) (p : BitVec 5)
  /-- V. Merges one front into another (R98) -/
  | pfmrg (cl fr fs : BitVec 3) (p : BitVec 5)
  /-- V. Reads sixteen held slots into registers (R100) -/
  | pfrd (cl : BitVec 3) (vb : BitVec 5) (fr : BitVec 3) (s : BitVec 6) (p : BitVec 5)
  /-- V. Returns a front's count, OVF, NANC or CFG (R100) -/
  | pfcnt (cl : BitVec 3) (s : BitVec 6) (fr : BitVec 3) (sel : BitVec 2) (p : BitVec 5)
  /-- V. Empties a front, keeping CFG (R361) -/
  | pfclr (cl fr : BitVec 3) (p : BitVec 5)
  /-- V. Stores a front's spill image (R103) -/
  | pfspl (cl f : BitVec 3) (h : BitVec 4) (x : BitVec 6) (imm : BitVec 24) (cls : BitVec 4) (p : BitVec 5)
  /-- V. Fills a front from a spill image (R104) -/
  | pffil (cl f : BitVec 3) (h : BitVec 4) (x : BitVec 6) (imm : BitVec 24) (cls : BitVec 4) (p : BitVec 5)
  /-- SF. Per-lane reciprocal (R357) -/
  | rcpVector (cl : BitVec 3) (vd va p : BitVec 5)
  /-- SF. Scalar reciprocal (R357) -/
  | rcpScalar (d a : BitVec 6) (p : BitVec 5)
  /-- SF. Per-lane reciprocal square root (R357) -/
  | rsqVector (cl : BitVec 3) (vd va p : BitVec 5)
  /-- SF. Scalar reciprocal square root (R357) -/
  | rsqScalar (d a : BitVec 6) (p : BitVec 5)
  /-- SF. Per-lane square root (R357) -/
  | sqrtVector (cl : BitVec 3) (vd va p : BitVec 5)
  /-- SF. Scalar square root (R357) -/
  | sqrtScalar (d a : BitVec 6) (p : BitVec 5)
  /-- SF. Per-lane 2^x (R357) -/
  | exp2Vector (cl : BitVec 3) (vd va p : BitVec 5)
  /-- SF. Scalar 2^x (R357) -/
  | exp2Scalar (d a : BitVec 6) (p : BitVec 5)
  /-- SF. Per-lane log2 (R357) -/
  | log2Vector (cl : BitVec 3) (vd va p : BitVec 5)
  /-- SF. Scalar log2 (R357) -/
  | log2Scalar (d a : BitVec 6) (p : BitVec 5)
  /-- SF. Per-lane sine (R357) -/
  | sinVector (cl : BitVec 3) (vd va p : BitVec 5)
  /-- SF. Scalar sine (R357) -/
  | sinScalar (d a : BitVec 6) (p : BitVec 5)
  /-- SF. Per-lane cosine (R357) -/
  | cosVector (cl : BitVec 3) (vd va p : BitVec 5)
  /-- SF. Scalar cosine (R357) -/
  | cosScalar (d a : BitVec 6) (p : BitVec 5)
  /-- SF. Per-lane tanh (R357) -/
  | tanhVector (cl : BitVec 3) (vd va p : BitVec 5)
  /-- SF. Scalar tanh (R357) -/
  | tanhScalar (d a : BitVec 6) (p : BitVec 5)
  /-- SF. Per-lane logistic sigmoid (R357) -/
  | sigmVector (cl : BitVec 3) (vd va p : BitVec 5)
  /-- SF. Scalar logistic sigmoid (R357) -/
  | sigmScalar (d a : BitVec 6) (p : BitVec 5)
  /-- SF. Per-lane error function (R357) -/
  | erfVector (cl : BitVec 3) (vd va p : BitVec 5)
  /-- SF. Scalar error function (R357) -/
  | erfScalar (d a : BitVec 6) (p : BitVec 5)
  /-- Lamesque-B. Ballast 64-bit add (R401) -/
  | bAdd (d a b : BitVec 5)
  /-- Lamesque-B. Ballast subtract (R401) -/
  | bSub (d a b : BitVec 5)
  /-- Lamesque-B. Ballast multiply (R401) -/
  | bMul (d a b : BitVec 5)
  /-- Lamesque-B. Ballast bitwise and (R401) -/
  | bAnd (d a b : BitVec 5)
  /-- Lamesque-B. Ballast bitwise or (R401) -/
  | bOr (d a b : BitVec 5)
  /-- Lamesque-B. Ballast exclusive-or (R401) -/
  | bXor (d a b : BitVec 5)
  /-- Lamesque-B. Ballast shift left (R401) -/
  | bShl (d a b : BitVec 5)
  /-- Lamesque-B. Ballast logical shift right (R401) -/
  | bShr (d a b : BitVec 5)
  /-- Lamesque-B. Ballast arithmetic shift right (R401) -/
  | bSar (d a b : BitVec 5)
  /-- Lamesque-B. Ballast signed minimum (R401) -/
  | bMin (d a b : BitVec 5)
  /-- Lamesque-B. Ballast signed maximum (R401) -/
  | bMax (d a b : BitVec 5)
  /-- Lamesque-B. Ballast add immediate (R401) -/
  | bAddi (d a : BitVec 5) (imm : BitVec 16)
  /-- Lamesque-B. Ballast and immediate (R401) -/
  | bAndi (d a : BitVec 5) (imm : BitVec 16)
  /-- Lamesque-B. Ballast or immediate (R401) -/
  | bOri (d a : BitVec 5) (imm : BitVec 16)
  /-- Lamesque-B. Ballast exclusive-or immediate (R401) -/
  | bXori (d a : BitVec 5) (imm : BitVec 16)
  /-- Lamesque-B. Loads a sign-extended immediate shifted left 16 (R401) -/
  | bLui (d : BitVec 5) (imm : BitVec 16)
  /-- Lamesque-B. Shift left by an immediate (R401) -/
  | bShli (d a : BitVec 5) (imm : BitVec 6)
  /-- Lamesque-B. Branch if equal (R401) -/
  | bBeq (a b : BitVec 5) (off : BitVec 16)
  /-- Lamesque-B. Branch if not equal (R401) -/
  | bBne (a b : BitVec 5) (off : BitVec 16)
  /-- Lamesque-B. Branch if signed less (R401) -/
  | bBlt (a b : BitVec 5) (off : BitVec 16)
  /-- Lamesque-B. Branch if signed greater or equal (R401) -/
  | bBge (a b : BitVec 5) (off : BitVec 16)
  /-- Lamesque-B. Branch if unsigned less (R401) -/
  | bBltu (a b : BitVec 5) (off : BitVec 16)
  /-- Lamesque-B. Branch if unsigned greater or equal (R401) -/
  | bBgeu (a b : BitVec 5) (off : BitVec 16)
  /-- Lamesque-B. Unconditional jump (R401) -/
  | bJ (off : BitVec 26)
  /-- Lamesque-B. Opens a window row into a row slot as a snapshot (R402) -/
  | ropen (y : BitVec 2) (a : BitVec 5) (imm : BitVec 12)
  /-- Lamesque-B. Loads 4 or 8 bytes from a row slot's snapshot (R402) -/
  | ldy (d : BitVec 5) (y : BitVec 2) (a : BitVec 5) (imm : BitVec 12) (sz : BitVec 2)
  /-- Lamesque-B. Stores 4 or 8 bytes into a row slot and the row (R402) -/
  | sty (d : BitVec 5) (y : BitVec 2) (a : BitVec 5) (imm : BitVec 12) (sz : BitVec 2)
  /-- Lamesque-B. Loads 64 lanes from a row slot (R402) -/
  | vldy (z : BitVec 4) (y : BitVec 2) (a : BitVec 5) (imm : BitVec 12)
  /-- Lamesque-B. Stores 64 lanes into a row slot and the row (R402) -/
  | vsty (z : BitVec 4) (y : BitVec 2) (a : BitVec 5) (imm : BitVec 12)
  /-- Lamesque-B. Indivisible row-level reduce of four vector registers into an open row (R404) -/
  | rred (y : BitVec 2) (z : BitVec 4) (op : BitVec 3) (ty : BitVec 2)
  /-- Lamesque-B. Ballast vector add (R403) -/
  | bVadd (d a b : BitVec 4) (ty : BitVec 2)
  /-- Lamesque-B. Ballast vector subtract (R403) -/
  | bVsub (d a b : BitVec 4) (ty : BitVec 2)
  /-- Lamesque-B. Ballast vector multiply (R403) -/
  | bVmul (d a b : BitVec 4) (ty : BitVec 2)
  /-- Lamesque-B. Ballast vector minimum (R403) -/
  | bVmin (d a b : BitVec 4) (ty : BitVec 2)
  /-- Lamesque-B. Ballast vector maximum (R403) -/
  | bVmax (d a b : BitVec 4) (ty : BitVec 2)
  /-- Lamesque-B. Ballast vector and (R403) -/
  | bVand (d a b : BitVec 4)
  /-- Lamesque-B. Ballast vector or (R403) -/
  | bVor (d a b : BitVec 4)
  /-- Lamesque-B. Ballast vector exclusive-or (R403) -/
  | bVxor (d a b : BitVec 4)
  /-- Lamesque-B. Broadcasts bits 31:0 of eA into every lane (R403) -/
  | vbc (d : BitVec 4) (a : BitVec 5)
  /-- Lamesque-B. Reduces 64 lanes into a ballast scalar register (R403) -/
  | bVred (d : BitVec 5) (a : BitVec 4) (op : BitVec 3) (ty : BitVec 2)
  /-- Lamesque-B. Writes the lane index into every lane (R403) -/
  | bViota (d : BitVec 4)
  /-- Lamesque-B. Adds to a flag of the launching group's core after all earlier accesses (R196) -/
  | kpost (k : BitVec 5) (c : BitVec 8)
  /-- Lamesque-B. Gives up the ballast core to an equal or higher waiting instance if a save slot is free (R195) -/
  | yieldb
  /-- Lamesque-B. Ends the ballast instance (R405) -/
  | endb
  /-- Event. The value of a register-producing operation arrives, and a reader stalled at its landing position may issue (R16) -/
  | loadValueArrival (co cx ix : Nat)
  /-- Event. After a fault is recognised and outstanding work completes, the window is rolled back to its opening mark and the fault is reported (R224) -/
  | windowRollback (co cx : Nat)
  /-- Event. When 65,536 bundles issue with an interrupt pending and no mark retired, the thread is rolled back to its last mark and the interrupt is taken there (R235) -/
  | interruptDistanceRollback (co cx : Nat)
  /-- Event. A thread that issues 16,777,216 bundles under deferral with an interrupt pending has its launch killed with a KIND 4 record (R237) -/
  | runawayKill (co cx : Nat)
  /-- Event. An interrupt arriving for a blocked or parked thread rolls it back at once to its last mark, where the interrupt is taken (R236) -/
  | blockedInterruptRollback (co cx : Nat)
  /-- Event. Once each thread has reached its save point, shunter queues and the dirty FIFO drain, the context image is written and the core is released (R239) -/
  | groupSave (co : Nat)
  /-- Event. A copy unit command finishes writing its destination, clears busy bits, adds its flag post and frees its channel (R167) -/
  | copyCompletion (co ch : Nat)
  /-- Event. A shunt's last destination byte lands, and it performs its counter add and flag increment (R171) -/
  | shuntCompletion (co qu : Nat)
  /-- Event. The matrix engine starts the next MX operation in issue order once its tiles are free of conflicting work (R175) -/
  | mxOperationStart (co : Nat)
  /-- Event. An MX operation retires, popping its ring slot and writing its accumulator or destination (R177) -/
  | mxOperationRetire (co : Nat)
  /-- Event. A release completes when every dirty-FIFO entry of a masked class ahead of its marker has drained, letting the mark proceed to step 3 (R144) -/
  | relCompletion (co cx : Nat)
  /-- Event. The core array writes back a dirty line's written bytes to home, by replacement, FIFO drain or otherwise (R140) -/
  | coreArrayWriteback (co ln : Nat)
  /-- Event. A 64-byte launch message arrives at a mailbox and is checked, then accepted or refused with a code in MBSTAT (R58) -/
  | launchMessage (mb : Nat) (st : Bool) (msg : BitVec 512)
  /-- Event. For each full 100 us of waiting, a ready launch's effective priority rises by one, up to 6 (R63) -/
  | launchAgeing (id : Nat)
  /-- Event. The Yard sends a batch of consecutive groups of one launch to the signal box with the most free platform slots (R65) -/
  | yardBatchDispatch
  /-- Event. A signal box stages its highest-priority received group on the least-loaded qualifying column and core (R67) -/
  | groupStaging (die : Nat)
  /-- Event. A staged group, or all members of a gang together, starts on its core once the core is free, with acquire at set scope (R55) -/
  | groupStart (co : Nat)
  /-- Event. When all threads have exited and all its shunts completed, the group's core drains its dirty FIFO and releases its resources (R46) -/
  | groupEnd (co : Nat)
  /-- Event. Every 16 us each column's dispatch threshold rises or falls by one according to the mean run length of its groups (R68) -/
  | dispatchThresholdAdapt (col nend mean : Nat)
  /-- Event. The stationmaster handles a reported fault by killing the launch or, for host page faults, saving the gang and writing an awaiting record (R227) -/
  | stationmasterFaultHandling
  /-- Event. An awaiting fault record that met a full fault queue is written once room appears (R232) -/
  | faultRecordDeferredWrite
  /-- Event. A write of FQRESP with ACT = 01 naming an awaiting record returns the saved gang to the Yard (R233) -/
  | fqrespResume (w : BitVec 64)
  /-- Event. A write of FQRESP with ACT = 10 naming an awaiting record kills the launch (R233) -/
  | fqrespKill (w : BitVec 64)
  /-- Event. Writing 1 to MBSTAT.ERR clears the mailbox's refusal indication (R59) -/
  | mbstatErrClear (mb : Nat) (w : BitVec 32)
  /-- Event. A write of SPWAY.REQ starts or retargets a change of the partition's saddle scratch ways, shrinking at once when below CUR (R121) -/
  | spwayReqWrite (part : Nat) (w : BitVec 64)
  /-- Event. A surrendered cache way finishes its write-back and invalidation, and CUR rises by one (R121) -/
  | spwayWayComplete (part : Nat)
  /-- Event. A scratch-way change completes and BUSY clears (R121) -/
  | spwayChangeComplete (part : Nat)
  /-- Event. A write to a system or host-visible register without its own behaviour updates its fields under their access codes (R6) -/
  | registerWrite (off size : Nat) (w : BitVec 64)
  /-- Event. A walk that met MIG = 1 retries every 2 us and raises WALK_FAULT after 64 retries (R129) -/
  | walkRetry (co cx : Nat)
  /-- Event. A blocked WAITGE rereads its counter at home on each update to the line or at least every 1 us (R334) -/
  | waitgeReread (co cx : Nat)
  /-- Event. The IMM cycles of a PARK expire and the thread's next bundle becomes ready (R308) -/
  | parkExpiry (co cx : Nat)
  /-- Event. A device receiving a shoot-down has every core roll back affected threads, write back and invalidate, and acknowledge (R258) -/
  | shootDownFlit (f : Flit)
  /-- Event. An acknowledgement bitmap arrives and is merged, and a complete subtree is forwarded to the parent (R259) -/
  | shootDownAcknowledgeFlit (f : Flit)
  /-- Event. 90 us after a request with its subtree incomplete, a device sends its partial bitmap directly to the initiator (R259) -/
  | shootDownSubtreeTimeout (id : Nat)
  /-- Event. 100 us after issue, the initiator fences every unacknowledged rank and the shoot-down completes (R259) -/
  | shootDownFenceTimeout (id : Nat)
  /-- Event. A device that finds every set link blocked or learns of its fencing sets SETCFG.CUT and kills its set-level launches (R260) -/
  | deviceCut
  /-- Event. A host launch message naming a ballast kernel arrives and is checked, then accepted or refused (R189) -/
  | ballastLaunchMessage (mb : Nat) (st : Bool) (msg : BitVec 512)
  /-- Event. A ready host ballast launch enters its stack's queue when an entry is free, after its window is checked again (R191) -/
  | ballastLaunchEnqueue (id : Nat)
  /-- Event. The dispatcher starts or restores the highest-priority waiting instance on the lowest-numbered free ballast core (R192) -/
  | ballastInstanceStart (st : Nat)
  /-- Event. A waiting ballast instance's effective priority rises by one per full 100 us of waiting, up to 6 (R192) -/
  | ballastAgeing (st id inst : Nat)
  /-- Event. After every instance has ended and all accesses have performed, the completion counter receives its add and an event may be posted (R198) -/
  | ballastLaunchCompletion (id : Nat)
  /-- Event. A message with IMAGE 0xFFFF arrives at a mailbox as a Fitter job and is accepted or refused (R208) -/
  | fitterJobMessage (mb : Nat) (msg : BitVec 512)
  /-- Event. The Fitter checks, measures and installs a container as a new image and writes its result record and log (R207) -/
  | install
  /-- Event. The Fitter applies an update block's values to an image's tensors under exclusive hold (R221) -/
  | partialUpdate
  /-- Event. The Fitter writes a signed container with decoded weights and a re-encoding note record (R222) -/
  | exportJob
  /-- Event. The Fitter rewrites one native kernel for a new latency table, keeping every shadow read's value (R213) -/
  | retime
  /-- Event. The Fitter removes an image after its groups have finished and discards its queued launches (R210) -/
  | uninstall
  /-- Event. A read request from another device of the set is served at its home (R257) -/
  | readRequestFlit (f : Flit)
  /-- Event. Read data from a remote home arrives and completes the waiting access (R257) -/
  | readDataFlit (f : Flit)
  /-- Event. A remote write arrives and is performed at its home (R257) -/
  | writeFlit (f : Flit)
  /-- Event. A remote home acknowledges a write, removing its dirty-FIFO entry (R257) -/
  | writeAcknowledgeFlit (f : Flit)
  /-- Event. An atomic or NMR from another device is performed at its home (R255) -/
  | atomicOrNmrFlit (f : Flit)
  /-- Event. A collective flit arrives, is decrypted under the participant key, and joins the collective's inputs (R268) -/
  | collectiveFlit (f : Flit)
  /-- Event. A remote flag addition arrives and is applied, saved with a pre-empted group, or discarded (R171) -/
  | flagAdditionFlit (f : Flit)
  /-- Event. An enclave control flit (receipt, CONFIRM or CUT) arrives and is acted on (R269) -/
  | enclaveControlFlit (f : Flit)
  /-- Event. A set-launch control flit forwards, starts, pre-empts or reports completion of a set gang (R256) -/
  | setLaunchControlFlit (f : Flit)
  /-- Event. A flit of KIND 12 to 255 is dropped and counted (R257) -/
  | flitDrop (f : Flit)
  /-- Event. SPDM GET_VERSION request answered with version 1.2 (R263) -/
  | getVersion (chan : Nat) (req : List Byte)
  /-- Event. SPDM GET_CAPABILITIES request answered with the supported capabilities (R263) -/
  | getCapabilities (chan : Nat) (req : List Byte)
  /-- Event. SPDM algorithm negotiation, refused unless SHA-512 and Ed25519 are offered (R263) -/
  | negotiateAlgorithms (chan : Nat) (req : List Byte)
  /-- Event. SPDM GET_DIGESTS request answered for certificate slot 0 (R263) -/
  | getDigests (chan : Nat) (req : List Byte)
  /-- Event. SPDM GET_CERTIFICATE returns the identity key chain from slot 0 (R263) -/
  | getCertificate (chan : Nat) (req : List Byte)
  /-- Event. SPDM CHALLENGE answered with a signature by the device identity key (R263) -/
  | challenge (chan : Nat) (req : List Byte)
  /-- Event. SPDM GET_MEASUREMENTS returns one or all measurement registers in DMTF format (R264) -/
  | getMeasurements (chan : Nat) (req : List Byte)
  /-- Event. SPDM KEY_EXCHANGE opens a session, refused beyond 32 sessions (R263) -/
  | keyExchange (chan : Nat) (req : List Byte)
  /-- Event. SPDM FINISH completes session establishment (R263) -/
  | finish (chan : Nat) (req : List Byte)
  /-- Event. SPDM END_SESSION closes a session (R263) -/
  | endSession (chan : Nat) (req : List Byte)
  /-- Event. Any other SPDM request is answered with ERROR UnsupportedRequest (R263) -/
  | spdmUnsupportedRequest (chan : Nat) (req : List Byte)
  /-- Event. The stationmaster forms a device set and loads SETCFG (R253) -/
  | setFormation (rank ndev : Nat) (encl : Bool)
  /-- Event. The stationmaster accepts an enclave policy record and extends meas4 with its digest (R265) -/
  | enclavePolicy (rec : List Byte)
  /-- Event. The coordinator admits a candidate after mutual measurement checks over SPDM sessions (R266) -/
  | enclaveAdmission (rank : Nat) (meas : List (List Byte)) (secret : List Byte)
  /-- Event. A valid revocation order cuts a participant: collectives end, keys roll to the next epoch, and the rank is fenced (R271) -/
  | revocationOrder (ord : List Byte)
  /-- Event. An unprotected host request after IDE is established is dropped and counted in BADWR (R414) -/
  | hostUnprotectedRequest
  /-- Event. At each 1-second interval each unit's corrected-error count is compared with its threshold; after three excesses it leaves service (R421) -/
  | healthInterval (cls unit n : Nat)
  /-- Event. Above 100 °C junction temperature the clock loop lowers the arithmetic clock, not below 1.3 GHz (R430) -/
  | thermalThrottle
  /-- Event. After 1 s above 105 °C at 1.3 GHz, a class-15 health event is posted (R430) -/
  | thermalWarning
  /-- Event. At 115 °C the hardware trips to off and all state is lost (R430) -/
  | thermalTrip
  /-- Event. All registers reset and the measured boot runs through its stages until SYSENT is set (R425) -/
  | powerOnReset (img : BootImage)
  /-- Event. The host removes power and all state is lost (R428) -/
  | powerOff
  /-- Event. After 1 ms with no work, the device gates its clocks into idle (R428) -/
  | idleEntry
  /-- Event. A host request or coupler flit wakes the device from idle within 2 us (R428) -/
  | idleWake
  /-- Event. The last byte of a TLD lands in its ring slot or scratch, clearing its busy bits and letting a waiting mark or MX operation proceed (R339) -/
  | tldLanding (co cx ix : Nat)
  /-- Event. A front's busy period of R362 runs out and a later front instruction blocked on it may issue (R362) -/
  | frontBusyEnd (co cx fr : Nat)
  /-- Event. A flit whose tag or link check fails is retransmitted, and the eighth failure takes its coupler port out of service (R257) -/
  | flitRetransmit (port : Nat)
  /-- Event. A host write to device memory performs at home, computing a new sector check and clearing poison when it covers the whole sector (R419) -/
  | hostMemoryWrite (pa : Nat) (bs : List Byte)
  /-- Event. Link IDE and the selective IDE stream are established on the host link, after which unprotected host requests are dropped (R414) -/
  | ideEstablishment
deriving DecidableEq, Repr

end Sys2Proof
end

