-- ==== Sys2Proof/Machine/Codes.lean ====
section
/-!
DEFINITION. Which operand codes of an encoded instruction are unassigned or reserved (R278 and the tables it refers
to), which destinations and placements an encoding has (R10, R101, R276 step 7). All of it reads the encoding only.
-/
namespace Sys2Proof.Machine

/-- A unit code of a cascade takes no register (R290). -/
def unitNoReg (op : BitVec 5) : Bool :=
  op == 0 || op == 12 || op == 13 || op == 14 || op == 15

/-- A modifier code is unassigned for its unit (R348). -/
def modUnassigned (op : BitVec 5) (md : BitVec 3) : Bool :=
  (op == 17 && decide (6 ≤ md.toNat)) || (op == 16 && decide (4 ≤ md.toNat)) ||
  (op == 19 && decide (2 ≤ md.toNat))

/-- A unit's type or modifier field breaks R290, R347 or R348: f32 where the unit has no f32, `nan` with another
type, a modifier where the unit has none. -/
def unitFieldBad (op : BitVec 5) (ty : BitVec 2) (md : BitVec 3) : Bool :=
  (decide (6 ≤ op.toNat) && decide (op.toNat ≤ 11) && ty == 0) ||
  (op == 16 && md == 2 && ty != 0) ||
  (!(op == 15 || op == 16 || op == 17 || op == 19) && md != 0)

/-- An operation and type code of a reduction (R352, R403, R404): `bw` when the bitwise codes require type 0. -/
def redUnassigned (op : BitVec 3) (ty : BitVec 2) (bw : Bool) : Bool :=
  decide (6 ≤ op.toNat) || ty == 3 || (bw && decide (3 ≤ op.toNat) && ty != 0)

/-- Step 5 of R276: an unassigned code in an operation-selecting field. For a Lamesque-B word, any code that R398
leaves unassigned. -/
def opCodeBad : Instr → Bool
  | .cmp _ _ _ cond _ => decide (6 ≤ cond.toNat)
  | .cmpi _ _ _ cond _ => decide (6 ≤ cond.toNat)
  | .fcmp _ _ _ cond _ => decide (4 ≤ cond.toNat)
  | .vx _ _ _ _ _ _ opa opb opc _ _ _ mda mdb mdc _ =>
      opa == 0 || decide (20 ≤ opa.toNat) || decide (20 ≤ opb.toNat) || decide (20 ≤ opc.toNat) ||
      modUnassigned opa mda || modUnassigned opb mdb || modUnassigned opc mdc
  | .vdot _ _ _ _ _ form dest _ => form == 3 || dest == 3
  | .vred _ _ _ op ty _ => redUnassigned op ty false
  | .vbcast _ _ _ md _ => md == 3
  | .bVadd _ _ _ ty => ty == 3
  | .bVsub _ _ _ ty => ty == 3
  | .bVmul _ _ _ ty => ty == 3
  | .bVmin _ _ _ ty => ty == 3
  | .bVmax _ _ _ ty => ty == 3
  | .bVred _ _ op ty => redUnassigned op ty true
  | .rred _ z op ty => redUnassigned op ty true || decide (12 < z.toNat)
  | .ldy _ _ _ _ sz => sz == 3
  | .sty _ _ _ _ sz => sz == 1 || sz == 3
  | _ => false

/-- CE and FE with their register and handle fields (R285, R373). -/
def shuntRegBad (ce fe : BitVec 1) (rc : BitVec 6) (hc : BitVec 4) : Bool :=
  if ce == 1 || fe == 1 then
    rc == 0 || decide (61 < rc.toNat) || (ce == 0 && hc != 0)
  else rc != 0 || hc != 0

/-- The flag fields of a copy command are zero unless it posts (R278, R285). -/
def postBad (pst : BitVec 1) (k : BitVec 5) (cnt : BitVec 8) : Bool := pst == 0 && (k != 0 || cnt != 0)

/-- The unused half of a tile side is zero (R278, R283, R285). -/
def tileBad (tk : BitVec 1) (q : BitVec 3) (ht : BitVec 4) (xt : BitVec 6) : Bool :=
  if tk == 0 then ht != 0 || xt != 0 else q != 0

/-- Step 6 of R276, beyond the fixed zero bits: a reserved code, or a non-zero field that the form does not use. -/
def fieldBad : Instr → Bool
  | .restartMark c f y _ => y == 0 && (c != 0 || f != 0)
  | .loop ln _ _ _ => decide (6 ≤ ln.toNat)
  | .loopx ln _ _ _ => decide (6 ≤ ln.toNat)
  | .ext _ _ wd _ _ => wd == 3
  | .ld _ _ _ _ sz sx _ _ => sz == 3 && sx == 1
  | .rel _ sc _ => sc == 0 || decide (5 < sc.toNat)
  | .acq _ sc _ => sc == 0 || decide (5 < sc.toNat)
  | .tld _ _ _ tk q ht xt wt _ _ => tileBad tk q ht xt || (tk == 0 && wt != 0)
  | .tst _ _ _ tk q ht xt wt _ _ => tileBad tk q ht xt || (tk == 0 && wt != 0)
  | .cpy _ _ _ _ tk q ht xt wt pst k cnt _ _ => tileBad tk q ht xt || (tk == 0 && wt != 0) || postBad pst k cnt
  | .cpyo _ _ _ _ tk q ht xt wt pst k cnt _ _ => tileBad tk q ht xt || (tk == 0 && wt != 0) || postBad pst k cnt
  | .unfold _ _ _ _ tk q ht xt _ pst k cnt _ _ => tileBad tk q ht xt || postBad pst k cnt
  | .xpose _ _ _ _ tk q ht xt wt pst k cnt _ _ => tileBad tk q ht xt || decide (2 < wt.toNat) || postBad pst k cnt
  | .fill _ _ _ _ _ pst k _ => pst == 0 && k != 0
  | .shunt _ _ _ _ _ _ _ ce fe rc hc _ _ => shuntRegBad ce fe rc hc
  | .shuntcAllreduce _ _ _ _ _ _ _ _ ce fe rc hc _ _ => shuntRegBad ce fe rc hc
  | .shuntcAllgather _ _ _ _ _ _ _ _ ce fe rc hc _ _ => shuntRegBad ce fe rc hc
  | .shuntcReducescatter _ _ _ _ _ _ _ _ ce fe rc hc _ _ => shuntRegBad ce fe rc hc
  | .shuntcBroadcast _ _ _ _ _ _ _ _ ce fe rc hc _ _ => shuntRegBad ce fe rc hc
  | .wload _ _ pb _ _ _ pst k cnt _ _ => pb == 1 || postBad pst k cnt
  | .accrd _ q dk _ _ _ ht xt _ vb _ =>
      if dk == 0 then ht != 0 || xt != 0 || vb != 0
      else if dk == 1 then q != 0 || vb != 0
      else if dk == 2 then q != 0 || decide (8 ≤ xt.toNat)
      else true
  | .vx _ _ _ vb vc ve opa opb opc tya tyb tyc mda mdb mdc _ =>
      unitFieldBad opa tya mda || unitFieldBad opb tyb mdb || unitFieldBad opc tyc mdc ||
      (unitNoReg opa && vb != 0) || (unitNoReg opb && vc != 0) || (unitNoReg opc && ve != 0)
  | _ => false

/-- An instruction whose encoding is confined to mark bundles (R23, R50, R135, R144, R190, R219, R284). -/
def markOnly : Instr → Bool
  | .step .. => true | .barr .. => true
  | .aadd .. => true | .aand .. => true | .aor .. => true | .axor .. => true | .amin .. => true
  | .amax .. => true | .aminu .. => true | .amaxu .. => true | .axchg .. => true | .acas .. => true
  | .afadd .. => true
  | .nmrAdd .. => true | .nmrFadd .. => true | .nmrMin .. => true | .nmrMax .. => true | .nmrMinu .. => true
  | .nmrMaxu .. => true | .nmrAnd .. => true | .nmrOr .. => true | .nmrXor .. => true
  | .ctradd .. => true | .rel .. => true | .lower .. => true | .raise .. => true | .wcwr .. => true
  | .blaunch .. => true
  | _ => false

/-- A CTL instruction whose bundle is a mark bundle (R24). -/
def ctlMark : Instr → Bool
  | .exit .. => true | .svc .. => true | .trap .. => true | .eret .. => true
  | _ => false

/-- A privileged instruction (R280, R284). -/
def privileged : Instr → Bool
  | .eret .. => true
  | .rdsys .. => true | .wrsys .. => true | .shootPkg .. => true | .shootSet .. => true | .ctxsv .. => true
  | .ctxrs .. => true | .haltcStop .. => true | .haltcGo .. => true | .keyldPart .. => true
  | .keyldLink .. => true | .keyldSign .. => true | .keydrop .. => true | .hsinit .. => true
  | .hsupd .. => true | .hsfin .. => true | .edsign .. => true | .edver .. => true | .edverSlots .. => true
  | .mext .. => true | .rand .. => true
  | _ => false

/-- An MX operation that reads FMT (R10, R375 to R380). -/
def mxReadsFmt : Instr → Bool
  | .mma .. => true | .mmas .. => true | .wtile .. => true | .accrd .. => true
  | _ => false

/-- A destination that an encoding names (R10): kind 0 scalar, 1 predicate, 2 handle, 3 vector register
(32 × cluster + number), 4 accumulator, 5 ring; kind 6 is a front written (R101). -/
abbrev Dest := Nat × Nat

def sDest (d : BitVec 6) : List Dest := [(0, d.toNat)]
def pDest (d : BitVec 4) : List Dest := [(1, d.toNat)]
def hDest (d : BitVec 4) : List Dest := [(2, d.toNat)]
def vDest (cl : BitVec 3) (d : BitVec 5) : List Dest := [(3, 32 * cl.toNat + d.toNat)]
def aDest (d : BitVec 3) : List Dest := [(4, d.toNat)]
def qDest (tk : BitVec 1) (q : BitVec 3) : List Dest := if tk == 0 then [(5, q.toNat)] else []
def fDest (f : BitVec 3) : List Dest := [(6, f.toNat)]

/-- The vector registers of an ACCRD; beyond its cluster's last it names none, and has a run-time limit there (R381). -/
def accrdRegs (m : BitVec 7) (cv : BitVec 4) (cl : BitVec 6) (vb : BitVec 5) : List Dest :=
  (upFrom 0 (min (m.toNat * (if cv == 0 || cv == 12 then 2 else 1)) (32 - vb.toNat))).map (fun i => (3, 32 * cl.toNat + vb.toNat + i))

/-- The destinations an encoding names. -/
def dests : Instr → List Dest
  | .call d _ _ => sDest d
  | .fmtrd d _ => sDest d
  | .add d _ _ _ => sDest d
  | .addi d _ _ _ => sDest d
  | .sub d _ _ _ => sDest d
  | .mul d _ _ _ => sDest d
  | .mulh d _ _ _ => sDest d
  | .mulhu d _ _ _ => sDest d
  | .div d _ _ _ => sDest d
  | .divu d _ _ _ => sDest d
  | .rem d _ _ _ => sDest d
  | .remu d _ _ _ => sDest d
  | .and d _ _ _ => sDest d
  | .andi d _ _ _ => sDest d
  | .or d _ _ _ => sDest d
  | .ori d _ _ _ => sDest d
  | .xor d _ _ _ => sDest d
  | .xori d _ _ _ => sDest d
  | .andn d _ _ _ => sDest d
  | .shl d _ _ _ => sDest d
  | .shr d _ _ _ => sDest d
  | .sar d _ _ _ => sDest d
  | .rot d _ _ _ => sDest d
  | .clz d _ _ => sDest d
  | .ctz d _ _ => sDest d
  | .popc d _ _ => sDest d
  | .brev d _ _ => sDest d
  | .bswap d _ _ => sDest d
  | .min d _ _ _ => sDest d
  | .max d _ _ _ => sDest d
  | .minu d _ _ _ => sDest d
  | .maxu d _ _ _ => sDest d
  | .abs d _ _ => sDest d
  | .ext d _ _ _ _ => sDest d
  | .bfx d _ _ _ => sDest d
  | .bfi d _ _ _ => sDest d
  | .mov d _ _ => sDest d
  | .movi d _ _ => sDest d
  | .movhi d _ _ => sDest d
  | .sel d _ _ _ _ => sDest d
  | .cmp pd _ _ _ _ => pDest pd
  | .cmpi pd _ _ _ _ => pDest pd
  | .pset pd _ _ _ _ => pDest pd
  | .pmovRd d _ => sDest d
  | .pmovWr _ _ => (upFrom 1 15).map (fun i => (1, i))
  | .fadd d _ _ _ => sDest d
  | .fsub d _ _ _ => sDest d
  | .fmul d _ _ _ => sDest d
  | .ffma d _ _ _ => sDest d
  | .fmin d _ _ _ => sDest d
  | .fmax d _ _ _ => sDest d
  | .fsgnCp d _ _ _ => sDest d
  | .fsgnNeg d _ _ _ => sDest d
  | .fsgnXor d _ _ _ => sDest d
  | .fcmp pd _ _ _ _ => pDest pd
  | .fcvtI32F32 d _ _ => sDest d
  | .fcvtF32I32 d _ _ => sDest d
  | .fcvtU32F32 d _ _ => sDest d
  | .fcvtF32U32 d _ _ => sDest d
  | .fcvtF16F32 d _ _ => sDest d
  | .fcvtF32F16 d _ _ => sDest d
  | .fcvtBf16F32 d _ _ => sDest d
  | .fcvtF32Bf16 d _ _ => sDest d
  | .fclass d _ _ => sDest d
  | .ld d _ _ _ _ _ _ _ => sDest d
  | .xlate hd _ _ => hDest hd
  | .xlateScratch hd _ => hDest hd
  | .xlatePlane hd _ _ => hDest hd
  | .hfree hd _ => hDest hd
  | .htest d _ _ => sDest d
  | .aadd d _ _ _ _ _ _ _ => sDest d
  | .aand d _ _ _ _ _ _ _ => sDest d
  | .aor d _ _ _ _ _ _ _ => sDest d
  | .axor d _ _ _ _ _ _ _ => sDest d
  | .amin d _ _ _ _ _ _ _ => sDest d
  | .amax d _ _ _ _ _ _ _ => sDest d
  | .aminu d _ _ _ _ _ _ _ => sDest d
  | .amaxu d _ _ _ _ _ _ _ => sDest d
  | .axchg d _ _ _ _ _ _ _ => sDest d
  | .acas d _ _ _ _ _ _ _ _ => sDest d
  | .afadd d _ _ _ _ _ _ => sDest d
  | .pin d _ _ _ => sDest d
  | .tld _ _ _ tk q _ _ _ _ _ => qDest tk q
  | .lower d _ _ _ _ _ _ => sDest d
  | .wcloc d _ _ _ _ => sDest d
  | .wcrd d _ _ _ _ => sDest d
  | .wcwr d _ _ _ _ _ => sDest d
  | .blaunch d _ _ _ _ => sDest d
  | .rdsys d _ _ _ => sDest d
  | .shootPkg d _ _ _ _ => sDest d
  | .shootSet d _ _ _ _ => sDest d
  | .ctxsv d _ _ _ _ _ => sDest d
  | .ctxrs d _ _ _ _ => sDest d
  | .haltcStop d _ _ => sDest d
  | .haltcGo d _ _ => sDest d
  | .keyldPart d _ _ _ _ _ => sDest d
  | .keyldLink d _ _ _ _ _ => sDest d
  | .keyldSign d _ _ _ _ _ => sDest d
  | .hsfin d _ _ _ _ => sDest d
  | .edsign d _ _ _ _ _ => sDest d
  | .edver d _ _ _ _ _ => sDest d
  | .edverSlots d _ _ _ _ _ => sDest d
  | .mext d _ _ _ _ => sDest d
  | .rand d _ => sDest d
  | .cpy _ _ _ _ tk q _ _ _ _ _ _ _ _ => qDest tk q
  | .unfold _ _ _ _ tk q _ _ _ _ _ _ _ _ => qDest tk q
  | .xpose _ _ _ _ tk q _ _ _ _ _ _ _ _ => qDest tk q
  | .qstat d _ _ => sDest d
  | .mma acc _ _ _ _ _ _ _ => aDest acc
  | .mmas acc _ _ _ _ _ _ _ => aDest acc
  | .accz acc _ _ _ => aDest acc
  | .accrd _ q dk _ m cv _ xt _ vb _ =>
      if dk == 0 then [(5, q.toNat)]
      else if dk == 2 then accrdRegs m cv xt vb
      else []
  | .accwr acc _ _ _ _ => aDest acc
  | .vx cl vd _ _ _ _ _ _ _ _ _ _ _ _ _ _ => vDest cl vd
  | .vdot cl vd _ _ _ _ _ _ => vDest cl vd
  | .vred _ s _ _ _ _ => sDest s
  | .vperm cl vd _ _ _ _ => vDest cl vd
  | .vbcast cl v _ _ _ => vDest cl v
  | .vxc cl vd _ _ _ => vDest cl vd
  | .vmov cl vd _ _ => vDest cl vd
  | .viota cl vd _ _ => vDest cl vd
  | .vld cl v _ _ _ _ _ => vDest cl v
  | .vldx cl v _ _ _ _ _ _ => vDest cl v
  | .vldt cl v _ _ _ _ _ => vDest cl v
  | .pfcfg _ fr _ _ => fDest fr
  | .pfins _ fr _ _ _ => fDest fr
  | .pftst cl vd _ _ _ _ => vDest cl vd
  | .pfmrg _ fr _ _ => fDest fr
  | .pfrd cl vb _ _ _ => vDest cl vb
  | .pfcnt _ s _ _ _ => sDest s
  | .pfclr _ fr _ => fDest fr
  | .pffil _ f _ _ _ _ _ => fDest f
  | .rcpVector cl vd _ _ => vDest cl vd
  | .rcpScalar d _ _ => sDest d
  | .rsqVector cl vd _ _ => vDest cl vd
  | .rsqScalar d _ _ => sDest d
  | .sqrtVector cl vd _ _ => vDest cl vd
  | .sqrtScalar d _ _ => sDest d
  | .exp2Vector cl vd _ _ => vDest cl vd
  | .exp2Scalar d _ _ => sDest d
  | .log2Vector cl vd _ _ => vDest cl vd
  | .log2Scalar d _ _ => sDest d
  | .sinVector cl vd _ _ => vDest cl vd
  | .sinScalar d _ _ => sDest d
  | .cosVector cl vd _ _ => vDest cl vd
  | .cosScalar d _ _ => sDest d
  | .tanhVector cl vd _ _ => vDest cl vd
  | .tanhScalar d _ _ => sDest d
  | .sigmVector cl vd _ _ => vDest cl vd
  | .sigmScalar d _ _ => sDest d
  | .erfVector cl vd _ _ => vDest cl vd
  | .erfScalar d _ _ => sDest d
  | _ => []

end Sys2Proof.Machine
end

