-- ==== Sys2Proof/WellFormed.lean ====
section
/-!
DEFINITION. Well-formed instructions: those whose operand codes are all assigned (R278). The fields' widths are
bounded by their types; what remains are the unassigned and reserved codes.
-/
namespace Sys2Proof

/-- Every operand code of the instruction is one that the spec assigns. -/
def WellFormed (i : Instr) : Bool := !Machine.opCodeBad i && !Machine.fieldBad i

end Sys2Proof
end

