-- ==== Sys2Proof/Decode.lean ====
section
/-!
DEFINITION. Decoding: slot words, bundles and Lamesque-B words to instructions, total on any bits, refusing by fault
in the order of R276; and, after it, the encoder written from the same tables (R275 to R291, R398 to R400).
-/
namespace Sys2Proof
open Machine

/-- The field of `n` bits of the word `w` at bit `lo`. -/
def fld (w lo n : Nat) : BitVec n := BitVec.ofNat n (w >>> lo)

/-- The `n` bits at `lo` are all zero. -/
def zeroAt (w lo n : Nat) : Bool := (w >>> lo) % 2 ^ n == 0

/-- What decoding one word gives: the instruction, or the encoding fault it raises (R276). -/
inductive DecRes where
  | ok (i : Instr)
  | illegalOpcode
  | privOpcode
  | illegalBundle
deriving DecidableEq, Repr

/-- Steps 5 and 6 of R276 for a row whose fields have been read: `opz` are the operation-selecting bits that must be
zero, `z` the other bits that must be zero. -/
def decRow (w : Nat) (opz z : List (Nat × Nat)) (i : Instr) : DecRes :=
  if opCodeBad i || opz.any (fun x => !zeroAt w x.1 x.2) then .illegalOpcode
  else if z.any (fun x => !zeroAt w x.1 x.2) || fieldBad i then .illegalBundle
  else .ok i

/-- The CTL slot (R279, R280). -/
def decodeCtl (w : Nat) : DecRes :=
  match (w >>> 5) % 32 with
  | 0 => decRow w [] [] (.br (fld w 10 22) (fld w 0 5))
  | 1 => decRow w [] [] (.brp (fld w 10 4) (fld w 14 1) (fld w 15 17) (fld w 0 5))
  | 2 => decRow w [] [] (.call (fld w 10 6) (fld w 16 16) (fld w 0 5))
  | 3 => decRow w [] [(16, 16)] (.ret (fld w 10 6) (fld w 0 5))
  | 4 => decRow w [] [] (.jmpr (fld w 10 6) (fld w 16 16) (fld w 0 5))
  | 5 => decRow w [] [] (.loop (fld w 10 3) (fld w 13 4) (fld w 17 15) (fld w 0 5))
  | 6 => decRow w [] [(23, 9)] (.loopx (fld w 10 3) (fld w 17 6) (fld w 13 4) (fld w 0 5))
  | 7 => decRow w [] [(10, 22)] (.yield (fld w 0 5))
  | 8 => decRow w [] [(10, 22)] (.exit (fld w 0 5))
  | 9 => decRow w [] [(26, 6)] (.trap (fld w 10 16) (fld w 0 5))
  | 10 => decRow w [] [(26, 6)] (.svc (fld w 10 16) (fld w 0 5))
  | 11 => decRow w [] [(10, 22)] (.eret (fld w 0 5))
  | 12 => decRow w [] [(16, 16)] (.setfmt (fld w 10 6) (fld w 0 5))
  | 13 => decRow w [] [(16, 16)] (.fmtrd (fld w 10 6) (fld w 0 5))
  | 14 => decRow w [] [] (.mdpc (fld w 10 6) (fld w 16 16) (fld w 0 5))
  | 15 => decRow w [] [(13, 19)] (.step (fld w 10 3) (fld w 0 5))
  | 16 => decRow w [] [(13, 19)] (.barr (fld w 10 3) (fld w 0 5))
  | 17 => decRow w [] [(13, 19)] (.mwait (fld w 10 3) (fld w 0 5))
  | 18 => decRow w [] [(26, 6)] (.park (fld w 10 16) (fld w 0 5))
  | _ => .illegalOpcode

/-- A scalar slot, SA or SB (R281, R282). -/
def decodeScalar (w : Nat) : DecRes :=
  match (w >>> 5) % 64 with
  | 0 => decRow w [] [(29, 3)] (.add (fld w 11 6) (fld w 17 6) (fld w 23 6) (fld w 0 5))
  | 2 => decRow w [] [(29, 3)] (.sub (fld w 11 6) (fld w 17 6) (fld w 23 6) (fld w 0 5))
  | 3 => decRow w [] [(29, 3)] (.mul (fld w 11 6) (fld w 17 6) (fld w 23 6) (fld w 0 5))
  | 4 => decRow w [] [(29, 3)] (.mulh (fld w 11 6) (fld w 17 6) (fld w 23 6) (fld w 0 5))
  | 5 => decRow w [] [(29, 3)] (.mulhu (fld w 11 6) (fld w 17 6) (fld w 23 6) (fld w 0 5))
  | 6 => decRow w [] [(29, 3)] (.div (fld w 11 6) (fld w 17 6) (fld w 23 6) (fld w 0 5))
  | 7 => decRow w [] [(29, 3)] (.divu (fld w 11 6) (fld w 17 6) (fld w 23 6) (fld w 0 5))
  | 8 => decRow w [] [(29, 3)] (.rem (fld w 11 6) (fld w 17 6) (fld w 23 6) (fld w 0 5))
  | 9 => decRow w [] [(29, 3)] (.remu (fld w 11 6) (fld w 17 6) (fld w 23 6) (fld w 0 5))
  | 10 => decRow w [] [(29, 3)] (.and (fld w 11 6) (fld w 17 6) (fld w 23 6) (fld w 0 5))
  | 12 => decRow w [] [(29, 3)] (.or (fld w 11 6) (fld w 17 6) (fld w 23 6) (fld w 0 5))
  | 14 => decRow w [] [(29, 3)] (.xor (fld w 11 6) (fld w 17 6) (fld w 23 6) (fld w 0 5))
  | 16 => decRow w [] [(29, 3)] (.andn (fld w 11 6) (fld w 17 6) (fld w 23 6) (fld w 0 5))
  | 17 => decRow w [] [(29, 3)] (.shl (fld w 11 6) (fld w 17 6) (fld w 23 6) (fld w 0 5))
  | 18 => decRow w [] [(29, 3)] (.shr (fld w 11 6) (fld w 17 6) (fld w 23 6) (fld w 0 5))
  | 19 => decRow w [] [(29, 3)] (.sar (fld w 11 6) (fld w 17 6) (fld w 23 6) (fld w 0 5))
  | 20 => decRow w [] [(29, 3)] (.rot (fld w 11 6) (fld w 17 6) (fld w 23 6) (fld w 0 5))
  | 26 => decRow w [] [(29, 3)] (.min (fld w 11 6) (fld w 17 6) (fld w 23 6) (fld w 0 5))
  | 27 => decRow w [] [(29, 3)] (.max (fld w 11 6) (fld w 17 6) (fld w 23 6) (fld w 0 5))
  | 28 => decRow w [] [(29, 3)] (.minu (fld w 11 6) (fld w 17 6) (fld w 23 6) (fld w 0 5))
  | 29 => decRow w [] [(29, 3)] (.maxu (fld w 11 6) (fld w 17 6) (fld w 23 6) (fld w 0 5))
  | 32 => decRow w [] [(29, 3)] (.bfx (fld w 11 6) (fld w 17 6) (fld w 23 6) (fld w 0 5))
  | 33 => decRow w [] [(29, 3)] (.bfi (fld w 11 6) (fld w 17 6) (fld w 23 6) (fld w 0 5))
  | 42 => decRow w [] [(29, 3)] (.fadd (fld w 11 6) (fld w 17 6) (fld w 23 6) (fld w 0 5))
  | 43 => decRow w [] [(29, 3)] (.fsub (fld w 11 6) (fld w 17 6) (fld w 23 6) (fld w 0 5))
  | 44 => decRow w [] [(29, 3)] (.fmul (fld w 11 6) (fld w 17 6) (fld w 23 6) (fld w 0 5))
  | 45 => decRow w [] [(29, 3)] (.ffma (fld w 11 6) (fld w 17 6) (fld w 23 6) (fld w 0 5))
  | 46 => decRow w [] [(29, 3)] (.fmin (fld w 11 6) (fld w 17 6) (fld w 23 6) (fld w 0 5))
  | 47 => decRow w [] [(29, 3)] (.fmax (fld w 11 6) (fld w 17 6) (fld w 23 6) (fld w 0 5))
  | 21 => decRow w [] [(23, 9)] (.clz (fld w 11 6) (fld w 17 6) (fld w 0 5))
  | 22 => decRow w [] [(23, 9)] (.ctz (fld w 11 6) (fld w 17 6) (fld w 0 5))
  | 23 => decRow w [] [(23, 9)] (.popc (fld w 11 6) (fld w 17 6) (fld w 0 5))
  | 24 => decRow w [] [(23, 9)] (.brev (fld w 11 6) (fld w 17 6) (fld w 0 5))
  | 25 => decRow w [] [(23, 9)] (.bswap (fld w 11 6) (fld w 17 6) (fld w 0 5))
  | 30 => decRow w [] [(23, 9)] (.abs (fld w 11 6) (fld w 17 6) (fld w 0 5))
  | 34 => decRow w [] [(23, 9)] (.mov (fld w 11 6) (fld w 17 6) (fld w 0 5))
  | 51 => decRow w [] [(23, 9)] (.fclass (fld w 11 6) (fld w 17 6) (fld w 0 5))
  | 1 => decRow w [] [] (.addi (fld w 11 6) (fld w 17 6) (fld w 23 9) (fld w 0 5))
  | 11 => decRow w [] [] (.andi (fld w 11 6) (fld w 17 6) (fld w 23 9) (fld w 0 5))
  | 13 => decRow w [] [] (.ori (fld w 11 6) (fld w 17 6) (fld w 23 9) (fld w 0 5))
  | 15 => decRow w [] [] (.xori (fld w 11 6) (fld w 17 6) (fld w 23 9) (fld w 0 5))
  | 31 => decRow w [] [(23, 6)] (.ext (fld w 11 6) (fld w 17 6) (fld w 29 2) (fld w 31 1) (fld w 0 5))
  | 35 => decRow w [] [] (.movi (fld w 11 6) (fld w 17 15) (fld w 0 5))
  | 36 => decRow w [] [] (.movhi (fld w 11 6) (fld w 17 15) (fld w 0 5))
  | 37 => decRow w [] [] (.sel (fld w 11 6) (fld w 29 3) (fld w 17 6) (fld w 23 6) (fld w 0 5))
  | 38 => decRow w [] [(15, 2)] (.cmp (fld w 11 4) (fld w 17 6) (fld w 23 6) (fld w 29 3) (fld w 0 5))
  | 49 => decRow w [] [(15, 2)] (.fcmp (fld w 11 4) (fld w 17 6) (fld w 23 6) (fld w 29 3) (fld w 0 5))
  | 39 => decRow w [] [] (.cmpi (fld w 11 4) (fld w 18 6) (fld w 24 8) (fld w 15 3) (fld w 0 5))
  | 40 => decRow w [] [(27, 5)] (.pset (fld w 11 4) (fld w 15 4) (fld w 19 4) (fld w 23 4) (fld w 0 5))
  | 41 => match (w >>> 29) % 8 with
    | 0 => decRow w [] [(17, 12)] (.pmovRd (fld w 11 6) (fld w 0 5))
    | 1 => decRow w [] [(11, 6), (23, 6)] (.pmovWr (fld w 17 6) (fld w 0 5))
    | _ => .illegalOpcode
  | 48 => match (w >>> 29) % 8 with
    | 0 => decRow w [] [] (.fsgnCp (fld w 11 6) (fld w 17 6) (fld w 23 6) (fld w 0 5))
    | 1 => decRow w [] [] (.fsgnNeg (fld w 11 6) (fld w 17 6) (fld w 23 6) (fld w 0 5))
    | 2 => decRow w [] [] (.fsgnXor (fld w 11 6) (fld w 17 6) (fld w 23 6) (fld w 0 5))
    | _ => .illegalOpcode
  | 50 => match (w >>> 29) % 8 with
    | 0 => decRow w [] [(23, 6)] (.fcvtI32F32 (fld w 11 6) (fld w 17 6) (fld w 0 5))
    | 1 => decRow w [] [(23, 6)] (.fcvtF32I32 (fld w 11 6) (fld w 17 6) (fld w 0 5))
    | 2 => decRow w [] [(23, 6)] (.fcvtU32F32 (fld w 11 6) (fld w 17 6) (fld w 0 5))
    | 3 => decRow w [] [(23, 6)] (.fcvtF32U32 (fld w 11 6) (fld w 17 6) (fld w 0 5))
    | 4 => decRow w [] [(23, 6)] (.fcvtF16F32 (fld w 11 6) (fld w 17 6) (fld w 0 5))
    | 5 => decRow w [] [(23, 6)] (.fcvtF32F16 (fld w 11 6) (fld w 17 6) (fld w 0 5))
    | 6 => decRow w [] [(23, 6)] (.fcvtBf16F32 (fld w 11 6) (fld w 17 6) (fld w 0 5))
    | 7 => decRow w [] [(23, 6)] (.fcvtF32Bf16 (fld w 11 6) (fld w 17 6) (fld w 0 5))
    | _ => .illegalOpcode
  | _ => .illegalOpcode

/-- The LS slot (R283, R284). -/
def decodeLs (w : Nat) : DecRes :=
  match (w >>> 5) % 128 with
  | 0 => match (w >>> 59) % 32 with
    | 0 => decRow w [] [] (.ld (fld w 19 6) (fld w 25 4) (fld w 29 6) (fld w 35 24) (fld w 16 2) (fld w 18 1) (fld w 12 4) (fld w 0 5))
    | 1 => if (w >>> 16) % 4 == 3 then decRow w [] [(18, 1), (22, 3)] (.ldWalk (fld w 19 3) (fld w 25 4) (fld w 29 6) (fld w 35 24) (fld w 12 4) (fld w 0 5)) else .illegalBundle
    | _ => .illegalBundle
  | 1 => match (w >>> 59) % 32 with
    | 0 => decRow w [] [(18, 1)] (.st (fld w 19 6) (fld w 25 4) (fld w 29 6) (fld w 35 24) (fld w 16 2) (fld w 12 4) (fld w 0 5))
    | 1 => if (w >>> 16) % 4 == 3 then decRow w [] [(18, 1), (22, 3)] (.stWalk (fld w 19 3) (fld w 25 4) (fld w 29 6) (fld w 35 24) (fld w 12 4) (fld w 0 5)) else .illegalBundle
    | _ => .illegalBundle
  | 2 => match (w >>> 22) % 4 with
    | 0 => decRow w [] [(24, 40)] (.xlate (fld w 12 4) (fld w 16 6) (fld w 0 5))
    | 1 => decRow w [] [(16, 6), (24, 40)] (.xlateScratch (fld w 12 4) (fld w 0 5))
    | 2 => decRow w [] [(16, 6), (28, 36)] (.xlatePlane (fld w 12 4) (fld w 24 4) (fld w 0 5))
    | _ => .illegalBundle
  | 3 => decRow w [] [(16, 48)] (.hfree (fld w 12 4) (fld w 0 5))
  | 4 => decRow w [] [(16, 12), (34, 30)] (.htest (fld w 28 6) (fld w 12 4) (fld w 0 5))
  | 8 => if (w >>> 17) % 2 == 1 then decRow w [] [(40, 10)] (.aadd (fld w 18 6) (fld w 24 4) (fld w 28 6) (fld w 50 14) (fld w 34 6) (fld w 16 1) (fld w 12 4) (fld w 0 5)) else .illegalBundle
  | 9 => if (w >>> 17) % 2 == 1 then decRow w [] [(40, 10)] (.aand (fld w 18 6) (fld w 24 4) (fld w 28 6) (fld w 50 14) (fld w 34 6) (fld w 16 1) (fld w 12 4) (fld w 0 5)) else .illegalBundle
  | 10 => if (w >>> 17) % 2 == 1 then decRow w [] [(40, 10)] (.aor (fld w 18 6) (fld w 24 4) (fld w 28 6) (fld w 50 14) (fld w 34 6) (fld w 16 1) (fld w 12 4) (fld w 0 5)) else .illegalBundle
  | 11 => if (w >>> 17) % 2 == 1 then decRow w [] [(40, 10)] (.axor (fld w 18 6) (fld w 24 4) (fld w 28 6) (fld w 50 14) (fld w 34 6) (fld w 16 1) (fld w 12 4) (fld w 0 5)) else .illegalBundle
  | 12 => if (w >>> 17) % 2 == 1 then decRow w [] [(40, 10)] (.amin (fld w 18 6) (fld w 24 4) (fld w 28 6) (fld w 50 14) (fld w 34 6) (fld w 16 1) (fld w 12 4) (fld w 0 5)) else .illegalBundle
  | 13 => if (w >>> 17) % 2 == 1 then decRow w [] [(40, 10)] (.amax (fld w 18 6) (fld w 24 4) (fld w 28 6) (fld w 50 14) (fld w 34 6) (fld w 16 1) (fld w 12 4) (fld w 0 5)) else .illegalBundle
  | 14 => if (w >>> 17) % 2 == 1 then decRow w [] [(40, 10)] (.aminu (fld w 18 6) (fld w 24 4) (fld w 28 6) (fld w 50 14) (fld w 34 6) (fld w 16 1) (fld w 12 4) (fld w 0 5)) else .illegalBundle
  | 15 => if (w >>> 17) % 2 == 1 then decRow w [] [(40, 10)] (.amaxu (fld w 18 6) (fld w 24 4) (fld w 28 6) (fld w 50 14) (fld w 34 6) (fld w 16 1) (fld w 12 4) (fld w 0 5)) else .illegalBundle
  | 16 => if (w >>> 17) % 2 == 1 then decRow w [] [(40, 10)] (.axchg (fld w 18 6) (fld w 24 4) (fld w 28 6) (fld w 50 14) (fld w 34 6) (fld w 16 1) (fld w 12 4) (fld w 0 5)) else .illegalBundle
  | 17 => if (w >>> 17) % 2 == 1 then decRow w [] [(46, 4)] (.acas (fld w 18 6) (fld w 24 4) (fld w 28 6) (fld w 50 14) (fld w 34 6) (fld w 40 6) (fld w 16 1) (fld w 12 4) (fld w 0 5)) else .illegalBundle
  | 18 => if (w >>> 16) % 4 == 2 then decRow w [] [(40, 10)] (.afadd (fld w 18 6) (fld w 24 4) (fld w 28 6) (fld w 50 14) (fld w 34 6) (fld w 12 4) (fld w 0 5)) else .illegalBundle
  | 24 => match (w >>> 46) % 16 with
    | 0 => if (w >>> 17) % 2 == 1 then decRow w [] [(18, 6), (40, 6)] (.nmrAdd (fld w 24 4) (fld w 28 6) (fld w 50 14) (fld w 34 6) (fld w 16 1) (fld w 12 4) (fld w 0 5)) else .illegalBundle
    | 1 => if (w >>> 16) % 4 == 2 then decRow w [] [(18, 6), (40, 6)] (.nmrFadd (fld w 24 4) (fld w 28 6) (fld w 50 14) (fld w 34 6) (fld w 12 4) (fld w 0 5)) else .illegalBundle
    | 2 => if (w >>> 17) % 2 == 1 then decRow w [] [(18, 6), (40, 6)] (.nmrMin (fld w 24 4) (fld w 28 6) (fld w 50 14) (fld w 34 6) (fld w 16 1) (fld w 12 4) (fld w 0 5)) else .illegalBundle
    | 3 => if (w >>> 17) % 2 == 1 then decRow w [] [(18, 6), (40, 6)] (.nmrMax (fld w 24 4) (fld w 28 6) (fld w 50 14) (fld w 34 6) (fld w 16 1) (fld w 12 4) (fld w 0 5)) else .illegalBundle
    | 4 => if (w >>> 17) % 2 == 1 then decRow w [] [(18, 6), (40, 6)] (.nmrMinu (fld w 24 4) (fld w 28 6) (fld w 50 14) (fld w 34 6) (fld w 16 1) (fld w 12 4) (fld w 0 5)) else .illegalBundle
    | 5 => if (w >>> 17) % 2 == 1 then decRow w [] [(18, 6), (40, 6)] (.nmrMaxu (fld w 24 4) (fld w 28 6) (fld w 50 14) (fld w 34 6) (fld w 16 1) (fld w 12 4) (fld w 0 5)) else .illegalBundle
    | 6 => if (w >>> 17) % 2 == 1 then decRow w [] [(18, 6), (40, 6)] (.nmrAnd (fld w 24 4) (fld w 28 6) (fld w 50 14) (fld w 34 6) (fld w 16 1) (fld w 12 4) (fld w 0 5)) else .illegalBundle
    | 7 => if (w >>> 17) % 2 == 1 then decRow w [] [(18, 6), (40, 6)] (.nmrOr (fld w 24 4) (fld w 28 6) (fld w 50 14) (fld w 34 6) (fld w 16 1) (fld w 12 4) (fld w 0 5)) else .illegalBundle
    | 8 => if (w >>> 17) % 2 == 1 then decRow w [] [(18, 6), (40, 6)] (.nmrXor (fld w 24 4) (fld w 28 6) (fld w 50 14) (fld w 34 6) (fld w 16 1) (fld w 12 4) (fld w 0 5)) else .illegalBundle
    | _ => .illegalOpcode
  | 25 => decRow w [] [(28, 36)] (.fence (fld w 12 16) (fld w 0 5))
  | 26 => decRow w [] [(31, 33)] (.rel (fld w 12 16) (fld w 28 3) (fld w 0 5))
  | 27 => decRow w [] [(31, 33)] (.acq (fld w 12 16) (fld w 28 3) (fld w 0 5))
  | 28 => if (w >>> 16) % 4 == 3 then decRow w [] [(18, 6), (40, 10)] (.waitge (fld w 24 4) (fld w 28 6) (fld w 50 14) (fld w 34 6) (fld w 12 4) (fld w 0 5)) else .illegalBundle
  | 29 => if (w >>> 16) % 4 == 3 then decRow w [] [(18, 6), (40, 10)] (.ctradd (fld w 24 4) (fld w 28 6) (fld w 50 14) (fld w 34 6) (fld w 12 4) (fld w 0 5)) else .illegalBundle
  | 32 => decRow w [] [(12, 4), (34, 30)] (.pin (fld w 16 6) (fld w 22 6) (fld w 28 6) (fld w 0 5))
  | 33 => decRow w [] [(12, 10), (34, 30)] (.unpin (fld w 22 6) (fld w 28 6) (fld w 0 5))
  | 34 => decRow w [] [(16, 9), (59, 5)] (.pref (fld w 25 4) (fld w 29 6) (fld w 35 24) (fld w 12 4) (fld w 0 5))
  | 35 => decRow w [] [(12, 13), (59, 5)] (.clean (fld w 25 4) (fld w 29 6) (fld w 35 24) (fld w 0 5))
  | 36 => decRow w [] [(12, 13), (59, 5)] (.inval (fld w 25 4) (fld w 29 6) (fld w 35 24) (fld w 0 5))
  | 40 => decRow w [] [(46, 18)] (.tld (fld w 16 4) (fld w 20 6) (fld w 26 3) (fld w 32 1) (fld w 29 3) (fld w 33 4) (fld w 37 6) (fld w 43 3) (fld w 12 4) (fld w 0 5))
  | 41 => decRow w [] [(46, 18)] (.tst (fld w 16 4) (fld w 20 6) (fld w 26 3) (fld w 32 1) (fld w 29 3) (fld w 33 4) (fld w 37 6) (fld w 43 3) (fld w 12 4) (fld w 0 5))
  | 42 => if (w >>> 16) % 4 == 3 then decRow w [] [(40, 10)] (.lower (fld w 18 6) (fld w 24 4) (fld w 28 6) (fld w 50 14) (fld w 34 6) (fld w 12 4) (fld w 0 5)) else .illegalBundle
  | 43 => if (w >>> 16) % 4 == 3 then decRow w [] [(18, 6), (40, 10)] (.raise (fld w 24 4) (fld w 28 6) (fld w 50 14) (fld w 34 6) (fld w 12 4) (fld w 0 5)) else .illegalBundle
  | 48 => if (w >>> 41) % 2 == 1 then .illegalOpcode else decRow w [] [(12, 4), (34, 6), (42, 22)] (.wcloc (fld w 16 6) (fld w 22 6) (fld w 28 6) (fld w 40 1) (fld w 0 5))
  | 49 => decRow w [] [(34, 30)] (.wcrd (fld w 16 6) (fld w 22 6) (fld w 28 6) (fld w 12 4) (fld w 0 5))
  | 50 => decRow w [] [(40, 24)] (.wcwr (fld w 16 6) (fld w 22 6) (fld w 28 6) (fld w 34 6) (fld w 12 4) (fld w 0 5))
  | 56 => decRow w [] [(16, 3), (29, 6), (59, 5)] (.blaunch (fld w 19 6) (fld w 25 4) (fld w 35 24) (fld w 12 4) (fld w 0 5))
  | 96 => decRow w [] [(12, 4), (28, 14)] (.rdsys (fld w 16 6) (fld w 22 6) (fld w 42 22) (fld w 0 5))
  | 97 => decRow w [] [(12, 10), (34, 8)] (.wrsys (fld w 22 6) (fld w 28 6) (fld w 42 22) (fld w 0 5))
  | 98 => match (w >>> 40) % 4 with
    | 1 => decRow w [] [(12, 4), (42, 22)] (.shootPkg (fld w 16 6) (fld w 22 6) (fld w 28 6) (fld w 34 6) (fld w 0 5))
    | 2 => decRow w [] [(12, 4), (42, 22)] (.shootSet (fld w 16 6) (fld w 22 6) (fld w 28 6) (fld w 34 6) (fld w 0 5))
    | _ => .illegalOpcode
  | 99 => decRow w [] [(40, 24)] (.ctxsv (fld w 16 6) (fld w 22 6) (fld w 28 6) (fld w 34 6) (fld w 12 4) (fld w 0 5))
  | 100 => decRow w [] [(34, 30)] (.ctxrs (fld w 16 6) (fld w 22 6) (fld w 28 6) (fld w 12 4) (fld w 0 5))
  | 101 => match (w >>> 40) % 4 with
    | 0 => decRow w [] [(12, 4), (28, 12), (42, 22)] (.haltcStop (fld w 16 6) (fld w 22 6) (fld w 0 5))
    | 1 => decRow w [] [(12, 4), (28, 12), (42, 22)] (.haltcGo (fld w 16 6) (fld w 22 6) (fld w 0 5))
    | _ => .illegalOpcode
  | 102 => match (w >>> 40) % 4 with
    | 0 => decRow w [] [(42, 22)] (.keyldPart (fld w 16 6) (fld w 22 6) (fld w 28 6) (fld w 34 6) (fld w 12 4) (fld w 0 5))
    | 1 => decRow w [] [(42, 22)] (.keyldLink (fld w 16 6) (fld w 22 6) (fld w 28 6) (fld w 34 6) (fld w 12 4) (fld w 0 5))
    | 2 => decRow w [] [(42, 22)] (.keyldSign (fld w 16 6) (fld w 22 6) (fld w 28 6) (fld w 34 6) (fld w 12 4) (fld w 0 5))
    | _ => .illegalOpcode
  | 103 => match (w >>> 40) % 4 with
    | 0 => decRow w [] [(12, 10), (28, 12), (42, 22)] (.keydrop (fld w 22 6) (fld w 0 5))
    | _ => .illegalOpcode
  | 104 => decRow w [] [(12, 28), (42, 22)] (.hsinit (fld w 40 2) (fld w 0 5))
  | 105 => decRow w [] [(16, 6), (34, 6), (42, 22)] (.hsupd (fld w 40 2) (fld w 22 6) (fld w 28 6) (fld w 12 4) (fld w 0 5))
  | 106 => decRow w [] [(28, 12), (42, 22)] (.hsfin (fld w 16 6) (fld w 40 2) (fld w 22 6) (fld w 12 4) (fld w 0 5))
  | 107 => match (w >>> 40) % 4 with
    | 0 => decRow w [] [(42, 22)] (.edsign (fld w 16 6) (fld w 22 6) (fld w 28 6) (fld w 34 6) (fld w 12 4) (fld w 0 5))
    | _ => .illegalOpcode
  | 108 => match (w >>> 40) % 4 with
    | 0 => decRow w [] [(42, 22)] (.edver (fld w 16 6) (fld w 22 6) (fld w 28 6) (fld w 34 6) (fld w 12 4) (fld w 0 5))
    | 1 => decRow w [] [(42, 22)] (.edverSlots (fld w 16 6) (fld w 22 6) (fld w 28 6) (fld w 34 6) (fld w 12 4) (fld w 0 5))
    | _ => .illegalOpcode
  | 109 => decRow w [] [(34, 30)] (.mext (fld w 16 6) (fld w 22 6) (fld w 28 6) (fld w 12 4) (fld w 0 5))
  | 110 => decRow w [] [(12, 4), (22, 42)] (.rand (fld w 16 6) (fld w 0 5))
  | _ => .illegalOpcode

/-- The CP slot (R285, R286). -/
def decodeCp (w : Nat) : DecRes :=
  match (w >>> 5) % 64 with
  | 0 => decRow w [] [(61, 3)] (.cpy (fld w 15 2) (fld w 27 4) (fld w 31 6) (fld w 21 3) (fld w 17 1) (fld w 18 3) (fld w 37 4) (fld w 41 6) (fld w 24 3) (fld w 47 1) (fld w 48 5) (fld w 53 8) (fld w 11 4) (fld w 0 5))
  | 1 => decRow w [] [(61, 3)] (.cpyo (fld w 15 2) (fld w 27 4) (fld w 31 6) (fld w 21 3) (fld w 17 1) (fld w 18 3) (fld w 37 4) (fld w 41 6) (fld w 24 3) (fld w 47 1) (fld w 48 5) (fld w 53 8) (fld w 11 4) (fld w 0 5))
  | 2 => decRow w [] [(61, 3)] (.unfold (fld w 15 2) (fld w 27 4) (fld w 31 6) (fld w 21 3) (fld w 17 1) (fld w 18 3) (fld w 37 4) (fld w 41 6) (fld w 24 3) (fld w 47 1) (fld w 48 5) (fld w 53 8) (fld w 11 4) (fld w 0 5))
  | 4 => decRow w [] [(61, 3)] (.xpose (fld w 15 2) (fld w 27 4) (fld w 31 6) (fld w 21 3) (fld w 17 1) (fld w 18 3) (fld w 37 4) (fld w 41 6) (fld w 24 3) (fld w 47 1) (fld w 48 5) (fld w 53 8) (fld w 11 4) (fld w 0 5))
  | 3 => decRow w [] [] (.fill (fld w 11 2) (fld w 16 4) (fld w 20 6) (fld w 13 3) (fld w 26 32) (fld w 58 1) (fld w 59 5) (fld w 0 5))
  | 8 => decRow w [] [(55, 9)] (.shunt (fld w 15 2) (fld w 33 4) (fld w 37 6) (fld w 20 3) (fld w 23 4) (fld w 27 6) (fld w 17 3) (fld w 49 1) (fld w 50 1) (fld w 43 6) (fld w 51 4) (fld w 11 4) (fld w 0 5))
  | 9 => match (w >>> 17) % 4 with
    | 0 => decRow w [] [(61, 3)] (.shuntcAllreduce (fld w 15 2) (fld w 20 3) (fld w 19 1) (fld w 33 4) (fld w 37 6) (fld w 23 4) (fld w 27 6) (fld w 43 6) (fld w 55 1) (fld w 56 1) (fld w 49 6) (fld w 57 4) (fld w 11 4) (fld w 0 5))
    | 1 => decRow w [] [(61, 3)] (.shuntcAllgather (fld w 15 2) (fld w 20 3) (fld w 19 1) (fld w 33 4) (fld w 37 6) (fld w 23 4) (fld w 27 6) (fld w 43 6) (fld w 55 1) (fld w 56 1) (fld w 49 6) (fld w 57 4) (fld w 11 4) (fld w 0 5))
    | 2 => decRow w [] [(61, 3)] (.shuntcReducescatter (fld w 15 2) (fld w 20 3) (fld w 19 1) (fld w 33 4) (fld w 37 6) (fld w 23 4) (fld w 27 6) (fld w 43 6) (fld w 55 1) (fld w 56 1) (fld w 49 6) (fld w 57 4) (fld w 11 4) (fld w 0 5))
    | _ => decRow w [] [(61, 3)] (.shuntcBroadcast (fld w 15 2) (fld w 20 3) (fld w 19 1) (fld w 33 4) (fld w 37 6) (fld w 23 4) (fld w 27 6) (fld w 43 6) (fld w 55 1) (fld w 56 1) (fld w 49 6) (fld w 57 4) (fld w 11 4) (fld w 0 5))
  | 16 => decRow w [] [(59, 5)] (.wload (fld w 15 2) (fld w 19 13) (fld w 17 2) (fld w 35 4) (fld w 39 6) (fld w 32 3) (fld w 45 1) (fld w 46 5) (fld w 51 8) (fld w 11 4) (fld w 0 5))
  | 24 => decRow w [] [(20, 44)] (.qstat (fld w 11 6) (fld w 17 3) (fld w 0 5))
  | _ => .illegalOpcode

/-- The MX slot (R287, R288). -/
def decodeMx (w : Nat) : DecRes :=
  match (w >>> 5) % 64 with
  | 0 => decRow w [] [(52, 12)] (.mma (fld w 11 3) (fld w 14 3) (fld w 17 1) (fld w 18 6) (fld w 24 7) (fld w 31 10) (fld w 41 11) (fld w 0 5))
  | 1 => decRow w [] [(52, 12)] (.mmas (fld w 11 3) (fld w 14 3) (fld w 17 1) (fld w 18 6) (fld w 24 7) (fld w 31 10) (fld w 41 11) (fld w 0 5))
  | 2 => decRow w [] [(11, 6), (31, 33)] (.wtile (fld w 17 1) (fld w 18 13) (fld w 0 5))
  | 3 => decRow w [] [(11, 53)] (.wswap (fld w 0 5))
  | 4 => decRow w [] [(14, 50)] (.mcommit (fld w 11 3) (fld w 0 5))
  | 5 => decRow w [] [(14, 4), (31, 33)] (.accz (fld w 11 3) (fld w 18 6) (fld w 24 7) (fld w 0 5))
  | 6 => decRow w [] [(57, 7)] (.accrd (fld w 11 3) (fld w 14 3) (fld w 17 2) (fld w 19 6) (fld w 25 7) (fld w 32 4) (fld w 36 4) (fld w 40 6) (fld w 46 6) (fld w 52 5) (fld w 0 5))
  | 7 => decRow w [] [(17, 1), (31, 33)] (.accwr (fld w 11 3) (fld w 14 3) (fld w 18 6) (fld w 24 7) (fld w 0 5))
  | 8 => decRow w [] [(11, 3), (17, 47)] (.rpop (fld w 14 3) (fld w 0 5))
  | _ => .illegalOpcode

/-- The SF slot (R289). -/
def decodeSf (w : Nat) : DecRes :=
  match (w >>> 5) % 16, (w >>> 9) % 2 with
  | 0, 0 => decRow w [] [(23, 9)] (.rcpVector (fld w 10 3) (fld w 13 5) (fld w 18 5) (fld w 0 5))
  | 0, 1 => decRow w [] [(22, 10)] (.rcpScalar (fld w 10 6) (fld w 16 6) (fld w 0 5))
  | 1, 0 => decRow w [] [(23, 9)] (.rsqVector (fld w 10 3) (fld w 13 5) (fld w 18 5) (fld w 0 5))
  | 1, 1 => decRow w [] [(22, 10)] (.rsqScalar (fld w 10 6) (fld w 16 6) (fld w 0 5))
  | 2, 0 => decRow w [] [(23, 9)] (.sqrtVector (fld w 10 3) (fld w 13 5) (fld w 18 5) (fld w 0 5))
  | 2, 1 => decRow w [] [(22, 10)] (.sqrtScalar (fld w 10 6) (fld w 16 6) (fld w 0 5))
  | 3, 0 => decRow w [] [(23, 9)] (.exp2Vector (fld w 10 3) (fld w 13 5) (fld w 18 5) (fld w 0 5))
  | 3, 1 => decRow w [] [(22, 10)] (.exp2Scalar (fld w 10 6) (fld w 16 6) (fld w 0 5))
  | 4, 0 => decRow w [] [(23, 9)] (.log2Vector (fld w 10 3) (fld w 13 5) (fld w 18 5) (fld w 0 5))
  | 4, 1 => decRow w [] [(22, 10)] (.log2Scalar (fld w 10 6) (fld w 16 6) (fld w 0 5))
  | 5, 0 => decRow w [] [(23, 9)] (.sinVector (fld w 10 3) (fld w 13 5) (fld w 18 5) (fld w 0 5))
  | 5, 1 => decRow w [] [(22, 10)] (.sinScalar (fld w 10 6) (fld w 16 6) (fld w 0 5))
  | 6, 0 => decRow w [] [(23, 9)] (.cosVector (fld w 10 3) (fld w 13 5) (fld w 18 5) (fld w 0 5))
  | 6, 1 => decRow w [] [(22, 10)] (.cosScalar (fld w 10 6) (fld w 16 6) (fld w 0 5))
  | 7, 0 => decRow w [] [(23, 9)] (.tanhVector (fld w 10 3) (fld w 13 5) (fld w 18 5) (fld w 0 5))
  | 7, 1 => decRow w [] [(22, 10)] (.tanhScalar (fld w 10 6) (fld w 16 6) (fld w 0 5))
  | 8, 0 => decRow w [] [(23, 9)] (.sigmVector (fld w 10 3) (fld w 13 5) (fld w 18 5) (fld w 0 5))
  | 8, 1 => decRow w [] [(22, 10)] (.sigmScalar (fld w 10 6) (fld w 16 6) (fld w 0 5))
  | 9, 0 => decRow w [] [(23, 9)] (.erfVector (fld w 10 3) (fld w 13 5) (fld w 18 5) (fld w 0 5))
  | 9, 1 => decRow w [] [(22, 10)] (.erfScalar (fld w 10 6) (fld w 16 6) (fld w 0 5))
  | _, _ => .illegalOpcode

/-- The V slot of cluster `cl` (R290, R291). -/
def decodeV (cl w : Nat) : DecRes :=
  if (w >>> 5) % 2 == 1 then decRow w [] [(61, 3)] (.vx (BitVec.ofNat 3 cl) (fld w 6 5) (fld w 11 5) (fld w 16 5) (fld w 21 5) (fld w 26 5) (fld w 31 5) (fld w 36 5) (fld w 41 5) (fld w 46 2) (fld w 48 2) (fld w 50 2) (fld w 52 3) (fld w 55 3) (fld w 58 3) (fld w 0 5))
  else match (w >>> 6) % 64 with
  | 0 => decRow w [(36, 4)] [(40, 24)] (.vdot (BitVec.ofNat 3 cl) (fld w 12 5) (fld w 17 5) (fld w 22 5) (fld w 27 5) (fld w 32 2) (fld w 34 2) (fld w 0 5))
  | 1 => decRow w [(28, 3)] [(31, 33)] (.vred (BitVec.ofNat 3 cl) (fld w 17 6) (fld w 12 5) (fld w 23 3) (fld w 26 2) (fld w 0 5))
  | 2 => decRow w [(32, 8)] [(40, 24)] (.vperm (BitVec.ofNat 3 cl) (fld w 12 5) (fld w 17 5) (fld w 22 5) (fld w 27 5) (fld w 0 5))
  | 3 => decRow w [(25, 6)] [(31, 33)] (.vbcast (BitVec.ofNat 3 cl) (fld w 12 5) (fld w 17 6) (fld w 23 2) (fld w 0 5))
  | 4 => decRow w [] [(25, 39)] (.vxc (BitVec.ofNat 3 cl) (fld w 12 5) (fld w 17 3) (fld w 20 5) (fld w 0 5))
  | 5 => decRow w [(32, 8)] [(22, 10), (40, 24)] (.vmov (BitVec.ofNat 3 cl) (fld w 12 5) (fld w 17 5) (fld w 0 5))
  | 6 => decRow w [(34, 6)] [(17, 15), (40, 24)] (.viota (BitVec.ofNat 3 cl) (fld w 12 5) (fld w 32 2) (fld w 0 5))
  | 8 => decRow w [] [(55, 9)] (.vld (BitVec.ofNat 3 cl) (fld w 12 5) (fld w 17 4) (fld w 21 6) (fld w 31 24) (fld w 27 4) (fld w 0 5))
  | 9 => decRow w [] [(55, 9)] (.vst (BitVec.ofNat 3 cl) (fld w 12 5) (fld w 17 4) (fld w 21 6) (fld w 31 24) (fld w 27 4) (fld w 0 5))
  | 12 => decRow w [] [(55, 9)] (.vldt (BitVec.ofNat 3 cl) (fld w 12 5) (fld w 17 4) (fld w 21 6) (fld w 31 24) (fld w 27 4) (fld w 0 5))
  | 13 => decRow w [] [(55, 9)] (.vstt (BitVec.ofNat 3 cl) (fld w 12 5) (fld w 17 4) (fld w 21 6) (fld w 31 24) (fld w 27 4) (fld w 0 5))
  | 10 => decRow w [] [(60, 4)] (.vldx (BitVec.ofNat 3 cl) (fld w 12 5) (fld w 17 4) (fld w 21 6) (fld w 31 24) (fld w 55 5) (fld w 27 4) (fld w 0 5))
  | 11 => decRow w [] [(60, 4)] (.vstx (BitVec.ofNat 3 cl) (fld w 12 5) (fld w 17 4) (fld w 21 6) (fld w 31 24) (fld w 55 5) (fld w 27 4) (fld w 0 5))
  | 16 => decRow w [] [(15, 5), (26, 38)] (.pfcfg (BitVec.ofNat 3 cl) (fld w 12 3) (fld w 20 6) (fld w 0 5))
  | 17 => decRow w [] [(26, 38)] (.pfins (BitVec.ofNat 3 cl) (fld w 12 3) (fld w 15 5) (fld w 20 6) (fld w 0 5))
  | 18 => decRow w [] [(26, 5), (36, 28)] (.pftst (BitVec.ofNat 3 cl) (fld w 31 5) (fld w 12 3) (fld w 15 5) (fld w 20 6) (fld w 0 5))
  | 19 => decRow w [] [(15, 13), (31, 33)] (.pfmrg (BitVec.ofNat 3 cl) (fld w 12 3) (fld w 28 3) (fld w 0 5))
  | 20 => decRow w [] [(26, 38)] (.pfrd (BitVec.ofNat 3 cl) (fld w 15 5) (fld w 12 3) (fld w 20 6) (fld w 0 5))
  | 21 => decRow w [] [(15, 5), (28, 36)] (.pfcnt (BitVec.ofNat 3 cl) (fld w 20 6) (fld w 12 3) (fld w 26 2) (fld w 0 5))
  | 22 => decRow w [] [(15, 49)] (.pfclr (BitVec.ofNat 3 cl) (fld w 12 3) (fld w 0 5))
  | 23 => decRow w [] [(15, 2), (55, 9)] (.pfspl (BitVec.ofNat 3 cl) (fld w 12 3) (fld w 17 4) (fld w 21 6) (fld w 31 24) (fld w 27 4) (fld w 0 5))
  | 24 => decRow w [] [(15, 2), (55, 9)] (.pffil (BitVec.ofNat 3 cl) (fld w 12 3) (fld w 17 4) (fld w 21 6) (fld w 31 24) (fld w 27 4) (fld w 0 5))
  | _ => .illegalOpcode

/-- The rows of Lamesque-B (R398 to R400). -/
noncomputable def ballastRow (w : Nat) : DecRes :=
  match (w >>> 26) % 64 with
  | 0 => decRow w [] [(0, 11)] (.bAdd (fld w 21 5) (fld w 16 5) (fld w 11 5))
  | 1 => decRow w [] [(0, 11)] (.bSub (fld w 21 5) (fld w 16 5) (fld w 11 5))
  | 2 => decRow w [] [(0, 11)] (.bMul (fld w 21 5) (fld w 16 5) (fld w 11 5))
  | 3 => decRow w [] [(0, 11)] (.bAnd (fld w 21 5) (fld w 16 5) (fld w 11 5))
  | 4 => decRow w [] [(0, 11)] (.bOr (fld w 21 5) (fld w 16 5) (fld w 11 5))
  | 5 => decRow w [] [(0, 11)] (.bXor (fld w 21 5) (fld w 16 5) (fld w 11 5))
  | 6 => decRow w [] [(0, 11)] (.bShl (fld w 21 5) (fld w 16 5) (fld w 11 5))
  | 7 => decRow w [] [(0, 11)] (.bShr (fld w 21 5) (fld w 16 5) (fld w 11 5))
  | 8 => decRow w [] [(0, 11)] (.bSar (fld w 21 5) (fld w 16 5) (fld w 11 5))
  | 9 => decRow w [] [(0, 11)] (.bMin (fld w 21 5) (fld w 16 5) (fld w 11 5))
  | 10 => decRow w [] [(0, 11)] (.bMax (fld w 21 5) (fld w 16 5) (fld w 11 5))
  | 16 => decRow w [] [] (.bAddi (fld w 21 5) (fld w 16 5) (fld w 0 16))
  | 17 => decRow w [] [] (.bAndi (fld w 21 5) (fld w 16 5) (fld w 0 16))
  | 18 => decRow w [] [] (.bOri (fld w 21 5) (fld w 16 5) (fld w 0 16))
  | 19 => decRow w [] [] (.bXori (fld w 21 5) (fld w 16 5) (fld w 0 16))
  | 20 => decRow w [] [(16, 5)] (.bLui (fld w 21 5) (fld w 0 16))
  | 21 => decRow w [] [(6, 10)] (.bShli (fld w 21 5) (fld w 16 5) (fld w 0 6))
  | 24 => decRow w [] [] (.bBeq (fld w 21 5) (fld w 16 5) (fld w 0 16))
  | 25 => decRow w [] [] (.bBne (fld w 21 5) (fld w 16 5) (fld w 0 16))
  | 26 => decRow w [] [] (.bBlt (fld w 21 5) (fld w 16 5) (fld w 0 16))
  | 27 => decRow w [] [] (.bBge (fld w 21 5) (fld w 16 5) (fld w 0 16))
  | 28 => decRow w [] [] (.bBltu (fld w 21 5) (fld w 16 5) (fld w 0 16))
  | 29 => decRow w [] [] (.bBgeu (fld w 21 5) (fld w 16 5) (fld w 0 16))
  | 30 => decRow w [] [] (.bJ (fld w 0 26))
  | 32 => decRow w [] [(12, 2), (21, 5)] (.ropen (fld w 14 2) (fld w 16 5) (fld w 0 12))
  | 33 => decRow w [] [] (.ldy (fld w 21 5) (fld w 14 2) (fld w 16 5) (fld w 0 12) (fld w 12 2))
  | 34 => decRow w [] [] (.sty (fld w 21 5) (fld w 14 2) (fld w 16 5) (fld w 0 12) (fld w 12 2))
  | 35 => decRow w [] [(12, 2), (25, 1)] (.vldy (fld w 21 4) (fld w 14 2) (fld w 16 5) (fld w 0 12))
  | 36 => decRow w [] [(12, 2), (25, 1)] (.vsty (fld w 21 4) (fld w 14 2) (fld w 16 5) (fld w 0 12))
  | 37 => decRow w [] [(0, 15)] (.rred (fld w 24 2) (fld w 20 4) (fld w 17 3) (fld w 15 2))
  | 40 => decRow w [] [(0, 12)] (.bVadd (fld w 22 4) (fld w 18 4) (fld w 14 4) (fld w 12 2))
  | 41 => decRow w [] [(0, 12)] (.bVsub (fld w 22 4) (fld w 18 4) (fld w 14 4) (fld w 12 2))
  | 42 => decRow w [] [(0, 12)] (.bVmul (fld w 22 4) (fld w 18 4) (fld w 14 4) (fld w 12 2))
  | 43 => decRow w [] [(0, 12)] (.bVmin (fld w 22 4) (fld w 18 4) (fld w 14 4) (fld w 12 2))
  | 44 => decRow w [] [(0, 12)] (.bVmax (fld w 22 4) (fld w 18 4) (fld w 14 4) (fld w 12 2))
  | 45 => decRow w [] [(0, 14)] (.bVand (fld w 22 4) (fld w 18 4) (fld w 14 4))
  | 46 => decRow w [] [(0, 14)] (.bVor (fld w 22 4) (fld w 18 4) (fld w 14 4))
  | 47 => decRow w [] [(0, 14)] (.bVxor (fld w 22 4) (fld w 18 4) (fld w 14 4))
  | 48 => decRow w [] [(0, 16), (21, 1)] (.vbc (fld w 22 4) (fld w 16 5))
  | 49 => decRow w [] [(0, 12)] (.bVred (fld w 21 5) (fld w 17 4) (fld w 14 3) (fld w 12 2))
  | 50 => decRow w [] [(0, 22)] (.bViota (fld w 22 4))
  | 56 => decRow w [] [(0, 13)] (.kpost (fld w 21 5) (fld w 13 8))
  | 57 => decRow w [] [(0, 26)] .yieldb
  | 58 => decRow w [] [(0, 26)] .endb
  | _ => .illegalOpcode

/-- A Lamesque-B word: every refusal is `ILLEGAL_OPCODE` (R197). -/
noncomputable def decodeBallast (w : Nat) : DecRes :=
  match ballastRow w with
  | .ok i => .ok i
  | _ => .illegalOpcode

/-- The rows a header word shows: its restart mark, else its sync operation, else nothing (R275). -/
def decodeHeader (w : Nat) : DecRes :=
  if (w >>> 31) % 2 == 1 then .illegalBundle
  else if (w >>> 16) % 4 == 0 && (w >>> 18) % 2 ^ 13 != 0 then .illegalBundle
  else if (w >>> 15) % 2 == 1 then .ok (.restartMark (fld w 23 8) (fld w 18 5) (fld w 16 2) (fld w 0 15))
  else match (w >>> 16) % 4 with
  | 1 => .ok (.wait (fld w 23 8) (fld w 18 5) (fld w 15 1) (fld w 0 15))
  | 2 => .ok (.post (fld w 23 8) (fld w 18 5) (fld w 15 1) (fld w 0 15))
  | 3 => .ok (.take (fld w 23 8) (fld w 18 5) (fld w 15 1) (fld w 0 15))
  | _ => .ok .idle

/-- The bytes of the slot at mask bit `k` (R275). -/
def slotBytes (k : Nat) : Nat := if k == 3 || k == 4 || k == 5 || decide (7 ≤ k) then 8 else 4

/-- The slot at mask bit `k` decoded (R276 steps 3 to 6); `sys` when the segment's code handle has the system bit. -/
def decodeSlot (sys : Bool) (k w : Nat) : DecRes :=
  let r : DecRes := match k with
    | 0 => decodeCtl w
    | 1 => decodeScalar w
    | 2 => decodeScalar w
    | 3 => decodeLs w
    | 4 => decodeCp w
    | 5 => decodeMx w
    | 6 => decodeSf w
    | _ => decodeV (k - 7) w
  let priv := (k == 0 && (w >>> 5) % 32 == 11) || (k == 3 && decide (96 ≤ (w >>> 5) % 128) && decide ((w >>> 5) % 128 ≤ 110))
  if priv && !sys then .privOpcode else r

/-- A decoded bundle (R275): whether M is set, the sync field, flag and count, the slots present with their mask
bits, in mask order, and the length in bytes. -/
structure Bundle where
  m : Bool
  sync : Nat
  flag : Nat
  count : Nat
  slots : List (Nat × Instr)
  len : Nat
deriving DecidableEq, Repr

/-- What decoding a bundle gives: the bundle, an encoding fault in a slot (`whole` when it belongs to the whole
bundle), or the end of the segment passed (R13). -/
inductive BundleRes where
  | ok (b : Bundle)
  | bad (slot : Nat) (whole : Bool) (r : DecRes)
  | pastEnd
deriving DecidableEq, Repr

/-- No destination is named twice. -/
def noDup : List Dest → Bool
  | [] => true
  | d :: r => !r.contains d && noDup r

/-- The bundle is a mark bundle for the encoding checks (R24, R276 step 7). -/
def Bundle.isMark (b : Bundle) : Bool := b.m || b.slots.any (fun x => ctlMark x.2)

/-- Step 7 of R276: R10, R101, and the operations confined to mark bundles. -/
def Bundle.wholeOk (b : Bundle) : Bool :=
  noDup (b.slots.flatMap (fun x => dests x.2)) &&
  !(b.slots.any (fun x => match x.2 with | .setfmt .. => true | _ => false) &&
    b.slots.any (fun x => mxReadsFmt x.2)) &&
  (b.isMark || (b.sync != 2 && !b.slots.any (fun x => markOnly x.2)))

/-- The slots that the mask names, read from the bytes after the header (R275). The list gives the mask bits still
to look at. -/
def decodeSlots (sys : Bool) (mask : Nat) : List Nat → List Byte → Nat → List (Nat × Instr) → BundleRes ⊕ (List (Nat × Instr) × Nat)
  | [], _, len, acc => .inr (acc.reverse, len)
  | k :: ks, bs, len, acc =>
    if (mask >>> k) % 2 == 0 then decodeSlots sys mask ks bs len acc
    else match decodeSlot sys k (leNat (bs.take (slotBytes k))) with
      | .ok i => decodeSlots sys mask ks (bs.drop (slotBytes k)) (len + slotBytes k) ((k, i) :: acc)
      | r => .inl (.bad k false r)

/-- The length of the bundle whose mask is given (R275). -/
def bundleLen (mask : Nat) : Nat :=
  (upFrom 0 15).foldl (fun n k => if (mask >>> k) % 2 == 1 then n + slotBytes k else n) 4

/-- A bundle decoded from the bytes at its address up to the end of the segment's code, under the checks of R276 in
their order. `latOk` is false when the segment declares a latency of 0 (step 1). -/
def decodeBundle (sys latOk : Bool) (bs : List Byte) : BundleRes :=
  if !latOk then .bad 0 true .illegalBundle
  else if decide (bs.length < 4) then .pastEnd
  else
    let w := leNat (bs.take 4)
    if (w >>> 31) % 2 == 1 || ((w >>> 16) % 4 == 0 && (w >>> 18) % 2 ^ 13 != 0) then .bad 0 true .illegalBundle
    else
      let mask := w % 2 ^ 15
      if decide (bs.length < bundleLen mask) then .pastEnd
      else match decodeSlots sys mask (upFrom 0 15) (bs.drop 4) 4 [] with
        | .inl r => r
        | .inr (sl, len) =>
          let b : Bundle := { m := (w >>> 15) % 2 == 1, sync := (w >>> 16) % 4, flag := (w >>> 18) % 32,
                              count := (w >>> 23) % 256, slots := sl, len := len }
          if b.wholeOk then .ok b else .bad 0 true .illegalBundle

/-- The word whose fields, from bit 0 upwards, have the given widths and values. -/
def pack : List (Nat × Nat) → Nat
  | [] => 0
  | (w, v) :: r => v % 2 ^ w + 2 ^ w * pack r

/-- The fields of an encoded instruction's word from bit 0 upwards, as (width, value), after the word's width.
Events have no word. -/
def encFields : Instr → Option (Nat × List (Nat × Nat))
  | .restartMark c f y k => some (32, [(15, k.toNat), (1, 1), (2, y.toNat), (5, f.toNat), (8, c.toNat), (1, 0)])
  | .idle => some (32, [(32, 0)])
  | .wait c f mk k => some (32, [(15, k.toNat), (1, mk.toNat), (2, 1), (5, f.toNat), (8, c.toNat), (1, 0)])
  | .take c f mk k => some (32, [(15, k.toNat), (1, mk.toNat), (2, 3), (5, f.toNat), (8, c.toNat), (1, 0)])
  | .post c f mk k => some (32, [(15, k.toNat), (1, mk.toNat), (2, 2), (5, f.toNat), (8, c.toNat), (1, 0)])
  | .br off p => some (32, [(5, p.toNat), (5, 0), (22, off.toNat)])
  | .brp q n off p => some (32, [(5, p.toNat), (5, 1), (4, q.toNat), (1, n.toNat), (17, off.toNat)])
  | .call d off p => some (32, [(5, p.toNat), (5, 2), (6, d.toNat), (16, off.toNat)])
  | .ret a p => some (32, [(5, p.toNat), (5, 3), (6, a.toNat), (16, 0)])
  | .jmpr a off p => some (32, [(5, p.toNat), (5, 4), (6, a.toNat), (16, off.toNat)])
  | .loop ln body cnt p => some (32, [(5, p.toNat), (5, 5), (3, ln.toNat), (4, body.toNat), (15, cnt.toNat)])
  | .loopx ln a body p => some (32, [(5, p.toNat), (5, 6), (3, ln.toNat), (4, body.toNat), (6, a.toNat), (9, 0)])
  | .yield p => some (32, [(5, p.toNat), (5, 7), (22, 0)])
  | .exit p => some (32, [(5, p.toNat), (5, 8), (22, 0)])
  | .trap imm p => some (32, [(5, p.toNat), (5, 9), (16, imm.toNat), (6, 0)])
  | .svc imm p => some (32, [(5, p.toNat), (5, 10), (16, imm.toNat), (6, 0)])
  | .eret p => some (32, [(5, p.toNat), (5, 11), (22, 0)])
  | .setfmt a p => some (32, [(5, p.toNat), (5, 12), (6, a.toNat), (16, 0)])
  | .fmtrd d p => some (32, [(5, p.toNat), (5, 13), (6, d.toNat), (16, 0)])
  | .mdpc a off p => some (32, [(5, p.toNat), (5, 14), (6, a.toNat), (16, off.toNat)])
  | .step lvl p => some (32, [(5, p.toNat), (5, 15), (3, lvl.toNat), (19, 0)])
  | .barr lvl p => some (32, [(5, p.toNat), (5, 16), (3, lvl.toNat), (19, 0)])
  | .mwait tag p => some (32, [(5, p.toNat), (5, 17), (3, tag.toNat), (19, 0)])
  | .park imm p => some (32, [(5, p.toNat), (5, 18), (16, imm.toNat), (6, 0)])
  | .add d a b p => some (32, [(5, p.toNat), (6, 0), (6, d.toNat), (6, a.toNat), (6, b.toNat), (3, 0)])
  | .addi d a imm p => some (32, [(5, p.toNat), (6, 1), (6, d.toNat), (6, a.toNat), (9, imm.toNat)])
  | .sub d a b p => some (32, [(5, p.toNat), (6, 2), (6, d.toNat), (6, a.toNat), (6, b.toNat), (3, 0)])
  | .mul d a b p => some (32, [(5, p.toNat), (6, 3), (6, d.toNat), (6, a.toNat), (6, b.toNat), (3, 0)])
  | .mulh d a b p => some (32, [(5, p.toNat), (6, 4), (6, d.toNat), (6, a.toNat), (6, b.toNat), (3, 0)])
  | .mulhu d a b p => some (32, [(5, p.toNat), (6, 5), (6, d.toNat), (6, a.toNat), (6, b.toNat), (3, 0)])
  | .div d a b p => some (32, [(5, p.toNat), (6, 6), (6, d.toNat), (6, a.toNat), (6, b.toNat), (3, 0)])
  | .divu d a b p => some (32, [(5, p.toNat), (6, 7), (6, d.toNat), (6, a.toNat), (6, b.toNat), (3, 0)])
  | .rem d a b p => some (32, [(5, p.toNat), (6, 8), (6, d.toNat), (6, a.toNat), (6, b.toNat), (3, 0)])
  | .remu d a b p => some (32, [(5, p.toNat), (6, 9), (6, d.toNat), (6, a.toNat), (6, b.toNat), (3, 0)])
  | .and d a b p => some (32, [(5, p.toNat), (6, 10), (6, d.toNat), (6, a.toNat), (6, b.toNat), (3, 0)])
  | .andi d a imm p => some (32, [(5, p.toNat), (6, 11), (6, d.toNat), (6, a.toNat), (9, imm.toNat)])
  | .or d a b p => some (32, [(5, p.toNat), (6, 12), (6, d.toNat), (6, a.toNat), (6, b.toNat), (3, 0)])
  | .ori d a imm p => some (32, [(5, p.toNat), (6, 13), (6, d.toNat), (6, a.toNat), (9, imm.toNat)])
  | .xor d a b p => some (32, [(5, p.toNat), (6, 14), (6, d.toNat), (6, a.toNat), (6, b.toNat), (3, 0)])
  | .xori d a imm p => some (32, [(5, p.toNat), (6, 15), (6, d.toNat), (6, a.toNat), (9, imm.toNat)])
  | .andn d a b p => some (32, [(5, p.toNat), (6, 16), (6, d.toNat), (6, a.toNat), (6, b.toNat), (3, 0)])
  | .shl d a b p => some (32, [(5, p.toNat), (6, 17), (6, d.toNat), (6, a.toNat), (6, b.toNat), (3, 0)])
  | .shr d a b p => some (32, [(5, p.toNat), (6, 18), (6, d.toNat), (6, a.toNat), (6, b.toNat), (3, 0)])
  | .sar d a b p => some (32, [(5, p.toNat), (6, 19), (6, d.toNat), (6, a.toNat), (6, b.toNat), (3, 0)])
  | .rot d a b p => some (32, [(5, p.toNat), (6, 20), (6, d.toNat), (6, a.toNat), (6, b.toNat), (3, 0)])
  | .clz d a p => some (32, [(5, p.toNat), (6, 21), (6, d.toNat), (6, a.toNat), (9, 0)])
  | .ctz d a p => some (32, [(5, p.toNat), (6, 22), (6, d.toNat), (6, a.toNat), (9, 0)])
  | .popc d a p => some (32, [(5, p.toNat), (6, 23), (6, d.toNat), (6, a.toNat), (9, 0)])
  | .brev d a p => some (32, [(5, p.toNat), (6, 24), (6, d.toNat), (6, a.toNat), (9, 0)])
  | .bswap d a p => some (32, [(5, p.toNat), (6, 25), (6, d.toNat), (6, a.toNat), (9, 0)])
  | .min d a b p => some (32, [(5, p.toNat), (6, 26), (6, d.toNat), (6, a.toNat), (6, b.toNat), (3, 0)])
  | .max d a b p => some (32, [(5, p.toNat), (6, 27), (6, d.toNat), (6, a.toNat), (6, b.toNat), (3, 0)])
  | .minu d a b p => some (32, [(5, p.toNat), (6, 28), (6, d.toNat), (6, a.toNat), (6, b.toNat), (3, 0)])
  | .maxu d a b p => some (32, [(5, p.toNat), (6, 29), (6, d.toNat), (6, a.toNat), (6, b.toNat), (3, 0)])
  | .abs d a p => some (32, [(5, p.toNat), (6, 30), (6, d.toNat), (6, a.toNat), (9, 0)])
  | .ext d a wd sg p => some (32, [(5, p.toNat), (6, 31), (6, d.toNat), (6, a.toNat), (6, 0), (2, wd.toNat), (1, sg.toNat)])
  | .bfx d a b p => some (32, [(5, p.toNat), (6, 32), (6, d.toNat), (6, a.toNat), (6, b.toNat), (3, 0)])
  | .bfi d a b p => some (32, [(5, p.toNat), (6, 33), (6, d.toNat), (6, a.toNat), (6, b.toNat), (3, 0)])
  | .mov d a p => some (32, [(5, p.toNat), (6, 34), (6, d.toNat), (6, a.toNat), (9, 0)])
  | .movi d imm p => some (32, [(5, p.toNat), (6, 35), (6, d.toNat), (15, imm.toNat)])
  | .movhi d imm p => some (32, [(5, p.toNat), (6, 36), (6, d.toNat), (15, imm.toNat)])
  | .sel d ps a b p => some (32, [(5, p.toNat), (6, 37), (6, d.toNat), (6, a.toNat), (6, b.toNat), (3, ps.toNat)])
  | .cmp pd a b cond p => some (32, [(5, p.toNat), (6, 38), (4, pd.toNat), (2, 0), (6, a.toNat), (6, b.toNat), (3, cond.toNat)])
  | .cmpi pd a imm cond p => some (32, [(5, p.toNat), (6, 39), (4, pd.toNat), (3, cond.toNat), (6, a.toNat), (8, imm.toNat)])
  | .pset pd pa pb tt p => some (32, [(5, p.toNat), (6, 40), (4, pd.toNat), (4, pa.toNat), (4, pb.toNat), (4, tt.toNat), (5, 0)])
  | .pmovRd d p => some (32, [(5, p.toNat), (6, 41), (6, d.toNat), (12, 0), (3, 0)])
  | .pmovWr a p => some (32, [(5, p.toNat), (6, 41), (6, 0), (6, a.toNat), (6, 0), (3, 1)])
  | .fadd d a b p => some (32, [(5, p.toNat), (6, 42), (6, d.toNat), (6, a.toNat), (6, b.toNat), (3, 0)])
  | .fsub d a b p => some (32, [(5, p.toNat), (6, 43), (6, d.toNat), (6, a.toNat), (6, b.toNat), (3, 0)])
  | .fmul d a b p => some (32, [(5, p.toNat), (6, 44), (6, d.toNat), (6, a.toNat), (6, b.toNat), (3, 0)])
  | .ffma d a b p => some (32, [(5, p.toNat), (6, 45), (6, d.toNat), (6, a.toNat), (6, b.toNat), (3, 0)])
  | .fmin d a b p => some (32, [(5, p.toNat), (6, 46), (6, d.toNat), (6, a.toNat), (6, b.toNat), (3, 0)])
  | .fmax d a b p => some (32, [(5, p.toNat), (6, 47), (6, d.toNat), (6, a.toNat), (6, b.toNat), (3, 0)])
  | .fsgnCp d a b p => some (32, [(5, p.toNat), (6, 48), (6, d.toNat), (6, a.toNat), (6, b.toNat), (3, 0)])
  | .fsgnNeg d a b p => some (32, [(5, p.toNat), (6, 48), (6, d.toNat), (6, a.toNat), (6, b.toNat), (3, 1)])
  | .fsgnXor d a b p => some (32, [(5, p.toNat), (6, 48), (6, d.toNat), (6, a.toNat), (6, b.toNat), (3, 2)])
  | .fcmp pd a b cond p => some (32, [(5, p.toNat), (6, 49), (4, pd.toNat), (2, 0), (6, a.toNat), (6, b.toNat), (3, cond.toNat)])
  | .fcvtI32F32 d a p => some (32, [(5, p.toNat), (6, 50), (6, d.toNat), (6, a.toNat), (6, 0), (3, 0)])
  | .fcvtF32I32 d a p => some (32, [(5, p.toNat), (6, 50), (6, d.toNat), (6, a.toNat), (6, 0), (3, 1)])
  | .fcvtU32F32 d a p => some (32, [(5, p.toNat), (6, 50), (6, d.toNat), (6, a.toNat), (6, 0), (3, 2)])
  | .fcvtF32U32 d a p => some (32, [(5, p.toNat), (6, 50), (6, d.toNat), (6, a.toNat), (6, 0), (3, 3)])
  | .fcvtF16F32 d a p => some (32, [(5, p.toNat), (6, 50), (6, d.toNat), (6, a.toNat), (6, 0), (3, 4)])
  | .fcvtF32F16 d a p => some (32, [(5, p.toNat), (6, 50), (6, d.toNat), (6, a.toNat), (6, 0), (3, 5)])
  | .fcvtBf16F32 d a p => some (32, [(5, p.toNat), (6, 50), (6, d.toNat), (6, a.toNat), (6, 0), (3, 6)])
  | .fcvtF32Bf16 d a p => some (32, [(5, p.toNat), (6, 50), (6, d.toNat), (6, a.toNat), (6, 0), (3, 7)])
  | .fclass d a p => some (32, [(5, p.toNat), (6, 51), (6, d.toNat), (6, a.toNat), (9, 0)])
  | .ld d h x imm sz sx cls p => some (64, [(5, p.toNat), (7, 0), (4, cls.toNat), (2, sz.toNat), (1, sx.toNat), (6, d.toNat), (4, h.toNat), (6, x.toNat), (24, imm.toNat), (5, 0)])
  | .st d h x imm sz cls p => some (64, [(5, p.toNat), (7, 1), (4, cls.toNat), (2, sz.toNat), (1, 0), (6, d.toNat), (4, h.toNat), (6, x.toNat), (24, imm.toNat), (5, 0)])
  | .ldWalk w h x imm cls p => some (64, [(5, p.toNat), (7, 0), (4, cls.toNat), (2, 3), (1, 0), (3, w.toNat), (3, 0), (4, h.toNat), (6, x.toNat), (24, imm.toNat), (5, 1)])
  | .stWalk w h x imm cls p => some (64, [(5, p.toNat), (7, 1), (4, cls.toNat), (2, 3), (1, 0), (3, w.toNat), (3, 0), (4, h.toNat), (6, x.toNat), (24, imm.toNat), (5, 1)])
  | .xlate hd a p => some (64, [(5, p.toNat), (7, 2), (4, hd.toNat), (6, a.toNat), (2, 0), (40, 0)])
  | .xlateScratch hd p => some (64, [(5, p.toNat), (7, 2), (4, hd.toNat), (6, 0), (2, 1), (40, 0)])
  | .xlatePlane hd pidx p => some (64, [(5, p.toNat), (7, 2), (4, hd.toNat), (6, 0), (2, 2), (4, pidx.toNat), (36, 0)])
  | .hfree hd p => some (64, [(5, p.toNat), (7, 3), (4, hd.toNat), (48, 0)])
  | .htest d hd p => some (64, [(5, p.toNat), (7, 4), (4, hd.toNat), (12, 0), (6, d.toNat), (30, 0)])
  | .aadd d h x imm a dw cls p => some (64, [(5, p.toNat), (7, 8), (4, cls.toNat), (1, dw.toNat), (1, 1), (6, d.toNat), (4, h.toNat), (6, x.toNat), (6, a.toNat), (10, 0), (14, imm.toNat)])
  | .aand d h x imm a dw cls p => some (64, [(5, p.toNat), (7, 9), (4, cls.toNat), (1, dw.toNat), (1, 1), (6, d.toNat), (4, h.toNat), (6, x.toNat), (6, a.toNat), (10, 0), (14, imm.toNat)])
  | .aor d h x imm a dw cls p => some (64, [(5, p.toNat), (7, 10), (4, cls.toNat), (1, dw.toNat), (1, 1), (6, d.toNat), (4, h.toNat), (6, x.toNat), (6, a.toNat), (10, 0), (14, imm.toNat)])
  | .axor d h x imm a dw cls p => some (64, [(5, p.toNat), (7, 11), (4, cls.toNat), (1, dw.toNat), (1, 1), (6, d.toNat), (4, h.toNat), (6, x.toNat), (6, a.toNat), (10, 0), (14, imm.toNat)])
  | .amin d h x imm a dw cls p => some (64, [(5, p.toNat), (7, 12), (4, cls.toNat), (1, dw.toNat), (1, 1), (6, d.toNat), (4, h.toNat), (6, x.toNat), (6, a.toNat), (10, 0), (14, imm.toNat)])
  | .amax d h x imm a dw cls p => some (64, [(5, p.toNat), (7, 13), (4, cls.toNat), (1, dw.toNat), (1, 1), (6, d.toNat), (4, h.toNat), (6, x.toNat), (6, a.toNat), (10, 0), (14, imm.toNat)])
  | .aminu d h x imm a dw cls p => some (64, [(5, p.toNat), (7, 14), (4, cls.toNat), (1, dw.toNat), (1, 1), (6, d.toNat), (4, h.toNat), (6, x.toNat), (6, a.toNat), (10, 0), (14, imm.toNat)])
  | .amaxu d h x imm a dw cls p => some (64, [(5, p.toNat), (7, 15), (4, cls.toNat), (1, dw.toNat), (1, 1), (6, d.toNat), (4, h.toNat), (6, x.toNat), (6, a.toNat), (10, 0), (14, imm.toNat)])
  | .axchg d h x imm a dw cls p => some (64, [(5, p.toNat), (7, 16), (4, cls.toNat), (1, dw.toNat), (1, 1), (6, d.toNat), (4, h.toNat), (6, x.toNat), (6, a.toNat), (10, 0), (14, imm.toNat)])
  | .acas d h x imm a b dw cls p => some (64, [(5, p.toNat), (7, 17), (4, cls.toNat), (1, dw.toNat), (1, 1), (6, d.toNat), (4, h.toNat), (6, x.toNat), (6, a.toNat), (6, b.toNat), (4, 0), (14, imm.toNat)])
  | .afadd d h x imm a cls p => some (64, [(5, p.toNat), (7, 18), (4, cls.toNat), (2, 2), (6, d.toNat), (4, h.toNat), (6, x.toNat), (6, a.toNat), (10, 0), (14, imm.toNat)])
  | .nmrAdd h x imm a dw cls p => some (64, [(5, p.toNat), (7, 24), (4, cls.toNat), (1, dw.toNat), (1, 1), (6, 0), (4, h.toNat), (6, x.toNat), (6, a.toNat), (6, 0), (4, 0), (14, imm.toNat)])
  | .nmrFadd h x imm a cls p => some (64, [(5, p.toNat), (7, 24), (4, cls.toNat), (2, 2), (6, 0), (4, h.toNat), (6, x.toNat), (6, a.toNat), (6, 0), (4, 1), (14, imm.toNat)])
  | .nmrMin h x imm a dw cls p => some (64, [(5, p.toNat), (7, 24), (4, cls.toNat), (1, dw.toNat), (1, 1), (6, 0), (4, h.toNat), (6, x.toNat), (6, a.toNat), (6, 0), (4, 2), (14, imm.toNat)])
  | .nmrMax h x imm a dw cls p => some (64, [(5, p.toNat), (7, 24), (4, cls.toNat), (1, dw.toNat), (1, 1), (6, 0), (4, h.toNat), (6, x.toNat), (6, a.toNat), (6, 0), (4, 3), (14, imm.toNat)])
  | .nmrMinu h x imm a dw cls p => some (64, [(5, p.toNat), (7, 24), (4, cls.toNat), (1, dw.toNat), (1, 1), (6, 0), (4, h.toNat), (6, x.toNat), (6, a.toNat), (6, 0), (4, 4), (14, imm.toNat)])
  | .nmrMaxu h x imm a dw cls p => some (64, [(5, p.toNat), (7, 24), (4, cls.toNat), (1, dw.toNat), (1, 1), (6, 0), (4, h.toNat), (6, x.toNat), (6, a.toNat), (6, 0), (4, 5), (14, imm.toNat)])
  | .nmrAnd h x imm a dw cls p => some (64, [(5, p.toNat), (7, 24), (4, cls.toNat), (1, dw.toNat), (1, 1), (6, 0), (4, h.toNat), (6, x.toNat), (6, a.toNat), (6, 0), (4, 6), (14, imm.toNat)])
  | .nmrOr h x imm a dw cls p => some (64, [(5, p.toNat), (7, 24), (4, cls.toNat), (1, dw.toNat), (1, 1), (6, 0), (4, h.toNat), (6, x.toNat), (6, a.toNat), (6, 0), (4, 7), (14, imm.toNat)])
  | .nmrXor h x imm a dw cls p => some (64, [(5, p.toNat), (7, 24), (4, cls.toNat), (1, dw.toNat), (1, 1), (6, 0), (4, h.toNat), (6, x.toNat), (6, a.toNat), (6, 0), (4, 8), (14, imm.toNat)])
  | .fence mask p => some (64, [(5, p.toNat), (7, 25), (16, mask.toNat), (36, 0)])
  | .rel mask scope p => some (64, [(5, p.toNat), (7, 26), (16, mask.toNat), (3, scope.toNat), (33, 0)])
  | .acq mask scope p => some (64, [(5, p.toNat), (7, 27), (16, mask.toNat), (3, scope.toNat), (33, 0)])
  | .waitge h x imm a cls p => some (64, [(5, p.toNat), (7, 28), (4, cls.toNat), (2, 3), (6, 0), (4, h.toNat), (6, x.toNat), (6, a.toNat), (10, 0), (14, imm.toNat)])
  | .ctradd h x imm a cls p => some (64, [(5, p.toNat), (7, 29), (4, cls.toNat), (2, 3), (6, 0), (4, h.toNat), (6, x.toNat), (6, a.toNat), (10, 0), (14, imm.toNat)])
  | .pin d a b p => some (64, [(5, p.toNat), (7, 32), (4, 0), (6, d.toNat), (6, a.toNat), (6, b.toNat), (30, 0)])
  | .unpin a b p => some (64, [(5, p.toNat), (7, 33), (10, 0), (6, a.toNat), (6, b.toNat), (30, 0)])
  | .pref h x imm cls p => some (64, [(5, p.toNat), (7, 34), (4, cls.toNat), (9, 0), (4, h.toNat), (6, x.toNat), (24, imm.toNat), (5, 0)])
  | .clean h x imm p => some (64, [(5, p.toNat), (7, 35), (13, 0), (4, h.toNat), (6, x.toNat), (24, imm.toNat), (5, 0)])
  | .inval h x imm p => some (64, [(5, p.toNat), (7, 36), (13, 0), (4, h.toNat), (6, x.toNat), (24, imm.toNat), (5, 0)])
  | .tld h x wm tk q ht xt wt cls p => some (64, [(5, p.toNat), (7, 40), (4, cls.toNat), (4, h.toNat), (6, x.toNat), (3, wm.toNat), (3, q.toNat), (1, tk.toNat), (4, ht.toNat), (6, xt.toNat), (3, wt.toNat), (18, 0)])
  | .tst h x wm tk q ht xt wt cls p => some (64, [(5, p.toNat), (7, 41), (4, cls.toNat), (4, h.toNat), (6, x.toNat), (3, wm.toNat), (3, q.toNat), (1, tk.toNat), (4, ht.toNat), (6, xt.toNat), (3, wt.toNat), (18, 0)])
  | .lower d h x imm a cls p => some (64, [(5, p.toNat), (7, 42), (4, cls.toNat), (2, 3), (6, d.toNat), (4, h.toNat), (6, x.toNat), (6, a.toNat), (10, 0), (14, imm.toNat)])
  | .raise h x imm a cls p => some (64, [(5, p.toNat), (7, 43), (4, cls.toNat), (2, 3), (6, 0), (4, h.toNat), (6, x.toNat), (6, a.toNat), (10, 0), (14, imm.toNat)])
  | .wcloc d a b sel p => some (64, [(5, p.toNat), (7, 48), (4, 0), (6, d.toNat), (6, a.toNat), (6, b.toNat), (6, 0), (1, sel.toNat), (1, 0), (22, 0)])
  | .wcrd d a b cls p => some (64, [(5, p.toNat), (7, 49), (4, cls.toNat), (6, d.toNat), (6, a.toNat), (6, b.toNat), (30, 0)])
  | .wcwr d a b c cls p => some (64, [(5, p.toNat), (7, 50), (4, cls.toNat), (6, d.toNat), (6, a.toNat), (6, b.toNat), (6, c.toNat), (24, 0)])
  | .blaunch d h imm cls p => some (64, [(5, p.toNat), (7, 56), (4, cls.toNat), (3, 0), (6, d.toNat), (4, h.toNat), (6, 0), (24, imm.toNat), (5, 0)])
  | .rdsys d a imm p => some (64, [(5, p.toNat), (7, 96), (4, 0), (6, d.toNat), (6, a.toNat), (14, 0), (22, imm.toNat)])
  | .wrsys a b imm p => some (64, [(5, p.toNat), (7, 97), (10, 0), (6, a.toNat), (6, b.toNat), (8, 0), (22, imm.toNat)])
  | .shootPkg d a b c p => some (64, [(5, p.toNat), (7, 98), (4, 0), (6, d.toNat), (6, a.toNat), (6, b.toNat), (6, c.toNat), (2, 1), (22, 0)])
  | .shootSet d a b c p => some (64, [(5, p.toNat), (7, 98), (4, 0), (6, d.toNat), (6, a.toNat), (6, b.toNat), (6, c.toNat), (2, 2), (22, 0)])
  | .ctxsv d a b c cls p => some (64, [(5, p.toNat), (7, 99), (4, cls.toNat), (6, d.toNat), (6, a.toNat), (6, b.toNat), (6, c.toNat), (2, 0), (22, 0)])
  | .ctxrs d a b cls p => some (64, [(5, p.toNat), (7, 100), (4, cls.toNat), (6, d.toNat), (6, a.toNat), (6, b.toNat), (6, 0), (2, 0), (22, 0)])
  | .haltcStop d a p => some (64, [(5, p.toNat), (7, 101), (4, 0), (6, d.toNat), (6, a.toNat), (12, 0), (2, 0), (22, 0)])
  | .haltcGo d a p => some (64, [(5, p.toNat), (7, 101), (4, 0), (6, d.toNat), (6, a.toNat), (12, 0), (2, 1), (22, 0)])
  | .keyldPart d a b c cls p => some (64, [(5, p.toNat), (7, 102), (4, cls.toNat), (6, d.toNat), (6, a.toNat), (6, b.toNat), (6, c.toNat), (2, 0), (22, 0)])
  | .keyldLink d a b c cls p => some (64, [(5, p.toNat), (7, 102), (4, cls.toNat), (6, d.toNat), (6, a.toNat), (6, b.toNat), (6, c.toNat), (2, 1), (22, 0)])
  | .keyldSign d a b c cls p => some (64, [(5, p.toNat), (7, 102), (4, cls.toNat), (6, d.toNat), (6, a.toNat), (6, b.toNat), (6, c.toNat), (2, 2), (22, 0)])
  | .keydrop a p => some (64, [(5, p.toNat), (7, 103), (10, 0), (6, a.toNat), (12, 0), (2, 0), (22, 0)])
  | .hsinit cx p => some (64, [(5, p.toNat), (7, 104), (28, 0), (2, cx.toNat), (22, 0)])
  | .hsupd cx a b cls p => some (64, [(5, p.toNat), (7, 105), (4, cls.toNat), (6, 0), (6, a.toNat), (6, b.toNat), (6, 0), (2, cx.toNat), (22, 0)])
  | .hsfin d cx a cls p => some (64, [(5, p.toNat), (7, 106), (4, cls.toNat), (6, d.toNat), (6, a.toNat), (12, 0), (2, cx.toNat), (22, 0)])
  | .edsign d a b c cls p => some (64, [(5, p.toNat), (7, 107), (4, cls.toNat), (6, d.toNat), (6, a.toNat), (6, b.toNat), (6, c.toNat), (2, 0), (22, 0)])
  | .edver d a b c cls p => some (64, [(5, p.toNat), (7, 108), (4, cls.toNat), (6, d.toNat), (6, a.toNat), (6, b.toNat), (6, c.toNat), (2, 0), (22, 0)])
  | .edverSlots d a b c cls p => some (64, [(5, p.toNat), (7, 108), (4, cls.toNat), (6, d.toNat), (6, a.toNat), (6, b.toNat), (6, c.toNat), (2, 1), (22, 0)])
  | .mext d a b cls p => some (64, [(5, p.toNat), (7, 109), (4, cls.toNat), (6, d.toNat), (6, a.toNat), (6, b.toNat), (6, 0), (2, 0), (22, 0)])
  | .rand d p => some (64, [(5, p.toNat), (7, 110), (4, 0), (6, d.toNat), (18, 0), (2, 0), (22, 0)])
  | .cpy ch hm xm wm tk q ht xt wt pst k cnt cls p => some (64, [(5, p.toNat), (6, 0), (4, cls.toNat), (2, ch.toNat), (1, tk.toNat), (3, q.toNat), (3, wm.toNat), (3, wt.toNat), (4, hm.toNat), (6, xm.toNat), (4, ht.toNat), (6, xt.toNat), (1, pst.toNat), (5, k.toNat), (8, cnt.toNat), (3, 0)])
  | .cpyo ch hm xm wm tk q ht xt wt pst k cnt cls p => some (64, [(5, p.toNat), (6, 1), (4, cls.toNat), (2, ch.toNat), (1, tk.toNat), (3, q.toNat), (3, wm.toNat), (3, wt.toNat), (4, hm.toNat), (6, xm.toNat), (4, ht.toNat), (6, xt.toNat), (1, pst.toNat), (5, k.toNat), (8, cnt.toNat), (3, 0)])
  | .unfold ch hm xm wm tk q ht xt wt pst k cnt cls p => some (64, [(5, p.toNat), (6, 2), (4, cls.toNat), (2, ch.toNat), (1, tk.toNat), (3, q.toNat), (3, wm.toNat), (3, wt.toNat), (4, hm.toNat), (6, xm.toNat), (4, ht.toNat), (6, xt.toNat), (1, pst.toNat), (5, k.toNat), (8, cnt.toNat), (3, 0)])
  | .fill ch ht xt wt val pst k p => some (64, [(5, p.toNat), (6, 3), (2, ch.toNat), (3, wt.toNat), (4, ht.toNat), (6, xt.toNat), (32, val.toNat), (1, pst.toNat), (5, k.toNat)])
  | .xpose ch hm xm wm tk q ht xt wt pst k cnt cls p => some (64, [(5, p.toNat), (6, 4), (4, cls.toNat), (2, ch.toNat), (1, tk.toNat), (3, q.toNat), (3, wm.toNat), (3, wt.toNat), (4, hm.toNat), (6, xm.toNat), (4, ht.toNat), (6, xt.toNat), (1, pst.toNat), (5, k.toNat), (8, cnt.toNat), (3, 0)])
  | .shunt qu hd xd wd hs xs ws ce fe rc hc cls p => some (64, [(5, p.toNat), (6, 8), (4, cls.toNat), (2, qu.toNat), (3, ws.toNat), (3, wd.toNat), (4, hs.toNat), (6, xs.toNat), (4, hd.toNat), (6, xd.toNat), (6, rc.toNat), (1, ce.toNat), (1, fe.toNat), (4, hc.toNat), (9, 0)])
  | .shuntcAllreduce qu lvl ty hd xd hs xs rb ce fe rc hc cls p => some (64, [(5, p.toNat), (6, 9), (4, cls.toNat), (2, qu.toNat), (2, 0), (1, ty.toNat), (3, lvl.toNat), (4, hs.toNat), (6, xs.toNat), (4, hd.toNat), (6, xd.toNat), (6, rb.toNat), (6, rc.toNat), (1, ce.toNat), (1, fe.toNat), (4, hc.toNat), (3, 0)])
  | .shuntcAllgather qu lvl ty hd xd hs xs rb ce fe rc hc cls p => some (64, [(5, p.toNat), (6, 9), (4, cls.toNat), (2, qu.toNat), (2, 1), (1, ty.toNat), (3, lvl.toNat), (4, hs.toNat), (6, xs.toNat), (4, hd.toNat), (6, xd.toNat), (6, rb.toNat), (6, rc.toNat), (1, ce.toNat), (1, fe.toNat), (4, hc.toNat), (3, 0)])
  | .shuntcReducescatter qu lvl ty hd xd hs xs rb ce fe rc hc cls p => some (64, [(5, p.toNat), (6, 9), (4, cls.toNat), (2, qu.toNat), (2, 2), (1, ty.toNat), (3, lvl.toNat), (4, hs.toNat), (6, xs.toNat), (4, hd.toNat), (6, xd.toNat), (6, rb.toNat), (6, rc.toNat), (1, ce.toNat), (1, fe.toNat), (4, hc.toNat), (3, 0)])
  | .shuntcBroadcast qu lvl ty hd xd hs xs rb ce fe rc hc cls p => some (64, [(5, p.toNat), (6, 9), (4, cls.toNat), (2, qu.toNat), (2, 3), (1, ty.toNat), (3, lvl.toNat), (4, hs.toNat), (6, xs.toNat), (4, hd.toNat), (6, xd.toNat), (6, rb.toNat), (6, rc.toNat), (1, ce.toNat), (1, fe.toNat), (4, hc.toNat), (3, 0)])
  | .wload ch row pb hs xs ws pst k cnt cls p => some (64, [(5, p.toNat), (6, 16), (4, cls.toNat), (2, ch.toNat), (2, pb.toNat), (13, row.toNat), (3, ws.toNat), (4, hs.toNat), (6, xs.toNat), (1, pst.toNat), (5, k.toNat), (8, cnt.toNat), (5, 0)])
  | .qstat d u p => some (64, [(5, p.toNat), (6, 24), (6, d.toNat), (3, u.toNat), (44, 0)])
  | .mma acc q ws m0 m k0 dep p => some (64, [(5, p.toNat), (6, 0), (3, acc.toNat), (3, q.toNat), (1, ws.toNat), (6, m0.toNat), (7, m.toNat), (10, k0.toNat), (11, dep.toNat), (12, 0)])
  | .mmas acc q ws m0 m k0 dep p => some (64, [(5, p.toNat), (6, 1), (3, acc.toNat), (3, q.toNat), (1, ws.toNat), (6, m0.toNat), (7, m.toNat), (10, k0.toNat), (11, dep.toNat), (12, 0)])
  | .wtile ws row p => some (64, [(5, p.toNat), (6, 2), (6, 0), (1, ws.toNat), (13, row.toNat), (33, 0)])
  | .wswap p => some (64, [(5, p.toNat), (6, 3), (53, 0)])
  | .mcommit tag p => some (64, [(5, p.toNat), (6, 4), (3, tag.toNat), (50, 0)])
  | .accz acc m0 m p => some (64, [(5, p.toNat), (6, 5), (3, acc.toNat), (4, 0), (6, m0.toNat), (7, m.toNat), (33, 0)])
  | .accrd acc q dk m0 m cv ht xt rs vb p => some (64, [(5, p.toNat), (6, 6), (3, acc.toNat), (3, q.toNat), (2, dk.toNat), (6, m0.toNat), (7, m.toNat), (4, cv.toNat), (4, ht.toNat), (6, xt.toNat), (6, rs.toNat), (5, vb.toNat), (7, 0)])
  | .accwr acc q m0 m p => some (64, [(5, p.toNat), (6, 7), (3, acc.toNat), (3, q.toNat), (1, 0), (6, m0.toNat), (7, m.toNat), (33, 0)])
  | .rpop q p => some (64, [(5, p.toNat), (6, 8), (3, 0), (3, q.toNat), (47, 0)])
  | .vx _ vd va vb vc ve opa opb opc tya tyb tyc mda mdb mdc p => some (64, [(5, p.toNat), (1, 1), (5, vd.toNat), (5, va.toNat), (5, vb.toNat), (5, vc.toNat), (5, ve.toNat), (5, opa.toNat), (5, opb.toNat), (5, opc.toNat), (2, tya.toNat), (2, tyb.toNat), (2, tyc.toNat), (3, mda.toNat), (3, mdb.toNat), (3, mdc.toNat), (3, 0)])
  | .vdot _ vd va vb vc form dest p => some (64, [(5, p.toNat), (1, 0), (6, 0), (5, vd.toNat), (5, va.toNat), (5, vb.toNat), (5, vc.toNat), (2, form.toNat), (2, dest.toNat), (4, 0), (24, 0)])
  | .vred _ s v op ty p => some (64, [(5, p.toNat), (1, 0), (6, 1), (5, v.toNat), (6, s.toNat), (3, op.toNat), (2, ty.toNat), (3, 0), (33, 0)])
  | .vperm _ vd va vb vc p => some (64, [(5, p.toNat), (1, 0), (6, 2), (5, vd.toNat), (5, va.toNat), (5, vb.toNat), (5, vc.toNat), (8, 0), (24, 0)])
  | .vbcast _ v s md p => some (64, [(5, p.toNat), (1, 0), (6, 3), (5, v.toNat), (6, s.toNat), (2, md.toNat), (6, 0), (33, 0)])
  | .vxc _ vd cs va p => some (64, [(5, p.toNat), (1, 0), (6, 4), (5, vd.toNat), (3, cs.toNat), (5, va.toNat), (39, 0)])
  | .vmov _ vd va p => some (64, [(5, p.toNat), (1, 0), (6, 5), (5, vd.toNat), (5, va.toNat), (10, 0), (8, 0), (24, 0)])
  | .viota _ vd md p => some (64, [(5, p.toNat), (1, 0), (6, 6), (5, vd.toNat), (15, 0), (2, md.toNat), (6, 0), (24, 0)])
  | .vld _ v h x imm cls p => some (64, [(5, p.toNat), (1, 0), (6, 8), (5, v.toNat), (4, h.toNat), (6, x.toNat), (4, cls.toNat), (24, imm.toNat), (9, 0)])
  | .vst _ v h x imm cls p => some (64, [(5, p.toNat), (1, 0), (6, 9), (5, v.toNat), (4, h.toNat), (6, x.toNat), (4, cls.toNat), (24, imm.toNat), (9, 0)])
  | .vldx _ v h x imm vi cls p => some (64, [(5, p.toNat), (1, 0), (6, 10), (5, v.toNat), (4, h.toNat), (6, x.toNat), (4, cls.toNat), (24, imm.toNat), (5, vi.toNat), (4, 0)])
  | .vstx _ v h x imm vi cls p => some (64, [(5, p.toNat), (1, 0), (6, 11), (5, v.toNat), (4, h.toNat), (6, x.toNat), (4, cls.toNat), (24, imm.toNat), (5, vi.toNat), (4, 0)])
  | .vldt _ v h x imm cls p => some (64, [(5, p.toNat), (1, 0), (6, 12), (5, v.toNat), (4, h.toNat), (6, x.toNat), (4, cls.toNat), (24, imm.toNat), (9, 0)])
  | .vstt _ v h x imm cls p => some (64, [(5, p.toNat), (1, 0), (6, 13), (5, v.toNat), (4, h.toNat), (6, x.toNat), (4, cls.toNat), (24, imm.toNat), (9, 0)])
  | .pfcfg _ fr s p => some (64, [(5, p.toNat), (1, 0), (6, 16), (3, fr.toNat), (5, 0), (6, s.toNat), (38, 0)])
  | .pfins _ fr vb s p => some (64, [(5, p.toNat), (1, 0), (6, 17), (3, fr.toNat), (5, vb.toNat), (6, s.toNat), (38, 0)])
  | .pftst _ vd fr vb s p => some (64, [(5, p.toNat), (1, 0), (6, 18), (3, fr.toNat), (5, vb.toNat), (6, s.toNat), (5, 0), (5, vd.toNat), (28, 0)])
  | .pfmrg _ fr fs p => some (64, [(5, p.toNat), (1, 0), (6, 19), (3, fr.toNat), (13, 0), (3, fs.toNat), (33, 0)])
  | .pfrd _ vb fr s p => some (64, [(5, p.toNat), (1, 0), (6, 20), (3, fr.toNat), (5, vb.toNat), (6, s.toNat), (38, 0)])
  | .pfcnt _ s fr sel p => some (64, [(5, p.toNat), (1, 0), (6, 21), (3, fr.toNat), (5, 0), (6, s.toNat), (2, sel.toNat), (36, 0)])
  | .pfclr _ fr p => some (64, [(5, p.toNat), (1, 0), (6, 22), (3, fr.toNat), (49, 0)])
  | .pfspl _ f h x imm cls p => some (64, [(5, p.toNat), (1, 0), (6, 23), (3, f.toNat), (2, 0), (4, h.toNat), (6, x.toNat), (4, cls.toNat), (24, imm.toNat), (9, 0)])
  | .pffil _ f h x imm cls p => some (64, [(5, p.toNat), (1, 0), (6, 24), (3, f.toNat), (2, 0), (4, h.toNat), (6, x.toNat), (4, cls.toNat), (24, imm.toNat), (9, 0)])
  | .rcpVector cl vd va p => some (32, [(5, p.toNat), (4, 0), (1, 0), (3, cl.toNat), (5, vd.toNat), (5, va.toNat), (9, 0)])
  | .rcpScalar d a p => some (32, [(5, p.toNat), (4, 0), (1, 1), (6, d.toNat), (6, a.toNat), (10, 0)])
  | .rsqVector cl vd va p => some (32, [(5, p.toNat), (4, 1), (1, 0), (3, cl.toNat), (5, vd.toNat), (5, va.toNat), (9, 0)])
  | .rsqScalar d a p => some (32, [(5, p.toNat), (4, 1), (1, 1), (6, d.toNat), (6, a.toNat), (10, 0)])
  | .sqrtVector cl vd va p => some (32, [(5, p.toNat), (4, 2), (1, 0), (3, cl.toNat), (5, vd.toNat), (5, va.toNat), (9, 0)])
  | .sqrtScalar d a p => some (32, [(5, p.toNat), (4, 2), (1, 1), (6, d.toNat), (6, a.toNat), (10, 0)])
  | .exp2Vector cl vd va p => some (32, [(5, p.toNat), (4, 3), (1, 0), (3, cl.toNat), (5, vd.toNat), (5, va.toNat), (9, 0)])
  | .exp2Scalar d a p => some (32, [(5, p.toNat), (4, 3), (1, 1), (6, d.toNat), (6, a.toNat), (10, 0)])
  | .log2Vector cl vd va p => some (32, [(5, p.toNat), (4, 4), (1, 0), (3, cl.toNat), (5, vd.toNat), (5, va.toNat), (9, 0)])
  | .log2Scalar d a p => some (32, [(5, p.toNat), (4, 4), (1, 1), (6, d.toNat), (6, a.toNat), (10, 0)])
  | .sinVector cl vd va p => some (32, [(5, p.toNat), (4, 5), (1, 0), (3, cl.toNat), (5, vd.toNat), (5, va.toNat), (9, 0)])
  | .sinScalar d a p => some (32, [(5, p.toNat), (4, 5), (1, 1), (6, d.toNat), (6, a.toNat), (10, 0)])
  | .cosVector cl vd va p => some (32, [(5, p.toNat), (4, 6), (1, 0), (3, cl.toNat), (5, vd.toNat), (5, va.toNat), (9, 0)])
  | .cosScalar d a p => some (32, [(5, p.toNat), (4, 6), (1, 1), (6, d.toNat), (6, a.toNat), (10, 0)])
  | .tanhVector cl vd va p => some (32, [(5, p.toNat), (4, 7), (1, 0), (3, cl.toNat), (5, vd.toNat), (5, va.toNat), (9, 0)])
  | .tanhScalar d a p => some (32, [(5, p.toNat), (4, 7), (1, 1), (6, d.toNat), (6, a.toNat), (10, 0)])
  | .sigmVector cl vd va p => some (32, [(5, p.toNat), (4, 8), (1, 0), (3, cl.toNat), (5, vd.toNat), (5, va.toNat), (9, 0)])
  | .sigmScalar d a p => some (32, [(5, p.toNat), (4, 8), (1, 1), (6, d.toNat), (6, a.toNat), (10, 0)])
  | .erfVector cl vd va p => some (32, [(5, p.toNat), (4, 9), (1, 0), (3, cl.toNat), (5, vd.toNat), (5, va.toNat), (9, 0)])
  | .erfScalar d a p => some (32, [(5, p.toNat), (4, 9), (1, 1), (6, d.toNat), (6, a.toNat), (10, 0)])
  | .bAdd d a b => some (32, [(11, 0), (5, b.toNat), (5, a.toNat), (5, d.toNat), (6, 0)])
  | .bSub d a b => some (32, [(11, 0), (5, b.toNat), (5, a.toNat), (5, d.toNat), (6, 1)])
  | .bMul d a b => some (32, [(11, 0), (5, b.toNat), (5, a.toNat), (5, d.toNat), (6, 2)])
  | .bAnd d a b => some (32, [(11, 0), (5, b.toNat), (5, a.toNat), (5, d.toNat), (6, 3)])
  | .bOr d a b => some (32, [(11, 0), (5, b.toNat), (5, a.toNat), (5, d.toNat), (6, 4)])
  | .bXor d a b => some (32, [(11, 0), (5, b.toNat), (5, a.toNat), (5, d.toNat), (6, 5)])
  | .bShl d a b => some (32, [(11, 0), (5, b.toNat), (5, a.toNat), (5, d.toNat), (6, 6)])
  | .bShr d a b => some (32, [(11, 0), (5, b.toNat), (5, a.toNat), (5, d.toNat), (6, 7)])
  | .bSar d a b => some (32, [(11, 0), (5, b.toNat), (5, a.toNat), (5, d.toNat), (6, 8)])
  | .bMin d a b => some (32, [(11, 0), (5, b.toNat), (5, a.toNat), (5, d.toNat), (6, 9)])
  | .bMax d a b => some (32, [(11, 0), (5, b.toNat), (5, a.toNat), (5, d.toNat), (6, 10)])
  | .bAddi d a imm => some (32, [(16, imm.toNat), (5, a.toNat), (5, d.toNat), (6, 16)])
  | .bAndi d a imm => some (32, [(16, imm.toNat), (5, a.toNat), (5, d.toNat), (6, 17)])
  | .bOri d a imm => some (32, [(16, imm.toNat), (5, a.toNat), (5, d.toNat), (6, 18)])
  | .bXori d a imm => some (32, [(16, imm.toNat), (5, a.toNat), (5, d.toNat), (6, 19)])
  | .bLui d imm => some (32, [(16, imm.toNat), (5, 0), (5, d.toNat), (6, 20)])
  | .bShli d a imm => some (32, [(6, imm.toNat), (10, 0), (5, a.toNat), (5, d.toNat), (6, 21)])
  | .bBeq a b off => some (32, [(16, off.toNat), (5, b.toNat), (5, a.toNat), (6, 24)])
  | .bBne a b off => some (32, [(16, off.toNat), (5, b.toNat), (5, a.toNat), (6, 25)])
  | .bBlt a b off => some (32, [(16, off.toNat), (5, b.toNat), (5, a.toNat), (6, 26)])
  | .bBge a b off => some (32, [(16, off.toNat), (5, b.toNat), (5, a.toNat), (6, 27)])
  | .bBltu a b off => some (32, [(16, off.toNat), (5, b.toNat), (5, a.toNat), (6, 28)])
  | .bBgeu a b off => some (32, [(16, off.toNat), (5, b.toNat), (5, a.toNat), (6, 29)])
  | .bJ off => some (32, [(26, off.toNat), (6, 30)])
  | .ropen y a imm => some (32, [(12, imm.toNat), (2, 0), (2, y.toNat), (5, a.toNat), (5, 0), (6, 32)])
  | .ldy d y a imm sz => some (32, [(12, imm.toNat), (2, sz.toNat), (2, y.toNat), (5, a.toNat), (5, d.toNat), (6, 33)])
  | .sty d y a imm sz => some (32, [(12, imm.toNat), (2, sz.toNat), (2, y.toNat), (5, a.toNat), (5, d.toNat), (6, 34)])
  | .vldy z y a imm => some (32, [(12, imm.toNat), (2, 0), (2, y.toNat), (5, a.toNat), (4, z.toNat), (1, 0), (6, 35)])
  | .vsty z y a imm => some (32, [(12, imm.toNat), (2, 0), (2, y.toNat), (5, a.toNat), (4, z.toNat), (1, 0), (6, 36)])
  | .rred y z op ty => some (32, [(15, 0), (2, ty.toNat), (3, op.toNat), (4, z.toNat), (2, y.toNat), (6, 37)])
  | .bVadd d a b ty => some (32, [(12, 0), (2, ty.toNat), (4, b.toNat), (4, a.toNat), (4, d.toNat), (6, 40)])
  | .bVsub d a b ty => some (32, [(12, 0), (2, ty.toNat), (4, b.toNat), (4, a.toNat), (4, d.toNat), (6, 41)])
  | .bVmul d a b ty => some (32, [(12, 0), (2, ty.toNat), (4, b.toNat), (4, a.toNat), (4, d.toNat), (6, 42)])
  | .bVmin d a b ty => some (32, [(12, 0), (2, ty.toNat), (4, b.toNat), (4, a.toNat), (4, d.toNat), (6, 43)])
  | .bVmax d a b ty => some (32, [(12, 0), (2, ty.toNat), (4, b.toNat), (4, a.toNat), (4, d.toNat), (6, 44)])
  | .bVand d a b => some (32, [(14, 0), (4, b.toNat), (4, a.toNat), (4, d.toNat), (6, 45)])
  | .bVor d a b => some (32, [(14, 0), (4, b.toNat), (4, a.toNat), (4, d.toNat), (6, 46)])
  | .bVxor d a b => some (32, [(14, 0), (4, b.toNat), (4, a.toNat), (4, d.toNat), (6, 47)])
  | .vbc d a => some (32, [(16, 0), (5, a.toNat), (1, 0), (4, d.toNat), (6, 48)])
  | .bVred d a op ty => some (32, [(12, 0), (2, ty.toNat), (3, op.toNat), (4, a.toNat), (5, d.toNat), (6, 49)])
  | .bViota d => some (32, [(22, 0), (4, d.toNat), (6, 50)])
  | .kpost k c => some (32, [(13, 0), (8, c.toNat), (5, k.toNat), (6, 56)])
  | .yieldb => some (32, [(26, 0), (6, 57)])
  | .endb => some (32, [(26, 0), (6, 58)])
  | _ => none

/-- The encoding of an instruction that has one: the bits of its word and the word. -/
def encode (i : Instr) : Option (Nat × Nat) := (encFields i).map (fun x => (x.1, pack x.2))

/-- The mask bit of the slot an encoded instruction stands in: 0 to 14, a V slot by its cluster; 15 for a header row,
16 for a Lamesque-B word; none for an event. -/
def slotOf : Instr → Option Nat
  | .restartMark .. => some 15
  | .idle => some 15
  | .wait .. => some 15
  | .take .. => some 15
  | .post .. => some 15
  | .br .. => some 0
  | .brp .. => some 0
  | .call .. => some 0
  | .ret .. => some 0
  | .jmpr .. => some 0
  | .loop .. => some 0
  | .loopx .. => some 0
  | .yield .. => some 0
  | .exit .. => some 0
  | .trap .. => some 0
  | .svc .. => some 0
  | .eret .. => some 0
  | .setfmt .. => some 0
  | .fmtrd .. => some 0
  | .mdpc .. => some 0
  | .step .. => some 0
  | .barr .. => some 0
  | .mwait .. => some 0
  | .park .. => some 0
  | .add .. => some 1
  | .addi .. => some 1
  | .sub .. => some 1
  | .mul .. => some 1
  | .mulh .. => some 1
  | .mulhu .. => some 1
  | .div .. => some 1
  | .divu .. => some 1
  | .rem .. => some 1
  | .remu .. => some 1
  | .and .. => some 1
  | .andi .. => some 1
  | .or .. => some 1
  | .ori .. => some 1
  | .xor .. => some 1
  | .xori .. => some 1
  | .andn .. => some 1
  | .shl .. => some 1
  | .shr .. => some 1
  | .sar .. => some 1
  | .rot .. => some 1
  | .clz .. => some 1
  | .ctz .. => some 1
  | .popc .. => some 1
  | .brev .. => some 1
  | .bswap .. => some 1
  | .min .. => some 1
  | .max .. => some 1
  | .minu .. => some 1
  | .maxu .. => some 1
  | .abs .. => some 1
  | .ext .. => some 1
  | .bfx .. => some 1
  | .bfi .. => some 1
  | .mov .. => some 1
  | .movi .. => some 1
  | .movhi .. => some 1
  | .sel .. => some 1
  | .cmp .. => some 1
  | .cmpi .. => some 1
  | .pset .. => some 1
  | .pmovRd .. => some 1
  | .pmovWr .. => some 1
  | .fadd .. => some 1
  | .fsub .. => some 1
  | .fmul .. => some 1
  | .ffma .. => some 1
  | .fmin .. => some 1
  | .fmax .. => some 1
  | .fsgnCp .. => some 1
  | .fsgnNeg .. => some 1
  | .fsgnXor .. => some 1
  | .fcmp .. => some 1
  | .fcvtI32F32 .. => some 1
  | .fcvtF32I32 .. => some 1
  | .fcvtU32F32 .. => some 1
  | .fcvtF32U32 .. => some 1
  | .fcvtF16F32 .. => some 1
  | .fcvtF32F16 .. => some 1
  | .fcvtBf16F32 .. => some 1
  | .fcvtF32Bf16 .. => some 1
  | .fclass .. => some 1
  | .ld .. => some 3
  | .st .. => some 3
  | .ldWalk .. => some 3
  | .stWalk .. => some 3
  | .xlate .. => some 3
  | .xlateScratch .. => some 3
  | .xlatePlane .. => some 3
  | .hfree .. => some 3
  | .htest .. => some 3
  | .aadd .. => some 3
  | .aand .. => some 3
  | .aor .. => some 3
  | .axor .. => some 3
  | .amin .. => some 3
  | .amax .. => some 3
  | .aminu .. => some 3
  | .amaxu .. => some 3
  | .axchg .. => some 3
  | .acas .. => some 3
  | .afadd .. => some 3
  | .nmrAdd .. => some 3
  | .nmrFadd .. => some 3
  | .nmrMin .. => some 3
  | .nmrMax .. => some 3
  | .nmrMinu .. => some 3
  | .nmrMaxu .. => some 3
  | .nmrAnd .. => some 3
  | .nmrOr .. => some 3
  | .nmrXor .. => some 3
  | .fence .. => some 3
  | .rel .. => some 3
  | .acq .. => some 3
  | .waitge .. => some 3
  | .ctradd .. => some 3
  | .pin .. => some 3
  | .unpin .. => some 3
  | .pref .. => some 3
  | .clean .. => some 3
  | .inval .. => some 3
  | .tld .. => some 3
  | .tst .. => some 3
  | .lower .. => some 3
  | .raise .. => some 3
  | .wcloc .. => some 3
  | .wcrd .. => some 3
  | .wcwr .. => some 3
  | .blaunch .. => some 3
  | .rdsys .. => some 3
  | .wrsys .. => some 3
  | .shootPkg .. => some 3
  | .shootSet .. => some 3
  | .ctxsv .. => some 3
  | .ctxrs .. => some 3
  | .haltcStop .. => some 3
  | .haltcGo .. => some 3
  | .keyldPart .. => some 3
  | .keyldLink .. => some 3
  | .keyldSign .. => some 3
  | .keydrop .. => some 3
  | .hsinit .. => some 3
  | .hsupd .. => some 3
  | .hsfin .. => some 3
  | .edsign .. => some 3
  | .edver .. => some 3
  | .edverSlots .. => some 3
  | .mext .. => some 3
  | .rand .. => some 3
  | .cpy .. => some 4
  | .cpyo .. => some 4
  | .unfold .. => some 4
  | .fill .. => some 4
  | .xpose .. => some 4
  | .shunt .. => some 4
  | .shuntcAllreduce .. => some 4
  | .shuntcAllgather .. => some 4
  | .shuntcReducescatter .. => some 4
  | .shuntcBroadcast .. => some 4
  | .wload .. => some 4
  | .qstat .. => some 4
  | .mma .. => some 5
  | .mmas .. => some 5
  | .wtile .. => some 5
  | .wswap .. => some 5
  | .mcommit .. => some 5
  | .accz .. => some 5
  | .accrd .. => some 5
  | .accwr .. => some 5
  | .rpop .. => some 5
  | .vx cl _ _ _ _ _ _ _ _ _ _ _ _ _ _ _ => some (7 + cl.toNat)
  | .vdot cl _ _ _ _ _ _ _ => some (7 + cl.toNat)
  | .vred cl _ _ _ _ _ => some (7 + cl.toNat)
  | .vperm cl _ _ _ _ _ => some (7 + cl.toNat)
  | .vbcast cl _ _ _ _ => some (7 + cl.toNat)
  | .vxc cl _ _ _ _ => some (7 + cl.toNat)
  | .vmov cl _ _ _ => some (7 + cl.toNat)
  | .viota cl _ _ _ => some (7 + cl.toNat)
  | .vld cl _ _ _ _ _ _ => some (7 + cl.toNat)
  | .vst cl _ _ _ _ _ _ => some (7 + cl.toNat)
  | .vldx cl _ _ _ _ _ _ _ => some (7 + cl.toNat)
  | .vstx cl _ _ _ _ _ _ _ => some (7 + cl.toNat)
  | .vldt cl _ _ _ _ _ _ => some (7 + cl.toNat)
  | .vstt cl _ _ _ _ _ _ => some (7 + cl.toNat)
  | .pfcfg cl _ _ _ => some (7 + cl.toNat)
  | .pfins cl _ _ _ _ => some (7 + cl.toNat)
  | .pftst cl _ _ _ _ _ => some (7 + cl.toNat)
  | .pfmrg cl _ _ _ => some (7 + cl.toNat)
  | .pfrd cl _ _ _ _ => some (7 + cl.toNat)
  | .pfcnt cl _ _ _ _ => some (7 + cl.toNat)
  | .pfclr cl _ _ => some (7 + cl.toNat)
  | .pfspl cl _ _ _ _ _ _ => some (7 + cl.toNat)
  | .pffil cl _ _ _ _ _ _ => some (7 + cl.toNat)
  | .rcpVector .. => some 6
  | .rcpScalar .. => some 6
  | .rsqVector .. => some 6
  | .rsqScalar .. => some 6
  | .sqrtVector .. => some 6
  | .sqrtScalar .. => some 6
  | .exp2Vector .. => some 6
  | .exp2Scalar .. => some 6
  | .log2Vector .. => some 6
  | .log2Scalar .. => some 6
  | .sinVector .. => some 6
  | .sinScalar .. => some 6
  | .cosVector .. => some 6
  | .cosScalar .. => some 6
  | .tanhVector .. => some 6
  | .tanhScalar .. => some 6
  | .sigmVector .. => some 6
  | .sigmScalar .. => some 6
  | .erfVector .. => some 6
  | .erfScalar .. => some 6
  | .bAdd .. => some 16
  | .bSub .. => some 16
  | .bMul .. => some 16
  | .bAnd .. => some 16
  | .bOr .. => some 16
  | .bXor .. => some 16
  | .bShl .. => some 16
  | .bShr .. => some 16
  | .bSar .. => some 16
  | .bMin .. => some 16
  | .bMax .. => some 16
  | .bAddi .. => some 16
  | .bAndi .. => some 16
  | .bOri .. => some 16
  | .bXori .. => some 16
  | .bLui .. => some 16
  | .bShli .. => some 16
  | .bBeq .. => some 16
  | .bBne .. => some 16
  | .bBlt .. => some 16
  | .bBge .. => some 16
  | .bBltu .. => some 16
  | .bBgeu .. => some 16
  | .bJ .. => some 16
  | .ropen .. => some 16
  | .ldy .. => some 16
  | .sty .. => some 16
  | .vldy .. => some 16
  | .vsty .. => some 16
  | .rred .. => some 16
  | .bVadd .. => some 16
  | .bVsub .. => some 16
  | .bVmul .. => some 16
  | .bVmin .. => some 16
  | .bVmax .. => some 16
  | .bVand .. => some 16
  | .bVor .. => some 16
  | .bVxor .. => some 16
  | .vbc .. => some 16
  | .bVred .. => some 16
  | .bViota .. => some 16
  | .kpost .. => some 16
  | .yieldb => some 16
  | .endb => some 16
  | _ => none

/-- Decoding of a word by the place it stands in, as `slotOf` numbers the places. -/
noncomputable def decodeAt (k w : Nat) : DecRes :=
  if k == 15 then decodeHeader w
  else if k == 16 then decodeBallast w
  else decodeSlot true k w

/-- How many bits of a row's word are fixed by its row, for the choice among rows that share a word. -/
def fixedBits (i : Instr) : Nat :=
  match encFields i with
  | none => 0
  | some x => x.1 - (match i with
    | .restartMark .. => 30
    | .wait .. => 29
    | .take .. => 29
    | .post .. => 29
    | .idle => 0
    | .br .. => 27
    | .brp .. => 27
    | .call .. => 27
    | .ret .. => 11
    | .jmpr .. => 27
    | .loop .. => 27
    | .loopx .. => 18
    | .yield .. => 5
    | .exit .. => 5
    | .trap .. => 21
    | .svc .. => 21
    | .eret .. => 5
    | .setfmt .. => 11
    | .fmtrd .. => 11
    | .mdpc .. => 27
    | .step .. => 8
    | .barr .. => 8
    | .mwait .. => 8
    | .park .. => 21
    | .add .. => 23
    | .sub .. => 23
    | .mul .. => 23
    | .mulh .. => 23
    | .mulhu .. => 23
    | .div .. => 23
    | .divu .. => 23
    | .rem .. => 23
    | .remu .. => 23
    | .and .. => 23
    | .or .. => 23
    | .xor .. => 23
    | .andn .. => 23
    | .shl .. => 23
    | .shr .. => 23
    | .sar .. => 23
    | .rot .. => 23
    | .min .. => 23
    | .max .. => 23
    | .minu .. => 23
    | .maxu .. => 23
    | .bfx .. => 23
    | .bfi .. => 23
    | .fadd .. => 23
    | .fsub .. => 23
    | .fmul .. => 23
    | .ffma .. => 23
    | .fmin .. => 23
    | .fmax .. => 23
    | .clz .. => 17
    | .ctz .. => 17
    | .popc .. => 17
    | .brev .. => 17
    | .bswap .. => 17
    | .abs .. => 17
    | .mov .. => 17
    | .fclass .. => 17
    | .addi .. => 26
    | .andi .. => 26
    | .ori .. => 26
    | .xori .. => 26
    | .ext .. => 20
    | .movi .. => 26
    | .movhi .. => 26
    | .sel .. => 26
    | .cmp .. => 24
    | .fcmp .. => 24
    | .cmpi .. => 26
    | .pset .. => 21
    | .pmovRd .. => 11
    | .pmovWr .. => 11
    | .fsgnCp .. => 23
    | .fsgnNeg .. => 23
    | .fsgnXor .. => 23
    | .fcvtI32F32 .. => 17
    | .fcvtF32I32 .. => 17
    | .fcvtU32F32 .. => 17
    | .fcvtF32U32 .. => 17
    | .fcvtF16F32 .. => 17
    | .fcvtF32F16 .. => 17
    | .fcvtBf16F32 .. => 17
    | .fcvtF32Bf16 .. => 17
    | .ld .. => 52
    | .st .. => 51
    | .ldWalk .. => 46
    | .stWalk .. => 46
    | .xlate .. => 15
    | .xlateScratch .. => 9
    | .xlatePlane .. => 13
    | .hfree .. => 9
    | .htest .. => 15
    | .aadd .. => 46
    | .aand .. => 46
    | .aor .. => 46
    | .axor .. => 46
    | .amin .. => 46
    | .amax .. => 46
    | .aminu .. => 46
    | .amaxu .. => 46
    | .axchg .. => 46
    | .acas .. => 52
    | .afadd .. => 45
    | .nmrAdd .. => 40
    | .nmrFadd .. => 39
    | .nmrMin .. => 40
    | .nmrMax .. => 40
    | .nmrMinu .. => 40
    | .nmrMaxu .. => 40
    | .nmrAnd .. => 40
    | .nmrOr .. => 40
    | .nmrXor .. => 40
    | .fence .. => 21
    | .rel .. => 24
    | .acq .. => 24
    | .waitge .. => 39
    | .ctradd .. => 39
    | .pin .. => 23
    | .unpin .. => 17
    | .pref .. => 43
    | .clean .. => 39
    | .inval .. => 39
    | .tld .. => 39
    | .tst .. => 39
    | .lower .. => 45
    | .raise .. => 39
    | .wcloc .. => 24
    | .wcrd .. => 27
    | .wcwr .. => 33
    | .blaunch .. => 43
    | .rdsys .. => 39
    | .wrsys .. => 39
    | .shootPkg .. => 29
    | .shootSet .. => 29
    | .ctxsv .. => 33
    | .ctxrs .. => 27
    | .haltcStop .. => 17
    | .haltcGo .. => 17
    | .keyldPart .. => 33
    | .keyldLink .. => 33
    | .keyldSign .. => 33
    | .keydrop .. => 11
    | .hsinit .. => 7
    | .hsupd .. => 23
    | .hsfin .. => 23
    | .edsign .. => 33
    | .edver .. => 33
    | .edverSlots .. => 33
    | .mext .. => 27
    | .rand .. => 11
    | .cpy .. => 55
    | .cpyo .. => 55
    | .unfold .. => 55
    | .xpose .. => 55
    | .fill .. => 58
    | .shunt .. => 49
    | .shuntcAllreduce .. => 53
    | .shuntcAllgather .. => 53
    | .shuntcReducescatter .. => 53
    | .shuntcBroadcast .. => 53
    | .wload .. => 53
    | .qstat .. => 14
    | .mma .. => 46
    | .mmas .. => 46
    | .wtile .. => 19
    | .wswap .. => 5
    | .mcommit .. => 8
    | .accz .. => 21
    | .accrd .. => 51
    | .accwr .. => 24
    | .rpop .. => 8
    | .vx .. => 60
    | .vdot .. => 29
    | .vred .. => 21
    | .vperm .. => 25
    | .vbcast .. => 18
    | .vxc .. => 18
    | .vmov .. => 15
    | .viota .. => 12
    | .vld .. => 48
    | .vst .. => 48
    | .vldt .. => 48
    | .vstt .. => 48
    | .vldx .. => 53
    | .vstx .. => 53
    | .pfcfg .. => 14
    | .pfins .. => 19
    | .pftst .. => 24
    | .pfmrg .. => 11
    | .pfrd .. => 19
    | .pfcnt .. => 16
    | .pfclr .. => 8
    | .pfspl .. => 46
    | .pffil .. => 46
    | .rcpVector .. => 18
    | .rcpScalar .. => 17
    | .rsqVector .. => 18
    | .rsqScalar .. => 17
    | .sqrtVector .. => 18
    | .sqrtScalar .. => 17
    | .exp2Vector .. => 18
    | .exp2Scalar .. => 17
    | .log2Vector .. => 18
    | .log2Scalar .. => 17
    | .sinVector .. => 18
    | .sinScalar .. => 17
    | .cosVector .. => 18
    | .cosScalar .. => 17
    | .tanhVector .. => 18
    | .tanhScalar .. => 17
    | .sigmVector .. => 18
    | .sigmScalar .. => 17
    | .erfVector .. => 18
    | .erfScalar .. => 17
    | .bAdd .. => 15
    | .bSub .. => 15
    | .bMul .. => 15
    | .bAnd .. => 15
    | .bOr .. => 15
    | .bXor .. => 15
    | .bShl .. => 15
    | .bShr .. => 15
    | .bSar .. => 15
    | .bMin .. => 15
    | .bMax .. => 15
    | .bAddi .. => 26
    | .bAndi .. => 26
    | .bOri .. => 26
    | .bXori .. => 26
    | .bLui .. => 21
    | .bShli .. => 16
    | .bBeq .. => 26
    | .bBne .. => 26
    | .bBlt .. => 26
    | .bBge .. => 26
    | .bBltu .. => 26
    | .bBgeu .. => 26
    | .bJ .. => 26
    | .ropen .. => 19
    | .ldy .. => 26
    | .sty .. => 26
    | .vldy .. => 23
    | .vsty .. => 23
    | .rred .. => 11
    | .bVadd .. => 14
    | .bVsub .. => 14
    | .bVmul .. => 14
    | .bVmin .. => 14
    | .bVmax .. => 14
    | .bVand .. => 12
    | .bVor .. => 12
    | .bVxor .. => 12
    | .vbc .. => 9
    | .bVred .. => 14
    | .bViota .. => 4
    | .kpost .. => 13
    | .yieldb => 0
    | .endb => 0
    | _ => 5)

/-- A row's word with every operand field zero. -/
def rowWord : Instr → Nat
  | .restartMark .. => 0x8000
  | .wait .. => 0x10000
  | .take .. => 0x30000
  | .post .. => 0x20000
  | .brp .. => 0x20
  | .call .. => 0x40
  | .ret .. => 0x60
  | .jmpr .. => 0x80
  | .loop .. => 0xA0
  | .loopx .. => 0xC0
  | .yield .. => 0xE0
  | .exit .. => 0x100
  | .trap .. => 0x120
  | .svc .. => 0x140
  | .eret .. => 0x160
  | .setfmt .. => 0x180
  | .fmtrd .. => 0x1A0
  | .mdpc .. => 0x1C0
  | .step .. => 0x1E0
  | .barr .. => 0x200
  | .mwait .. => 0x220
  | .park .. => 0x240
  | .addi .. => 0x20
  | .sub .. => 0x40
  | .mul .. => 0x60
  | .mulh .. => 0x80
  | .mulhu .. => 0xA0
  | .div .. => 0xC0
  | .divu .. => 0xE0
  | .rem .. => 0x100
  | .remu .. => 0x120
  | .and .. => 0x140
  | .andi .. => 0x160
  | .or .. => 0x180
  | .ori .. => 0x1A0
  | .xor .. => 0x1C0
  | .xori .. => 0x1E0
  | .andn .. => 0x200
  | .shl .. => 0x220
  | .shr .. => 0x240
  | .sar .. => 0x260
  | .rot .. => 0x280
  | .clz .. => 0x2A0
  | .ctz .. => 0x2C0
  | .popc .. => 0x2E0
  | .brev .. => 0x300
  | .bswap .. => 0x320
  | .min .. => 0x340
  | .max .. => 0x360
  | .minu .. => 0x380
  | .maxu .. => 0x3A0
  | .abs .. => 0x3C0
  | .ext .. => 0x3E0
  | .bfx .. => 0x400
  | .bfi .. => 0x420
  | .mov .. => 0x440
  | .movi .. => 0x460
  | .movhi .. => 0x480
  | .sel .. => 0x4A0
  | .cmp .. => 0x4C0
  | .cmpi .. => 0x4E0
  | .pset .. => 0x500
  | .pmovRd .. => 0x520
  | .pmovWr .. => 0x20000520
  | .fadd .. => 0x540
  | .fsub .. => 0x560
  | .fmul .. => 0x580
  | .ffma .. => 0x5A0
  | .fmin .. => 0x5C0
  | .fmax .. => 0x5E0
  | .fsgnCp .. => 0x600
  | .fsgnNeg .. => 0x20000600
  | .fsgnXor .. => 0x40000600
  | .fcmp .. => 0x620
  | .fcvtI32F32 .. => 0x640
  | .fcvtF32I32 .. => 0x20000640
  | .fcvtU32F32 .. => 0x40000640
  | .fcvtF32U32 .. => 0x60000640
  | .fcvtF16F32 .. => 0x80000640
  | .fcvtF32F16 .. => 0xA0000640
  | .fcvtBf16F32 .. => 0xC0000640
  | .fcvtF32Bf16 .. => 0xE0000640
  | .fclass .. => 0x660
  | .rcpScalar .. => 0x200
  | .rsqVector .. => 0x20
  | .rsqScalar .. => 0x220
  | .sqrtVector .. => 0x40
  | .sqrtScalar .. => 0x240
  | .exp2Vector .. => 0x60
  | .exp2Scalar .. => 0x260
  | .log2Vector .. => 0x80
  | .log2Scalar .. => 0x280
  | .sinVector .. => 0xA0
  | .sinScalar .. => 0x2A0
  | .cosVector .. => 0xC0
  | .cosScalar .. => 0x2C0
  | .tanhVector .. => 0xE0
  | .tanhScalar .. => 0x2E0
  | .sigmVector .. => 0x100
  | .sigmScalar .. => 0x300
  | .erfVector .. => 0x120
  | .erfScalar .. => 0x320
  | .bSub .. => 0x4000000
  | .bMul .. => 0x8000000
  | .bAnd .. => 0xC000000
  | .bOr .. => 0x10000000
  | .bXor .. => 0x14000000
  | .bShl .. => 0x18000000
  | .bShr .. => 0x1C000000
  | .bSar .. => 0x20000000
  | .bMin .. => 0x24000000
  | .bMax .. => 0x28000000
  | .bAddi .. => 0x40000000
  | .bAndi .. => 0x44000000
  | .bOri .. => 0x48000000
  | .bXori .. => 0x4C000000
  | .bLui .. => 0x50000000
  | .bShli .. => 0x54000000
  | .bBeq .. => 0x60000000
  | .bBne .. => 0x64000000
  | .bBlt .. => 0x68000000
  | .bBge .. => 0x6C000000
  | .bBltu .. => 0x70000000
  | .bBgeu .. => 0x74000000
  | .bJ .. => 0x78000000
  | .ropen .. => 0x80000000
  | .ldy .. => 0x84000000
  | .sty .. => 0x88000000
  | .vldy .. => 0x8C000000
  | .vsty .. => 0x90000000
  | .rred .. => 0x94000000
  | .bVadd .. => 0xA0000000
  | .bVsub .. => 0xA4000000
  | .bVmul .. => 0xA8000000
  | .bVmin .. => 0xAC000000
  | .bVmax .. => 0xB0000000
  | .bVand .. => 0xB4000000
  | .bVor .. => 0xB8000000
  | .bVxor .. => 0xBC000000
  | .vbc .. => 0xC0000000
  | .bVred .. => 0xC4000000
  | .bViota .. => 0xC8000000
  | .kpost .. => 0xE0000000
  | .yieldb => 0xE4000000
  | .endb => 0xE8000000
  | _ => 0

/-- How well a reading fits a word: a row whose operands are all zero in it first, then the row that fixes most bits. -/
def fits (w : Nat) (i : Instr) : Nat := fixedBits i + (if rowWord i = w then 64 else 0)

/-- The instruction that the decoder reads from a table word. The word does not say in which slot it stands: it is tried as a
word of every kind of its size, and among the readings that encode back to it the one that fits best stands. -/
noncomputable def decodeTableWord (nbits w : Nat) : Option Instr :=
  let ks := if decide (nbits ≤ 32) then [15, 0, 1, 6, 16] else [3, 4, 5, 7]
  let cand := ks.filterMap (fun k => match decodeAt k w with
    | .ok i => if encode i == some (if decide (nbits ≤ 32) then 32 else 64, w) then some i else none
    | _ => none)
  cand.foldl (fun best i => match best with
    | none => some i
    | some b => if decide (fits w b < fits w i) then some i else some b) none

end Sys2Proof
end

