-- ==== Sys2Proof/Machine/State.lean ====
section
/-!
DEFINITION. The state of the machine, as plain data, and the state after reset. Register files, memories and sets of
like things are sparse tables (Tab); what an unlisted key reads as is said at each field. The accessors are in Ops.
-/
namespace Sys2Proof.Machine
open Sys2Proof

/-- The architectural fault codes (R223). -/
inductive FaultCode where
  | illegalBundle | illegalOpcode | illegalTarget | privOpcode | align | handleBound | handlePerm | pageAbsent
  | walkFault | scratchUnmapped | ringFull | queueFull | gateOverflow | bankActiveWrite | planeCollision
  | frontOverflow | coordRange | formatInvalid | integrity | poison | revoked | restoreFeature | domainMismatch
  | deviceFenced
deriving DecidableEq, Repr

/-- The state of a handle (R126). A memory handle that was saved valid comes back `restored`: HTEST shows it as valid, as before
the save, and its first use translates it again, as a stale one's does (R243). -/
inductive HState where
  | empty | valid | stale | restored
deriving DecidableEq, Repr

/-- The space a handle names (R126). -/
inductive Space where
  | memory | scratch | plane
deriving DecidableEq, Repr

/-- A handle (R126, R254): state, space, VA and PA of its base, page size (0: 64 KiB, 1: 256 MiB, 2: 1 TiB),
permissions and attributes, placement (the stack it lies on, if stack-local), plane index, device rank. -/
structure Handle where
  st : HState
  space : Space
  va : Nat
  pa : Nat
  size : Nat
  r : Bool
  w : Bool
  sys : Bool
  comp : Bool
  lowered : Bool
  stack : Option Nat
  plane : Nat
  dev : Nat
deriving DecidableEq, Repr

/-- The handle state at group start (R8, R45). -/
def Handle.init : Handle :=
  { st := .empty, space := .memory, va := 0, pa := 0, size := 0, r := false, w := false, sys := false, comp := false,
    lowered := false, stack := none, plane := 0, dev := 0 }

/-- One held tuple of a front: its keys, key 0 first, and its payload (R92). -/
structure Tuple where
  keys : List (BitVec 32)
  pay : BitVec 32
deriving DecidableEq, Repr

/-- A front register (R92): CFG, the held tuples in held order, OVF, NANC. -/
structure Front where
  cfg : BitVec 32
  tup : List Tuple
  ovf : BitVec 32
  nanc : BitVec 32
deriving DecidableEq, Repr

/-- A front at group start (R92). -/
def Front.init : Front := { cfg := 0, tup := [], ovf := 0, nanc := 0 }

/-- A loop counter (R305, R306): COUNT, ACT, BODY, the addresses of the body's first and last bundle, whether they lie in system
code, and how many loops were active around it. -/
structure LoopCtr where
  count : BitVec 16
  act : Bool
  body : BitVec 4
  first : Nat
  last : Nat
  sys : Bool
  depth : Nat
deriving DecidableEq, Repr

/-- A loop counter at group start (R306). -/
def LoopCtr.init : LoopCtr := { count := 0, act := false, body := 0, first := 0, last := 0, sys := false, depth := 0 }

/-- A register that a result in flight is for. -/
inductive RegName where
  | s (i : Nat) | p (i : Nat) | h (i : Nat) | v (i : Nat) | w (i : Nat) | fmt
deriving DecidableEq, Repr

/-- The value of a result in flight. -/
inductive RegVal where
  | s (x : Word) | p (x : Bool) | h (x : Handle) | v (x : VReg)
deriving DecidableEq, Repr

/-- How the bytes of a load become its register's value: an integer of n bytes extended with or without sign, the
sixteen lanes of a vector register (also a walk descriptor's image); a translation of a VA that has not ended, with whether its
segment has the system bit and the retries it has made on a migrating entry (R16, R129); a prefetch, with its class (R338). -/
inductive LoadFin where
  | int (signed : Bool) | lanes | walk (va : Nat) (sys : Bool) (tries : Nat) | pref (cls : Nat)
deriving DecidableEq, Repr

/-- Where a byte of a load comes from: known already (a gate byte, or a hit), a physical address of a device, an
offset in a plane region, a scratch address. -/
inductive ByteSrc where
  | known (b : Byte) | home (dev pa : Nat) | plane (reg off : Nat) | scratch (a : Nat)
deriving DecidableEq, Repr

/-- A load that has not performed (R16, R139). `addrs` are the addresses that its faults report: one for the whole load, or one
for each lane (R355). -/
structure LoadReq where
  cls : Nat
  srcs : List ByteSrc
  fin : LoadFin
  addrs : List Nat
  slot : Nat
  cached : Bool
  bpc : Nat
deriving DecidableEq, Repr

/-- A result in flight (R14): its register, its value (meaningful once it has arrived), its landing position, its
issue position, and the load it waits for. -/
structure Pend where
  reg : RegName
  val : RegVal
  land : Nat
  pos : Nat
  load : Option LoadReq
deriving DecidableEq, Repr

/-- The sector a gate entry names: of a device's memory, of scratch, or of a plane region. -/
inductive GAddr where
  | mem (dev sec : Nat) | scr (sec : Nat) | pl (reg sec : Nat)
deriving DecidableEq, Repr

/-- A gate entry (R21): sector, class, byte mask, data, and the virtual address of its sector for the fault record. -/
structure GateEnt where
  at_ : GAddr
  cls : Nat
  mask : BitVec 64
  data : BitVec 512
  va : Nat
deriving DecidableEq, Repr

/-- A recognised fault (R224): code, issue position, slot, ADDR, gate entry, flag or queue, and its bundle's address. -/
structure FaultInfo where
  code : FaultCode
  pos : Nat
  slot : Nat
  addr : Nat
  gate : Nat
  fq : Nat
  bpc : Nat
deriving DecidableEq, Repr

/-- What a thread is doing (R34, R35, R52, R144, R308). -/
inductive RunState where
  | ready
  | yielded
  | parked
  | blocked
  | walking (tries : Nat)
  | waitge
  | arrived
  | relWait
  | heldWait
  | station
  | stopped
  | exited
deriving DecidableEq, Repr

/-- A native segment as its header gives it (R293): where its header lies, and whether its code handle has the system
bit. The offsets of its parts are turned into physical addresses. ENTRY stays an offset within the code, as every PC of a thread
is (R293, R302, R311). -/
structure Seg where
  base : Nat
  code : Nat
  len : Nat
  lat : BitVec 32
  entry : Nat
  map : Nat
  md : Nat
  mdLen : Nat
  sys : Bool
  portable : Bool
deriving DecidableEq, Repr

/-- No segment. -/
def Seg.none : Seg :=
  { base := 0, code := 0, len := 0, lat := 0xC8436431, entry := 0, map := 0, md := 0, mdLen := 0, sys := false,
    portable := false }

/-- A SHA-512 context (R392): its message so far and whether a poisoned sector was met. -/
structure HashCtx where
  msg : List Byte
  bad : Bool
deriving DecidableEq, Repr

/-- The operation a mark bundle performs at step 2 (R23, R135, R144, R190, R219), with its operands as captured at
issue; `lines` are the lines of another device that it is under way on (R148), `tries` and `tries2` count its walks on migrating
entries (R129). -/
structure HeldOp where
  ins : Instr
  a : Word
  b : Word
  c : Word
  h : Handle
  va : Nat
  pa : Nat
  addr : Nat
  lines : List Nat
  tries : Nat
  tries2 : Nat
deriving DecidableEq, Repr

/-- A collective command's own operands (R172): kind, type, level, sequence number, block count, root. -/
structure CollOp where
  kind : Nat
  ty : Nat
  level : Nat
  seq : Nat
  blocks : Nat
  root : Nat
deriving DecidableEq, Repr

/-- A shunter command (R170 to R172): its source and destination byte addresses in transfer order, as (device,
address) pairs or scratch addresses, its class, the counter add and the flag increment it performs, and for a
collective its kind, type, level, sequence number, block count and root. `run` is the source's run; `sent` and `wait`
say that its writes to other devices have left, and which acknowledgements are awaited. `hs`, `hd` and `hx` are the handles of
source, destination and counter, translated again after a shoot-down (R128, R159), `tries` the retries of such a walk; `early`
holds source bytes taken before the transfer; `adding` says that the counter add to another device has left, `bad` that a device
it waits for has been fenced. -/
structure ShuntCmd where
  src : List ByteSrc
  dst : List ByteSrc
  cls : Nat
  ctr : Option (Nat × Nat × Nat)
  flag : Option (Nat × Nat × Nat)
  coll : Option CollOp
  th : Nat
  seq : Nat
  held : Bool
  pos : Nat
  run : Nat
  sent : Bool
  wait : List (Nat × Nat)
  hs : Handle
  hd : Handle
  hx : Handle
  tries : Nat
  early : List (ByteSrc × Byte × Bool)
  adding : Bool
  bad : Bool
deriving DecidableEq, Repr

/-- A copy command in its channel (R165 to R167): kind (the CP opcode), source bytes, destination bytes in scratch or
in a bank (bank), what it read if it has read, the elements already landed, its flag post, class, issue position and
thread, the ring slot it fills or reads, the memory bytes a CPYO writes with their handle and the number of the window's FENCEs
before it, and the provenance entry of a WLOAD. -/
structure CopyCmd where
  op : Nat
  src : List ByteSrc
  dst : List Nat
  bank : Option Nat
  got : Option (List Byte × List Bool)
  landed : List Nat
  post : Option (Nat × Nat)
  cls : Nat
  pos : Nat
  th : Nat
  ring : Option (Nat × Nat)
  out : List ByteSrc
  oh : Handle
  fen : Nat
  prov : Option Nat
deriving DecidableEq, Repr

/-- What a completed CPYO holds for its window's closing mark (R166, R368): class, its issue position, the bytes written to with
their handle, the data and its poison, and the number of the window's FENCEs before it. -/
structure HeldCopy where
  cls : Nat
  pos : Nat
  out : List ByteSrc
  oh : Handle
  bytes : List Byte
  bad : List Bool
  fen : Nat
deriving DecidableEq, Repr

/-- A status word's own counters (R174): stall counter, last failure. -/
structure QStat where
  stall : Nat
  err : Bool
  code : Nat
deriving DecidableEq, Repr

/-- A status word at group start (R174). -/
def QStat.init : QStat := { stall := 0, err := false, code := 0 }

/-- A ring (R113, R114): base, slot bytes, slots, head, tail, filled slots, stall counter, slots pushed but not
landed, slots assigned to ring reads in flight. -/
structure Ring where
  base : Nat
  bytes : Nat
  slots : Nat
  head : Nat
  tail : Nat
  filled : Nat
  stall : Nat
  flying : List Nat
  taken : Nat
deriving DecidableEq, Repr

/-- A ring that is not declared. -/
def Ring.none : Ring :=
  { base := 0, bytes := 0, slots := 0, head := 0, tail := 0, filled := 0, stall := 0, flying := [], taken := 0 }

/-- A weight set (R176): valid, the bank and first row it was loaded from, the format recorded, and the rows it
holds (256 words of 2 KiB rows, as loaded). -/
structure WSet where
  valid : Bool
  bank : Nat
  row : Nat
  mxw : Nat
  bw : Nat
  rows : List (BitVec 16384)
deriving DecidableEq, Repr

/-- A weight set at group start. -/
def WSet.none : WSet := { valid := false, bank := 0, row := 0, mxw := 0, bw := 0, rows := [] }

/-- An MX operation in the engine (R175): the instruction, the FMT, the metadata word, the scale and the ring slot
(read or pushed) captured at issue, the scratch bytes it writes, thread, issue position, bank, and whether it runs. -/
structure MxOp where
  ins : Instr
  fmt : Word
  meta_ : Word
  scale : Option (BitVec 32)
  slot : Nat
  dst : List Nat
  th : Nat
  pos : Nat
  bank : Nat
  started : Bool
  bpc : Nat
deriving DecidableEq, Repr

/-- A tile load in flight (R339): source bytes, scratch destination, class, ring slot, issue position, thread, and
which bytes are known already. -/
structure TldCmd where
  src : List ByteSrc
  dst : List Nat
  cls : Nat
  ring : Option (Nat × Nat)
  pos : Nat
  th : Nat
  addr : Nat
  slot : Nat
  bpc : Nat
deriving DecidableEq, Repr

/-- A provenance entry (R247), under the model's own number: bank, class, first row, rows, checksum, VA of the walk's base, the walk descriptor,
the sectors it read, which are held (R248), and its rows that no later entry has overwritten. -/
structure Prov where
  id : Nat
  bank : Nat
  cls : Nat
  row0 : Nat
  rows : Nat
  chk : Nat
  va : Nat
  walk : BitVec 512
  secs : List (Nat × Nat)
  live : List Nat
deriving DecidableEq, Repr

/-- The registers a window's opening mark logs (R20, R25, R168): what a rollback gives back. -/
structure Ckpt where
  pc : Word
  pos : Nat
  s : Tab Word
  p : BitVec 16
  h : Tab Handle
  fr : Tab Front
  n : Tab LoopCtr
  w : Tab (BitVec 512)
  v : Tab VReg
  fmt : Word
  mpc : Word
  pend : List Pend
  sys : Bool
  acc : List (Nat × Tab (BitVec 32))
  ws : List (Nat × WSet × Bool)
  bank : Option Nat
  pops : List (Nat × Nat)
  pushes : List (Nat × Nat)
  takes : List (Nat × Nat)
  posts : List (Nat × Nat)
  coll : List (Nat × Nat)
  unpins : List (Nat × List Byte × List Nat)
  act : Nat
deriving DecidableEq, Repr

/-- One hardware thread (R8) with its window (R20), its system registers (R310) and its interrupt state. PC is the offset of
the next bundle within the running segment's code; `insys` says that the thread runs system code, from the mark of an SVC or TRAP to
that of its ERET (R312). Tables read 0 (or the start value of R8) where nothing is listed. -/
structure Thread where
  pc : Word
  pos : Nat
  s : Tab Word
  p : BitVec 16
  h : Tab Handle
  fr : Tab Front
  fbusy : BitVec 8
  n : Tab LoopCtr
  w : Tab (BitVec 512)
  v : Tab VReg
  fmt : Word
  dom : Word
  mpc : Word
  xpc : Word
  xcause : Word
  seg : Seg
  insys : Bool
  hs : Tab HashCtx
  pend : List Pend
  gate : List GateEnt
  fences : List (Nat × Nat)
  heldOp : Option HeldOp
  heldRel : Option (Nat × Nat)
  heldPriv : List HeldOp
  heldCpyo : List HeldCopy
  heldPost : Option (Nat × Nat)
  heldSync : Option (Nat × Bool)
  heldCtl : Option (Nat × Nat)
  heldFr : List (Nat × Front)
  marking : Nat
  committed : List Nat
  ckpt : Ckpt
  fault : Option FaultInfo
  after : List (FaultCode × Nat)
  run : RunState
  intr : Bool
  idist : Nat
  defer : Bool
  deferN : Nat
  arrival : Option (Nat × Bool)
  open_ : List Nat
  batches : List (Nat × List Nat)
  pfault : Nat
  slot : Nat
  stalls : List Nat
  bpc : Nat
  heldMpc : Option Word
  heldBusy : BitVec 8
  used : List (Nat × Nat)
deriving DecidableEq, Repr

/-- A plane region's storage (R130 to R132): its size and rule, the domain it is bound to (launch, first group of the
domain, rank for a thread domain), the die it lies on, the present plane, and this phase's contributions as
(word, rank, value) in commit order. -/
structure PlaneReg where
  size : Nat
  rule : Nat
  launch : Nat
  dom : Nat
  idx : Nat
  die : Nat
  present : Tab Byte
  contrib : List (Nat × Nat × BitVec 32)
deriving DecidableEq, Repr

/-- A kernel of an installed image (R44, R204). -/
structure Kernel where
  kind : Nat
  threads : Nat
  lenient : Bool
  bank : Bool
  level : Nat
  prio : Nat
  fronts : Nat
  scratch : Nat
  rings : List (Nat × Nat)
  planes : List (Nat × Nat)
  seg : Seg
  bcode : List Byte
  pmap : List (Nat × Nat)
deriving DecidableEq, Repr

/-- A kernel that declares nothing. -/
def Kernel.none : Kernel :=
  { kind := 1, threads := 1, lenient := false, bank := false, level := 0, prio := 6, fronts := 0, scratch := 0,
    rings := [], planes := [], seg := Seg.none, bcode := [], pmap := [] }

/-- A tensor's pattern (R216) with the blocks re-encoded since install (R222). -/
structure Tensor where
  id : Nat
  ptype : Nat
  priv : Nat
  bw : Nat
  kdim : Nat
  ndim : Nat
  kt : Nat
  e : Nat
  sc : Nat
  va : Nat
  pa : Nat
  off : Nat
  reenc : List Nat
deriving DecidableEq, Repr

/-- An installed image (R203 to R216): its number, the root of its address space, its kernels and
patterns, its container, whether a job holds it (R210), whether every member of the set has it (R256), and the device
memory that the Fitter gave it. -/
structure Image where
  num : Nat
  root : Nat
  sys : Bool
  kernels : List Kernel
  tensors : List Tensor
  cont : List Byte
  hold : Bool
  everywhere : Bool
  area : List (Nat × Nat)
deriving DecidableEq, Repr

/-- A group: the running or saved state that its threads share (R44 to R46, R244). Scratch, accumulators and banks
read zero where nothing is listed. -/
structure Group where
  launch : Nat
  image : Nat
  kidx : Nat
  index : Nat
  prio : Nat
  waited : Nat
  mbox : Nat
  kern : Kernel
  ths : Tab Thread
  flags : Tab (BitVec 32)
  rings : Tab Ring
  acc : Tab (Tab (BitVec 32))
  banks : Tab (Tab (BitVec 16384))
  badRows : List (Nat × Nat)
  active : Nat
  wsets : Tab WSet
  scratch : Tab Byte
  pinned : List Nat
  badScr : List Nat
  ch : Tab CopyCmd
  chStat : Tab QStat
  qu : List (Nat × ShuntCmd)
  quStat : Tab QStat
  mx : List (Nat × MxOp)
  mxSeq : Nat
  tld : List TldCmd
  prov : List Prov
  collN : Tab Nat
  halted : Bool
  saving : Bool
  shuntFail : List (Nat × Nat × FaultCode × Nat)
  planeDom : Nat
  disp : Nat
deriving DecidableEq, Repr

/-- A sector of a core array (R110, R140): data, valid bytes, dirty bytes, the class of the filling access. -/
structure Sector where
  data : BitVec 512
  valid : BitVec 64
  dirty : BitVec 64
  cls : Nat
deriving DecidableEq, Repr

/-- An empty sector. -/
def Sector.none : Sector := { data := 0, valid := 0, dirty := 0, cls := 0 }

/-- An entry of a core array's dirty FIFO (R141): device, line, class; or a REL marker of a context. -/
inductive FifoEnt where
  | line (dev ln cls : Nat) (ack : Bool) | marker (cx mask scope : Nat)
deriving DecidableEq, Repr

/-- A group waiting to start: which launch and index, its effective priority and full 100 us waited, whether it has waited since the
last time that groups aged (R63), whether it is a
pre-empted group (whose state is then in State.saved), whether it is a gang's, and the core it is meant for. On a platform: whether
it has the slot of the group being pre-empted there for it (R70), and when it was staged, by the dispatch counter (R71). -/
structure Staged where
  launch : Nat
  index : Nat
  prio : Nat
  waited : Nat
  aged : Bool
  saved : Bool
  gang : Bool
  core : Nat
  same : Bool
  seq : Nat
deriving DecidableEq, Repr

/-- A page through which a core has accessed memory (R159): image, VA of its first byte, bytes, device, physical address. -/
structure PageUse where
  image : Nat
  va : Nat
  size : Nat
  dev : Nat
  pa : Nat
deriving DecidableEq, Repr

/-- A compute core (R32, R110, R141): its array, keyed by device × 2^42 + sector, dirty FIFO, the pages it has used, running
group, issuing claim (R33), the staged groups of its platform (R66), whether it is out of service. -/
structure Core where
  arr : Tab Sector
  fifo : List FifoEnt
  pages : List PageUse
  grp : Option Group
  claim : Nat
  plat : List Staged
  oos : Bool
deriving DecidableEq, Repr

/-- A core at reset. -/
def Core.init : Core :=
  { arr := [], fifo := [], pages := [], grp := none, claim := 0, plat := [], oos := false }

/-- A row slot of a ballast instance (R184, R185): open, row offset, snapshot. -/
structure RowSlot where
  isOpen : Bool
  off : Nat
  data : BitVec 8192
deriving DecidableEq, Repr

/-- A closed row slot. -/
def RowSlot.init : RowSlot := { isOpen := false, off := 0, data := 0 }

/-- A ballast instance (R184) with its launch, index, window and effective priority. -/
structure BInst where
  launch : Nat
  index : Nat
  prio : Nat
  waited : Nat
  seq : Nat
  pc : BitVec 32
  e : Tab Word
  z : Tab ZReg
  y : Tab RowSlot
  wlen : Nat
  wpa : Nat
  code : List Byte
deriving DecidableEq, Repr

/-- No instance. -/
def BInst.none : BInst :=
  { launch := 0, index := 0, prio := 0, waited := 0, seq := 0, pc := 0, e := [], z := [], y := [], wlen := 0, wpa := 0,
    code := [] }

/-- A launch (R57 to R65, R189 to R198): where it came from, its fields, its effective priority and full 100 us
waited, whether it has waited since the last time that groups aged (R63), whether its counter has been compared since it arrived
(R62), its dispatch and completion counts. `ballast` launches hold their window from the moment they take effect. -/
structure Launch where
  id : Nat
  mbox : Nat
  station : Bool
  image : Nat
  kidx : Nat
  groups : Nat
  prio : Nat
  waited : Nat
  aged : Bool
  evt : Bool
  seen : Bool
  depAddr : Nat
  depTgt : Nat
  doneAddr : Nat
  doneInc : Nat
  arg0 : Nat
  arg1 : Nat
  ready : Bool
  readySeq : Nat
  handed : Nat
  ended : Nat
  killed : Bool
  finished : Bool
  forwarded : Bool
  ballast : Bool
  took : Bool
  started : Nat
  stack : Nat
  wpa : Nat
  wlen : Nat
  from_ : Option (Nat × Nat)
  remote : Option (Nat × Nat)
  ready2 : List Nat
  reports : List (Nat × Nat × Nat)
  tries : Nat
deriving DecidableEq, Repr

/-- A saved group (R239 to R244): the group, its pending flag additions, whether it waits for the host, and the retries of its
restore's walk on a migrating entry (R129, R250). -/
structure Saved where
  grp : Group
  adds : Tab Nat
  host : Bool
  prio : Nat
  waited : Nat
  gang : Bool
  tries : Nat
deriving DecidableEq, Repr

/-- A fault the stationmaster has yet to handle (R225 to R230): record fields. -/
structure Report where
  launch : Nat
  core : Option Nat
  code : Nat
  kind : Nat
  thr : Nat
  image : Nat
  kernel : Nat
  mbox : Nat
  group : Nat
  noff : Nat
  poff : Nat
  addr : Nat
  info : Nat
  sys : Bool
deriving DecidableEq, Repr

/-- A Fitter job (R208); `begun` says that it has started and counts no more against its mailbox (R58), `phase` what it walks for (0 its
input, 1 the words of tensors, 2 its output), `tries` counts its walks on a migrating entry in that phase (R129). Once its record and
output are written `result` holds STATUS and IMAGE, and `waits` the writes to other devices whose acknowledgements come before the
counter is added to (R209). -/
structure Job where
  mbox : Nat
  job : Nat
  outCap : Nat
  evt : Bool
  src : Nat
  srcLen : Nat
  done : Nat
  doneInc : Nat
  timg : Nat
  tkern : Nat
  aux : Nat
  out : Nat
  tries : Nat
  begun : Bool
  phase : Nat
  result : Option (Nat × Nat)
  waits : List (Nat × Nat)
deriving DecidableEq, Repr

/-- A message whose checks of R58, R189 or R208 wait for a table of another device, or meet a migrating entry that its walks have met
`tries` times (R129): its mailbox, whether a station core wrote it, its 64 bytes. -/
structure PendMsg where
  mbox : Nat
  station : Bool
  msg : BitVec 512
  tries : Nat
deriving DecidableEq, Repr

/-- A counter of this device that a launch of another device waits for (R62): the device, its name for the launch, the counter's
address, the target. -/
structure Watch where
  rank : Nat
  key : Nat
  pa : Nat
  tgt : Nat
deriving DecidableEq, Repr

/-- A mailbox's refusal state and bound address space (R59, R208). -/
structure Mbox where
  err : Bool
  code : Nat
  space : Nat
deriving DecidableEq, Repr

/-- A mailbox at reset. -/
def Mbox.init : Mbox := { err := false, code := 0, space := 0 }

/-- A signal box (R65, R67, R68): groups received and not staged, the column thresholds, the column rotation. -/
structure SigBox where
  recv : List Staged
  thr : Tab Nat
  rot : Nat
deriving DecidableEq, Repr

/-- A signal box at reset: every threshold is 8 (R68; unlisted reads 8). -/
def SigBox.init : SigBox := { recv := [], thr := [], rot := 0 }

/-- A key slot (R391): kind (0 part, 1 link, 2 sign), key, binding. -/
structure KeySlot where
  kind : Nat
  key : List Byte
  bind : Nat
deriving DecidableEq, Repr

/-- A saddle partition's change under way (R120, R121). -/
structure Spway where
  req : Nat
  cur : Nat
  busy : Bool
  pass : Bool
deriving DecidableEq, Repr

/-- A partition at reset. -/
def Spway.init : Spway := { req := 0, cur := 0, busy := false, pass := false }

/-- A unit's error history (R421): past interval counts, newest first, and the streak above its threshold. -/
structure UnitHist where
  hist : List Nat
  streak : Nat
deriving DecidableEq, Repr

/-- A shoot-down in flight (R258, R259): identifier, initiator, range, image, the ranks acknowledged, whether
this device has acted, whether it has rolled back what must be and flushed its arrays, the (device, line) pairs whose write-backs
are then still to be acknowledged, whether its partial answer has gone, the ranks that it has made the initiator fence, and the context whose SHOOT waits. -/
structure Shoot where
  id : Nat
  init : Nat
  lo : Nat
  len : Nat
  image : Nat
  acks : List Nat
  acted : Bool
  rolled : Bool
  waits : List (Nat × Nat)
  late : Bool
  scope : Nat
  fenced : Nat
  waiter : Option (Nat × Nat × Nat)
deriving DecidableEq, Repr

/-- An SPDM session (R263): its channel and whether FINISH has completed it. -/
structure SpdmSess where
  chan : Nat
  id : Nat
  done : Bool
deriving DecidableEq, Repr

/-- How far a channel has come in SPDM's order (R263): 0 nothing, 1 version, 2 capabilities, 3 algorithms. -/
structure SpdmChan where
  chan : Nat
  stage : Nat
  log : List Byte
deriving DecidableEq, Repr

/-- What has left the device, oldest first: an MSI-X vector, a write to host memory, a flit, an SPDM
answer, the completion of a host read of a sector of device memory, with its EP bit (R420), the link going down. -/
inductive OutMsg where
  | msix (vec : Nat)
  | hostWrite (addr : Nat) (bs : List Byte)
  | flit (f : Flit)
  | spdm (chan : Nat) (rsp : List Byte)
  | completion (addr : Nat) (bs : List Byte) (ep : Bool)
  | linkDown
deriving DecidableEq, Repr

/-- Power (R428): off, booting, on, idle, or boot stopped (R426). -/
inductive Power where
  | off | booting | on | idle | bootStopped
deriving DecidableEq, Repr

/-- What is focused: nothing, a core (and its thread), or a ballast core. -/
inductive Focus where
  | none | thread (co cx : Nat) | core (co : Nat) | ballast (bc : Nat)
deriving DecidableEq, Repr

/-- An input or timed event still to come: the event, in State.agenda. -/
abbrev Agenda := List Instr

/-- What a participant supplies to a collective (R172): its rank, kind, type, block count, root,
how many words its source has, those that have come, and which of them lay in a poisoned sector. -/
structure CollPart where
  rank : Nat
  kind : Nat
  ty : Nat
  blocks : Nat
  root : Nat
  total : Nat
  src : List (BitVec 32)
  po : List Bool
deriving DecidableEq, Repr

/-- A collective in flight (R172, R268, R269): level, sequence number, its domain, what its participants have
supplied, who has sent a receipt, whether it is confirmed or cut, and the devices that had left the set's domains before it began
(R53, R260, R273). -/
structure Coll where
  level : Nat
  n : Nat
  dom : Nat
  launch : Nat
  parts : List CollPart
  receipts : List Nat
  confirmed : Bool
  cut : Bool
  out : List Nat
deriving DecidableEq, Repr

/-- The enclave machinery (R265 to R273): the policy accepted and its digest, members, epoch, highest order applied,
the coordinator, one above the highest CONFIRM of each launch of the set (by the launch's name: sequence numbers begin with each
launch, R172), the members' secrets, for a new coordinator the order it applies (its rank and digest) and the survivors that have
answered, and S of launches as they have come ahead of a CUT. -/
structure Enclave where
  policy : List Byte
  poldig : List Byte
  members : List Nat
  epoch : Nat
  oseq : Option Nat
  coord : Nat
  conf : Tab Nat
  secrets : List (Nat × List Byte)
  pending : Option (Nat × List Byte)
  heard : List Nat
  opens : Tab Nat
deriving DecidableEq, Repr

/-- The package's registers (R109, R231, R232, R253, R309, R417, R422). -/
structure Regs where
  sysent : BitVec 64
  ipool : Nat
  hostpage : Bool
  qbase : Nat
  lost : Nat
  fqProd : Nat
  fqCons : Nat
  rank : Nat
  ndev : Nat
  inset : Bool
  encl : Bool
  cut : Bool
  fences : List Nat
  evEn : Bool
  evBase : Nat
  evProd : Nat
  evCons : Nat
  badwr : Nat
  evlost : Nat
  replace : Bool
  npoison : Nat
deriving DecidableEq, Repr

/-- The registers at reset: every field 0 but MEMCFG.IPOOL, which is 48 (R109). -/
def Regs.init : Regs :=
  { sysent := 0, ipool := 48, hostpage := false, qbase := 0, lost := 0, fqProd := 0, fqCons := 0, rank := 0, ndev := 0,
    inset := false, encl := false, cut := false, fences := [], evEn := false, evBase := 0, evProd := 0, evCons := 0,
    badwr := 0, evlost := 0, replace := false, npoison := 0 }

/-- A checkpoint of nothing. -/
def Ckpt.init : Ckpt :=
  { pc := 0, pos := 0, s := [], p := 1, h := [], fr := [], n := [], w := [], v := [], fmt := 0x0A083300, mpc := 0,
    pend := [], sys := false, acc := [], ws := [], bank := none, pops := [], pushes := [], takes := [], posts := [],
    coll := [], unpins := [], act := 0 }

/-- A thread as R8 starts it: every register 0 but p0, which reads 1, and FMT at its reset value (R73). -/
def Thread.init : Thread :=
  { pc := 0, pos := 0, s := [], p := 1, h := [], fr := [], fbusy := 0, n := [], w := [], v := [], fmt := 0x0A083300,
    dom := 0, mpc := 0, xpc := 0, xcause := 0, seg := Seg.none, insys := false, hs := [], pend := [], gate := [],
    fences := [], heldOp := none, heldRel := none, heldPriv := [], heldCpyo := [], heldPost := none, heldSync := none,
    heldCtl := none, heldFr := [], marking := 0, committed := [], ckpt := Ckpt.init, fault := none, after := [], run := .ready,
    intr := false, idist := 0, defer := false, deferN := 0, arrival := none, open_ := [], batches := [], pfault := 0,
    slot := 0, stalls := [], bpc := 0, heldMpc := none, heldBusy := 0, used := [] }

/-- A group as R45 starts it. -/
def Group.init : Group :=
  { launch := 0, image := 0, kidx := 0, index := 0, prio := 0, waited := 0, mbox := 0, kern := Kernel.none, ths := [], flags := [],
    rings := [], acc := [], banks := [], badRows := [], active := 0, wsets := [], scratch := [], pinned := [],
    badScr := [], ch := [], chStat := [], qu := [], quStat := [], mx := [], mxSeq := 0, tld := [], prov := [],
    collN := [], halted := false, saving := false, shuntFail := [], planeDom := 0, disp := 0 }

/-- An arrival at a sync point of a set-level domain by a thread on another device (R47, R52): launch, first group of the
domain, the thread's rank, whether it is a STEP. -/
structure FarArr where
  launch : Nat
  dom : Nat
  rank : Nat
  isStep : Bool
deriving DecidableEq, Repr

/-- What is fixed in the part at manufacture (R425, R427): the root key, and what the hardware configuration record opens with. -/
structure Fuses where
  root : List Byte
  hwconf : List Byte
deriving DecidableEq, Repr

/-- The machine. Reads of other devices (`readWait`: device, sector, class, reader; `rdata`: device, sector, reader, bytes) carry the name of their reader (`rtag` while it acts): [0, core, context] a thread's
walks and marks, [1, core, context, position, slot] a load, [2, core, channel] a copy, [3, core, queue] a shunt,
[4, core, context, position] a tile load, [5, launch], [6] the Fitter's job and [7] units of the package; [] is a read whose reader is gone.
`checks` holds the stored check words of sectors of
home memory that bits have failed in since they were written; the check word of any other sector is the one computed from its bytes
(R419). `farLow` lists lowered windows of other devices (device, address, bytes), `watches` the counters here that launches of other
devices wait for, `pend` the messages whose checks wait. `boot` is what a reset of a device that was on will boot from (R425), `hostReads` the reads of its memory that the host will make
(address and bytes; R420). `kills` are the kills under way, with the SEQ of the record by which the host ordered one (R229). `farPoison` lists sectors of other devices known to be poisoned, `earlyAdds` flag additions (launch, group, flag, count) for
groups that have not started here. While a thread is focused, `th`, `grp` and `core` hold it, its group and its core, which are then
absent from the tables that hold them otherwise; the same for `bi` and a ballast core. -/
structure State where
  cur : Focus
  th : Thread
  grp : Group
  core : Core
  bi : BInst
  cores : Tab Core
  bcores : Tab BInst
  mem : List Host.Cell
  poisoned : List Nat
  checks : Tab Nat
  lowered : List (Nat × Nat)
  farLow : List (Nat × Nat × Nat)
  planes : List PlaneReg
  regs : Regs
  spway : Tab Spway
  mbox : Tab Mbox
  meas : Tab (BitVec 512)
  keys : Tab KeySlot
  images : List Image
  launches : List Launch
  nextId : Nat
  boxes : Tab SigBox
  mboxRot : Tab Nat
  watches : List Watch
  pend : List PendMsg
  boxRot : Nat
  returned : List Staged
  saved : List Saved
  reports : List Report
  awaiting : List (Nat × Report)
  kills : List (Report × Option Nat)
  awaitQ : List Report
  bwait : Tab (List BInst)
  bsave : Tab Nat
  bseq : Nat
  boos : List Nat
  jobs : List Job
  ide : Bool
  lseq : Nat
  linkFails : Tab Nat
  lanes : Tab Nat
  edges : List Nat
  dropped : Nat
  wacks : List (Nat × Nat)
  rtag : List Nat
  readWait : List (Nat × Nat × Nat × List Nat)
  rdata : List (Nat × Nat × List Nat × List Byte)
  farPoison : List (Nat × Nat)
  earlyAdds : List (Nat × Nat × Nat × Nat)
  shoots : List Shoot
  shootN : Nat
  farArr : List FarArr
  gone : List FarArr
  farQ : List Flit
  colls : List Coll
  encl : Enclave
  chans : List SpdmChan
  sess : List SpdmSess
  units : Tab UnitHist
  pass : List Nat
  fuses : Fuses
  boot : Option BootImage
  power : Power
  clock : Nat
  agenda : Agenda
  hostReads : List (Nat × Nat)
  out : List OutMsg
  freeCtr : Nat
deriving DecidableEq, Repr

/-- Why a run of the model stops. -/
inductive Fault where
  /-- Raised by step when the machine has no power, or its boot has stopped (R426, R428, R430). Safe: nothing can
  happen before the next power-on. -/
  | poweredOff
deriving DecidableEq, Repr

/-- Why an instruction has no meaning. -/
inductive Refusal where
  /-- Raised by the dispatch arm of an instruction that has no meaning yet. Safe: nothing is claimed of it. -/
  | notModelled (mnemonic : String)
deriving DecidableEq, Repr

/-- No enclave. -/
def Enclave.init : Enclave :=
  { policy := [], poldig := [], members := [], epoch := 0, oseq := none, coord := 0, conf := [], secrets := [],
    pending := none, heard := [], opens := [] }

/-- The machine at power-on reset, before its boot has run (R425): every register at its reset value, nothing
installed, queued, running or focused, memory with nothing listed. -/
def State.reset : State :=
  { cur := .none, th := Thread.init, grp := Group.init, core := Core.init, bi := BInst.none, cores := [], bcores := [],
    mem := [], poisoned := [], checks := [], lowered := [], farLow := [], planes := [], regs := Regs.init, spway := [], mbox := [], meas := [],
    keys := [], images := [], launches := [], nextId := 0, boxes := [], mboxRot := [], watches := [], pend := [], boxRot := 0, returned := [],
    saved := [], reports := [], awaiting := [], kills := [], awaitQ := [], bwait := [], bsave := [], bseq := 0, boos := [],
    jobs := [], ide := false, lseq := 0, linkFails := [], lanes := [], edges := [], dropped := 0,
    wacks := [], rtag := [], readWait := [], rdata := [], farPoison := [], earlyAdds := [], shoots := [], shootN := 0, farArr := [], gone := [], farQ := [], colls := [], encl := Enclave.init, chans := [], sess := [], units := [], pass := [],
    fuses := { root := Config.rootKey, hwconf := Config.hwconf }, boot := none, power := .booting, clock := 1500, agenda := [], hostReads := [], out := [], freeCtr := 0 }

end Sys2Proof.Machine
end

