-- ==== Sys2Proof/Machine/Ops.lean ====
section
/-!
DEFINITION. The named operations over registers and memory: register results and their landing (R14 to R17), faults
(R224), home memory and poison (R107, R419, R420), the core array and its dirty FIFO (R110, R139 to R141), the gate
(R20 to R22, R143), translation (R126 to R129, R254), flags (R39), the register log (R20, R25), taking an exception
(R311) and returning from one.
-/
namespace Sys2Proof.Machine
open Sys2Proof

/-- The outcome every meaning answers with. -/
abbrev Out := Host.Outcome State Fault Refusal

/-! Registers. -/

/-- The value of s(i): s0 reads as zero (R8). -/
def sReg (t : Thread) (i : Nat) : Word := if i = 0 then 0 else tget 0 t.s i

/-- The value of p(i): p0 reads as 1 (R8). -/
def pReg (t : Thread) (i : Nat) : Bool := if i = 0 then true else t.p.getLsbD i

/-- The value of h(i). -/
def hReg (t : Thread) (i : Nat) : Handle := tget Handle.init t.h i

/-- The value of vector register r of cluster cl. -/
def vReg (t : Thread) (cl r : Nat) : VReg := tget 0 t.v (32 * cl + r)

/-- The image of walk descriptor w(i). -/
def wReg (t : Thread) (i : Nat) : BitVec 512 := tget 0 t.w i

/-- The front pa(i). -/
def fReg (t : Thread) (i : Nat) : Front := tget Front.init t.fr i

/-- A slot's predicate holds (R277): bits 3:0 name it, bit 4 negates. -/
def predOk (t : Thread) (p : BitVec 5) : Bool := (pReg t (p.toNat % 16)) != p.getLsbD 4

/-- The predicate file with bit j written; writes to p0 are discarded (R8). -/
def setPred (p : BitVec 16) (j : Nat) (x : Bool) : BitVec 16 :=
  if j = 0 then p
  else if x then p ||| BitVec.ofNat 16 (2 ^ j) else p &&& ~~~BitVec.ofNat 16 (2 ^ j)

/-- A register written with the value of its kind; writes to s0 and p0 are discarded (R8). -/
def writeReg (t : Thread) (r : RegName) (x : RegVal) : Thread :=
  match r, x with
  | .s i, .s y => if i = 0 then t else { t with s := tset 0 t.s i y }
  | .p i, .p y => { t with p := setPred t.p i y }
  | .h i, .h y => { t with h := tset Handle.init t.h i y }
  | .v i, .v y => { t with v := tset 0 t.v i y }
  | .w i, .v y => { t with w := tset 0 t.w i y }
  | .fmt, .s y => { t with fmt := y }
  | _, _ => t

/-- Entry a lands before entry b (R15): by landing position, then by issue position. -/
def landsBefore (a b : Pend) : Bool := decide (a.land < b.land) || (a.land == b.land && decide (a.pos < b.pos))

/-- The list with `x` put after every entry that lands before it or with it. -/
def insertPend (x : Pend) : List Pend → List Pend
  | [] => [x]
  | y :: r => if landsBefore x y then x :: y :: r else y :: insertPend x r

/-- The entries in landing order. -/
def sortPend : List Pend → List Pend
  | [] => []
  | x :: r => insertPend x (sortPend r)

/-- A result that has not arrived and that a later-landing one has overtaken writes nothing when it arrives (R15). -/
def overtake (d : Pend) (e : Pend) : Pend :=
  if e.reg == d.reg && landsBefore e d then { e with reg := .s 0 } else e

/-- The arrived results among `due` written, in landing order, and removed; the others stay. -/
def landList (due : Pend → Bool) (t : Thread) : Thread :=
  let ds := sortPend (t.pend.reverse.filter (fun e => due e && e.load.isNone))
  let rest := t.pend.filter (fun e => !(due e && e.load.isNone))
  let t' := ds.foldl (fun t d => writeReg t d.reg d.val) { t with pend := [] }
  { t' with pend := ds.foldl (fun r d => r.map (overtake d)) rest }

/-- The results whose landing position is at or before the thread's position, written (R14). -/
def landDue (t : Thread) : Thread := landList (fun e => decide (e.land ≤ t.pos)) t

/-- The shadows of the bundles before position `m` closed (R17): all their results land, in the order of R15. Those of the mark
bundle itself stay in flight, each to its own landing position. -/
def landMark (m : Nat) (t : Thread) : Thread :=
  let old := fun (e : Pend) => decide (e.pos < m) && e.load.isNone
  (sortPend (t.pend.reverse.filter old)).foldl (fun t d => writeReg t d.reg d.val) { t with pend := t.pend.filter (fun e => !old e) }

/-- Latency classes (R18). -/
def clsAlu : Nat := 0
def clsMul : Nat := 1
def clsFp : Nat := 2
def clsLoad : Nat := 3
def clsVec : Nat := 4
def clsXc : Nat := 5
def clsSf : Nat := 6
def clsXlate : Nat := 7

/-- The latency a segment declares for a class (R18). -/
def latOf (g : Seg) (c : Nat) : Nat := bitsOf g.lat.toNat (4 * c + 3) (4 * c)

/-- A result in flight for register `r`, of latency class `c`, issued at the thread's position (R14). -/
def pushReg (t : Thread) (r : RegName) (x : RegVal) (c : Nat) : Thread :=
  { t with pend := { reg := r, val := x, land := t.pos + latOf t.seg c, pos := t.pos, load := none } :: t.pend }

/-- A load in flight for register `r`. -/
def pushLoad (t : Thread) (r : RegName) (q : LoadReq) (c : Nat) : Thread :=
  { t with pend := { reg := r, val := .s 0, land := t.pos + latOf t.seg c, pos := t.pos, load := some q } :: t.pend }

/-- The state with a scalar result issued. -/
def putS (s : State) (d : Nat) (x : Word) (c : Nat) : State := { s with th := pushReg s.th (.s d) (.s x) c }

/-- The state with a predicate result issued (scalar ALU class unless said). -/
def putP (s : State) (d : Nat) (x : Bool) (c : Nat) : State := { s with th := pushReg s.th (.p d) (.p x) c }

/-- The state with a handle result issued. -/
def putH (s : State) (d : Nat) (x : Handle) (c : Nat) : State := { s with th := pushReg s.th (.h d) (.h x) c }

/-- The state with a vector result issued. -/
def putV (s : State) (cl d : Nat) (x : VReg) (c : Nat) : State :=
  { s with th := pushReg s.th (.v (32 * cl + d)) (.v x) c }

/-! Faults. -/

/-- The number of a fault code (R223). -/
def faultNum : FaultCode → Nat
  | .illegalBundle => 1 | .illegalOpcode => 2 | .illegalTarget => 3 | .privOpcode => 4 | .align => 5
  | .handleBound => 6 | .handlePerm => 7 | .pageAbsent => 8 | .walkFault => 9 | .scratchUnmapped => 10
  | .ringFull => 11 | .queueFull => 12 | .gateOverflow => 13 | .bankActiveWrite => 14 | .planeCollision => 15
  | .frontOverflow => 16 | .coordRange => 17 | .formatInvalid => 18 | .integrity => 19 | .poison => 20
  | .revoked => 21 | .restoreFeature => 22 | .domainMismatch => 23 | .deviceFenced => 24

/-- Fault x is reported before fault y (R224): lower issue position; inside a bundle the lower slot in mask order. A
fault of the encoding stops every slot of its bundle, and a header's sync operation has none. -/
def faultBefore (x y : FaultInfo) : Bool := decide (x.pos < y.pos) || (x.pos == y.pos && decide (x.slot < y.slot))

/-- A fault recognised in the thread's window (R224): the one reported is the earliest. -/
def raiseTh (t : Thread) (f : FaultInfo) : Thread :=
  match t.fault with
  | none => { t with fault := some f }
  | some g => if faultBefore f g then { t with fault := some f } else t

/-- Taking an exception (R224, R5): the fault is recognised at the thread's position and slot, with the address it
reports. The thread issues no further bundle; WINDOW_ROLLBACK undoes the window and reports the fault. -/
def raise (s : State) (c : FaultCode) (addr : Nat) : State :=
  { s with th := raiseTh s.th { code := c, pos := s.th.pos, slot := s.th.slot, addr := addr, gate := 0, fq := 0, bpc := s.th.bpc } }

/-! Flags. -/

/-- The value of flag k. -/
def flagOf (g : Group) (k : Nat) : Nat := (tget 0 g.flags k).toNat

/-- c added to flag k, saturating (R39). -/
def addFlag (g : Group) (k c : Nat) : Group :=
  { g with flags := tset 0 g.flags k (BitVec.ofNat 32 (min (flagOf g k + c) 0xFFFFFFFF)) }

/-- c taken from flag k, stopping at 0 (R39, R168). -/
def subFlag (g : Group) (k c : Nat) : Group :=
  { g with flags := tset 0 g.flags k (BitVec.ofNat 32 (flagOf g k - c)) }

/-! Host events (R417, R418). -/

/-- `n` zero bytes. -/
def zeros (n : Nat) : List Byte := List.replicate n 0

/-- What an event record tells (R418). -/
structure EventRec where
  kind : Nat
  mbox : Nat
  image : Nat
  kernel : Nat
  imm : Nat
  group : Nat
  ref : Nat
  thr : Nat
  flags : Nat
deriving DecidableEq, Repr

/-- An event record's 32 bytes (R418). -/
def eventBytes (seq : Nat) (e : EventRec) : List Byte :=
  leBytes seq 4 ++ leBytes e.kind 1 ++ leBytes e.mbox 1 ++ leBytes e.image 2 ++ leBytes e.kernel 2 ++ leBytes e.imm 2 ++
  leBytes e.group 4 ++ leBytes e.ref 4 ++ leBytes e.thr 1 ++ leBytes e.flags 1 ++ zeros 10

/-- The count PROD − CONS of a ring of the host, modulo 2^32. -/
def ringCount (prod cons : Nat) : Nat := (prod + 2 ^ 32 - cons % 2 ^ 32) % 2 ^ 32

/-- An event posted, or dropped and counted (R418). -/
def postEvent (s : State) (e : EventRec) : State :=
  let r := s.regs
  if !r.evEn || decide (4096 ≤ ringCount r.evProd r.evCons) then
    { s with regs := { r with evlost := min (r.evlost + 1) 0xFFFFFFFF } }
  else
    { s with out := s.out ++ [.hostWrite (r.evBase + 32 * (r.evProd % 4096)) (eventBytes r.evProd e),
                              .msix (if e.mbox = 255 then 0 else e.mbox % 64)],
             regs := { r with evProd := (r.evProd + 1) % 2 ^ 32 } }

/-- An event with nothing but a kind, a mailbox, an image and a kernel. -/
def plainEvent (kind mbox image kernel : Nat) : EventRec :=
  { kind := kind, mbox := mbox, image := image, kernel := kernel, imm := 0, group := 0, ref := 0, thr := 0, flags := 0 }

/-- A change of HEALTH posts an event (R422); `ref` tells what has changed. -/
def postHealth (s : State) (ref : Nat) : State := postEvent s { plainEvent 4 0xFF 0 0 with ref := ref }

/-! Physical memory. -/

/-- GiB as bytes. -/
def gib : Nat := 2 ^ 30

/-- The device's own rank (0 outside a set, R253). -/
def ownRank (s : State) : Nat := if s.regs.inset then s.regs.rank else 0

/-- Device `d` is another device of the set. -/
def isRemote (s : State) (d : Nat) : Bool := d != ownRank s

/-- Device `d` is fenced (R260); a device that has been cut off finds every link of the set blocked, so that every other device is
out of its reach as a fenced one is (log entry 84). -/
def isFenced (s : State) (d : Nat) : Bool := s.regs.fences.contains d || (s.regs.cut && isRemote s d)

/-- The other devices of the set that are not fenced. -/
def otherRanks (s : State) : List Nat :=
  (upFrom 0 (s.regs.ndev + 1)).filter (fun r => r != s.regs.rank && !isFenced s r)

/-- A flit to another device (R257), its LSEQ counted modulo 2^16. Links to a fenced device are blocked for all kinds but 8 (R253,
R260). -/
def sendFlit (s : State) (dst kind cls addr : Nat) (data : List Byte) : State :=
  if isFenced s dst && kind != 8 then s else
  { s with out := s.out ++ [.flit { dst := dst, src := ownRank s, kind := kind, cls := cls, len := data.length,
                                    addr := addr, lseq := s.lseq, data := data,
                                    ek := if kind = 7 then s.encl.epoch else 0 }],
           lseq := (s.lseq + 1) % 2 ^ 16 }

/-- A message of KIND 11 (R256): an operation, a launch's name, the first group of its gang, the operation's own fields (the
model's own layout, log entry 40). -/
def sendSet11 (s : State) (dst op key dom : Nat) (rest : List Byte) : State :=
  sendFlit s dst 11 0 0 ([BitVec.ofNat 8 op] ++ leBytes key 8 ++ leBytes dom 4 ++ rest)

/-- The bytes of the interleaved pool of this device (R108). -/
def poolTop (s : State) : Nat := s.regs.ipool * 8 * gib

/-- The stack of a stack-local address of a device that gives `pool` GiB of each stack to its interleaved pool (R108). -/
def stackIn (pool pa : Nat) : Option Nat :=
  if 0x400000000000 ≤ pa && pa < 0x408000000000 && pa % 0x1000000000 < (48 - pool) * gib
  then some ((pa - 0x400000000000) / 0x1000000000) else none

/-- The stack of a stack-local address of this device (R108). -/
def stackOf (s : State) (pa : Nat) : Option Nat := stackIn s.regs.ipool pa

/-- The partition of a saddle-scratch address (R108). -/
def partOf (pa : Nat) : Option Nat :=
  if 0x500000000000 ≤ pa && pa < 0x500200000000 then some ((pa - 0x500000000000) / 0x1000000) else none

/-- The address has memory behind it on a device with that pool (R108). -/
def mapped (pool pa : Nat) : Bool := decide (pa < pool * 8 * gib) || (stackIn pool pa).isSome || (partOf pa).isSome

/-- The address has memory behind it on this device (R108). -/
def inMap (s : State) (pa : Nat) : Bool := mapped s.regs.ipool pa

/-- The pool of a device (R109): this one's MEMCFG.IPOOL; that of another device, which this one cannot read, is a constant of
the set (log entry 59). -/
def poolOf (s : State) (d : Nat) : Nat := if isRemote s d then min 48 (Config.farPool d) else s.regs.ipool

/-- A partition's scratch ways in effect, in MiB (R119, R120). -/
def spCur (s : State) (p : Nat) : Nat := (tget Spway.init s.spway p).cur

/-- A saddle-scratch address lies beyond its partition's extent (R119). -/
def saddleOut (s : State) (pa : Nat) : Bool :=
  match partOf pa with
  | some p => decide (spCur s p * 2 ^ 20 ≤ pa % 0x1000000)
  | none => false

/-- The address lies in a lowered window (R136). -/
def inLowered (s : State) (pa : Nat) : Bool := s.lowered.any (fun w => decide (w.1 ≤ pa) && decide (pa < w.1 + w.2))

/-- Accesses from above to the address bypass the core array (R119, R136). -/
def uncached (s : State) (pa : Nat) : Bool := (partOf pa).isSome || inLowered s pa

/-- The canonical form of memory: addresses strictly rising, no byte listed that reads as an unlisted one does (0). -/
def Memory.wf (m : List Host.Cell) : Bool := twf 0 m

/-- One byte of home memory. -/
def memRead (s : State) (pa : Nat) : Byte := tget 0 s.mem pa

/-- `n` bytes of home memory. -/
def memBytes (s : State) (pa n : Nat) : List Byte := tbytes s.mem pa n

/-- A little-endian number of `n` bytes in home memory. -/
def memNat (s : State) (pa n : Nat) : Nat := leNat (memBytes s pa n)

/-- CRC-32C of bytes (R246). -/
def crcBit (c : BitVec 32) : BitVec 32 := if c.getLsbD 0 then (c >>> 1) ^^^ 0x82F63B78 else c >>> 1
def crcByte (c : BitVec 32) (b : Byte) : BitVec 32 :=
  let x := c ^^^ b.setWidth 32
  crcBit (crcBit (crcBit (crcBit (crcBit (crcBit (crcBit (crcBit x)))))))
def crc32c (bs : List Byte) : Nat := ((bs.foldl crcByte 0xFFFFFFFF) ^^^ 0xFFFFFFFF).toNat

/-- The check word of a sector's bytes (R419): CRC-32C over them and PA bits 47:6. -/
def sectorCheck (s : State) (sec : Nat) : Nat := crc32c (memBytes s (64 * sec) 64 ++ leBytes sec 8)

/-- The check word stored with a sector (R419). -/
def storedCheck (s : State) (sec : Nat) : Nat := (tfind s.checks sec).getD (sectorCheck s sec)

/-- A sector's stored check does not match its bytes (R420). One that is listed nowhere is the one of the bytes. -/
def checkFails (s : State) (sec : Nat) : Bool :=
  match tfind s.checks sec with
  | some c => c != sectorCheck s sec
  | none => false

/-- A read of a sector at its home finds it poisoned, or finds that its check fails (R420). -/
def secBad (s : State) (sec : Nat) : Bool := s.poisoned.contains sec || checkFails s sec

/-- A read of the sector of an address at its home gives POISON (R420). -/
def isPoisoned (s : State) (pa : Nat) : Bool := secBad s (pa / 64)

/-- The other devices of the set learn that a sector here is poisoned (operation 16) or no longer is (17), so that a copy of it in
their arrays does not hide its poison (R160; log entry 40). -/
def tellPoison (s : State) (op sec : Nat) : State := (otherRanks s).foldl (fun s r => sendSet11 s r op sec 0 []) s

/-- A sector becomes poisoned at its home: HEALTH.POISON counts it, and an event tells (R420, R422). A saturated count does not
change. The unit code of that event is a free value (log entry 32). -/
def poisonSec (s : State) (sec : Nat) : State :=
  if s.poisoned.contains sec then s else
  let s := tellPoison s 16 sec
  if 2 ^ 31 - 1 ≤ s.regs.npoison then { s with poisoned := sec :: s.poisoned }
  else
    let s1 : State := { s with poisoned := sec :: s.poisoned, regs := { s.regs with npoison := s.regs.npoison + 1 },
                               freeCtr := s.freeCtr + 1 }
    postHealth s1 (Config.choice s.freeCtr (2 ^ 20) % 2 ^ 20)

/-- The check of a sector tested (R420): one that fails poisons it. -/
def testSec (s : State) (sec : Nat) : State :=
  if checkFails s sec then poisonSec { s with checks := tdel s.checks sec } sec else s

/-- The checks of sectors tested, where any stored check is not the one computed last. -/
def testSecs (s : State) (secs : List Nat) : State := if s.checks.isEmpty then s else secs.foldl testSec s

/-- The checks of the sectors of `n` bytes at an address tested. -/
def testRange (s : State) (pa n : Nat) : State :=
  if n = 0 then s else testSecs s (upFrom (pa / 64) ((pa + n - 1) / 64 + 1 - pa / 64))

/-- Before a sector is written its home checks what it has stored, where the write is a partial one (R419). -/
def beforeWrite (s : State) (sec : Nat) (mask : BitVec 64) : State :=
  if mask == BitVec.allOnes 64 then { s with checks := tdel s.checks sec } else testSec s sec

/-- A masked write of one sector at its home: byte i is written when bit i of the mask is set. A write of all 64
bytes clears the sector's poison (R420); the check stored after it is the one of the new bytes (R419). -/
def homeWrite (s : State) (sec : Nat) (mask : BitVec 64) (data : BitVec 512) : State :=
  let s := beforeWrite s sec mask
  let mem := (upFrom 0 64).foldl (fun m i =>
    if mask.getLsbD i then tset 0 m (64 * sec + i) (data.extractLsb' (8 * i) 8) else m) s.mem
  let po := if mask == BitVec.allOnes 64 then s.poisoned.filter (fun x => x != sec) else s.poisoned
  let s1 : State := { s with mem := mem, poisoned := po }
  if mask == BitVec.allOnes 64 && s.poisoned.contains sec then tellPoison s1 17 sec else s1

/-- The list of (sector, mask, data) writes that storing bytes at an address makes. -/
def sectorWrites (pa : Nat) : List Byte → List (Nat × BitVec 64 × BitVec 512)
  | [] => []
  | b :: r =>
    let i := pa % 64
    let m : BitVec 64 := BitVec.ofNat 64 (2 ^ i)
    let d : BitVec 512 := BitVec.ofNat 512 (b.toNat * 2 ^ (8 * i))
    match sectorWrites (pa + 1) r with
    | (sec, m', d') :: q => if sec = pa / 64 then (sec, m ||| m', d ||| d') :: q else (pa / 64, m, d) :: (sec, m', d') :: q
    | [] => [(pa / 64, m, d)]

/-- Bytes stored at home from an address upwards (R419). -/
def homeStore (s : State) (pa : Nat) (bs : List Byte) : State :=
  (sectorWrites pa bs).foldl (fun s w => homeWrite s w.1 w.2.1 w.2.2) s

/-- Some sector of the `n` bytes at an address is poisoned. -/
def anyPoison (s : State) (pa n : Nat) : Bool :=
  n != 0 && (s.poisoned ++ (s.checks.filter (fun x => checkFails s x.1)).map (fun x => x.1)).any (fun x =>
    decide (pa / 64 ≤ x) && decide (x ≤ (pa + n - 1) / 64))

/-! The core array. -/

/-- The array's key of a sector of a device. -/
def arrKey (dev sec : Nat) : Nat := dev * 2 ^ 42 + sec

/-- A core array's sector. -/
def arrGet (c : Core) (dev sec : Nat) : Sector := tget Sector.none c.arr (arrKey dev sec)

/-- The core with a sector put into its array. -/
def arrSet (c : Core) (dev sec : Nat) (x : Sector) : Core :=
  { c with arr := tset Sector.none c.arr (arrKey dev sec) (if x.valid == 0 then Sector.none else x) }

/-- The bytes of `new` where the mask is set, of `old` elsewhere. -/
def mergeBytes (mask : BitVec 64) (new old : BitVec 512) : BitVec 512 :=
  let m := BitVec.ofNat 512 ((upFrom 0 64).foldl (fun a i => if mask.getLsbD i then a + 255 * 2 ^ (8 * i) else a) 0)
  (new &&& m) ||| (old &&& ~~~m)

/-- A sector of home memory as data. -/
def homeSector (s : State) (sec : Nat) : BitVec 512 := BitVec.ofNat 512 (memNat s (64 * sec) 64)

/-- A write of one sector to another device, whose acknowledgement is awaited (R257). -/
def sendWrite (s : State) (dev sec cls : Nat) (data : List Byte) : State :=
  if isFenced s dev then s else sendFlit { s with wacks := s.wacks ++ [(dev, sec)] } dev 2 cls (64 * sec) data

/-- The core that is focused. -/
def coOf (s : State) : Nat :=
  match s.cur with
  | .thread co _ => co
  | .core co => co
  | _ => 0

/-! Reading home memory, here or on another device. -/

/-- The reader that acts from here on; outside a set no device but this one is read. -/
def asReader (s : State) (tag : List Nat) : State := if s.regs.inset then { s with rtag := tag } else s

/-- What the present reader's read of a sector of another device has brought (R257). -/
def remoteData (s : State) (dev sec : Nat) : Option (List Byte) :=
  (s.rdata.find? (fun x => x.1 == dev && x.2.1 == sec && x.2.2.1 == s.rtag)).map (fun x => x.2.2.2)

/-- What readers have been given of sectors is used up, and the answers still on their way to them will find nobody. -/
def forgetAt (s : State) (p : Nat → Nat → List Nat → Bool) : State :=
  { s with rdata := s.rdata.filter (fun x => !p x.1 x.2.1 x.2.2.1),
           readWait := s.readWait.map (fun x => if p x.1 x.2.1 x.2.2.2 then (x.1, x.2.1, x.2.2.1, []) else x) }

/-- The same for all sectors. -/
def forget (s : State) (p : List Nat → Bool) : State := forgetAt s (fun _ _ t => p t)

/-- A reader of core `co`: a thread, a load, a copy, a shunt or a tile load. -/
def coreReader (co : Nat) (tag : List Nat) : Bool :=
  match tag with
  | k :: c :: _ => decide (k < 5) && c == co
  | _ => false

/-! Writing back. -/

/-- A masked sector write sent to its home: local writes are performed at once, writes to another device leave as
write flits (R255, R257), and writes to a fenced device are discarded (R161, R260). A write of a whole sector ends its poison
(R420). -/
def writeBack (s : State) (dev sec : Nat) (mask : BitVec 64) (data : BitVec 512) (cls : Nat) : State :=
  if mask == 0 then s
  else if !isRemote s dev then homeWrite s sec mask data
  else if isFenced s dev then s
  else
    let full := mask == BitVec.allOnes 64
    let s := { s with farPoison := s.farPoison.filter (fun x => !(full && x == (dev, sec))) }
    sendWrite s dev sec cls (leBytes mask.toNat 8 ++ leBytes data.toNat 64)

/-- The dirty bytes of one sector of the focused core written back and made clean (R140); `drop` also empties it. What another
device has been asked of the sector before is older than these bytes, and is asked again (R151). -/
def cleanSector (s : State) (dev sec : Nat) (drop : Bool) : State :=
  let x := arrGet s.core dev sec
  let s := writeBack s dev sec x.dirty x.data x.cls
  let s := if x.dirty == 0 || !isRemote s dev then s else forgetAt s (fun d k tag => d == dev && k == sec && coreReader (coOf s) tag)
  { s with core := arrSet s.core dev sec { x with dirty := 0, valid := if drop then 0 else x.valid } }

/-- The FIFO without a line's entries (R141); entries that wait for an acknowledgement stay. -/
def fifoDrop (dev ln : Nat) (q : List FifoEnt) : List FifoEnt :=
  q.filter (fun e => match e with
    | .line d l _ ack => !(d == dev && l == ln && !ack)
    | .marker .. => true)

/-- A line of the focused core's array written back, its FIFO entries removed or, where its home is on another
device, left waiting for the acknowledgement (R140, R141). -/
def cleanLine (s : State) (dev ln : Nat) (drop : Bool) : State :=
  let dirty := (upFrom (4 * ln) 4).any (fun sec => (arrGet s.core dev sec).dirty != 0)
  let s := (upFrom (4 * ln) 4).foldl (fun s sec => cleanSector s dev sec drop) s
  let q := if isRemote s dev && dirty && !isFenced s dev then
      s.core.fifo.map (fun e => match e with
        | .line d l c ack => if d == dev && l == ln then .line d l c true else .line d l c ack
        | m => m)
    else fifoDrop dev ln s.core.fifo
  { s with core := { s.core with fifo := q } }

/-- The entries of a FIFO that name a line: it has room for 4096 (R141). -/
def fifoCount (q : List FifoEnt) : Nat :=
  (q.filter (fun e => match e with
    | .line .. => true
    | .marker .. => false)).length

/-- The lines of the FIFO that are not waiting for an acknowledgement. -/
def fifoLines (q : List FifoEnt) : List (Nat × Nat) :=
  q.filterMap (fun e => match e with
    | .line d l _ false => some (d, l)
    | _ => none)

/-- The whole dirty FIFO of the focused core drained (R147). -/
def drainAll (s : State) : State := (fifoLines s.core.fifo).foldl (fun s x => cleanLine s x.1 x.2 false) s

/-- A full FIFO drains its oldest line to make room (R141); one whose home is on another device keeps its entry until the
acknowledgement has come. -/
def fifoDrain (s : State) : State :=
  if decide (fifoCount s.core.fifo < 4096) then s else
    match fifoLines s.core.fifo with
    | (d, l) :: _ => cleanLine s d l false
    | [] => s

/-- A FIFO entry for a line and class, appended if there is none (R141). `ack` marks one that stands for a write that has left
and stays until its home acknowledges it. -/
def fifoAdd (s : State) (dev ln cls : Nat) (ack : Bool) : State :=
  if s.core.fifo.contains (.line dev ln cls ack) then s
  else
    let s := fifoDrain s
    { s with core := { s.core with fifo := s.core.fifo ++ [.line dev ln cls ack] } }

/-- An ACQ of a mask at a scope wider than core (R145): the clean bytes of every sector whose filling access had a
class in the mask are dropped. -/
def acquire (c : Core) (mask : Nat) : Core :=
  { c with arr := c.arr.filterMap (fun x =>
      if mask.testBit x.2.cls then
        (if x.2.dirty == 0 then none else some (x.1, { x.2 with valid := x.2.dirty }))
      else some x) }

/-- The clean bytes of the lines of a physical range dropped from the focused core's array after its dirty bytes are
written back (R136, R148, R159). -/
def flushRange (s : State) (dev pa n : Nat) : State :=
  let keys := s.core.arr.filterMap (fun x =>
    let d := x.1 / 2 ^ 42
    let sec := x.1 % 2 ^ 42
    if d == dev && decide (pa / 256 ≤ sec / 4) && decide (sec / 4 ≤ (pa + n - 1) / 256) then some (sec / 4) else none)
  if n = 0 then s else keys.foldl (fun s ln => cleanLine s dev ln true) s

/-! The present reader. -/

/-- What the present reader has been given is used up. -/
def spent (s : State) : State := if s.regs.inset then forget s (fun x => x == s.rtag) else s

/-- A sector of another device has come as poisoned: with no bytes (R420). -/
def remoteBad (s : State) (dev sec : Nat) : Bool := remoteData s dev sec == some []

/-- The present reader waits for a sector of another device. -/
def asking (s : State) (dev sec : Nat) : Bool := s.readWait.any (fun x => x.1 == dev && x.2.1 == sec && x.2.2.2 == s.rtag)

/-- The present reader requests a sector of another device, once (R257, KIND 0). -/
def askSector (s : State) (dev sec cls : Nat) : State :=
  if asking s dev sec || (remoteData s dev sec).isSome then s
  else sendFlit { s with readWait := s.readWait ++ [(dev, sec, cls, s.rtag)] } dev 0 cls (64 * sec) (leBytes 64 2)

/-- Eight bytes at an address of a device, for the walker: `none` while a remote read is under way. -/
def walkRead (s : State) (dev pa : Nat) : Option Nat :=
  if !isRemote s dev then some (memNat s pa 8)
  else (remoteData s dev (pa / 64)).map (fun bs => leNat ((bs.drop (pa % 64)).take 8))

/-! Translation. -/

/-- What a walk gives: a page (PA of its base, its level, the leaf entry, the device), a fault, a retry on MIG, or a
remote read to wait for (device and sector). -/
inductive WalkRes where
  | page (pa level leaf dev : Nat)
  | bad (c : FaultCode)
  | mig
  | wait (dev sec : Nat)
deriving DecidableEq, Repr

/-- Bytes a leaf of a level maps (R129): 1 TiB, 256 MiB, 64 KiB. -/
def pageBytes (level : Nat) : Nat := if level = 1 then 2 ^ 40 else if level = 2 then 2 ^ 28 else 2 ^ 16

/-- The index of a VA at a level (R129). -/
def walkIndex (va level : Nat) : Nat :=
  if level = 1 then bitsOf va 51 40 else if level = 2 then bitsOf va 39 28 else bitsOf va 27 16

/-- One level and those below it, from the node at `node` on device `dev` (R129, R254); `n` levels are left. A level-1 leaf's
device-table entry is checked before conditions 9 to 11 of the leaf, and condition 10 tests the page's first byte (log entry
60). -/
def walkFrom (s : State) (sys : Bool) (va node dev level : Nat) : Nat → WalkRes
  | 0 => .bad .walkFault
  | n + 1 =>
    let a := node + 8 * walkIndex va level
    if isFenced s dev then .bad .deviceFenced
    else if (if isRemote s dev then remoteBad s dev (a / 64) else isPoisoned s a) then .bad .poison
    else match walkRead s dev a with
      | none => .wait dev (a / 64)
      | some e =>
        let leaf := e.testBit 1
        let adr := bitsOf e 47 15 * 2 ^ 15
        if !e.testBit 0 then .bad .pageAbsent
        else if bitsOf e 14 8 != 0 || bitsOf e 63 48 != 0 then .bad .walkFault
        else if e.testBit 7 then .mig
        else if !leaf && e.testBit 6 then .bad .walkFault
        else if !leaf && level == 3 then .bad .walkFault
        else
          -- the device-table entry, once the level-1 entry has passed (R254)
          let dt : Option (Except FaultCode Nat) :=
            if level == 1 && s.regs.inset then
              let da := node + 0x8000 + 2 * walkIndex va 1
              let d := memNat s da 2
              if isPoisoned s da then some (.error .poison)
              else if bitsOf d 14 10 != 0 then some (.error .walkFault)
              else if decide (s.regs.ndev < bitsOf d 9 0) then some (.error .walkFault)
              else if isFenced s (bitsOf d 9 0) then some (.error .deviceFenced)
              else some (.ok (if d.testBit 15 then bitsOf d 9 0 else dev))
            else some (.ok dev)
          match dt with
          | some (.error c) => .bad c
          | some (.ok dev') =>
            if leaf then
              if adr % pageBytes level != 0 then .bad .walkFault
              else if !mapped (poolOf s dev') adr then .bad .walkFault
              else if e.testBit 4 && !sys then .bad .handlePerm
              else .page adr level e dev'
            else walkFrom s sys va adr dev' (level + 1) n
          | none => .bad .walkFault

/-- The walk of a VA in the space whose root is `root` (R129). -/
def walk (s : State) (root : Nat) (sys : Bool) (va : Nat) : WalkRes :=
  if decide (2 ^ 52 ≤ va) then .bad .pageAbsent else walkFrom s sys va root (ownRank s) 1 3

/-- The nodes of this device that a walk reads, tested (R420). -/
def testFrom (s : State) (va node dev level : Nat) : Nat → State
  | 0 => s
  | n + 1 =>
    let a := node + 8 * walkIndex va level
    if isRemote s dev then s
    else
      let t := testSec s (a / 64)
      let e := memNat t a 8
      if t.poisoned.contains (a / 64) || !e.testBit 0 || e.testBit 7 then t
      else if level == 1 && s.regs.inset then
        let da := node + 0x8000 + 2 * walkIndex va 1
        let u := testSec t (da / 64)
        let d := memNat u da 2
        if e.testBit 1 then u
        else testFrom u va (bitsOf e 47 15 * 2 ^ 15) (if d.testBit 15 then bitsOf d 9 0 else dev) (level + 1) n
      else if e.testBit 1 then t
      else testFrom t va (bitsOf e 47 15 * 2 ^ 15) dev (level + 1) n

/-- The checks that a walk of a VA meets tested (R420). -/
def testWalk (s : State) (root va : Nat) : State := if s.checks.isEmpty then s else testFrom s va root (ownRank s) 1 3

/-- The handle a successful walk makes (R126). -/
def pageHandle (s : State) (va pa level leaf dev : Nat) : Handle :=
  let base := pa + va % pageBytes level
  { st := .valid, space := .memory, va := va, pa := base, size := if level = 1 then 2 else if level = 2 then 1 else 0,
    r := leaf.testBit 2, w := leaf.testBit 3, sys := leaf.testBit 4, comp := leaf.testBit 5,
    lowered := !isRemote s dev && inLowered s base, stack := stackIn (poolOf s dev) base,
    plane := 0, dev := dev }

/-- The bytes of a handle's page (R126). -/
def handlePage (h : Handle) : Nat := if h.size = 2 then 2 ^ 40 else if h.size = 1 then 2 ^ 28 else 2 ^ 16

/-- The installed image of a number. -/
def imageOf (s : State) (n : Nat) : Option Image := s.images.find? (fun i => i.num == n)

/-- The root of an image's address space. -/
def rootOf (s : State) (n : Nat) : Nat := match imageOf s n with
  | some i => i.root
  | none => 0

/-- A VA of an image's space translated to a physical address of this device, without a segment's system bit. -/
def transl (s : State) (img va : Nat) : Option Nat :=
  match walk s (rootOf s img) false va with
  | .page pa level _ dev => if isRemote s dev then none else some (pa + va % pageBytes level)
  | _ => none

/-! The gate. -/

/-- The youngest gate byte held for byte `i` of a sector (R22): the gate is kept youngest first. -/
def gateByte (a : GAddr) (i : Nat) : List GateEnt → Option Byte
  | [] => none
  | e :: r => if e.at_ == a && e.mask.getLsbD i then some (e.data.extractLsb' (8 * i) 8) else gateByte a i r

/-- How many of the gate's oldest entries a store of class `c` may not merge into (R143). -/
def fenceFloor (fences : List (Nat × Nat)) (c : Nat) : Nat :=
  fences.foldl (fun m f => if f.1.testBit c then max m f.2 else m) 0

/-- One masked sector store into the gate (R21): merged into the youngest entry if that has the sector and the
class, otherwise a new entry; `none` when it needs a 129th. -/
def gatePut (t : Thread) (a : GAddr) (cls : Nat) (mask : BitVec 64) (data : BitVec 512) (va : Nat) : Option Thread :=
  match t.gate with
  | e :: r =>
    if e.at_ == a && e.cls == cls && decide (fenceFloor t.fences cls < (e :: r).length) then
      some { t with gate := { e with mask := e.mask ||| mask, data := mergeBytes mask data e.data } :: r }
    else if decide ((e :: r).length < 128) then
      some { t with gate := { at_ := a, cls := cls, mask := mask, data := data, va := va } :: e :: r }
    else none
  | [] => some { t with gate := [{ at_ := a, cls := cls, mask := mask, data := data, va := va }] }

/-- Several masked sector stores in order (R21). -/
def gatePuts (t : Thread) (cls : Nat) : List (GAddr × BitVec 64 × BitVec 512 × Nat) → Option Thread
  | [] => some t
  | (a, m, d, va) :: r => match gatePut t a cls m d va with
    | some t' => gatePuts t' cls r
    | none => none

/-! The register log. -/

/-- What the window's opening mark logs (R20, R25, R168), taken from a thread at its mark. -/
def logOf (t : Thread) : Ckpt :=
  { pc := t.pc, pos := t.pos, s := t.s, p := t.p, h := t.h, fr := t.fr, n := t.n, w := t.w, v := t.v, fmt := t.fmt,
    mpc := t.mpc, pend := t.pend, sys := t.seg.sys, acc := [], ws := [], bank := none, pops := [], pushes := [],
    takes := [], posts := [], coll := [], unpins := [], act := 0 }

/-- The thread's start counts as a mark (R20). -/
def openWindow (t : Thread) : Thread :=
  { t with ckpt := logOf t, gate := [], fences := [], heldOp := none, heldRel := none, heldPriv := [], heldCpyo := [],
           heldPost := none, heldSync := none, heldCtl := none, heldFr := [], marking := 0, committed := [], used := [] }

/-- The registers the opening mark logged, given back; the gate and everything held discarded (R25). -/
def undoRegs (t : Thread) : Thread :=
  let c := t.ckpt
  { t with pc := c.pc, pos := c.pos, s := c.s, p := c.p, h := c.h, fr := c.fr, n := c.n, w := c.w, v := c.v,
           fmt := c.fmt, mpc := c.mpc, pend := c.pend, gate := [], fences := [], heldOp := none, heldRel := none,
           heldPriv := [], heldCpyo := [], heldPost := none, heldSync := none, heldCtl := none, heldFr := [],
           marking := 0, committed := [], fbusy := 0, heldMpc := none, heldBusy := 0, stalls := [], used := [],
           ckpt := { c with acc := [], ws := [], bank := none, pops := [], pushes := [], takes := [], posts := [],
                            coll := [], unpins := [] } }

/-- A list entry (k, n) raised by c. -/
def bump (k c : Nat) : List (Nat × Nat) → List (Nat × Nat)
  | [] => [(k, c)]
  | (j, n) :: r => if j = k then (j, n + c) :: r else (j, n) :: bump k c r

/-- A ring with its head moved back by n pops and its tail by m pushes (R168). -/
def ringBack (r : Ring) (n m : Nat) : Ring :=
  if r.slots = 0 then r
  else { r with head := (r.head + n * (r.slots - 1)) % r.slots, tail := (r.tail + m * (r.slots - 1)) % r.slots,
                filled := r.filled + n - m }

/-- A number put into a rising list that lacks it. -/
def insNat (a : Nat) : List Nat → List Nat
  | [] => [a]
  | b :: r => if a < b then a :: b :: r else if a = b then b :: r else b :: insNat a r

/-- What a group gives back when one of its threads' windows is rolled back (R41, R168): accumulators, weight sets,
bank roles, ring heads and tails, the flags taken and the flag additions of completed copies, the collectives'
numbers, and (R337) the scratch lines an UNPIN released, with their poison. Where one window has both received a copy's addition to a
flag and taken from that flag, the addition is subtracted first (stopping at 0) and what was taken is added back then: a DESIGN CHOICE
(log entry 85). -/
def undoGroup (g : Group) (c : Ckpt) : Group :=
  let g := c.acc.foldl (fun g x => { g with acc := tset [] g.acc x.1 x.2 }) g
  let g := c.ws.foldl (fun g x => { g with wsets := tset WSet.none g.wsets x.1 x.2.1 }) g
  let g := match c.bank with
    | some b => { g with active := b }
    | none => g
  let g := c.pops.foldl (fun g x => { g with rings := tmod Ring.none g.rings x.1 (fun r => ringBack r x.2 0) }) g
  let g := c.pushes.foldl (fun g x => { g with rings := tmod Ring.none g.rings x.1 (fun r => ringBack r 0 x.2) }) g
  let g := c.posts.foldl (fun g x => subFlag g x.1 x.2) g
  let g := c.takes.foldl (fun g x => addFlag g x.1 x.2) g
  let g := c.coll.foldl (fun g x => { g with collN := tset 0 g.collN x.1 x.2 }) g
  c.unpins.foldl (fun g x => { g with pinned := insNat x.1 g.pinned, scratch := tstore g.scratch (256 * x.1) x.2.1,
                                      badScr := x.2.2.foldl (fun l sec => insNat sec l) g.badScr }) g

/-- The context of the focused thread. -/
def cxOf (s : State) : Nat :=
  match s.cur with
  | .thread _ cx => cx
  | _ => 0

/-- A reader of thread `cx` of core `co`: its walks, loads and tile loads. -/
def readerOf (co cx : Nat) (tag : List Nat) : Bool :=
  match tag with
  | k :: c :: x :: _ => (k == 0 || k == 1 || k == 4) && c == co && x == cx
  | _ => false

/-- What a copy channel of the core that holds no command has been given: a bundle that did not issue has asked for it. -/
def idleCopy (s : State) (tag : List Nat) : Bool :=
  match tag with
  | [2, c, ch] => c == coOf s && !s.grp.ch.any (fun x => x.1 == ch)
  | _ => false

/-- The focused thread's window rolled back (R25, R168), its held shunts discarded with it. The segment is the one that ran at the opening mark. -/
def rollback (s : State) : State :=
  let c := s.th.ckpt
  let g0 := undoGroup s.grp c
  let g := { g0 with qu := g0.qu.filter (fun x => !(x.2.held && x.2.th == cxOf s)) }
  let t := undoRegs s.th
  let s := forget s (fun tag => readerOf (coOf s) (cxOf s) tag || idleCopy s tag)
  { s with th := { t with seg := if c.sys then t.seg else g.kern.seg }, grp := g }

/-! System entry and return. -/

/-- A native segment read from the header at a physical address (R293). -/
def segAt (s : State) (pa : Nat) (sys : Bool) : Seg :=
  { base := pa, code := pa + memNat s (pa + 0x10) 8, len := memNat s (pa + 0x18) 8,
    lat := BitVec.ofNat 32 (memNat s (pa + 8) 4), entry := memNat s (pa + 0xC) 4,
    map := pa + memNat s (pa + 0x20) 8, md := pa + memNat s (pa + 0x28) 8, mdLen := memNat s (pa + 0x30) 8,
    sys := sys, portable := false }

/-- SYSENT.V (R309). -/
def sysentV (s : State) : Bool := s.regs.sysent.getLsbD 0

/-- SYSENT.ADDR as a physical address (R309). -/
def sysentAddr (s : State) : Nat := bitsOf s.regs.sysent.toNat 47 6 * 64

/-- Taking SVC or TRAP after its mark has retired (R311): XPC saves the next sequential bundle, XCAUSE the
immediate and which it was, and the system segment runs from its entry. -/
def enterSystem (s : State) (imm : Nat) (trap : Bool) : State :=
  let g := segAt s (sysentAddr s) true
  { s with th := { s.th with xpc := s.th.pc, xcause := BitVec.ofNat 64 (imm + (if trap then 65536 else 0)),
                             seg := g, insys := true, pc := BitVec.ofNat 64 g.entry } }

/-- A code address, an offset from the segment's first bundle, lies in the segment, and its bundle-start bit is set (R13,
R294, R302). -/
def targetOk (s : State) (g : Seg) (a : Nat) : Bool :=
  a % 4 == 0 && decide (a < g.len) && (memRead s (g.map + a / 32)).getLsbD (a / 4 % 8)

/-- Returning by ERET after its mark has retired (R311, R392): the kernel's segment runs from XPC, and the hash
contexts become empty. -/
def leaveSystem (s : State) : State :=
  { s with th := { s.th with seg := s.grp.kern.seg, insys := false, pc := s.th.xpc, hs := [] } }

/-- A free value consumed: the counter moves on. -/
def tick (s : State) : State := { s with freeCtr := s.freeCtr + 1 }

/-- The launch of an identifier. -/
def launchOf (s : State) (id : Nat) : Option Launch := s.launches.find? (fun l => l.id == id)

/-- The launches with one changed. -/
def setLaunch (s : State) (id : Nat) (f : Launch → Launch) : State :=
  { s with launches := s.launches.map (fun l => if l.id == id then f l else l) }

/-- A launch's counter has reached its target: it is ready, after those that are (R62, R64). -/
def depMet (s : State) (id : Nat) : State :=
  match launchOf s id with
  | none => s
  | some l =>
    if l.ready then s
    else { setLaunch s id (fun l => { l with ready := true, readySeq := s.nextId }) with nextId := s.nextId + 1 }

/-- Launches that wait for the counter at an address learn that it has reached their target (R62): one of this device at once, those of
other devices by a message. -/
def tellWatches (s : State) (pa : Nat) : State :=
  let met := fun (w : Watch) => w.pa == pa && decide (w.tgt ≤ memNat s pa 8)
  (s.watches.filter met).foldl (fun s w => if w.rank = ownRank s then depMet s (w.key / 1024) else sendSet11 s w.rank 15 w.key 0 []) { s with watches := s.watches.filter (fun w => !met w) }

/-- An update other than a plain store has been performed at the counter at a physical address: launches that wait
for it, here or on other devices, become ready when it has reached their target (R62). -/
def noticeCounter (s : State) (pa : Nat) : State :=
  let s' := s.launches.foldl (fun s l =>
    if !l.ready && l.depAddr != 0 && transl s l.image l.depAddr == some pa && decide (l.depTgt ≤ memNat s pa 8) then
      depMet s l.id
    else s) s
  if s'.watches.isEmpty then s' else tellWatches s' pa

/-- A 64-bit add to a counter at home, wrapping (R72, R171, R333). The add of a Yard's or a shunt's completion does so whatever the
counter's sector is (log entry 86). -/
def addCounter (s : State) (pa inc : Nat) : State :=
  noticeCounter (homeStore s pa (leBytes (wrapNat ((memNat s pa 8 + inc : Nat) : Int) 64) 8)) pa

end Sys2Proof.Machine
end

