-- ==== Sys2Proof/Machine/Flags.lean ====
section
/-!
DEFINITION. Conditions and classes: the integer and FP32 compares (R282, R321, R323), the FP32 class bits (R323), the
sign operations (R322), and the header's sync conditions (R39).
-/
namespace Sys2Proof.Machine
open Sys2Proof

/-- COND of CMP and CMPI (R282): eq, ne, lt, ge signed, ltu, geu unsigned. -/
def condInt (c : Nat) (a b : Word) : Bool :=
  match c with
  | 0 => a == b
  | 1 => a != b
  | 2 => a.slt b
  | 3 => !a.slt b
  | 4 => a.ult b
  | _ => !a.ult b

/-- COND of FCMP (R323): eq, lt, le, un. -/
def condFp (c : Nat) (a b : BitVec 32) : Bool :=
  let x := f32 a
  let y := f32 b
  let un := isNan x || isNan y
  match c with
  | 0 => !un && feq x y
  | 1 => !un && flt x y
  | 2 => !un && (flt x y || feq x y)
  | _ => un

/-- The class bit of an FP32 pattern (R323). -/
def fclassBit (a : BitVec 32) : Nat :=
  match f32 a with
  | .nan => 8
  | .inf true => 0
  | .inf false => 7
  | .fin neg n _ =>
    if n = 0 then (if neg then 3 else 4)
    else if n < 2 ^ 23 then (if neg then 2 else 5)
    else if neg then 1 else 6

/-- FSGN (R322): a's magnitude with a sign bit; a NaN gives the canonical NaN. -/
def fsgn (a : BitVec 32) (sign : Bool) : BitVec 32 :=
  if isNan (f32 a) then nan32
  else (a &&& 0x7FFFFFFF) ||| (if sign then 0x80000000 else 0)

/-- A WAIT's or TAKE's condition (R39). -/
def syncMet (g : Group) (k c : Nat) : Bool := decide (c ≤ flagOf g k)

end Sys2Proof.Machine
end

