-- ==== Sys2Proof/Machine/Operands.lean ====
section
/-!
DEFINITION. Operand forms: effective addresses and their checks (R127, R325, R326), stale handles (R128), where the
bytes of an access lie and what they read as (R22, R139, R160), stores into the gate (R21), walks (R163, R164), the
sides of an engine command (R365), rings (R114, R367, R375), busy tiles (R181).
-/
namespace Sys2Proof.Machine
open Sys2Proof

/-- Where an access lies: a physical address of a device, a scratch address, an offset in a plane region. -/
inductive Loc where
  | mem (dev pa : Nat) | scr (a : Nat) | pl (reg off : Nat)
deriving DecidableEq, Repr

/-- The permission an access needs (R127): a store (`st`) needs W, and its saddle-scratch extent is checked when it commits (R122,
R412). -/
inductive Need where
  | r | w | rw | st | none
deriving DecidableEq, Repr

/-- The location `i` bytes further on. -/
def Loc.plus : Loc → Nat → Loc
  | .mem d a, i => .mem d (a + i)
  | .scr a, i => .scr (a + i)
  | .pl r o, i => .pl r (o + i)

/-- The address inside its space. -/
def Loc.num : Loc → Nat
  | .mem _ a => a
  | .scr a => a
  | .pl _ o => o

/-- The gate's name for the sector a location lies in. -/
def Loc.sec : Loc → GAddr
  | .mem d a => .mem d (a / 64)
  | .scr a => .scr (a / 64)
  | .pl r o => .pl r (o / 64)

/-- The signed offset of a memory operand (R325): wrap(b_x + sext(IMM), 64), read signed. -/
def effOff (s : State) (x : BitVec 6) (imm : Int) : Int := (sReg s.th x.toNat + BitVec.ofInt 64 imm).toInt

/-! Stale handles and the checks of R127 and R326. -/

/-- The bundle is blocked (R34): it has not issued, and it is tried again. -/
def block (s : State) : State := { s with th := { s.th with run := .blocked } }

/-- Retries a walk has made on a migrating entry (R129), the present one included: `.walking 3n` waits after n retries,
`.walking (3n + 1)` is about to make the next, and `.walking (3n + 2)` waits for a table of another device after n of them. -/
def triesOf (t : Thread) : Nat :=
  match t.run with
  | .walking n => n / 3 + (if n % 3 = 1 then 1 else 0)
  | _ => 0

/-- A walk's outcome for the focused thread: a handle, a fault, or a blocked bundle. -/
inductive HRes where
  | ok (s : State) (h : Handle)
  | bad (c : FaultCode) (addr : Nat)
  | wait (s : State)

/-- A VA walked for the focused thread (R129): a migrating entry blocks the bundle until its 64 retries are spent, a
remote node until its answer has come. What it has read is kept for the other walks of its bundle, but a migrating entry is read
again (R262). -/
def walkFor (s : State) (va : Nat) : HRes :=
  let s := testWalk (asReader s [0, coOf s, cxOf s]) (rootOf s s.grp.image) va
  match walk s (rootOf s s.grp.image) s.th.seg.sys va with
  | .page pa lv leaf dev => .ok s (pageHandle s va pa lv leaf dev)
  | .bad c => .bad c va
  | .mig =>
    if 64 ≤ triesOf s.th then .bad .walkFault va
    else .wait { spent s with th := { s.th with run := .walking (3 * triesOf s.th) } }
  | .wait d sec =>
    let n := triesOf s.th
    let s1 := askSector s d sec 0
    .wait (if n = 0 then block s1 else { s1 with th := { s1.th with run := .walking (3 * n + 2) } })

/-- The pages that the thread's window has accessed memory through handles of, for shoot-downs (R128). -/
def noteUse (t : Thread) (h : Handle) : Thread :=
  let x := (h.va - h.va % handlePage h, handlePage h)
  if h.st != .valid || h.space != .memory || t.used.contains x then t else { t with used := x :: t.used }

/-- The page of a handle that a core of image `image` accesses memory through, kept for shoot-downs (R159). -/
def notePage (c : Core) (image : Nat) (h : Handle) : Core :=
  let o := h.va % handlePage h
  let x : PageUse := { image := image, va := h.va - o, size := handlePage h, dev := h.dev, pa := h.pa - o }
  if h.st != .valid || h.space != .memory || c.pages.contains x then c else { c with pages := x :: c.pages }

/-- A memory access through a handle noted, for the thread's window and for the core. -/
def noteAccess (s : State) (h : Handle) : State :=
  { s with th := noteUse s.th h, core := notePage s.core s.grp.image h }

/-- The handle an access goes through: a stale or a restored one is translated again from its remembered VA, and the register takes
the new translation (R128, R243). -/
def useHandle (s : State) (i : Nat) : HRes :=
  let h := hReg s.th i
  if h.st == .stale || h.st == .restored then
    match walkFor s h.va with
    | .ok s' h' => .ok (noteAccess { s' with th := { s'.th with h := tset Handle.init s'.th.h i h' } } h') h'
    | r => r
  else .ok (noteAccess s h) h

/-- The domain a thread's plane regions are bound to (R51, R130). -/
def planeDomOf (g : Group) (thr : Nat) : Nat := if g.kern.level = 0 then 4 * g.index + thr else 4 * g.planeDom

/-- The plane region `reg` of the focused thread's domain. -/
def planeOf (s : State) (reg : Nat) : Option PlaneReg :=
  s.planes.find? (fun p => p.launch == s.grp.launch && p.dom == planeDomOf s.grp (bitsOf s.th.dom.toNat 1 0) && p.idx == reg)

/-- The size of the plane region `reg` of the running kernel. -/
def planeSize (g : Group) (reg : Nat) : Nat := (nth (0, 0) g.kern.planes reg).1

/-- The plane regions of a domain of the set are homed on the device of rank 0 (R130), which is fenced (R260). -/
def planeFenced (s : State) : Bool := s.grp.kern.level == 5 && s.regs.inset && isFenced s 0

/-- The lowest and one past the highest address of the window a handle reaches: its page, the scratch window (R111),
or its plane region (R131). -/
def window (g : Group) (h : Handle) : Int × Int :=
  match h.space with
  | .memory =>
    let lo : Nat := h.va - h.va % handlePage h
    ((lo : Int), ((lo + handlePage h : Nat) : Int))
  | .scratch => (0, 0x800000)
  | .plane => (0, (planeSize g h.plane : Nat))

/-- The address base + offset (a VA, or an offset in the scratch window or the plane region). -/
def addrOf (h : Handle) (off : Int) : Int := if h.space = .memory then (h.va : Int) + off else off

/-- The handle permits an access. -/
def permits (h : Handle) : Need → Bool
  | .r => h.r
  | .w => h.w
  | .rw => h.r && h.w
  | .st => h.w
  | .none => true

/-- Every byte of `n` at scratch address `a` lies in a pinned line (R111). -/
def allPinned (g : Group) (a n : Nat) : Bool :=
  (upFrom (a / 256) ((a + n - 1) / 256 + 1 - a / 256)).all (fun l => g.pinned.contains l)

/-- The first byte of `n` at `a` in a line that is not pinned. -/
def firstUnpinned (g : Group) (a n : Nat) : Nat :=
  match (upFrom (a / 256) ((a + n - 1) / 256 + 1 - a / 256)).find? (fun l => !g.pinned.contains l) with
  | some l => max a (256 * l)
  | none => a

/-- The place an access of `n` bytes at an offset from a handle that is not stale reaches, or its fault with the
address it reports: the rows of R127 in order, then R326 for the handle's space, whose bound is tested here for scratch and
planes and in R127's order for memory. -/
def locate (s : State) (h : Handle) (off : Int) (n al : Nat) (need : Need) : Except (FaultCode × Nat) (Loc × Nat) :=
  let a := addrOf h off
  let ad := wrapNat a 64
  let w := window s.grp h
  let out := decide (a < w.1) || decide (w.2 < a + n)
  if h.st == .empty then .error (.handlePerm, 0)
  else if h.space == .memory && out then .error (.handleBound, ad)
  else if !permits h need then .error (.handlePerm, ad)
  else if ad % al != 0 then .error (.align, ad)
  else if out then .error (.handleBound, ad)
  else match h.space with
    | .memory =>
      let pa := wrapNat ((h.pa : Int) + off) 64
      if need == .none then .ok (.mem h.dev pa, ad)
      else if isFenced s h.dev then .error (.deviceFenced, ad)
      else if need != .st && !isRemote s h.dev && (saddleOut s pa || saddleOut s (pa + n - 1)) then .error (.scratchUnmapped, ad)
      else .ok (.mem h.dev pa, ad)
    | .scratch => if need == .none || allPinned s.grp ad n then .ok (.scr ad, ad) else .error (.scratchUnmapped, firstUnpinned s.grp ad n)
    | .plane => if need != .none && planeFenced s then .error (.deviceFenced, ad) else .ok (.pl h.plane ad, ad)

/-- An access through handle `hi`: refused with a fault, blocked, or carried on at the place it reaches. -/
def withAccess (s : State) (hi : Nat) (off : Int) (n al : Nat) (need : Need)
    (k : State → Handle → Loc → Nat → Out) : Out :=
  match useHandle s hi with
  | .bad c a => .next (raise s c a)
  | .wait s' => .next s'
  | .ok s' h => match locate s' h off n al need with
    | .error (c, a) => .next (raise s' c a)
    | .ok (l, va) => k s' h l va

/-! What bytes read as. -/

/-- The gate's byte at a location, if the gate holds it (R22). -/
def gateAt (t : Thread) (l : Loc) : Option Byte := gateByte l.sec (l.num % 64) t.gate

/-- Where the thread's own load takes the byte at a location from (R22, R131). -/
def srcOf (t : Thread) (l : Loc) : ByteSrc :=
  match l with
  | .pl r o => .plane r o
  | .mem d a => match gateAt t l with
    | some b => .known b
    | none => .home d a
  | .scr a => match gateAt t l with
    | some b => .known b
    | none => .scratch a

/-- Where an engine takes the byte at a location from: never the gate (R156). -/
def rawSrc (l : Loc) : ByteSrc :=
  match l with
  | .pl r o => .plane r o
  | .mem d a => .home d a
  | .scr a => .scratch a

/-- The locations of `n` bytes from one upwards. -/
def locBytes (l : Loc) (n : Nat) : List Loc := (upFrom 0 n).map l.plus

/-- The address of another device lies in a window that is lowered there (R136). -/
def inFarLow (s : State) (dev pa : Nat) : Bool :=
  s.farLow.any (fun w => w.1 == dev && decide (w.2.1 ≤ pa) && decide (pa < w.2.1 + w.2.2))

/-- Accesses to an address of a device are cached in core arrays: never those to saddle scratch nor to a lowered window, of
whichever device (R119, R136). -/
def cachedAt (s : State) (dev pa : Nat) : Bool :=
  (partOf pa).isNone && !(if isRemote s dev then inFarLow s dev pa else inLowered s pa)

/-- The byte at a source that needs no read at home: known, in scratch, in a plane, or valid in the core array. -/
def hitByte (s : State) : ByteSrc → Option Byte
  | .known b => some b
  | .scratch a => some (tget 0 s.grp.scratch a)
  | .plane r o => some (match planeOf s r with
    | some p => tget 0 p.present o
    | none => 0)
  | .home d a =>
    let x := arrGet s.core d (a / 64)
    if cachedAt s d a && x.valid.getLsbD (a % 64) then some (x.data.extractLsb' (8 * (a % 64)) 8) else none

/-- Consuming the byte raises POISON: its sector is poisoned and the byte is not the core's own dirty one (R160), or
it lies in a poisoned scratch sector (R167). -/
def srcPoison (s : State) : ByteSrc → Bool
  | .known _ => false
  | .plane _ _ => false
  | .scratch a => s.grp.badScr.contains (a / 64)
  | .home d a =>
    !(arrGet s.core d (a / 64)).dirty.getLsbD (a % 64) &&
    (if isRemote s d then s.farPoison.contains (d, a / 64) || ((hitByte s (.home d a)).isNone && remoteBad s d (a / 64))
     else isPoisoned s a)

/-- A clean line of the array may have been replaced at any time (R110): a free bit says whether it has. -/
def replaceMaybe (s : State) (dev ln : Nat) : State :=
  let clean := (upFrom (4 * ln) 4).all (fun sec => (arrGet s.core dev sec).dirty == 0)
  let some_ := (upFrom (4 * ln) 4).any (fun sec => (arrGet s.core dev sec).valid != 0)
  if clean && some_ then
    let s' := tick s
    if Config.freeBit s.freeCtr then
      { s' with core := (upFrom (4 * ln) 4).foldl (fun c sec => arrSet c dev sec Sector.none) s'.core }
    else s'
  else s

/-- The (device, line) pairs that sources lie in, without repeats. -/
def srcLines : List ByteSrc → List (Nat × Nat)
  | [] => []
  | .home d a :: r => let l := srcLines r
    if l.contains (d, a / 256) then l else (d, a / 256) :: l
  | _ :: r => srcLines r

/-- The cache lines of set `k` of a core's array, as (device, line), without repeats (R110: the set is bits 18:8). -/
def setLines (c : Core) (k : Nat) : List (Nat × Nat) :=
  c.arr.foldl (fun l x =>
    let y := (x.1 / 2 ^ 42, x.1 % 2 ^ 42 / 4)
    if y.2 % 2048 == k && !l.contains y then l ++ [y] else l) []

/-- The scratch lines whose ways are not the cache's: pinned, or released in a window that has not retired (R337). -/
def heldLines (s : State) : List Nat :=
  (s.th.ckpt.unpins ++ s.grp.ths.flatMap (fun t => t.2.ckpt.unpins)).foldl (fun l x => insNat x.1 l) s.grp.pinned

/-- The ways of set `k` that scratch takes. -/
def scrWays (s : State) (k : Nat) : Nat := ((heldLines s).filter (fun l => l % 2048 == k)).length

/-- Set `k` holds at most 16 lines, `extra` new ones included (R110, R112): cache lines that have no way left are replaced, in a
free order, their dirty bytes written back. `n` bounds their number. -/
def fitSet (s : State) (k extra : Nat) : Nat → State
  | 0 => s
  | n + 1 =>
    let l := setLines s.core k
    if l.length + scrWays s k + extra ≤ 16 then s
    else
      let v := nth (0, 0) l (Config.choice s.freeCtr l.length % l.length)
      fitSet (cleanLine (tick s) v.1 v.2 true) k extra n

/-- A way for a line of the array, if the line has none. -/
def wayFor (s : State) (dev ln : Nat) : State :=
  if (setLines s.core (ln % 2048)).contains (dev, ln) then s else fitSet s (ln % 2048) 1 17

/-- A sector filled from bytes of its home (R110, R145): its line has a way, dirty bytes stay, every byte becomes valid, and the
class of the access that fills is recorded. -/
def fillWith (s : State) (dev sec cls : Nat) (data : BitVec 512) : State :=
  let s := wayFor s dev (sec / 4)
  let x := arrGet s.core dev sec
  let y : Sector := { data := mergeBytes x.dirty x.data data, valid := BitVec.allOnes 64, dirty := x.dirty, cls := cls }
  { s with core := arrSet s.core dev sec y }

/-- The bytes of a sector at its home, if they are at hand (R257). -/
def homeData (s : State) (dev sec : Nat) : Option (BitVec 512) :=
  if isRemote s dev then (remoteData s dev sec).map (fun bs => BitVec.ofNat 512 (leNat bs))
  else some (homeSector s sec)

/-- The sectors that sources miss in, without repeats. -/
def missSectors (s : State) : List ByteSrc → List (Nat × Nat)
  | [] => []
  | .home d a :: r => let l := missSectors s r
    if (hitByte s (.home d a)).isSome || l.contains (d, a / 64) then l else (d, a / 64) :: l
  | _ :: r => missSectors s r

/-- The byte of a source once the sectors it misses in have been brought. -/
def takeByte (s : State) (src : ByteSrc) : Byte :=
  match hitByte s src with
  | some b => b
  | none => match src with
    | .home d a => match homeData s d (a / 64) with
      | some x => x.extractLsb' (8 * (a % 64)) 8
      | none => 0
    | _ => 0

/-- The missed sectors filled (those that are cached), or the sectors of other devices still to be read. -/
def fillMisses (s : State) (cls : Nat) (fill : Bool) : List (Nat × Nat) → State
  | [] => s
  | (d, sec) :: r => match homeData s d sec with
    | some x => fillMisses (if fill && cachedAt s d (64 * sec) then fillWith s d sec cls x else s) cls fill r
    | none => fillMisses s cls fill r

/-- What resolving sources gives: bytes, or sectors to ask another device for, or a fault with the place among the sources of
the byte that it is about. -/
inductive Taken where
  | bytes (s : State) (bs : List Byte)
  | ask (ss : List (Nat × Nat))
  | bad (c : FaultCode) (at_ : Nat)

/-- The answer of another device refuses a sector of saddle scratch beyond its extent: a single byte (R119; the model's own
layout). -/
def remoteOut (s : State) (dev sec : Nat) : Bool :=
  match remoteData s dev sec with
  | some [_] => true
  | _ => false

/-- The source lies beyond its partition's scratch extent on another device (R119); on this one the access was checked when it
issued (R412). -/
def srcOut (s : State) : ByteSrc → Bool
  | .home d a => isRemote s d && (hitByte s (.home d a)).isNone && remoteOut s d (a / 64)
  | _ => false

/-- A line of another device on which an operation of the focused core's group is under way (R148): no load of the core takes it
before the operation has been answered. -/
def lineLocked (s : State) (dev ln : Nat) : Bool :=
  let holds := fun (t : Thread) => t.marking == 3 && (match t.heldOp with
    | some o => o.h.dev == dev && o.lines.contains ln
    | none => false)
  isRemote s dev && (holds s.th || s.grp.ths.any (fun x => holds x.2))

/-- The checks of the sectors of this device that sources lie in tested (R420). -/
def tested (s : State) (srcs : List ByteSrc) : State :=
  if s.checks.isEmpty then s
  else (missSectors s srcs).foldl (fun s x => if isRemote s x.1 then s else testSec s x.2) s

/-- All bytes of an access taken at one moment (R139): from the array where valid, else from home, filling sectors. -/
def takeAll (s : State) (cls : Nat) (fill : Bool) (srcs : List ByteSrc) : Taken :=
  let miss := missSectors s srcs
  let far := miss.filter (fun x => (homeData s x.1 x.2).isNone)
  let first := fun (p : ByteSrc → Bool) => srcs.findIdx p
  let fenced : ByteSrc → Bool := fun x => match x with
    | .home d a => (hitByte s (.home d a)).isNone && isFenced s d
    | .plane .. => planeFenced s
    | _ => false
  if srcs.any fenced then .bad .deviceFenced (first fenced)
  else if miss.any (fun x => lineLocked s x.1 (x.2 / 4)) then .ask []
  else if !far.isEmpty then .ask far
  else if srcs.any (srcPoison s) then .bad .poison (first (srcPoison s))
  else if srcs.any (srcOut s) then .bad .scratchUnmapped (first (srcOut s))
  else .bytes (fillMisses (spent s) cls fill miss) (srcs.map (takeByte s))

/-- The value a load's bytes make (R327, R328, R37). -/
def finVal (f : LoadFin) (bs : List Byte) : RegVal :=
  match f with
  | .int sg => .s (if sg then BitVec.ofInt 64 (sextNat (leNat bs) (8 * bs.length)) else BitVec.ofNat 64 (leNat bs))
  | .lanes => .v (BitVec.ofNat 512 (leNat bs))
  | .walk .. => .h Handle.init
  | .pref _ => .s 0

/-! Scratch that a copy in flight is writing (R156). -/

/-- The value (and poison) of element `a / 4` among what a copy has read. -/
def landElem (g : Group) (c : CopyCmd) (bs : List Byte) (po : List Bool) (a : Nat) : Group :=
  let ps := (c.dst.zip (bs.zip po)).filter (fun x => x.1 / 4 == a / 4)
  ps.foldl (fun g x => { g with scratch := tset 0 g.scratch x.1 x.2.1,
                                badScr := if x.2.2 then insNat (x.1 / 64) g.badScr else g.badScr }) g

/-- Bytes an engine reads, with their poison marks: through the core array where valid, else at home (R156, R157);
`none` while a sector of another device is not at hand for the reader. -/
def engineRead (s : State) (tag : List Nat) (srcs : List ByteSrc) : Option (List Byte × List Bool) :=
  let s := asReader s tag
  if (missSectors s srcs).any (fun x => (homeData s x.1 x.2).isNone && !isFenced s x.1) then none
  else some (srcs.map (takeByte s), srcs.map (fun x => srcPoison s x || srcOut s x || (match x with
      | .home d _ => isFenced s d
      | _ => false)))

/-- The thread has a load that has not performed, issued before position `pos`. -/
def loadsBefore (t : Thread) (pos : Nat) : Bool := t.pend.any (fun e => e.load.isSome && decide (e.pos < pos))

/-- The focused core's thread `cx`, focused or not. -/
def thOf (s : State) (cx : Nat) : Thread :=
  match s.cur with
  | .thread _ c => if c = cx then s.th else tget Thread.init s.grp.ths cx
  | _ => tget Thread.init s.grp.ths cx

/-- (position, slot) `p` lies before `q` in a thread's issue order (R149). -/
def poBefore (p q : Nat × Nat) : Bool := decide (p.1 < q.1) || (p.1 == q.1 && decide (p.2 < q.2))

/-- The mask bits of the slots (R275). -/
def slotLs : Nat := 3
def slotCp : Nat := 4
def slotMx : Nat := 5

/-- A load or tile load of thread `cx` before (position, slot) `q` that `p` picks out by class has not performed. -/
def loadsAhead (s : State) (cx : Nat) (q : Nat × Nat) (p : Nat → Bool) : Bool :=
  (thOf s cx).pend.any (fun e => match e.load with
    | some r => p r.cls && poBefore (e.pos, r.slot) q
    | none => false) ||
  s.grp.tld.any (fun c => c.th == cx && p c.cls && poBefore (c.pos, c.slot) q)

/-- The name of a copy channel's reads. -/
def copyTag (s : State) (ch : Nat) : List Nat := [2, coOf s, ch]

/-- The operation belongs to its thread's open window. -/
def inWindow (t : Thread) (pos : Nat) : Bool := decide (t.ckpt.pos ≤ pos)

/-- A copy whose memory reads perform before a later access of class `cls` of its thread (R150): it stands before `q`, has not
read, and has the class or belongs to an earlier window. -/
def readsBefore (s : State) (cx cls : Nat) (q : Nat × Nat) (c : CopyCmd) : Bool :=
  c.th == cx && c.op != 1 && c.op != 3 && c.got.isNone && poBefore (c.pos, slotCp) q &&
  (c.cls == cls || !inWindow (thOf s cx) c.pos)

/-- Such a copy cannot read yet: data of another device, or a load before it, is outstanding. -/
def copyLate (s : State) (cx cls : Nat) (q : Nat × Nat) : Bool :=
  s.grp.ch.any (fun x => readsBefore s cx cls q x.2 &&
    ((engineRead s (copyTag s x.1) x.2.src).isNone || loadsAhead s cx (x.2.pos, slotCp) (fun k => k == x.2.cls)))

/-- Those copies read before the access performs. -/
def copiesRead (s : State) (cx cls : Nat) (q : Nat × Nat) : State :=
  if !s.grp.ch.any (fun x => readsBefore s cx cls q x.2) then s
  else
    let s := s.grp.ch.foldl (fun t x => if readsBefore s cx cls q x.2 then tested t x.2.src else t) s
    { s with grp := { s.grp with ch := s.grp.ch.map (fun x =>
      if readsBefore s cx cls q x.2 then (x.1, { x.2 with got := engineRead s (copyTag s x.1) x.2.src }) else x) } }

/-- An access to a scratch byte that a copy in flight writes finds its element old or new (R156, R162): a free bit says
whether the element has landed, and once landed it stays. Copies into scratch write in indivisible 4-byte elements. -/
def touchCopy (s : State) (ch a : Nat) : State :=
  match tfind s.grp.ch ch with
  | none => s
  | some c =>
    if c.op == 1 || c.bank.isSome || !c.dst.contains a || c.landed.contains (a / 4) ||
       loadsAhead s c.th (c.pos, slotCp) (fun _ => true) then s
    else
      let s' := tick (if c.got.isSome then s else tested s c.src)
      if Config.freeBit s.freeCtr then
        match (match c.got with
          | some x => some x
          | none => engineRead s (copyTag s ch) c.src) with
        | some (bs, po) =>
          let g := landElem s'.grp c bs po a
          { s' with grp := { g with ch := tput g.ch ch { c with got := some (bs, po), landed := a / 4 :: c.landed } } }
        | none => s'
      else s'

/-- Every scratch byte of an access, offered to the four channels. -/
def touchAll (s : State) (srcs : List ByteSrc) : State :=
  srcs.foldl (fun s x => match x with
    | .scratch a => (upFrom 0 4).foldl (fun s ch => touchCopy s ch a) s
    | _ => s) s

/-! Loads and stores. -/

/-- An earlier load of the class has not performed (R150). -/
def earlierLoad (t : Thread) (cls : Nat) : Bool :=
  t.pend.any (fun e => match e.load with
    | some q => q.cls == cls
    | none => false)

/-- An earlier tile load of the class has not performed (R150). -/
def earlierTld (s : State) (cls : Nat) : Bool := s.grp.tld.any (fun c => c.th == cxOf s && c.cls == cls)

/-- An earlier access of the thread that a load of the class performs after is outstanding (R150). -/
def loadHeld (s : State) (cls : Nat) : Bool :=
  earlierLoad s.th cls || earlierTld s cls || copyLate s (cxOf s) cls (s.th.pos, s.th.slot)

/-- The address that a fault about byte `i` of `n` reports: `addrs` has one for each equal part of the bytes (R326, R355). -/
def faultAddr (addrs : List Nat) (n i : Nat) : Nat := nth 0 addrs (i * addrs.length / n)

/-- A load starts (R327): with every byte at hand it takes its value at once, otherwise it waits for its miss. The
result is of latency class `lc`. -/
def startLoad (s : State) (r : RegName) (srcs : List ByteSrc) (cls : Nat) (fin : LoadFin) (addrs : List Nat) (lc : Nat) : State :=
  let s := touchAll ((srcLines srcs).foldl (fun s x => replaceMaybe s x.1 x.2) s) srcs
  if srcs.all (fun x => (hitByte s x).isSome) && !loadHeld s cls then
    let s := copiesRead s (cxOf s) cls (s.th.pos, s.th.slot)
    if srcs.any (srcPoison s) then raise (tested s srcs) .poison (faultAddr addrs srcs.length (srcs.findIdx (srcPoison s)))
    else { s with th := pushReg s.th r (finVal fin (srcs.map (takeByte s))) lc }
  else { s with th := pushLoad s.th r { cls := cls, srcs := srcs, fin := fin, addrs := addrs, slot := s.th.slot, cached := true, bpc := s.th.bpc } lc }

/-- The name of a load's reads. -/
def loadTag (s : State) (e : Pend) (q : LoadReq) : List Nat := [1, coOf s, cxOf s, e.pos, q.slot]

/-- The arrived value put into an entry, there and where the register log keeps it. -/
def arriveIn (e : Pend) (v : RegVal) (l : List Pend) : List Pend :=
  l.map (fun x => if x.pos == e.pos && x.land == e.land && x.load == e.load && (x.reg == e.reg || x.reg == .s 0) then
    { x with val := v, load := none } else x)

/-- The value of an entry in flight of the focused thread has come, there and in the register log. -/
def arrived (s : State) (e : Pend) (v : RegVal) : State :=
  let c := s.th.ckpt
  { s with th := { s.th with pend := arriveIn e v s.th.pend, ckpt := { c with pend := arriveIn e v c.pend } } }

/-- A load's fault, recognised late at the load's own position: about byte `i` of what it reads. -/
def loadFault (s : State) (e : Pend) (q : LoadReq) (c : FaultCode) (i : Nat) : State :=
  let f : FaultInfo :=
    { code := c, pos := e.pos, slot := q.slot, addr := faultAddr q.addrs q.srcs.length i, gate := 0, fq := 0, bpc := q.bpc }
  let s' := arrived (spent s) e e.val
  { s' with th := raiseTh s'.th f }

/-- A walk that outlasts its latency goes on from its beginning (R129, R329). -/
def walkPerform (s : State) (e : Pend) (q : LoadReq) (va : Nat) (sys : Bool) (tries : Nat) : State :=
  let s := testWalk s (rootOf s s.grp.image) va
  match walk s (rootOf s s.grp.image) sys va with
  | .page pa lv leaf dev => arrived (spent s) e (.h (pageHandle s va pa lv leaf dev))
  | .bad c => loadFault s e q c 0
  | .wait d sec => askSector s d sec 0
  | .mig =>
    if 64 ≤ tries then loadFault s e q .walkFault 0
    else
      let again := fun (l : List Pend) => l.map (fun x =>
        if x == e then { x with load := some { q with fin := .walk va sys (tries + 1) } } else x)
      let s' := spent s
      { s' with th := { s'.th with pend := again s'.th.pend, ckpt := { s'.th.ckpt with pend := again s'.th.ckpt.pend } } }

/-- A prefetch brings its line's sectors, and ignores what would fault (R338). -/
def prefPerform (s : State) (e : Pend) (q : LoadReq) (cls : Nat) : State :=
  match takeAll s cls true q.srcs with
  | .bytes s' _ => arrived s' e (.s 0)
  | .ask ss => ss.foldl (fun s x => askSector s x.1 x.2 cls) s
  | .bad _ _ => arrived (spent s) e (.s 0)

/-- An entry in flight of the focused thread performs (R16): its value arrives, or its fault is recognised at its own
position; where it needs a sector of another device it asks for it and waits on. -/
def loadPerform (s : State) (e : Pend) (q : LoadReq) : State :=
  let s := asReader s (loadTag s e q)
  match q.fin with
  | .walk va sys n => walkPerform s e q va sys n
  | .pref cls => prefPerform s e q cls
  | fin =>
    let s := copiesRead s (cxOf s) q.cls (e.pos, q.slot)
    let s := tested s q.srcs
    match takeAll (touchAll s q.srcs) q.cls q.cached q.srcs with
    | .bytes s' bs => arrived s' e (finVal fin bs)
    | .ask ss => ss.foldl (fun s x => askSector s x.1 x.2 q.cls) s
    | .bad c i => loadFault s e q c i

/-- The loads of a class that lower slots of the present bundle have in flight perform before a later slot's (R149, R150). -/
def ownLoads (s : State) (cls : Nat) : State :=
  (s.th.pend.filter (fun e => e.pos == s.th.pos)).foldl (fun s e => match e.load with
    | some q => if q.cls == cls then loadPerform s e q else s
    | none => s) s

/-- What is in flight for a result that is no access of a class: a walk, a prefetch. -/
def lateReq (s : State) (srcs : List ByteSrc) (fin : LoadFin) (addr : Nat) : LoadReq :=
  { cls := 16, srcs := srcs, fin := fin, addrs := [addr], slot := s.th.slot, cached := true, bpc := s.th.bpc }

/-- A load of `n` bytes at a location for register `r`. -/
def loadAt (s : State) (r : RegName) (l : Loc) (n cls : Nat) (fin : LoadFin) (addr lc : Nat) : State :=
  startLoad s r ((locBytes l n).map (srcOf s.th)) cls fin [addr] lc

/-- The gate stores that writing bytes at a location makes, with the VA of each sector (R21). -/
def gateWrites (l : Loc) (va : Nat) (bs : List Byte) : List (GAddr × BitVec 64 × BitVec 512 × Nat) :=
  (sectorWrites l.num bs).map (fun w =>
    ((match l with
      | .mem d _ => .mem d w.1
      | .scr _ => .scr w.1
      | .pl r _ => .pl r w.1), w.2.1, w.2.2, va + 64 * w.1 - l.num))

/-- Bytes stored at a location: they enter the gate, or the gate overflows (R21). -/
def storeAt (s : State) (l : Loc) (bs : List Byte) (cls va : Nat) : State :=
  match gatePuts s.th cls (gateWrites l va bs) with
  | some t => { s with th := t }
  | none => raise s .gateOverflow va

/-! Walks. -/

/-- A walk descriptor (R163): RUN, and its used dimensions as (BOUND, STRIDE), dimension 0 first. -/
structure Walk where
  run : Nat
  dims : List (Nat × Int)
deriving DecidableEq, Repr

/-- NDIM of a descriptor's image. -/
def walkNdim (d : BitVec 512) : Nat := bitsOf d.toNat 39 32

/-- The descriptor of an image. -/
def walkOf (d : BitVec 512) : Walk :=
  { run := bitsOf d.toNat 31 0,
    dims := (upFrom 0 (walkNdim d)).map (fun j =>
      (bitsOf d.toNat (64 + 64 * j + 31) (64 + 64 * j), sextNat (bitsOf d.toNat (96 + 64 * j + 31) (96 + 64 * j)) 32)) }

/-- The image breaks R164 (with `runFree`, RUN is not read: UNFOLD's position walk, R166). -/
def walkBad (d : BitVec 512) (runFree : Bool) : Bool :=
  let w := walkOf d
  bitsOf d.toNat 63 40 != 0 || bitsOf d.toNat 511 448 != 0 || decide (6 < walkNdim d) ||
  (!runFree && (decide (w.run < 4) || decide (65536 < w.run) || w.run % 4 != 0)) ||
  w.dims.any (fun x => x.1 == 0 || decide (65536 < x.1))

/-- The offsets of a walk's runs in order, dimension 0 fastest (R164). -/
def walkOffs : List (Nat × Int) → List Int
  | [] => [0]
  | d :: r => (walkOffs r).flatMap (fun o => (upFrom 0 d.1).map (fun (i : Nat) => o + (i : Int) * d.2))

/-- A walk's total (R164). -/
def walkTotal (w : Walk) : Nat := w.dims.foldl (fun n d => n * d.1) w.run

/-! The sides of an engine command (R365). -/

/-- The runs of a side that has passed steps 1 to 6: each run's location and reported address, and the handle. -/
structure Side where
  h : Handle
  runs : List (Loc × Nat)
  run : Nat
deriving DecidableEq, Repr

/-- The outcome of a side's checks. -/
inductive SideRes where
  | ok (s : State) (x : Side)
  | bad (c : FaultCode) (addr : Nat)
  | wait (s : State)

/-- The spaces a side accepts: memory, scratch, or both. A plane that is not allowed fails at step 6, and where the instruction
names no step 6 (`early`: FILL, SHUNTC, ACCRD) at step 1. The saddle-scratch extent of a side whose bytes commit at the mark (`late`)
is checked there (R122, R412). -/
structure Spaces where
  mem : Bool
  scr : Bool
  pl : Bool
  early : Bool
  late : Bool

/-- The first failing run under a check. -/
def firstBad {α : Type} (f : α → Option (FaultCode × Nat)) : List α → Option (FaultCode × Nat)
  | [] => none
  | x :: r => match f x with
    | some e => some e
    | none => firstBad f r

/-- Steps 3 to 6 of R365 on the runs of a side. -/
def sideRuns (s : State) (h : Handle) (sp : Spaces) (base : Int) (run : Nat) (offs : List Int) : SideRes :=
  let w := window s.grp h
  let addrs := offs.map (fun o => addrOf h (base + o))
  let ads := addrs.map (fun a => wrapNat a 64)
  match firstBad (fun a => if decide (a < w.1) || decide (w.2 < a + run) then some (FaultCode.handleBound, wrapNat a 64) else none) addrs with
  | some (c, a) => .bad c a
  | none => match firstBad (fun a => if a % 4 != 0 then some (FaultCode.align, a) else none) ads with
    | some (c, a) => .bad c a
    | none =>
      let locs := (offs.map (fun o => wrapNat ((h.pa : Int) + base + o) 64)).zip ads
      match firstBad (fun (x : Nat × Nat) =>
          if h.space == .scratch && !allPinned s.grp x.2 run then
            some (FaultCode.scratchUnmapped, firstUnpinned s.grp x.2 run)
          else if h.space == .memory && !sp.late && !isRemote s h.dev && (saddleOut s x.1 || saddleOut s (x.1 + run - 1)) then
            some (FaultCode.scratchUnmapped, x.2)
          else none) locs with
      | some (c, a) => .bad c a
      | none =>
        if h.space == .plane && !sp.pl then .bad .handlePerm 0
        else .ok s { h := h, run := run, runs := locs.map (fun x => ((match h.space with
          | .memory => Loc.mem h.dev x.1
          | .scratch => .scr x.2
          | .plane => .pl h.plane x.2), x.2)) }

/-- Step 1 of R365: handle state, space and permission; a fenced home. -/
def sideHandle (s : State) (hi : Nat) (sp : Spaces) (need : Need) : HRes :=
  match useHandle s hi with
  | .ok s' h =>
    if h.st == .empty then .bad .handlePerm 0
    else if (h.space == .memory && !sp.mem) || (h.space == .scratch && !sp.scr) || (h.space == .plane && sp.early) then .bad .handlePerm 0
    else if !permits h need then .bad .handlePerm 0
    else if (h.space == .memory && isFenced s' h.dev) || (h.space == .plane && planeFenced s') then .bad .deviceFenced h.va
    else .ok s' h
  | r => r

/-- Steps 1 to 6 of R365 on a walked side: [h + x] through walk descriptor `d`. -/
def side (s : State) (hi : Nat) (x : BitVec 6) (d : BitVec 512) (sp : Spaces) (need : Need) : SideRes :=
  match sideHandle s hi sp need with
  | .bad c a => .bad c a
  | .wait s' => .wait s'
  | .ok s' h =>
    if walkBad d false then .bad .formatInvalid 0
    else sideRuns s' h sp (sReg s.th x.toNat).toInt (walkOf d).run (walkOffs (walkOf d).dims)

/-- Steps 1 to 6 of R365 on a contiguous side of `n` bytes at [h + x]. -/
def sideFlat (s : State) (hi : Nat) (x : BitVec 6) (n : Nat) (sp : Spaces) (need : Need) : SideRes :=
  match sideHandle s hi sp need with
  | .bad c a => .bad c a
  | .wait s' => .wait s'
  | .ok s' h => sideRuns s' h sp (sReg s.th x.toNat).toInt n [0]

/-- The spaces of a memory side, a scratch side, a shunt's source, and a tile load's memory side. -/
def memOnly : Spaces := { mem := true, scr := false, pl := false, early := false, late := false }
def scrOnly : Spaces := { mem := false, scr := true, pl := false, early := false, late := false }
def memOrScr : Spaces := { mem := true, scr := true, pl := false, early := false, late := false }
def memOrPl : Spaces := { mem := true, scr := false, pl := true, early := false, late := false }

/-- The same with no step 6. -/
def Spaces.noStep6 (x : Spaces) : Spaces := { x with early := true }

/-- The same for bytes that commit at the mark. -/
def Spaces.atCommit (x : Spaces) : Spaces := { x with late := true }

/-- The locations of a side's bytes in walk order. -/
def sideBytes (x : Side) : List Loc := x.runs.flatMap (fun r => locBytes r.1 x.run)

/-- A side's total. -/
def sideTotal (x : Side) : Nat := x.runs.length * x.run

/-- The scratch addresses of a scratch side's bytes. -/
def sideScr (x : Side) : List Nat := (sideBytes x).map Loc.num

/-- A fault or a blocked bundle as an outcome; `k` goes on with the side. -/
def withSide (s : State) (r : SideRes) (k : State → Side → Out) : Out :=
  match r with
  | .bad c a => .next (raise s c a)
  | .wait s' => .next s'
  | .ok s' x => k s' x

/-! Rings. -/

/-- Ring q of the group. -/
def ringOf (g : Group) (q : Nat) : Ring := tget Ring.none g.rings q

/-- The kernel declares ring q (R431). -/
def ringDeclared (g : Group) (q : Nat) : Bool := decide (q < g.kern.rings.length)

/-- The scratch address of slot `i` of a ring (R113). -/
def slotAddr (r : Ring) (i : Nat) : Nat := r.base + i * r.bytes

/-- A ring with no free slot (R114). -/
def ringIsFull (r : Ring) : Bool := decide (r.slots ≤ r.filled)

/-- A push claims the tail slot at issue (R114); the thread's window remembers it (R168). -/
def ringPush (s : State) (q : Nat) : State × Nat :=
  let r := ringOf s.grp q
  let r' : Ring := { r with tail := (r.tail + 1) % r.slots, filled := r.filled + 1, flying := r.tail :: r.flying }
  let g := { s.grp with rings := tset Ring.none s.grp.rings q r' }
  let c := { s.th.ckpt with pushes := bump q 1 s.th.ckpt.pushes }
  ({ s with grp := g, th := { s.th with ckpt := c } }, r.tail)

/-- A slot's push has landed. -/
def ringLand (g : Group) (q i : Nat) : Group :=
  { g with rings := tmod Ring.none g.rings q (fun r => { r with flying := r.flying.filter (fun j => j != i) }) }

/-- The next filled slot after those assigned to ring reads in flight (R375), if there is one, and the ring with it
assigned. -/
def ringAssign (g : Group) (q : Nat) : Option (Group × Nat) :=
  let r := ringOf g q
  if r.filled ≤ r.taken then none
  else some ({ g with rings := tset Ring.none g.rings q { r with taken := r.taken + 1 } }, (r.head + r.taken) % r.slots)

/-- The head popped at a retirement (R114). -/
def ringPop (g : Group) (q : Nat) : Group :=
  { g with rings := tmod Ring.none g.rings q (fun r =>
      { r with head := (r.head + 1) % r.slots, filled := r.filled - 1, taken := r.taken - 1 }) }

/-- One stall counted for the bundle that finds the condition (R365), kept through a rollback. Key: ring q, or 8 + a
channel's or queue's unit number (R371). -/
def stallOnce (s : State) (key : Nat) : State :=
  if s.th.stalls.contains key then s
  else
    let g := s.grp
    let up := fun n => min (n + 1) 0xFFFFFFFF
    let g := if key < 8 then { g with rings := tmod Ring.none g.rings key (fun r => { r with stall := up r.stall }) }
      else if key < 12 then { g with chStat := tmod QStat.init g.chStat (key - 8) (fun u => { u with stall := up u.stall }) }
      else { g with quStat := tmod QStat.init g.quStat (key - 12) (fun u => { u with stall := up u.stall }) }
    { s with grp := g, th := { s.th with stalls := key :: s.th.stalls } }

/-- A full unit (R114, R165, R170): the stall is counted; strict mode raises the fault, lenient mode blocks. -/
def stallOn (s : State) (key : Nat) (c : FaultCode) : State :=
  let s := stallOnce s key
  if s.grp.kern.lenient then block s else raise s c 0

/-! Busy tiles. -/

/-- A tile (R181). -/
inductive Tile where
  | acc (i : Nat) | slot (q k : Nat) | ws (i : Nat) | bank (b : Nat) | line (l : Nat) | vreg (th r : Nat)
deriving DecidableEq, Repr

/-- The scratch lines of addresses, without repeats. -/
def linesOf : List Nat → List Tile
  | [] => []
  | a :: r => let l := linesOf r
    if l.contains (.line (a / 256)) then l else .line (a / 256) :: l

/-- The scratch lines that sources lie in. -/
def srcScr (l : List ByteSrc) : List Nat :=
  l.filterMap (fun x => match x with
    | .scratch a => some a
    | _ => none)

/-- The tiles a copy in flight reads and writes. -/
def copyTiles (c : CopyCmd) : List Tile × List Tile :=
  match c.bank with
  | some b => ([], [.bank b])
  | none => match c.ring with
    | some (q, k) => if c.op = 1 then ([.slot q k], []) else ([], [.slot q k])
    | none => if c.op = 1 then (linesOf (srcScr c.src), []) else ([], linesOf c.dst)

/-- The tiles a tile load in flight writes. -/
def tldTiles (c : TldCmd) : List Tile :=
  match c.ring with
  | some (q, k) => [.slot q k]
  | none => linesOf c.dst

/-- The tiles an MX operation reads and writes (R181). -/
def mxTiles (o : MxOp) : List Tile × List Tile :=
  match o.ins with
  | .mma acc q ws _ _ _ _ _ => ([.acc acc.toNat, .slot q.toNat o.slot, .ws ws.toNat], [.acc acc.toNat])
  | .mmas acc q ws _ _ _ _ _ => ([.acc acc.toNat, .slot q.toNat o.slot, .ws ws.toNat], [.acc acc.toNat])
  | .wtile ws _ _ => ([.bank o.bank], [.ws ws.toNat])
  | .wswap _ => ([], [.bank 0, .bank 1])
  | .accz acc _ _ _ => ([], [.acc acc.toNat])
  | .accwr acc q _ _ _ => ([.slot q.toNat o.slot], [.acc acc.toNat])
  | .rpop q _ => ([.slot q.toNat o.slot], [])
  | .accrd acc q dk _ m cv _ xt _ vb _ =>
    ([.acc acc.toNat],
      if dk = 0 then [.slot q.toNat o.slot]
      else if dk = 1 then linesOf o.dst
      else (upFrom 0 (m.toNat * (if cv = 0 || cv = 12 then 2 else 1))).map
        (fun i => .vreg o.th (32 * xt.toNat + vb.toNat + i)))
  | _ => ([], [])

/-- The tiles of every operation in flight: copies, tile loads, the running shunt of each queue, MX operations; those that
`mine` picks out by thread and position are left out. -/
def flights (g : Group) (mx : Bool) (mine : Nat → Nat → Bool) : List (List Tile × List Tile) :=
  (g.ch.filter (fun x => !mine x.2.th x.2.pos)).map (fun x => copyTiles x.2) ++
  (g.tld.filter (fun c => !mine c.th c.pos)).map (fun c => ([], tldTiles c)) ++
  (g.qu.filter (fun x => !x.2.held)).map (fun x => (linesOf (srcScr x.2.src), [])) ++
  (if mx then (g.mx.filter (fun x => !mine x.2.th x.2.pos)).map (fun x => mxTiles x.2) else [])

/-- Two operations conflict when either writes a tile the other reads or writes (R181). -/
def conflicts (r w : List Tile) (x : List Tile × List Tile) : Bool :=
  w.any (fun t => x.1.contains t || x.2.contains t) || r.any (fun t => x.2.contains t)

/-- A CP, LS or V operation of the focused thread that reads tiles `r` and writes tiles `w` conflicts with one in flight that
an earlier bundle issued. -/
def busy (s : State) (r w : List Tile) : Bool :=
  (flights s.grp true (fun th pos => th == cxOf s && pos == s.th.pos)).any (conflicts r w)

end Sys2Proof.Machine
end

