-- ==== Sys2Proof/Machine/Control.lean ====
section
/-!
DEFINITION. The CTL slot: branches, calls, jumps, loops, thread control, system entry, FMT and MPC, phases (R302 to
R315). While a bundle issues, `bpc` is its own offset within the segment's code and `pc` that of the next sequential bundle.
-/
namespace Sys2Proof.Machine
open Sys2Proof

/-- A control result: nothing happens when the slot's predicate is false (R11). -/
def ctl (s : State) (p : BitVec 5) (f : State → State) : Out := .next (if predOk s.th p then f s else s)

/-- Every active loop ends; COUNT is unchanged (R307). -/
def endLoops (t : Thread) : Thread :=
  { t with n := (upFrom 0 6).foldl (fun n i => tmod LoopCtr.init n i (fun c => { c with act := false })) t.n }

/-- A taken transfer to an address (R13, R302): refused unless a bundle of the running segment starts there; it ends
every active loop (R307). -/
def jumpTo (s : State) (a : Word) : State :=
  if targetOk s s.th.seg a.toNat then { s with th := { endLoops s.th with pc := a } } else raise s .illegalTarget 0

/-- The address of the bundle's own header. -/
def ownPc (s : State) : Word := BitVec.ofNat 64 s.th.bpc

def execBr (off : BitVec 22) (p : BitVec 5) (s : State) : Out :=
  ctl s p fun s => jumpTo s (ownPc s + 4 * off.signExtend 64)
/-- BRP (R303): taken when pN xor N is 1. -/
def execBrp (q : BitVec 4) (n : BitVec 1) (off : BitVec 17) (p : BitVec 5) (s : State) : Out :=
  ctl s p fun s => if pReg s.th q.toNat != (n == 1) then jumpTo s (ownPc s + 4 * off.signExtend 64) else s
/-- CALL (R304): the link is the address of the next sequential bundle. -/
def execCall (d : BitVec 6) (off : BitVec 16) (p : BitVec 5) (s : State) : Out :=
  ctl s p fun s => jumpTo (putS s d.toNat s.th.pc clsAlu) (ownPc s + 4 * off.signExtend 64)
def execRet (a : BitVec 6) (p : BitVec 5) (s : State) : Out := ctl s p fun s => jumpTo s (sReg s.th a.toNat)
def execJmpr (a : BitVec 6) (off : BitVec 16) (p : BitVec 5) (s : State) : Out :=
  ctl s p fun s => jumpTo s (sReg s.th a.toNat + 4 * off.signExtend 64)

/-- The address after `n` bundles from `a`, and the address of the last of them, inside the segment. -/
def skipBundles (s : State) (g : Seg) : Nat → Nat → Nat → Option (Nat × Nat)
  | 0, a, l => some (a, l)
  | n + 1, a, _ =>
    if g.len < a + 4 then none
    else
      let e := a + bundleLen (memNat s (g.code + a) 4 % 2 ^ 15)
      if g.len < e then none else skipBundles s g n e a

/-- The loop counters that are active. -/
def activeLoops (t : Thread) : List LoopCtr :=
  ((upFrom 0 6).map (fun i => tget LoopCtr.init t.n i)).filter (fun c => c.act)

/-- LOOP and LOOPX (R305, R307). -/
def startLoop (s : State) (ln : Nat) (count : Nat) (body : BitVec 4) : State :=
  let t := s.th
  match skipBundles s t.seg (body.toNat + 1) t.pc.toNat 0 with
  | none => if (tget LoopCtr.init t.n ln).act then raise s .illegalBundle 0 else raise s .illegalTarget 0
  | some (e, l) =>
    if (tget LoopCtr.init t.n ln).act || (activeLoops t).any (fun c => c.sys == t.insys && decide (c.last < l)) then raise s .illegalBundle 0
    else
      let c : LoopCtr := { count := BitVec.ofNat 16 count, act := decide (0 < count), body := body, first := t.pc.toNat,
                           last := l, sys := t.insys, depth := (activeLoops t).length }
      { s with th := { t with n := tset LoopCtr.init t.n ln c, pc := if count = 0 then BitVec.ofNat 64 e else t.pc } }

def execLoop (ln : BitVec 3) (body : BitVec 4) (cnt : BitVec 15) (p : BitVec 5) (s : State) : Out :=
  ctl s p fun s => startLoop s ln.toNat cnt.toNat body
def execLoopx (ln : BitVec 3) (a : BitVec 6) (body : BitVec 4) (p : BitVec 5) (s : State) : Out :=
  ctl s p fun s =>
    if 65535 < (sReg s.th a.toNat).toNat then raise s .formatInvalid 0
    else startLoop s ln.toNat (sReg s.th a.toNat).toNat body

/-- What the loop buffer does after a bundle has issued without a taken transfer (R305, R307): loops of its segment whose body
ends with it decide, the innermost first. -/
def loopStep (t : Thread) (bpc : Nat) : Nat → Thread
  | 0 => t
  | f + 1 =>
    let here := (upFrom 0 6).filter (fun i => let c := tget LoopCtr.init t.n i; c.act && c.sys == t.insys && c.last == bpc)
    match here.foldl (fun (m : Option Nat) i => match m with
        | none => some i
        | some j => if (tget LoopCtr.init t.n j).depth < (tget LoopCtr.init t.n i).depth then some i else m) none with
    | none => t
    | some i =>
      let c := tget LoopCtr.init t.n i
      let k := c.count - 1
      if k != 0 then { t with n := tset LoopCtr.init t.n i { c with count := k }, pc := BitVec.ofNat 64 c.first }
      else loopStep { t with n := tset LoopCtr.init t.n i { c with count := k, act := false } } bpc f

/-- YIELD (R35): the context is passed over at the next selection. -/
def execYield (p : BitVec 5) (s : State) : Out := ctl s p fun s => { s with th := { s.th with run := .yielded } }
/-- EXIT (R24, R308): the thread ends once its mark has retired. -/
def execExit (p : BitVec 5) (s : State) : Out := ctl s p fun s => { s with th := { s.th with heldCtl := some (0, 0) } }
/-- SVC and TRAP (R311). -/
def sysCall (s : State) (k : Nat) (imm : BitVec 16) : State :=
  if !sysentV s || s.th.seg.sys then raise s .illegalOpcode 0
  else { s with th := { s.th with heldCtl := some (k, imm.toNat) } }
def execTrap (imm : BitVec 16) (p : BitVec 5) (s : State) : Out := ctl s p fun s => sysCall s 2 imm
def execSvc (imm : BitVec 16) (p : BitVec 5) (s : State) : Out := ctl s p fun s => sysCall s 1 imm
/-- ERET (R311): a segment without the system bit takes PRIV_OPCODE (R276 step 4, checked at decoding too). -/
def execEret (p : BitVec 5) (s : State) : Out :=
  ctl s p fun s => if s.th.seg.sys then { s with th := { s.th with heldCtl := some (3, 0) } } else raise s .privOpcode 0

/-- SETFMT (R75, R313): the value governs from position + 4. -/
def execSetfmt (a : BitVec 6) (p : BitVec 5) (s : State) : Out :=
  ctl s p fun s =>
    let v := sReg s.th a.toNat
    if v.toNat / 2 ^ 28 != 0 then raise s .formatInvalid 0
    else
      let e : Pend := { reg := .fmt, val := .s v, land := s.th.pos + 4, pos := s.th.pos, load := none }
      { s with th := { s.th with pend := e :: s.th.pend } }
def execFmtrd (d : BitVec 6) (p : BitVec 5) (s : State) : Out := ctl s p fun s => putS s d.toNat s.th.fmt clsAlu
/-- MDPC (R314): MPC from the next bundle on. -/
def execMdpc (a : BitVec 6) (off : BitVec 16) (p : BitVec 5) (s : State) : Out :=
  ctl s p fun s =>
    let v := sReg s.th a.toNat + 8 * off.signExtend 64
    if v.toNat % 8 != 0 then raise s .align 0 else { s with th := { s.th with heldMpc := some v } }

/-- DOM.LEVEL (R48). -/
def domLevel (t : Thread) : Nat := bitsOf t.dom.toNat 22 20
/-- STEP and BARR (R50, R315): held to step 4 of the mark. -/
def arrive (s : State) (lvl : BitVec 3) (isStep : Bool) : State :=
  if decide (domLevel s.th < lvl.toNat) || decide (5 < lvl.toNat) then raise s .domainMismatch 0
  else { s with th := { s.th with heldSync := some (lvl.toNat, isStep) } }
def execStep (lvl : BitVec 3) (p : BitVec 5) (s : State) : Out := ctl s p fun s => arrive s lvl true
def execBarr (lvl : BitVec 3) (p : BitVec 5) (s : State) : Out := ctl s p fun s => arrive s lvl false

/-- Every batch the thread has closed under a tag has finished (R180): none of its operations is in the engine. -/
def batchDone (s : State) (tag : Nat) : Bool :=
  s.th.batches.all (fun b => b.1 != tag || b.2.all (fun q => !s.grp.mx.any (fun o => o.1 == q)))
/-- MWAIT (R180): blocks its bundle until then. -/
def execMwait (tag : BitVec 3) (p : BitVec 5) (s : State) : Out :=
  ctl s p fun s =>
    if batchDone s tag.toNat then { s with th := { s.th with batches := s.th.batches.filter (fun b => b.1 != tag.toNat) } }
    else block s
/-- PARK (R308): the next bundle is not ready until PARK_EXPIRY. -/
def execPark (imm : BitVec 16) (p : BitVec 5) (s : State) : Out :=
  ctl s p fun s => if imm = 0 then s else { s with th := { s.th with run := .parked } }

end Sys2Proof.Machine
end

