-- ==== Sys2Proof/Machine/Coord.lean ====
section
/-!
DEFINITION. The private layout and the elements of tensors in it (R176, R214 to R219).
-/
namespace Sys2Proof.Machine
open Sys2Proof

/-- K, element rows E and scale rows S of a tile of weight format `code`, BFP width `w` (R176). -/
def tileShape (code w : Nat) : Option (Nat × Nat × Nat) :=
  match code with
  | 1 => some (128, 64, 0)
  | 2 => some (128, 64, 0)
  | 3 => some (256, 64, 0)
  | 4 => some (256, 64, 0)
  | 7 => some (256, 64, 0)
  | 8 => some (256, 64, 0)
  | 5 => some (512, 64, 4)
  | 6 => if w = 2 then some (1024, 64, 8)
         else if w = 3 then some (512, 48, 4)
         else if w = 4 then some (512, 64, 4)
         else if 5 ≤ w && w ≤ 8 then some (256, 8 * w, 2)
         else none
  | _ => none

/-- The K of a tensor's tiles. -/
def tensorK (p : Tensor) : Nat := match tileShape p.priv p.bw with
  | some (k, _, _) => k
  | none => 1

/-- Bits per element of a tensor's private format. -/
def tensorB (p : Tensor) : Nat := fmtBits p.priv p.bw

/-- The tile, column and k within the tile of a linear index (R217). -/
def coordOf (p : Tensor) (i : Nat) : Nat × Nat × Nat :=
  let k := i / p.ndim
  let n := i % p.ndim
  ((n / 512) * p.kt + k / tensorK p, n % 512, k % tensorK p)

/-- The byte in a tile row where column c's word lies (R215). -/
def colByte (c r : Nat) : Nat := 4 * ((c + 64 * (r % 8)) % 512)

/-- The address of column c's word in row r of tile t. -/
def wordAddr (p : Tensor) (t c r : Nat) : Nat := p.pa + 2048 * (t * (p.e + p.sc) + r) + colByte c r

/-- `width` bits at bit `pos` of column c's string that begins at tile row `r0`. -/
def colBits (s : State) (p : Tensor) (t c r0 pos width : Nat) : Nat :=
  let w0 := memNat s (wordAddr p t c (r0 + pos / 32)) 4
  let w1 := memNat s (wordAddr p t c (r0 + pos / 32 + 1)) 4
  ((w0 + 2 ^ 32 * w1) >>> (pos % 32)) % 2 ^ width

/-- Those bits replaced. -/
def setColBits (s : State) (p : Tensor) (t c r0 pos width v : Nat) : State :=
  let a0 := wordAddr p t c (r0 + pos / 32)
  let a1 := wordAddr p t c (r0 + pos / 32 + 1)
  let o := pos % 32
  let x := memNat s a0 4 + 2 ^ 32 * memNat s a1 4
  let y := x - ((x >>> o) % 2 ^ width) * 2 ^ o + (v % 2 ^ width) * 2 ^ o
  let s := homeStore s a0 (leBytes (y % 2 ^ 32) 4)
  if o + width ≤ 32 then s else homeStore s a1 (leBytes (y / 2 ^ 32) 4)

/-- The element code at k within tile t, column c. -/
def elemCode (s : State) (p : Tensor) (t c k : Nat) : Nat := colBits s p t c 0 (k * tensorB p) (tensorB p)

/-- The scale of the block that k lies in. -/
def scaleCode (s : State) (p : Tensor) (t c k : Nat) : Nat := colBits s p t c p.e (8 * (k / 32)) 8

/-- The value of an element code under its block's scale (R79, R80, R206: integer codes are read plainly). -/
def privVal (p : Tensor) (scale code : Nat) : Fv :=
  if p.priv = 5 then e2m1Val scale code
  else if p.priv = 6 then bfpVal p.bw scale code
  else match elemVal p.priv 0 code with
    | some v => v
    | none => .nan

/-- The private format is an integer. -/
def privInt (p : Tensor) : Bool := decide (7 ≤ p.priv)

/-- The value of the element at a linear index. -/
def tensorVal (s : State) (p : Tensor) (i : Nat) : Fv :=
  let (t, c, k) := coordOf p i
  privVal p (if p.sc = 0 then 0 else scaleCode s p t c k) (elemCode s p t c k)

/-- The addresses of the words that the element's block and its scale lie in: of one element where there is no block scale
(R215, R219). -/
def blockWords (p : Tensor) (i : Nat) (whole : Bool) : List Nat :=
  let (t, c, k) := coordOf p i
  let b := tensorB p
  let k0 := if p.sc = 0 || !whole then k else k / 32 * 32
  let n := if p.sc = 0 || !whole then 1 else 32
  let lo := k0 * b / 32
  let hi := (k0 * b + n * b - 1) / 32
  let rows := upFrom lo (hi + 1 - lo) ++ (if p.sc = 0 then [] else [p.e + k / 32 / 4])
  rows.map (fun r => wordAddr p t c r)

/-! Where a tensor's words lie now (R255, R262): each at the page that its VA translates to. -/

/-- A word of a pattern: its address in the pattern's own layout, and the device and address that hold it. -/
structure WcWord where
  at_ : Nat
  dev : Nat
  pa : Nat
deriving DecidableEq, Repr

/-- What the walks of a pattern's words give: their places, a table of another device to read first, a migrating entry, or a word
on a fenced device with its VA. -/
inductive Places where
  | ok (l : List WcWord) | ask (dev sec : Nat) | mig | fenced (va : Nat)
deriving DecidableEq, Repr

/-- The places of a tensor's words, where their VAs translate now (R255, R262). A page that does not translate for another reason
leaves a word where the Fitter put it (log entry 47). -/
def wcPlaces (s : State) (image : Nat) (p : Tensor) : List Nat → Places
  | [] => .ok []
  | a :: r =>
    let va := p.va + (a - p.pa)
    let more := fun (x : WcWord) => match wcPlaces s image p r with
      | .ok l => .ok (x :: l)
      | q => q
    match walk s (rootOf s image) true va with
    | .wait d sec => .ask d sec
    | .mig => .mig
    | .page pg lv _ dev => if isFenced s dev then .fenced va else more { at_ := a, dev := dev, pa := pg + va % pageBytes lv }
    | .bad .deviceFenced => .fenced va
    | .bad _ => more { at_ := a, dev := ownRank s, pa := a }

/-- The other device that holds all the listed words: it performs the operation on them, as one access (R255). -/
def wcHome (s : State) (l : List WcWord) : Option Nat :=
  match l with
  | [] => none
  | x :: r => if isRemote s x.dev && r.all (fun y => y.dev == x.dev) then some x.dev else none

/-- The memory in the pattern's own layout, the listed words as their homes hold them. -/
def wcView (s : State) (l : List WcWord) : State :=
  l.foldl (fun v x =>
    if x.dev = ownRank s && x.pa = x.at_ then v
    else
      let w := match homeData s x.dev (x.pa / 64) with
        | some d => (d >>> (8 * (x.pa % 64))).toNat % 2 ^ 32
        | none => 0
      { v with mem := tstore v.mem x.at_ (leBytes w 4) }) s

/-- The listed words of a changed view written to their homes: here, or, changed ones, to the devices that hold them. `old` is the view
before the change. -/
def wcPut (s old v : State) (l : List WcWord) (cls : Nat) : State :=
  l.foldl (fun s x =>
    if !isRemote s x.dev then homeStore s x.pa (memBytes v x.at_ 4)
    else if memBytes v x.at_ 4 == memBytes old x.at_ 4 then s
    else (sectorWrites x.pa (memBytes v x.at_ 4)).foldl (fun s w => writeBack s x.dev w.1 w.2.1 w.2.2 cls) s)
    { s with images := v.images }

/-- A read of the word's sector gives POISON (R420). -/
def wcBad (s : State) (x : WcWord) : Bool :=
  if isRemote s x.dev then s.farPoison.contains (x.dev, x.pa / 64) || remoteBad s x.dev (x.pa / 64) else secBad s (x.pa / 64)

/-- The checks of the words' sectors here tested (R420). -/
def wcTested (s : State) (l : List WcWord) : State :=
  if s.checks.isEmpty then s else l.foldl (fun s x => if isRemote s x.dev then s else testSec s (x.pa / 64)) s

/-- The VA of the first of these words that is poisoned (R230). -/
def poisonVa (s : State) (p : Tensor) (l : List WcWord) : Nat :=
  match l.find? (wcBad s) with
  | some x => p.va + (x.at_ - p.pa)
  | none => p.va

/-- The first linear index of the block that an index lies in (R222); of a lossy tensor without block scales, 32 elements along K
(log entry 67). -/
def blockFirst (p : Tensor) (i : Nat) : Nat :=
  let k := i / p.ndim
  (k - k % tensorK p % 32) * p.ndim + i % p.ndim

/-- WCLOC's word (R217). -/
def wclocWord (p : Tensor) (i : Nat) (sel : Bool) : Word :=
  let (t, c, k) := coordOf p i
  let b := tensorB p
  if sel && p.sc == 0 then 0xFFFFFFFFFFFFFFFF
  else
    let q := k / 32
    let r := if sel then p.e + q / 4 else k * b / 32
    let off := if sel then 8 * (q % 4) else k * b % 32
    let width := if sel then 8 else b
    BitVec.ofNat 64 (t * (p.e + p.sc) + r + colByte c r * 2 ^ 24 + off * 2 ^ 35 + width * 2 ^ 40)

/-- WCRD's value (R218). -/
def wcrdWord (s : State) (p : Tensor) (i : Nat) : Word :=
  if privInt p then
    let (t, c, k) := coordOf p i
    match intCode p.priv 0 (elemCode s p t c k) with
    | some v => BitVec.ofInt 64 v
    | none => 0
  else (r32 0 (tensorVal s p i)).setWidth 64

/-- Two values are the same value, sign of zero included. -/
def sameVal (x y : Fv) : Bool :=
  match x, y with
  | .nan, .nan => true
  | .inf a, .inf b => a == b
  | .fin a _ _, .fin b _ _ => a == b && feq x y
  | _, _ => false

/-- An element code that no block scale goes with, of a value (R206, R219): RNE, FP8 saturates, an infinity too (log entry 65). -/
def plainCode (p : Tensor) (x : Fv) : Nat :=
  match elemEnc p.priv 0 0 true x with
  | some c => c
  | none => 0

/-- A mantissa code of x under an existing scale, if its rounded magnitude is in range (R219). -/
def underScale (p : Tensor) (scale : Nat) (x : Fv) : Option Nat :=
  match x with
  | .fin g n e =>
    if p.priv = 6 then
      let m := bfpMant 0 p.bw scale x
      if bfpFits p.bw m then some (wrapNat m p.bw) else none
    else
      match froundMag fpE2m1 0 g n (e - ((scale : Int) - 127)) with
      | some _ => some (fenc fpE2m1 0 true (.fin g n (e - ((scale : Int) - 127))))
      | none => none
  | _ => none

/-- A tensor's list of re-encoded blocks with one added (R222). -/
def noteReenc (s : State) (img : Nat) (p : Tensor) (i : Nat) : State :=
  { s with images := s.images.map (fun m => if m.num == img then
      { m with tensors := m.tensors.map (fun q => if q.id == p.id then { q with reenc := insNat (blockFirst p i) q.reenc } else q) }
      else m) }

/-- Element i of a tensor written with x: the state and the status (R219). -/
def tensorWrite (s : State) (img : Nat) (p : Tensor) (i : Nat) (x : Fv) : State × Nat :=
  let (t, c, k) := coordOf p i
  let b := tensorB p
  if p.sc = 0 then
    let code := plainCode p x
    (setColBits s p t c 0 (k * b) b code, if sameVal (privVal p 0 code) x then 1 else 2)
  else
    let old := scaleCode s p t c k
    match (if old = 255 then none else underScale p old x) with
    | some code => (setColBits s p t c 0 (k * b) b code, if sameVal (privVal p old code) x then 1 else 2)
    | none =>
      let k0 := k / 32 * 32
      let vals := (upFrom 0 32).map (fun j =>
        if k0 + j = k then x
        else if old = 255 then .fin false 0 0
        else privVal p old (elemCode s p t c (k0 + j)))
      let (sc, codes) := if p.priv = 6 then bfpEnc 0 p.bw vals else e2m1Enc 0 vals
      let s1 := ((upFrom 0 32).zip codes).foldl (fun s y => setColBits s p t c 0 ((k0 + y.1) * b) b y.2) s
      (noteReenc (setColBits s1 p t c p.e (8 * (k / 32)) 8 sc) img p i, 3)

/-- The value that WCWR writes (R219): FP32 bits for a float tensor, the signed 64-bit value otherwise. -/
def wcwrValue (p : Tensor) (v : Word) : Fv := if privInt p then fOfInt v.toInt else f32 (v.setWidth 32)

/-- Every group that exists: the focused one, those running, those saved. -/
def allGroups (s : State) : List Group :=
  (match s.cur with
    | .thread _ _ => [s.grp]
    | .core _ => [s.grp]
    | _ => []) ++
  s.cores.filterMap (fun c => c.2.grp) ++ s.saved.map (fun x => x.grp)

/-- A sector that a live provenance entry read is held (R248). -/
def heldSec (s : State) (dev sec : Nat) : Bool :=
  (allGroups s).any (fun g => g.prov.any (fun e => !e.live.isEmpty && e.secs.contains (dev, sec)))

/-! A load in flight during a WCWR finds each byte old or new (R220). -/

/-- Bytes of a load that a WCWR has just changed: each that its core would read at home stays old or not, as a free bit says. -/
def tearSrcs (old : State) (c : Core) (as : List Nat) : List ByteSrc → Nat → List ByteSrc × Nat
  | [], n => ([], n)
  | .home d a :: r, n =>
    let hit := d == ownRank old && as.contains a && !(arrGet c d (a / 64)).valid.getLsbD (a % 64)
    let x := tearSrcs old c as r (if hit then n + 1 else n)
    ((if hit && Config.freeBit n then .known (memRead old a) else .home d a) :: x.1, x.2)
  | b :: r, n => let x := tearSrcs old c as r n
    (b :: x.1, x.2)

/-- The results in flight of a thread. -/
def tearPend (old : State) (c : Core) (as : List Nat) : List Pend → Nat → List Pend × Nat
  | [], n => ([], n)
  | e :: r, n =>
    let x := match e.load with
      | some q => let y := tearSrcs old c as q.srcs n
        ({ e with load := some { q with srcs := y.1 } }, y.2)
      | none => (e, n)
    let z := tearPend old c as r x.2
    (x.1 :: z.1, z.2)

/-- The threads of a group. -/
def tearThreads (old : State) (c : Core) (as : List Nat) : Tab Thread → Nat → Tab Thread × Nat
  | [], n => ([], n)
  | t :: r, n =>
    let x := tearPend old c as t.2.pend n
    let z := tearThreads old c as r x.2
    ((t.1, { t.2 with pend := x.1 }) :: z.1, z.2)

/-- The groups of cores. -/
def tearCores (old : State) (as : List Nat) : Tab Core → Nat → Tab Core × Nat
  | [], n => ([], n)
  | c :: r, n =>
    let x := match c.2.grp with
      | some g => let y := tearThreads old c.2 as g.ths n
        ({ c.2 with grp := some { g with ths := y.1 } }, y.2)
      | none => (c.2, n)
    let z := tearCores old as r x.2
    ((c.1, x.1) :: z.1, z.2)

/-- The loads of every other thread torn by a change of home bytes at addresses `as` since `old`. -/
def tearLoads (old s : State) (as : List Nat) : State :=
  let x := tearThreads old s.core as s.grp.ths s.freeCtr
  let y := tearCores old as s.cores x.2
  { s with grp := { s.grp with ths := x.1 }, cores := y.1, freeCtr := y.2 }

/-- WCWR's effect on a block (R219): held sectors, poison, or the write and its status. Words on other devices have been read (log
entry 47). -/
def wcwrAt (s : State) (image : Nat) (p : Tensor) (i : Nat) (x : Fv) (l : List WcWord) (cls : Nat) : Except FaultCode (State × Nat) :=
  if l.any (fun w => heldSec s w.dev (w.pa / 64)) then .ok (s, 0)
  else
    let s := l.foldl (fun s w => cleanLine s w.dev (w.pa / 256) true) s
    if l.any (wcBad s) then .error .poison
    else
      let v := wcView s l
      let r := tensorWrite v image p i x
      let s1 := wcPut s v r.1 l cls
      .ok (tearLoads s s1 ((l.flatMap (fun w => upFrom w.pa 4)).filter (fun a => memRead s a != memRead s1 a)), r.2)

/-- WCRD's and WCWR's own words in their flit to another device, after the operation's common head: PRIV, w, E, S, Kdim, Ndim, KT, base, the
number of words and their addresses (the model's own layout). -/
def wcPayload (p : Tensor) (l : List WcWord) : List Byte :=
  leBytes p.priv 1 ++ leBytes p.bw 1 ++ leBytes p.e 2 ++ leBytes p.sc 1 ++ leBytes p.kdim 8 ++ leBytes p.ndim 8 ++ leBytes p.kt 4 ++
  leBytes p.pa 8 ++ leBytes l.length 1 ++ l.flatMap (fun w => leBytes w.pa 6)

/-- The pattern that such words describe. -/
def wcTensor (d : List Byte) : Tensor :=
  let f := fun (o n : Nat) => leNat ((d.drop o).take n)
  { id := 0, ptype := 0, priv := f 0 1, bw := f 1 1, e := f 2 2, sc := f 4 1, kdim := f 5 8, ndim := f 13 8, kt := f 21 4, va := 0,
    pa := f 25 8, off := 0, reenc := [] }

/-- The words of the element (of its block if `whole`) that they list. -/
def wcListed (s : State) (i : Nat) (whole : Bool) (d : List Byte) : List WcWord :=
  let f := fun (o n : Nat) => leNat ((d.drop o).take n)
  ((blockWords (wcTensor d) i whole).zip (upFrom 0 (f 33 1))).map (fun x =>
    ({ at_ := x.1, dev := ownRank s, pa := f (34 + 6 * x.2) 6 } : WcWord))

/-- A WCWR of another device performed at home (R255): the value and the index stand in the flit's head. -/
def wcwrHome (s : State) (v : Word) (i : Nat) (d : List Byte) : Except FaultCode (State × Nat) :=
  wcwrAt s (2 ^ 16) (wcTensor d) i (wcwrValue (wcTensor d) v) (wcListed s i true d) 0

/-- A WCRD of another device performed at home (R218, R255): the value, or which of the words is poisoned. -/
def wcrdHome (s : State) (i : Nat) (d : List Byte) : Except Nat Word :=
  let l := wcListed s i false d
  if l.any (wcBad s) then .error (l.findIdx (wcBad s)) else .ok (wcrdWord (wcView s l) (wcTensor d) i)

/-- The pattern a portable-coordinate instruction names (R216, R217), or COORD_RANGE. -/
def patternOf (s : State) (st si : Word) : Option Tensor :=
  match imageOf s s.grp.image with
  | none => none
  | some m => match m.tensors.find? (fun p => p.id == st.toNat % 2 ^ 32) with
    | none => none
    | some p => if si.toNat < p.kdim * p.ndim then some p else none

end Sys2Proof.Machine
end

