-- ==== Sys2Proof/Machine/Copy.lean ====
section
/-!
DEFINITION. The CP slot: copies, fills, bank loads, shunts and collectives (R165 to R174, R364 to R374), and what their
completions do. A copy reads memory and writes its destination when COPY_COMPLETION happens, except for scratch
elements that a load has found already landed (R156).
-/
namespace Sys2Proof.Machine
open Sys2Proof

/-! Channels and queues (R165, R170). -/

/-- A channel holds a command. -/
def chanBusy (g : Group) (c : Nat) : Bool := g.ch.any (fun x => x.1 == c)
/-- The commands of a queue, held and running. -/
def queueLen (g : Group) (u : Nat) : Nat := (g.qu.filter (fun x => x.1 == u)).length

/-- Sectors of other devices that sources lie in are asked for (R257). -/
def askAll (s : State) (cls : Nat) (srcs : List ByteSrc) : State :=
  (missSectors s srcs).foldl (fun s x =>
    if (homeData s x.1 x.2).isNone && !isFenced s x.1 then askSector s x.1 x.2 cls else s) s

/-- Sectors of other devices that sources need have not been asked for. -/
def needAsk (s : State) (srcs : List ByteSrc) : Bool :=
  (missSectors s srcs).any (fun x => (homeData s x.1 x.2).isNone && !isFenced s x.1 && !asking s x.1 x.2)

/-- A copy command put into its channel. -/
def copyStart (s : State) (ch : Nat) (c : CopyCmd) : State :=
  let s' := askAll (asReader s (copyTag s ch)) c.cls c.src
  { s' with grp := { s'.grp with ch := tput s'.grp.ch ch c } }

/-- A copy's flag post: PST, K and the count (R364). -/
def postOf (pst : BitVec 1) (k : BitVec 5) (n : Nat) : Option (Nat × Nat) := if pst = 1 then some (k.toNat, n) else none

/-- The command of a copy, before its kind's own fields. -/
def copyCmd (s : State) (op : Nat) (src : List ByteSrc) (dst : List Nat) (post : Option (Nat × Nat)) (cls : Nat) : CopyCmd :=
  { op := op, src := src, dst := dst, bank := none, got := none, landed := [], post := post, cls := cls,
    pos := s.th.pos, th := cxOf s, ring := none, out := [], oh := Handle.init, fen := s.th.fences.length, prov := none }

/-- Steps 8 and 9 of R365 and the tile check of R181 for a copy into scratch addresses. -/
def copyToScratch (s : State) (ch : Nat) (c : CopyCmd) : Out :=
  if chanBusy s.grp ch then .next (stallOn s (8 + ch) .queueFull)
  else if busy s [] (linesOf c.dst) then .next (block s)
  else .next (copyStart s ch c)

/-- The same for a push into ring q: `f` gives the destination addresses from the slot's start. -/
def copyToRing (s : State) (ch q : Nat) (c : CopyCmd) (f : Nat → List Nat) : Out :=
  if chanBusy s.grp ch then .next (stallOn s (8 + ch) .queueFull)
  else if ringIsFull (ringOf s.grp q) then .next (stallOn s q .ringFull)
  else if busy s [] [.slot q (ringOf s.grp q).tail] then .next (block s)
  else
    let r := ringPush s q
    .next (copyStart r.1 ch { c with dst := f (slotAddr (ringOf s.grp q) r.2), ring := some (q, r.2) })

/-- The source bytes of a copy's memory side: the engine never reads the gate (R156). -/
def sideSrcs (m : Side) : List ByteSrc := (sideBytes m).map rawSrc

/-! Copies (R166, R366 to R369). -/

def execCpy (ch : BitVec 2) (hm : BitVec 4) (xm : BitVec 6) (wm : BitVec 3) (tk : BitVec 1) (q : BitVec 3)
    (ht : BitVec 4) (xt : BitVec 6) (wt : BitVec 3) (pst : BitVec 1) (k : BitVec 5) (cnt : BitVec 8) (cls : BitVec 4)
    (p : BitVec 5) (s : State) : Out :=
  if !predOk s.th p then .next s
  else withSide s (side s hm.toNat xm (wReg s.th wm.toNat) memOnly .r) fun s m =>
    let c := copyCmd s 0 (sideSrcs m) [] (postOf pst k cnt.toNat) cls.toNat
    if tk = 1 then
      withSide s (side s ht.toNat xt (wReg s.th wt.toNat) scrOnly .w) fun s t =>
        if sideTotal m != sideTotal t then .next (raise s .formatInvalid 0)
        else copyToScratch s ch.toNat { c with dst := sideScr t }
    else if !ringDeclared s.grp q.toNat then .next (raise s .formatInvalid 0)
    else if (ringOf s.grp q.toNat).bytes < sideTotal m then .next (raise s .formatInvalid 0)
    else copyToRing s ch.toNat q.toNat c (fun a => upFrom a (sideTotal m))

/-- The CPYO bytes that a core holds or is yet to read (R368). -/
def cpyoBytes (s : State) : Nat :=
  (s.grp.ch.filter (fun c => c.2.op == 1)).foldl (fun n c => n + c.2.src.length) 0 +
  (s.th.heldCpyo ++ s.grp.ths.flatMap (fun t => t.2.heldCpyo)).foldl (fun n x => n + x.bytes.length) 0

/-- A CPYO past its checks: its channel, its limit, the tiles it reads. -/
def cpyoStart (s : State) (ch : Nat) (c : CopyCmd) (rd : List Tile) : Out :=
  if chanBusy s.grp ch then .next (stallOn s (8 + ch) .queueFull)
  else if 2 ^ 20 < cpyoBytes s + c.src.length then .next (raise s .gateOverflow 0)
  else if busy s rd [] then .next (block s)
  else .next (copyStart s ch c)

def execCpyo (ch : BitVec 2) (hm : BitVec 4) (xm : BitVec 6) (wm : BitVec 3) (tk : BitVec 1) (q : BitVec 3)
    (ht : BitVec 4) (xt : BitVec 6) (wt : BitVec 3) (pst : BitVec 1) (k : BitVec 5) (cnt : BitVec 8) (cls : BitVec 4)
    (p : BitVec 5) (s : State) : Out :=
  if !predOk s.th p then .next s
  else
    let post := postOf pst k cnt.toNat
    if tk = 1 then
      withSide s (side s ht.toNat xt (wReg s.th wt.toNat) scrOnly .r) fun s t =>
        withSide s (side s hm.toNat xm (wReg s.th wm.toNat) memOnly.atCommit .w) fun s m =>
          if sideTotal m != sideTotal t then .next (raise s .formatInvalid 0)
          else
            let c := copyCmd s 1 (sideSrcs t) [] post cls.toNat
            cpyoStart s ch.toNat { c with out := sideSrcs m, oh := m.h } (linesOf (sideScr t))
    else if !ringDeclared s.grp q.toNat then .next (raise s .formatInvalid 0)
    else withSide s (side s hm.toNat xm (wReg s.th wm.toNat) memOnly.atCommit .w) fun s m =>
      let r := ringOf s.grp q.toNat
      if decide (r.bytes < sideTotal m) || r.filled == 0 then .next (raise s .formatInvalid 0)
      else
        let c := copyCmd s 1 ((upFrom (slotAddr r r.head) (sideTotal m)).map ByteSrc.scratch) [] post cls.toNat
        cpyoStart s ch.toNat { c with out := sideSrcs m, oh := m.h, ring := some (q.toNat, r.head) } [.slot q.toNat r.head]

/-- A contiguous scratch destination of `n` bytes (UNFOLD, XPOSE), or the tail slot of a ring. -/
def copyFlat (s : State) (ch : Nat) (tk : BitVec 1) (q : BitVec 3) (ht : BitVec 4) (xt : BitVec 6) (n : Nat)
    (c : CopyCmd) (f : Nat → List Nat) : Out :=
  if tk = 1 then
    withSide s (sideFlat s ht.toNat xt n scrOnly .w) fun s t =>
      match sideScr t with
      | [] => copyToScratch s ch c
      | a :: _ => copyToScratch s ch { c with dst := f a }
  else if !ringDeclared s.grp q.toNat then .next (raise s .formatInvalid 0)
  else if (ringOf s.grp q.toNat).bytes < n then .next (raise s .formatInvalid 0)
  else copyToRing s ch q.toNat c f

/-- The source side of UNFOLD (R166): for each run of the position walk, the runs of the window walk. -/
def unfoldSide (s : State) (hm : Nat) (xm : BitVec 6) (pos win : BitVec 512) : SideRes :=
  match sideHandle s hm memOnly .r with
  | .bad c a => .bad c a
  | .wait s' => .wait s'
  | .ok s' h =>
    if walkBad pos true || walkBad win false then .bad .formatInvalid 0
    else sideRuns s' h memOnly (sReg s.th xm.toNat).toInt (walkOf win).run
      ((walkOffs (walkOf pos).dims).flatMap (fun o => (walkOffs (walkOf win).dims).map (fun x => o + x)))

def execUnfold (ch : BitVec 2) (hm : BitVec 4) (xm : BitVec 6) (wm : BitVec 3) (tk : BitVec 1) (q : BitVec 3)
    (ht : BitVec 4) (xt : BitVec 6) (wt : BitVec 3) (pst : BitVec 1) (k : BitVec 5) (cnt : BitVec 8) (cls : BitVec 4)
    (p : BitVec 5) (s : State) : Out :=
  if !predOk s.th p then .next s
  else withSide s (unfoldSide s hm.toNat xm (wReg s.th wm.toNat) (wReg s.th wt.toNat)) fun s m =>
    let n := sideTotal m
    copyFlat s ch.toNat tk q ht xt n (copyCmd s 2 (sideSrcs m) [] (postOf pst k cnt.toNat) cls.toNat) (fun a => upFrom a n)

/-- XPOSE's shape (R366): one dimension, A = BOUND0 at most 1024, RUN a multiple of e and at most 4096. -/
def xposeBad (d : BitVec 512) (e : Nat) : Bool :=
  walkBad d false || walkNdim d != 1 || decide (4096 < (walkOf d).run) || (walkOf d).run % e != 0 ||
  (walkOf d).dims.any (fun x => decide (1024 < x.1))

/-- The destination offset of source byte n: element (i, j) of A rows of B elements goes to (j A + i) e (R166). -/
def xposeOff (a run e n : Nat) : Nat :=
  let i := n / run
  let j := n % run / e
  (j * a + i) * e + n % e

/-- XPOSE's source side. -/
def xposeSide (s : State) (hm : Nat) (xm : BitVec 6) (d : BitVec 512) (e : Nat) : SideRes :=
  match sideHandle s hm memOnly .r with
  | .bad c a => .bad c a
  | .wait s' => .wait s'
  | .ok s' h =>
    if xposeBad d e then .bad .formatInvalid 0
    else sideRuns s' h memOnly (sReg s.th xm.toNat).toInt (walkOf d).run (walkOffs (walkOf d).dims)

def execXpose (ch : BitVec 2) (hm : BitVec 4) (xm : BitVec 6) (wm : BitVec 3) (tk : BitVec 1) (q : BitVec 3)
    (ht : BitVec 4) (xt : BitVec 6) (wt : BitVec 3) (pst : BitVec 1) (k : BitVec 5) (cnt : BitVec 8) (cls : BitVec 4)
    (p : BitVec 5) (s : State) : Out :=
  if !predOk s.th p then .next s
  else withSide s (xposeSide s hm.toNat xm (wReg s.th wm.toNat) (2 ^ wt.toNat)) fun s m =>
    let n := sideTotal m
    copyFlat s ch.toNat tk q ht xt n (copyCmd s 4 (sideSrcs m) [] (postOf pst k cnt.toNat) cls.toNat)
      (fun a => (upFrom 0 n).map (fun i => a + xposeOff m.runs.length m.run (2 ^ wt.toNat) i))

/-- FILL (R369): it has no class (16 here); steps 1 to 5 of R365 apply to its destination. -/
def execFill (ch : BitVec 2) (ht : BitVec 4) (xt : BitVec 6) (wt : BitVec 3) (val : BitVec 32) (pst : BitVec 1)
    (k p : BitVec 5) (s : State) : Out :=
  if !predOk s.th p then .next s
  else withSide s (side s ht.toNat xt (wReg s.th wt.toNat) scrOnly.noStep6 .w) fun s t =>
    let dst := sideScr t
    copyToScratch s ch.toNat
      (copyCmd s 3 (dst.map (fun a => .known (val.extractLsb' (8 * (a % 4)) 8))) dst (postOf pst k 1) 16)

/-! Bank loads (R370, R245 to R248). -/

/-- The bank a WLOAD names: the shadow bank, or a physical one. -/
def wloadBank (g : Group) (pb : BitVec 2) : Nat := if pb.getLsbD 1 then pb.toNat % 2 else 1 - g.active

/-- The sectors that sources lie in, without repeats. -/
def srcSectors : List ByteSrc → List (Nat × Nat)
  | [] => []
  | .home d a :: r => let l := srcSectors r
    if l.contains (d, a / 64) then l else (d, a / 64) :: l
  | _ :: r => srcSectors r

/-- A number that no provenance entry of the list has. -/
def provNew (l : List Prov) : Nat := l.foldl (fun n e => max n e.id) 0 + 1

def execWload (ch : BitVec 2) (row : BitVec 13) (pb : BitVec 2) (hs : BitVec 4) (xs : BitVec 6) (ws : BitVec 3)
    (pst : BitVec 1) (k : BitVec 5) (cnt : BitVec 8) (cls : BitVec 4) (p : BitVec 5) (s : State) : Out :=
  if !predOk s.th p then .next s
  else withSide s (side s hs.toNat xs (wReg s.th ws.toNat) memOnly .r) fun s m =>
    let n := sideTotal m
    let b := wloadBank s.grp pb
    if chanBusy s.grp ch.toNat then .next (stallOn s (8 + ch.toNat) .queueFull)
    else if !s.grp.kern.bank then .next (raise s .handlePerm 0)
    else if n % 2048 != 0 then .next (raise s .formatInvalid 0)
    else if 8192 < row.toNat + n / 2048 then .next (raise s .handleBound 0)
    else if b = s.grp.active || b = s.th.ckpt.act then .next (raise s .bankActiveWrite 0)
    else if busy s [] [.bank b] then .next (block s)
    else
      let e : Prov :=
        { id := provNew s.grp.prov, bank := b, cls := cls.toNat, row0 := row.toNat, rows := n / 2048, chk := 0,
          va := wrapNat ((m.h.va : Int) + (sReg s.th xs.toNat).toInt) 64, walk := wReg s.th ws.toNat,
          secs := srcSectors (sideSrcs m), live := upFrom row.toNat (n / 2048) }
      let c := copyCmd s 16 (sideSrcs m) [] (postOf pst k cnt.toNat) cls.toNat
      let s1 : State := { s with grp := { s.grp with prov := s.grp.prov ++ [e] } }
      .next (copyStart s1 ch.toNat { c with bank := some b, prov := some e.id })

/-! Completions (R167). -/

/-- Bytes written into scratch, with their poison (R167): a sector that receives a poisoned byte is poisoned, one
that is wholly rewritten with good bytes is not. -/
def scratchPut (g : Group) (xs : List (Nat × Byte × Bool)) : Group :=
  let g1 := { g with scratch := xs.foldl (fun m x => tset 0 m x.1 x.2.1) g.scratch }
  let secs := xs.foldl (fun l x => insNat (x.1 / 64) l) []
  secs.foldl (fun g sec =>
    let mine := xs.filter (fun x => x.1 / 64 == sec)
    if mine.any (fun x => x.2.2) then { g with badScr := insNat sec g.badScr }
    else if (upFrom (64 * sec) 64).all (fun a => mine.any (fun x => x.1 == a)) then
      { g with badScr := g.badScr.filter (fun x => x != sec) }
    else g) g1

/-- Rows written into a bank (R370), with their poison. -/
def bankPut (g : Group) (b row : Nat) (bs : List Byte) (po : List Bool) : Group :=
  let rows := chunk 2048 bs.length bs
  let bad := chunk 2048 po.length po
  ((upFrom row rows.length).zip (rows.zip bad)).foldl (fun g x =>
    { g with banks := tset [] g.banks b (tset 0 (tget [] g.banks b) x.1 (BitVec.ofNat 16384 (leNat x.2.1))),
             badRows := if x.2.2.any id then (b, x.1) :: g.badRows.filter (fun y => y != (b, x.1))
                        else g.badRows.filter (fun y => y != (b, x.1)) }) g

/-- The provenance list when an entry's rows have been written with bytes of checksum `chk` (R245, R246). -/
def provDone (l : List Prov) (id chk : Nat) : List Prov :=
  match l.find? (fun e => e.id == id) with
  | none => l
  | some n =>
    let cut := fun (e : Prov) =>
      if e.id == id then { e with chk := chk }
      else if e.bank == n.bank then { e with live := e.live.filter (fun r => !(decide (n.row0 ≤ r) && decide (r < n.row0 + n.rows))) }
      else e
    (l.map cut).filter (fun e => !e.live.isEmpty || e.id == id)

/-- The thread in context `cx` of the focused core's group changed, focused or not. -/
def setTh (s : State) (cx : Nat) (f : Thread → Thread) : State :=
  match s.cur with
  | .thread _ c => if c = cx then { s with th := f s.th } else { s with grp := { s.grp with ths := tmod Thread.init s.grp.ths cx f } }
  | _ => { s with grp := { s.grp with ths := tmod Thread.init s.grp.ths cx f } }

/-- Steps 2 to 4 of R167: the ring slot has landed, the flag is added to, the channel is free. -/
def copyFree (s : State) (ch : Nat) (c : CopyCmd) : State :=
  let g := { s.grp with ch := tdel s.grp.ch ch }
  let g := match c.ring with
    | some (q, k) => if c.op = 1 then g else ringLand g q k
    | none => g
  match c.post with
  | none => { s with grp := g }
  | some (k, n) =>
    let s' : State := { s with grp := addFlag g k n }
    if n != 0 && inWindow (thOf s c.th) c.pos then
      setTh s' c.th (fun t => { t with ckpt := { t.ckpt with posts := bump k n t.ckpt.posts } })
    else s'

/-- What a copy delivers: the bytes it has read if it has read, else the bytes as they now stand. -/
def copyBytes (s : State) (ch : Nat) (c : CopyCmd) : Option (List Byte × List Bool) :=
  match c.got with
  | some x => some x
  | none => engineRead s (copyTag s ch) c.src

/-- A reader that has all it read. -/
def readDone (s : State) (tag : List Nat) : State := if s.regs.inset then forget s (fun x => x == tag) else s

/-- A copy may complete: the loads its thread issued before it have performed, as have the reads of earlier copies that its own
follow (R150), and its bytes are at hand or must be asked for again. -/
def copyReady (s : State) (ch : Nat) (c : CopyCmd) : Bool :=
  !loadsAhead s c.th (c.pos, slotCp) (fun _ => true) && !copyLate s c.th c.cls (c.pos, slotCp) &&
  ((copyBytes s ch c).isSome || needAsk (asReader s (copyTag s ch)) c.src)

/-- What completed CPYOs hold, in issue order (R368). -/
def insHeld (x : HeldCopy) : List HeldCopy → List HeldCopy
  | [] => [x]
  | y :: r => if x.pos < y.pos then x :: y :: r else y :: insHeld x r

/-- COPY_COMPLETION of the focused core's channel (R167, R368, R370). -/
def copyDone (s : State) (ch : Nat) : State :=
  match tfind s.grp.ch ch with
  | none => s
  | some c =>
    match copyBytes s ch c with
    | none => askAll (asReader s (copyTag s ch)) c.cls c.src
    | some (bs, po) =>
      let s := readDone (copiesRead (if c.got.isSome then s else tested s c.src) c.th c.cls (c.pos, slotCp)) (copyTag s ch)
      if c.op = 1 then
        let held : HeldCopy := { cls := c.cls, pos := c.pos, out := c.out, oh := c.oh, bytes := bs, bad := po, fen := c.fen }
        copyFree (if c.got.isSome then s else setTh s c.th (fun t => { t with heldCpyo := insHeld held t.heldCpyo })) ch c
      else match c.bank with
        | some b =>
          let e : Option Prov := match c.prov with
            | some i => s.grp.prov.find? (fun e => e.id == i)
            | none => none
          let g := match e with
            | some e => { bankPut s.grp b e.row0 bs po with prov := provDone s.grp.prov e.id (crc32c bs) }
            | none => s.grp
          copyFree { s with grp := g } ch c
        | none =>
          let xs := (c.dst.zip (bs.zip po)).filter (fun x => !c.landed.contains (x.1 / 4))
          copyFree { s with grp := scratchPut s.grp xs } ch c

/-! Status words (R174, R371). -/

/-- A status word. -/
def statWord (u : QStat) (depth : Nat) (run : Bool) : Nat :=
  u.stall % 2 ^ 32 + depth % 32 * 2 ^ 32 + bitAt run 37 + bitAt u.err 38 + u.code % 256 * 2 ^ 39
/-- The status word of unit u: channels 0 to 3, then queues. -/
def unitWord (g : Group) (u : Nat) : Nat :=
  if u < 4 then statWord (tget QStat.init g.chStat u) (if chanBusy g u then 1 else 0) (chanBusy g u)
  else statWord (tget QStat.init g.quStat (u - 4)) (queueLen g (u - 4)) (g.qu.any (fun x => x.1 == u - 4 && !x.2.held))
def execQstat (d : BitVec 6) (u : BitVec 3) (p : BitVec 5) (s : State) : Out :=
  .next (if predOk s.th p then putS s d.toNat (BitVec.ofNat 64 (unitWord s.grp u.toNat)) clsLoad else s)

/-! Domains (R47, R49, R54). -/

/-- The groups of a domain at a level, on this device (R54) or in the whole set (R256). -/
def domGroups (s : State) (level : Nat) : Nat :=
  match level with
  | 0 => 1
  | 1 => 1
  | 2 => 4
  | 3 => 16
  | 4 => 64
  | _ => 64 * (s.regs.ndev + 1)
/-- DOM of thread `thr` of a group, which may be the focused one. -/
def domAt (s : State) (g : Group) (thr : Nat) : Nat :=
  (match s.cur with
    | .thread _ cx => if cx = thr && g.launch == s.grp.launch && g.index == s.grp.index then s.th.dom else (tget Thread.init g.ths thr).dom
    | _ => (tget Thread.init g.ths thr).dom).toNat
/-- The rank that DOM's fields give at a level (R48, R49). -/
def domRank (d level : Nat) : Nat :=
  let t := bitsOf d 3 2 + 1
  let thr := bitsOf d 1 0
  match level with
  | 0 => 0
  | 1 => thr
  | 2 => bitsOf d 5 4 * t + thr
  | 3 => (bitsOf d 7 6 * 4 + bitsOf d 5 4) * t + thr
  | 4 => (bitsOf d 9 8 * 16 + bitsOf d 7 6 * 4 + bitsOf d 5 4) * t + thr
  | _ => (bitsOf d 19 10 * 64 + bitsOf d 9 8 * 16 + bitsOf d 7 6 * 4 + bitsOf d 5 4) * t + thr
/-- A group's rank in its domain at a level (R49, R171): its first thread's, divided by T. -/
def grpRank (s : State) (g : Group) (level : Nat) : Nat := domRank (domAt s g 0) level / (bitsOf (domAt s g 0) 3 2 + 1)
/-- The index of the first group of a group's domain at a level: the domains of a gang are its groups of consecutive index (R47,
R54). -/
def domFirst (s : State) (g : Group) (level : Nat) : Nat := g.index - (g.index - g.planeDom) % domGroups s level

/-! Shunts (R170 to R174, R372 to R374). -/

/-- The counter of CE (R373), or its fault: alignment, the handle, its page. An empty handle has no address whose alignment could
fail. -/
def shuntCtr (s : State) (ce : BitVec 1) (rc : BitVec 6) (hc : BitVec 4) :
    State × Except (FaultCode × Nat) (Option (Nat × Nat × Nat) × Handle) :=
  if ce = 0 then (s, .ok (none, Handle.init))
  else
    let off := (sReg s.th rc.toNat).toInt
    let amt := (sReg s.th (rc.toNat + 1)).toNat
    match useHandle s hc.toNat with
    | .bad c a => (s, .error (c, a))
    | .wait s' => (s', .ok (none, Handle.init))
    | .ok s' h =>
      let ad := wrapNat (addrOf h off) 64
      if h.st == .empty then (s', .error (.handlePerm, 0))
      else if ad % 8 != 0 then (s', .error (.align, ad))
      else if h.space != .memory || !h.w then (s', .error (.handlePerm, 0))
      else match locate s' h off 8 8 .w with
        | .error e => (s', .error e)
        | .ok (.mem d pa, _) => (s', .ok (some (d, pa, amt), h))
        | .ok _ => (s', .error (.handlePerm, 0))

/-- The flag of FE (R373): flag, count, group rank; `none` is FORMAT_INVALID. -/
def shuntFlag (s : State) (fe : BitVec 1) (rc : BitVec 6) : Option (Option (Nat × Nat × Nat)) :=
  if fe = 0 then some none
  else
    let v := (sReg s.th (rc.toNat + 2)).toNat
    let g := v / 2 ^ 32
    if bitsOf v 31 13 != 0 || decide (domGroups s (bitsOf s.th.dom.toNat 22 20) ≤ g) then none
    else some (some (bitsOf v 12 8, bitsOf v 7 0, g))

/-- A shunt past its sides' checks: R373's, then its queue's. -/
def shuntHold (s : State) (qu : BitVec 2) (ce fe : BitVec 1) (rc : BitVec 6) (hc cls : BitVec 4)
    (src dst : List ByteSrc) (hs hd : Handle) (run : Nat) (coll : Option CollOp) : Out :=
  match shuntCtr s ce rc hc with
  | (s, .error (c, a)) => .next (raise s c a)
  | (s, .ok (ctr, hx)) =>
    if ce = 1 && ctr.isNone then .next s
    else match shuntFlag s fe rc with
      | none => .next (raise s .formatInvalid 0)
      | some flag =>
        if 16 ≤ queueLen s.grp qu.toNat then .next (stallOn s (12 + qu.toNat) .queueFull)
        else
          let c : ShuntCmd :=
            { src := src, dst := dst, cls := cls.toNat, ctr := ctr, flag := flag, coll := coll, th := cxOf s, seq := 0,
              held := true, pos := s.th.pos, run := run, sent := false, wait := [], hs := hs, hd := hd, hx := hx, tries := 0, early := [],
              adding := false, bad := false }
          .next { s with grp := { s.grp with qu := s.grp.qu ++ [(qu.toNat, c)] } }

def execShunt (qu : BitVec 2) (hd : BitVec 4) (xd : BitVec 6) (wd : BitVec 3) (hs : BitVec 4) (xs : BitVec 6)
    (ws : BitVec 3) (ce fe : BitVec 1) (rc : BitVec 6) (hc cls : BitVec 4) (p : BitVec 5) (s : State) : Out :=
  if !predOk s.th p then .next s
  else withSide s (side s hs.toNat xs (wReg s.th ws.toNat) memOrScr .r) fun s a =>
    withSide s (side s hd.toNat xd (wReg s.th wd.toNat) memOnly .w) fun s b =>
      if sideTotal a != sideTotal b then .next (raise s .formatInvalid 0)
      else shuntHold s qu ce fe rc hc cls (sideSrcs a) (sideSrcs b) a.h b.h a.run none

/-- A contiguous range of a collective; one of no bytes checks its handle only (R374). -/
def collSide (s : State) (hi : Nat) (x : BitVec 6) (n : Nat) (sp : Spaces) (need : Need) : SideRes :=
  if n = 0 then
    match sideHandle s hi sp need with
    | .bad c a => .bad c a
    | .wait s' => .wait s'
    | .ok s' h => .ok s' { h := h, runs := [], run := 0 }
  else sideFlat s hi x n sp need

/-- The THR of the focused thread (R48). -/
def thrOf (s : State) : Nat := bitsOf s.th.dom.toNat 1 0

/-- A collective of a kind (0 all-reduce, 1 all-gather, 2 reduce-scatter, 3 broadcast) at issue (R374). -/
def shuntc (kind : Nat) (qu : BitVec 2) (lvl : BitVec 3) (ty : BitVec 1) (hd : BitVec 4) (xd : BitVec 6) (hs : BitVec 4)
    (xs rb : BitVec 6) (ce fe : BitVec 1) (rc : BitVec 6) (hc cls : BitVec 4) (p : BitVec 5) (s : State) : Out :=
  if !predOk s.th p then .next s
  else
    let l := lvl.toNat
    let b := bitsOf (sReg s.th rb.toNat).toNat 31 0
    let root := bitsOf (sReg s.th rb.toNat).toNat 63 32
    let n := domGroups s l
    let srcLen := if kind = 2 then 4 * n * b else 4 * b
    let dstLen := if kind = 1 then 4 * n * b else 4 * b
    if decide (bitsOf s.th.dom.toNat 22 20 < l) || decide (5 < l) || thrOf s != 0 then .next (raise s .domainMismatch 0)
    else
      let reads := kind != 3 || grpRank s s.grp l == root
      let src := if reads then collSide s hs.toNat xs srcLen memOrScr.noStep6 .r
        else .ok s { h := Handle.init, runs := [], run := 0 }
      withSide s src fun s x =>
        withSide s (collSide s hd.toNat xd dstLen memOnly.noStep6 .w) fun s y =>
          if n ≤ root then .next (raise s .formatInvalid 0)
          else
            let k := tget 0 s.grp.collN l
            let op : CollOp := { kind := kind, ty := ty.toNat, level := l, seq := k, blocks := b, root := root }
            match shuntHold s qu ce fe rc hc cls (sideSrcs x) (sideSrcs y) x.h y.h srcLen (some op) with
            | .next s' =>
              if s'.grp.qu.length = s.grp.qu.length then .next s'
              else
                let c := s'.th.ckpt
                let c' := if c.coll.any (fun z => z.1 == l) then c else { c with coll := (l, k) :: c.coll }
                .next { s' with grp := { s'.grp with collN := tset 0 s'.grp.collN l (k + 1) }, th := { s'.th with ckpt := c' } }
            | r => r

def execShuntcAllreduce (qu : BitVec 2) (lvl : BitVec 3) (ty : BitVec 1) (hd : BitVec 4) (xd : BitVec 6) (hs : BitVec 4)
    (xs rb : BitVec 6) (ce fe : BitVec 1) (rc : BitVec 6) (hc cls : BitVec 4) (p : BitVec 5) (s : State) : Out :=
  shuntc 0 qu lvl ty hd xd hs xs rb ce fe rc hc cls p s
def execShuntcAllgather (qu : BitVec 2) (lvl : BitVec 3) (ty : BitVec 1) (hd : BitVec 4) (xd : BitVec 6) (hs : BitVec 4)
    (xs rb : BitVec 6) (ce fe : BitVec 1) (rc : BitVec 6) (hc cls : BitVec 4) (p : BitVec 5) (s : State) : Out :=
  shuntc 1 qu lvl ty hd xd hs xs rb ce fe rc hc cls p s
def execShuntcReducescatter (qu : BitVec 2) (lvl : BitVec 3) (ty : BitVec 1) (hd : BitVec 4) (xd : BitVec 6)
    (hs : BitVec 4) (xs rb : BitVec 6) (ce fe : BitVec 1) (rc : BitVec 6) (hc cls : BitVec 4) (p : BitVec 5) (s : State) : Out :=
  shuntc 2 qu lvl ty hd xd hs xs rb ce fe rc hc cls p s
def execShuntcBroadcast (qu : BitVec 2) (lvl : BitVec 3) (ty : BitVec 1) (hd : BitVec 4) (xd : BitVec 6) (hs : BitVec 4)
    (xs rb : BitVec 6) (ce fe : BitVec 1) (rc : BitVec 6) (hc cls : BitVec 4) (p : BitVec 5) (s : State) : Out :=
  shuntc 3 qu lvl ty hd xd hs xs rb ce fe rc hc cls p s

/-- The name of a shunter queue's reads. -/
def shuntTag (s : State) (u : Nat) : List Nat := [3, coOf s, u]

/-- Step 3 of a mark (R23, R170): the focused thread's held shunts start, behind those already running. -/
def startShunts (s : State) : State :=
  let mine := fun (x : Nat × ShuntCmd) => x.2.held && x.2.th == cxOf s
  let q := s.grp.qu.filter (fun x => !mine x) ++
    (s.grp.qu.filter mine).map (fun x => (x.1, { x.2 with held := false }))
  let s' := (s.grp.qu.filter mine).foldl (fun s x => askAll (asReader s (shuntTag s x.1)) x.2.cls x.2.src) s
  { s' with grp := { s'.grp with qu := q } }

/-- The command that runs in a queue: the first that has started. -/
def runningShunt (g : Group) (u : Nat) : Option ShuntCmd :=
  (g.qu.find? (fun x => x.1 == u && !x.2.held)).map (fun x => x.2)

/-- The running command of a queue changed, or removed (`none`). -/
def setShunt (l : List (Nat × ShuntCmd)) (u : Nat) (f : ShuntCmd → Option ShuntCmd) : List (Nat × ShuntCmd) :=
  match l with
  | [] => []
  | x :: r => if x.1 == u && !x.2.held then
      (match f x.2 with
        | some c => (u, c) :: r
        | none => r)
    else x :: setShunt r u f

/-- A shunt's source run by run (R372): a later run reads what the earlier runs have written; `early` are source bytes that it
had taken before a store of its own core to them (R162). -/
def shuntRead (s : State) (run : Nat) (early own : List (ByteSrc × Byte × Bool)) :
    Nat → List ByteSrc → List ByteSrc → List (ByteSrc × Byte × Bool)
  | 0, _, _ => own
  | n + 1, src, dst =>
    if src.isEmpty then own
    else
      let xs : List (Byte × Bool) := (src.take run).map (fun b => match own.find? (fun (y : ByteSrc × Byte × Bool) => y.1 == b) with
        | some y => y.2
        | none => match early.find? (fun (y : ByteSrc × Byte × Bool) => y.1 == b) with
          | some y => y.2
          | none => (takeByte s b, srcPoison s b))
      let new := (dst.take run).zip xs
      shuntRead s run early (new.reverse.map (fun x => (x.1, x.2.1, x.2.2)) ++ own) n (src.drop run) (dst.drop run)

/-- Bytes in transfer order, as masked sector writes: neighbours of one sector go together. -/
def farWrites (xs : List (Nat × Nat × Byte)) : List (Nat × Nat × BitVec 64 × BitVec 512) :=
  (xs.foldl (fun l x =>
    let sec := x.2.1 / 64
    let m : BitVec 64 := BitVec.ofNat 64 (2 ^ (x.2.1 % 64))
    let d : BitVec 512 := BitVec.ofNat 512 (x.2.2.toNat * 2 ^ (8 * (x.2.1 % 64)))
    match l with
    | (dev, s, m', d') :: r => if dev = x.1 && s = sec then (dev, s, m ||| m', mergeBytes m d d') :: r else (x.1, sec, m, d) :: l
    | [] => [(x.1, sec, m, d)]) []).reverse

/-- Bytes written at home in transfer order, sector by sector (R157, R420), with the poison of the sectors they feed (R173): local
bytes at once, those of other devices as write flits, a poisoned sector as a flit of no bytes (R420); the sectors whose
acknowledgement is awaited. The issuing core's own older bytes of the lines go home first and leave its array, so that they
neither come after the shunt's nor hide them (R151, R157). -/
def shuntWrite (s : State) (cls : Nat) (xs : List (ByteSrc × Byte × Bool)) : State × List (Nat × Nat) :=
  let s := (srcLines (xs.map (fun x => x.1))).foldl (fun s x => cleanLine s x.1 x.2 true) s
  let to_ := xs.filterMap (fun x => match x.1 with
    | .home d a => some (d, a, x.2.1, x.2.2)
    | _ => none)
  let put := fun (f : Byte × Bool → Byte) => farWrites (to_.map (fun (x : Nat × Nat × Byte × Bool) => (x.1, x.2.1, f x.2.2)))
  let ws := (put (fun x => x.1)).zip ((put (fun x => if x.2 then 1 else 0)).map (fun w => w.2.2.2 != 0))
  let s1 := ws.foldl (fun s w =>
    if isRemote s w.1.1 then
      sendWrite s w.1.1 w.1.2.1 cls (if w.2 then [] else leBytes w.1.2.2.1.toNat 8 ++ leBytes w.1.2.2.2.toNat 64)
    else
      let t := homeWrite s w.1.2.1 w.1.2.2.1 w.1.2.2.2
      if w.2 then poisonSec t w.1.2.1 else t) s
  (s1, (ws.filter (fun w => isRemote s w.1.1 && !isFenced s w.1.1)).map (fun w => (w.1.1, w.1.2.1)))

/-- A command whose source or destination lies on a fenced device fails (R173). -/
def shuntFenced (s : State) (c : ShuntCmd) : Bool :=
  (c.src ++ c.dst).any (fun x => match x with
    | .home d _ => isFenced s d
    | _ => false)

/-- A group waits here for its start, in a signal box or on a platform. -/
def notStarted (s : State) (launch index : Nat) : Bool :=
  let hit := fun (g : Staged) => g.launch == launch && g.index == index && !g.saved
  s.boxes.any (fun b => b.2.recv.any hit) || s.cores.any (fun c => c.2.plat.any hit) || s.core.plat.any hit

/-- A flag addition reaches its group: the focused one, one running, one saved; an addition for one that has not started here
yet is kept for its start, since no value depends on when a member starts (R256); one for a group that has ended is
discarded (R171). -/
def addFlagTo (s : State) (launch index k n : Nat) : State :=
  let hit := fun (g : Group) => g.launch == launch && g.index == index
  if (match s.cur with
      | .thread _ _ => hit s.grp
      | .core _ => hit s.grp
      | _ => false) then { s with grp := addFlag s.grp k n }
  else if notStarted s launch index then { s with earlyAdds := s.earlyAdds ++ [(launch, index, k, n)] }
  else
    let cores := s.cores.map (fun c => match c.2.grp with
      | some g => if hit g then (c.1, { c.2 with grp := some (addFlag g k n) }) else c
      | none => c)
    let saved := s.saved.map (fun x =>
      if hit x.grp then { x with adds := tset 0 x.adds k (min (tget 0 x.adds k + n) 0xFFFFFFFF) } else x)
    { s with cores := cores, saved := saved }

/-- A failure recorded in a queue's status word, and taken by its thread after its next mark (R173). -/
def shuntFails (s : State) (u : Nat) (th : Nat) (c : FaultCode) (addr : Nat) : State :=
  let q := tmod QStat.init s.grp.quStat u (fun x => { x with err := true, code := faultNum c })
  { s with grp := { s.grp with quStat := q, shuntFail := s.grp.shuntFail ++ [(u, th, c, addr)] } }

/-- The name that a launch has on every device of a set (R256): the launching device's rank, and its number there. -/
def setKey (s : State) (id : Nat) : Nat :=
  match launchOf s id with
  | some l => (match l.remote with
    | some (r, i) => r + 1024 * i
    | none => ownRank s + 1024 * id)
  | none => ownRank s + 1024 * id

/-- This device's number of the launch of that name. -/
def ofKey (s : State) (key : Nat) : Option Nat :=
  if key % 1024 = ownRank s then some (key / 1024)
  else (s.launches.find? (fun l => l.remote == some (key % 1024, key / 1024))).map (fun l => l.id)

/-- The flag increment of a completed command (R171). -/
def shuntFlagged (s : State) (c : ShuntCmd) : State :=
  match c.flag with
  | some (k, n, r) =>
    let lvl := bitsOf (thOf s c.th).dom.toNat 22 20
    let idx := domFirst s s.grp lvl + r
    if lvl = 5 && s.regs.inset && r / 64 != s.regs.rank then
      sendFlit s (r / 64) 9 c.cls 0 (leBytes k 1 ++ leBytes n 1 ++ leBytes (setKey s s.grp.launch) 8 ++ leBytes idx 4)
    else addFlagTo s s.grp.launch idx k n
  | none => s

/-- The command leaves its queue, and its flag increment follows. -/
def shuntLeave (s : State) (u : Nat) (c : ShuntCmd) : State :=
  shuntFlagged { s with grp := { s.grp with qu := setShunt s.grp.qu u (fun _ => none) } } c

/-- Everything a command writes has landed: its counter add, as CTRADD does (R148, R171), then its flag increment. An add at another
device is answered first; the answer names the queue, as 0x8000 + 4 × core + queue. -/
def shuntEnd (s : State) (u : Nat) (c : ShuntCmd) : State :=
  match c.ctr with
  | some (d, pa, amt) =>
    let s := cleanLine s d (pa / 256) true
    if isFenced s d then shuntLeave s u c
    else if isRemote s d then
      let s1 := sendFlit s d 4 c.cls pa ([BitVec.ofNat 8 0, BitVec.ofNat 8 8] ++ leBytes amt 8 ++ leBytes 0 8 ++
        leBytes (0x8000 + 4 * coOf s + u) 2)
      { s1 with grp := { s1.grp with qu := setShunt s1.grp.qu u (fun x => some { x with sent := true, wait := [], adding := true }) } }
    else shuntLeave (addCounter (testSec s (pa / 64)) pa amt) u c
  | none => shuntLeave s u c

/-! Collectives (R172). -/

/-- The fold of one element's values, rank order (R172). -/
def collFold (ty : Nat) : List (BitVec 32) → BitVec 32
  | [] => 0
  | x :: r => r.foldl (fun a b => if ty = 0 then a + b else r32 0 (fadd 0 (f32 a) (f32 b))) x

/-- The participant of a rank, once its whole part has come. -/
def collPartOf (c : Coll) (r : Nat) : Option CollPart := c.parts.find? (fun p => p.rank == r && p.src.length == p.total)

/-- The participants of a collective among `n` ranks: those on devices that had not left the set when it began (R53, R273). -/
def collRanks (c : Coll) (n : Nat) : List Nat := (upFrom 0 n).filter (fun r => !(c.level == 5 && c.out.contains (r / 64)))

/-- The words a participant's destination receives. A gather has zeros in the place of a participant that is no more (log entry 87). -/
def collResult (c : Coll) (n : Nat) (op : CollOp) (me : Nat) : List (BitVec 32) :=
  let src := fun r => match collPartOf c r with
    | some p => p.src
    | none => []
  let ranks := collRanks c n
  match op.kind with
  | 0 => (upFrom 0 op.blocks).map (fun i => collFold op.ty (ranks.map (fun r => nth 0 (src r) i)))
  | 1 => (upFrom 0 n).flatMap (fun r => (upFrom 0 op.blocks).map (nth 0 (if ranks.contains r then src r else [])))
  | 2 => (upFrom 0 op.blocks).map (fun i => collFold op.ty (ranks.map (fun r => nth 0 (src r) (me * op.blocks + i))))
  | _ => (src op.root).take op.blocks

/-- The participants agree on kind, type, B and root (R172, R173). -/
def collAgree (c : Coll) : Bool :=
  match c.parts with
  | [] => true
  | p :: r => r.all (fun q => q.kind == p.kind && q.ty == p.ty && q.blocks == p.blocks && q.root == p.root)

/-- The collective a command takes part in: launch, first group of the domain, level and number. -/
def collIs (c : Coll) (launch dom level n : Nat) : Bool :=
  c.launch == launch && c.dom == dom && c.level == level && c.n == n

/-- The collective of the running command of the focused core's group. -/
def collOf (s : State) (op : CollOp) : Option Coll :=
  s.colls.find? (fun c => collIs c s.grp.launch (domFirst s s.grp op.level) op.level op.seq)

/-- Which words of a participant's result were fed by a poisoned sector (R173). -/
def collPoison (c : Coll) (n : Nat) (op : CollOp) (me : Nat) : List Bool :=
  let po := fun r => match collPartOf c r with
    | some p => p.po
    | none => []
  let ranks := collRanks c n
  match op.kind with
  | 0 => (upFrom 0 op.blocks).map (fun i => ranks.any (fun r => nth false (po r) i))
  | 1 => (upFrom 0 n).flatMap (fun r => (upFrom 0 op.blocks).map (nth false (if ranks.contains r then po r else [])))
  | 2 => (upFrom 0 op.blocks).map (fun i => ranks.any (fun r => nth false (po r) (me * op.blocks + i)))
  | _ => (po op.root).take op.blocks

/-- The words of a byte string. -/
def wordsOf (bs : List Byte) : List (BitVec 32) := (chunk 4 bs.length bs).map (fun w => BitVec.ofNat 32 (leNat w))

/-- A piece of a participant's part added to its part. -/
def partAdd (l : List CollPart) (p : CollPart) : List CollPart :=
  if l.any (fun q => q.rank == p.rank) then
    l.map (fun q => if q.rank == p.rank then { q with src := q.src ++ p.src, po := q.po ++ p.po } else q)
  else l ++ [p]

/-- A participant's part, or a piece of it, added to its collective. -/
def collJoin (s : State) (launch dom level n : Nat) (p : CollPart) : State :=
  if s.colls.any (fun c => collIs c launch dom level n) then
    { s with colls := s.colls.map (fun c => if collIs c launch dom level n then { c with parts := partAdd c.parts p } else c) }
  else { s with colls := s.colls ++ [{ level := level, n := n, dom := dom, launch := launch, parts := [p], receipts := [],
                                       confirmed := false, cut := false,
                                       out := if s.regs.inset then s.regs.fences else [] }] }

end Sys2Proof.Machine
end

