-- ==== Sys2Proof/Machine/Matrix.lean ====
section
/-!
DEFINITION. The MX slot and the matrix engine (R175 to R180, R375 to R381). An operation is checked and captured at
issue, starts in issue order once its tiles are free of copies and shunts, and takes its whole effect at its retirement.
-/
namespace Sys2Proof.Machine
open Sys2Proof

/-! Issue. -/

/-- The metadata word at MPC (R295): `none` beyond the segment's metadata. -/
def metaWord (s : State) : Option Word :=
  if s.th.mpc.toNat + 8 ≤ s.th.seg.mdLen then some (BitVec.ofNat 64 (memNat s (s.th.seg.md + s.th.mpc.toNat) 8)) else none

/-- An MX slot (R175): it consumes its metadata word whether or not its predicate holds; with the predicate true, a
word beyond the section is refused. -/
def mxSlot (s : State) (p : BitVec 5) (k : State → Word → Out) : Out :=
  let s' : State := { s with th := { s.th with mpc := s.th.mpc + 8 } }
  if !predOk s.th p then .next s'
  else match metaWord s with
    | none => .next (raise s' .handleBound 0)
    | some w => k s' w

/-- An operation enters the engine and the thread's open batch (R175, R180). -/
def mxIssue (s : State) (o : MxOp) : State :=
  { s with grp := { s.grp with mx := s.grp.mx ++ [(s.grp.mxSeq, o)], mxSeq := s.grp.mxSeq + 1 },
           th := { s.th with open_ := s.th.open_ ++ [s.grp.mxSeq] } }

/-- An operation as captured at issue. -/
def mxOp (s : State) (i : Instr) (w : Word) : MxOp :=
  { ins := i, fmt := s.th.fmt, meta_ := w, scale := none, slot := 0, dst := [], th := cxOf s, pos := s.th.pos,
    bank := s.grp.active, started := false, bpc := s.th.bpc }

/-- An operation that reads a ring's head slot enters the engine (R375), or there is no filled slot for it. -/
def mxRingRead (s : State) (q : BitVec 3) (o : MxOp) : Out :=
  match ringAssign s.grp q.toNat with
  | none => .next (raise s .formatInvalid 0)
  | some (g, k) => .next (mxIssue { s with grp := g } { o with slot := k })

/-- BFPw's w from FMT (R73). -/
def bfpW (fmt : Word) : Nat := fmtBFPW fmt + 2
/-- FMT.MXW's w where it selects BFPw, else 0. -/
def mxwW (fmt : Word) : Nat := if fmtMXW fmt = 6 then bfpW fmt else 0

/-- The classes of R88. -/
inductive MxClass where
  | half | fp8 | fp8e2m1 | fp8bfp | int
deriving DecidableEq, Repr

/-- The class of an operand combination, or `none` where R88 refuses it. -/
def mxClass (fmt : Word) : Option MxClass :=
  let a := fmtMXA fmt
  let w := fmtMXW fmt
  let c : Option MxClass :=
    if (a == 1 || a == 2) && (w == 1 || w == 2) then some .half
    else if (a == 3 || a == 4) && (w == 3 || w == 4) then some .fp8
    else if (a == 3 || a == 4) && w == 5 then some .fp8e2m1
    else if (a == 3 || a == 4) && w == 6 && (tileShape 6 (bfpW fmt)).isSome then some .fp8bfp
    else if (a == 7 || a == 8) && (w == 7 || w == 8) then some .int
    else none
  if fmtACF fmt = 1 && c != some .int then none else c

/-- The K of a weight format (R176). -/
def mxK (fmt : Word) : Nat := match tileShape (fmtMXW fmt) (mxwW fmt) with
  | some (k, _, _) => k
  | none => 0

/-- The pitch P of an operand row (R177). -/
def mxPitch (fmt : Word) (dep : Nat) : Nat := roundUp ((dep * fmtBits (fmtMXA fmt) 0 + 7) / 8) 64

/-- Selector j of a metadata word (R178): its two indices. -/
def selOf (w : Word) (j : Nat) : Nat × Nat := (bitsOf w.toNat (4 * j + 1) (4 * j), bitsOf w.toNat (4 * j + 3) (4 * j + 2))

/-- Checks 1 to 4 of R376. -/
def mmaBad (s : State) (w : Word) (q : BitVec 3) (ws : BitVec 1) (m0 m k0 dep : Nat) (sparse : Bool) : Bool :=
  let f := s.th.fmt
  let x := tget WSet.none s.grp.wsets ws.toNat
  !x.valid || x.mxw != fmtMXW f || x.bw != mxwW f ||
  (mxClass f).isNone ||
  m == 0 || decide (64 < m0 + m) || dep == 0 || decide ((if sparse then 512 else mxK f) < k0 + dep) ||
  decide ((ringOf s.grp q.toNat).bytes < m * mxPitch f dep) ||
  (sparse && (mxClass f != some .fp8 || dep % 4 != 0 || k0 % 4 != 0 ||
    (upFrom 0 (min 16 (dep / 4))).any (fun j => decide ((selOf w j).2 ≤ (selOf w j).1))))

/-- MMA and MMAS at issue (R376). -/
def mmaIssue (s : State) (i : Instr) (q : BitVec 3) (ws : BitVec 1) (m0 m k0 dep : Nat) (sparse : Bool)
    (p : BitVec 5) : Out :=
  mxSlot s p fun s w =>
    if mmaBad s w q ws m0 m k0 dep sparse || !ringDeclared s.grp q.toNat then .next (raise s .formatInvalid 0)
    else mxRingRead s q (mxOp s i w)

def execMma (acc q : BitVec 3) (ws : BitVec 1) (m0 : BitVec 6) (m : BitVec 7) (k0 : BitVec 10) (dep : BitVec 11)
    (p : BitVec 5) (s : State) : Out :=
  mmaIssue s (.mma acc q ws m0 m k0 dep p) q ws m0.toNat m.toNat k0.toNat dep.toNat false p
def execMmas (acc q : BitVec 3) (ws : BitVec 1) (m0 : BitVec 6) (m : BitVec 7) (k0 : BitVec 10) (dep : BitVec 11)
    (p : BitVec 5) (s : State) : Out :=
  mmaIssue s (.mmas acc q ws m0 m k0 dep p) q ws m0.toNat m.toNat k0.toNat dep.toNat true p

/-- WTILE (R377): the set records its format at issue; its rows come at the retirement. -/
def execWtile (ws : BitVec 1) (row : BitVec 13) (p : BitVec 5) (s : State) : Out :=
  mxSlot s p fun s w =>
    let f := s.th.fmt
    if !s.grp.kern.bank then .next (raise s .handlePerm 0)
    else match tileShape (fmtMXW f) (mxwW f) with
      | none => .next (raise s .formatInvalid 0)
      | some (_, e, sc) =>
        if 8192 < row.toNat + e + sc then .next (raise s .handleBound 0)
        else
          let old := tget WSet.none s.grp.wsets ws.toNat
          let c := s.th.ckpt
          let c' := if c.ws.any (fun x => x.1 == ws.toNat) then c else { c with ws := (ws.toNat, { old with rows := [] }, false) :: c.ws }
          let x : WSet := { old with valid := true, bank := s.grp.active, row := row.toNat, mxw := fmtMXW f, bw := mxwW f }
          let s' : State := { s with grp := { s.grp with wsets := tset WSet.none s.grp.wsets ws.toNat x }, th := { s.th with ckpt := c' } }
          .next (mxIssue s' (mxOp s (.wtile ws row p) w))

/-- WSWAP (R125): operations issued later see the exchanged roles; the engine orders the exchange. -/
def execWswap (p : BitVec 5) (s : State) : Out :=
  mxSlot s p fun s w =>
    if !s.grp.kern.bank then .next (raise s .handlePerm 0)
    else
      let c := s.th.ckpt
      let c' := if c.bank.isSome then c else { c with bank := some s.grp.active }
      .next (mxIssue { s with grp := { s.grp with active := 1 - s.grp.active }, th := { s.th with ckpt := c' } }
        (mxOp s (.wswap p) w))

/-- MCOMMIT (R180): the open batch is closed under the tag. -/
def execMcommit (tag : BitVec 3) (p : BitVec 5) (s : State) : Out :=
  mxSlot s p fun s _ =>
    let live := s.th.open_.filter (fun q => s.grp.mx.any (fun o => o.1 == q))
    .next { s with th := { s.th with batches := s.th.batches ++ [(tag.toNat, live)], open_ := [] } }

/-- The rows of an accumulator operation are refused (R379, R380). -/
def rowsBad (m0 m : Nat) : Bool := m == 0 || decide (64 < m0 + m)

def execAccz (acc : BitVec 3) (m0 : BitVec 6) (m : BitVec 7) (p : BitVec 5) (s : State) : Out :=
  mxSlot s p fun s w =>
    if rowsBad m0.toNat m.toNat then .next (raise s .formatInvalid 0)
    else .next (mxIssue s (mxOp s (.accz acc m0 m p) w))

def execAccwr (acc q : BitVec 3) (m0 : BitVec 6) (m : BitVec 7) (p : BitVec 5) (s : State) : Out :=
  mxSlot s p fun s w =>
    if rowsBad m0.toNat m.toNat || !ringDeclared s.grp q.toNat || decide ((ringOf s.grp q.toNat).bytes < m.toNat * 2048) then
      .next (raise s .formatInvalid 0)
    else mxRingRead s q (mxOp s (.accwr acc q m0 m p) w)

def execRpop (q : BitVec 3) (p : BitVec 5) (s : State) : Out :=
  mxSlot s p fun s w =>
    if !ringDeclared s.grp q.toNat then .next (raise s .formatInvalid 0)
    else mxRingRead s q (mxOp s (.rpop q p) w)

/-- The stride T of a row read out in a format (R381). -/
def rowStride (cv w : Nat) : Nat :=
  if cv = 5 then 320 else if cv = 6 then 64 * (w + 1) else 64 * fmtBits cv 0
/-- Registers that a row of 32 columns takes (R381). -/
def rowRegs (cv : Nat) : Nat := if cv = 0 || cv = 12 then 2 else 1

def execAccrd (acc q : BitVec 3) (dk : BitVec 2) (m0 : BitVec 6) (m : BitVec 7) (cv ht : BitVec 4) (xt rs : BitVec 6)
    (vb p : BitVec 5) (s : State) : Out :=
  mxSlot s p fun s w =>
    let f := s.th.fmt
    let t := rowStride cv.toNat (bfpW f)
    let o0 := mxOp s (.accrd acc q dk m0 m cv ht xt rs vb p) w
    let o := if rs = 0 then o0 else { o0 with scale := some ((sReg s.th rs.toNat).setWidth 32) }
    if rowsBad m0.toNat m.toNat || decide (12 < cv.toNat) || (cv == 6 && fmtBFPW f == 7) ||
       (dk == 2 && (cv == 5 || cv == 6)) then .next (raise s .formatInvalid 0)
    else if dk = 0 then
      if !ringDeclared s.grp q.toNat || decide ((ringOf s.grp q.toNat).bytes < m.toNat * t) then .next (raise s .formatInvalid 0)
      else if ringIsFull (ringOf s.grp q.toNat) then .next (stallOn s q.toNat .ringFull)
      else
        let r := ringPush s q.toNat
        .next (mxIssue r.1 { o with slot := r.2, dst := upFrom (slotAddr (ringOf s.grp q.toNat) r.2) (m.toNat * t) })
    else if dk = 1 then
      withSide s (sideFlat s ht.toNat xt (m.toNat * t) scrOnly.noStep6 .w) fun s' x => .next (mxIssue s' { o with dst := sideScr x })
    else if 31 < vb.toNat + rowRegs cv.toNat * m.toNat - 1 then .next (raise s .formatInvalid 0)
    else .next (mxIssue s o)

/-! What an operation computes. -/

/-- Column c's word in a tile row (R215). -/
def tileWord (rows : List (BitVec 16384)) (c r : Nat) : Nat :=
  match rows.drop r with
  | x :: _ => (x.extractLsb' (8 * colByte c r) 32).toNat
  | [] => 0
/-- `n` bits at bit `pos` of column c's string from tile row `r0` (R215). -/
def tileBits (rows : List (BitVec 16384)) (c r0 pos n : Nat) : Nat :=
  ((tileWord rows c (r0 + pos / 32) + 2 ^ 32 * tileWord rows c (r0 + pos / 32 + 1)) >>> (pos % 32)) % 2 ^ n

/-- The weight at (k, n) of a tile under a FMT (R79, R80, R84); `none` is FORMAT_INVALID. -/
def tileVal (fmt : Word) (rows : List (BitVec 16384)) (k n : Nat) : Option Fv :=
  let c := fmtMXW fmt
  let w := mxwW fmt
  match tileShape c w with
  | none => none
  | some (_, e, _) =>
    let b := fmtBits c w
    let code := tileBits rows n 0 (k * b) b
    let sc := tileBits rows n e (8 * (k / 32)) 8
    if c = 5 then some (e2m1Val sc code)
    else if c = 6 then some (bfpVal w sc code)
    else elemVal c (fmtRSUB fmt) code

/-- Element j of an operand row that starts at scratch address a. -/
def operandVal (g : Group) (fmt : Word) (a j : Nat) : Option Fv :=
  let b := fmtBits (fmtMXA fmt) 0 / 8
  elemVal (fmtMXA fmt) (fmtRSUB fmt) (leNat (tbytes g.scratch (a + j * b) b))

/-- The weight row that position j of an operation pairs with (R89, R178): `none` where it forms no product. -/
def pairRow (sparse : Bool) (w : Word) (k0 j : Nat) : Option Nat :=
  if !sparse then some (k0 + j)
  else
    let g := j / 4
    let sel := selOf w (g % 16)
    if j % 4 = sel.1 then some (2 * g + k0 / 2) else if j % 4 = sel.2 then some (2 * g + 1 + k0 / 2) else none

/-- The products of positions j upwards, `c` of them (R89). -/
def chunkTerms (fmt : Word) (wrow arow : Nat → Option Fv) (sparse : Bool) (w : Word) (k0 j : Nat) : Nat → Option (List Fv)
  | 0 => some []
  | c + 1 => match pairRow sparse w k0 j with
    | none => chunkTerms fmt wrow arow sparse w k0 (j + 1) c
    | some k => match arow j, wrow k, chunkTerms fmt wrow arow sparse w k0 (j + 1) c with
      | some x, some y, some r => some (fmulInt (mxClass fmt == some .int) x y :: r)
      | _, _, _ => none

/-- An integer value. -/
def fvInt : Fv → Int
  | .fin s n e => if s then -((n * 2 ^ e.toNat : Nat) : Int) else ((n * 2 ^ e.toNat : Nat) : Int)
  | _ => 0

/-- One chunk added to an accumulator element (R89, R90). -/
def accAdd (fmt : Word) (a : BitVec 32) (ts : List Fv) : BitVec 32 :=
  if fmtACF fmt = 1 then BitVec.ofInt 32 (satInt true 32 (a.toInt + fvInt (fsum 0 ts)))
  else r32 0 (fadd 0 (f32 a) (f32 (r32 0 (fsum 0 ts))))

/-- The chunks of one element from position j on (R89); `none` is FORMAT_INVALID. -/
def accChunks (fmt : Word) (wrow arow : Nat → Option Fv) (sparse : Bool) (w : Word) (k0 dep : Nat) (a : BitVec 32)
    (j : Nat) : Nat → Option (BitVec 32)
  | 0 => some a
  | f + 1 =>
    if dep ≤ j then some a
    else match chunkTerms fmt wrow arow sparse w k0 j (min 32 (dep - j)) with
      | none => none
      | some ts => accChunks fmt wrow arow sparse w k0 dep (accAdd fmt a ts) (j + 32) f

/-- An accumulator's element (R89): row m, column n. -/
def accGet (a : Tab (BitVec 32)) (m n : Nat) : BitVec 32 := tget 0 a (512 * m + n)

/-- An accumulator with row `m` rewritten by a function of the column; `none` when one element has no value. -/
def accRow (f : Nat → Option (BitVec 32)) (m : Nat) (a : Tab (BitVec 32)) : Option (Tab (BitVec 32)) :=
  (upFrom 0 512).foldl (fun a n => match a, f n with
    | some a, some x => some (tset 0 a (512 * m + n) x)
    | _, _ => none) (some a)

/-- An accumulator with rows m0 on rewritten by a function of row index and column. -/
def accRows (f : Nat → Nat → Option (BitVec 32)) (m0 m : Nat) (a : Tab (BitVec 32)) : Option (Tab (BitVec 32)) :=
  (upFrom 0 m).foldl (fun a i => match a with
    | some a => accRow (f i) (m0 + i) a
    | none => none) (some a)

/-- An MMA's update of its accumulator (R89, R90, R178); the slot starts at scratch address `base`. -/
def mmaRun (g : Group) (o : MxOp) (base : Nat) (rows : List (BitVec 16384)) (m0 m k0 dep : Nat) (sparse : Bool)
    (a : Tab (BitVec 32)) : Option (Tab (BitVec 32)) :=
  accRows (fun i n =>
    accChunks o.fmt (fun k => tileVal o.fmt rows k n) (operandVal g o.fmt (base + i * mxPitch o.fmt dep)) sparse
      o.meta_ k0 dep (accGet a (m0 + i) n) 0 64) m0 m a

/-- The scratch bytes an operation reads are poisoned. -/
def scrBad (g : Group) (as : List Nat) : Bool := as.any (fun a => g.badScr.contains (a / 64))

/-- The bytes of an MMA's operand rows that it reads (R376). -/
def mmaReads (o : MxOp) (base m dep : Nat) : List Nat :=
  (upFrom 0 m).flatMap (fun i => upFrom (base + i * mxPitch o.fmt dep) ((dep * fmtBits (fmtMXA o.fmt) 0 + 7) / 8))

/-- The value of an accumulator element as an ACCRD reads it (R380). -/
def readVal (o : MxOp) (x : BitVec 32) : Fv :=
  let v := if fmtACF o.fmt = 1 then fOfInt x.toInt else f32 x
  match o.scale with
  | some y => fmul v (f32 y)
  | none => v

/-- Codes of `b` bits packed little-endian into `n` bytes. -/
def packBits (b : Nat) (cs : List Nat) (n : Nat) : List Byte :=
  leBytes ((cs.zip (upFrom 0 cs.length)).foldl (fun x y => x + (y.1 % 2 ^ b) * 2 ^ (b * y.2)) 0) n

/-- One element's code (R380): bits pass unchanged where the format is the accumulator's own and nothing scales. -/
def readCode (o : MxOp) (cv : Nat) (x : BitVec 32) : Nat :=
  if o.scale.isNone && ((cv == 0 && fmtACF o.fmt == 0) || (cv == 12 && fmtACF o.fmt == 1)) then x.toNat
  else match elemEnc cv (fmtRM o.fmt) (fmtRSUB o.fmt) (fmtSAT o.fmt) (readVal o x) with
    | some c => c
    | none => 0

/-- A block image (R81). -/
def blockImage (o : MxOp) (cv : Nat) (vs : List Fv) : List Byte :=
  if cv = 5 then let r := e2m1Enc (fmtRM o.fmt) vs
    BitVec.ofNat 8 r.1 :: packBits 4 r.2 16
  else let r := bfpEnc (fmtRM o.fmt) (bfpW o.fmt) vs
    BitVec.ofNat 8 r.1 :: packBits (bfpW o.fmt) r.2 (4 * bfpW o.fmt)

/-- The bytes of columns n0 on, `n` of them, of an accumulator row in a format (R380, R381). -/
def readRow (o : MxOp) (cv : Nat) (a : Tab (BitVec 32)) (m n0 n : Nat) : List Byte :=
  if cv = 5 || cv = 6 then
    (upFrom 0 (n / 32)).flatMap (fun b => blockImage o cv ((upFrom (n0 + 32 * b) 32).map (fun c => readVal o (accGet a m c))))
  else
    let b := fmtBits cv 0
    packBits b ((upFrom n0 n).map (fun c => readCode o cv (accGet a m c))) (n * b / 8)

/-- Bytes extended with zeros to a length. -/
def padTo (n : Nat) (bs : List Byte) : List Byte := bs ++ List.replicate (n - bs.length) 0

/-! Retirement. -/

/-- A fault that arises while an operation runs (R375): recognised at its thread, at the operation's position. -/
def mxFault (s : State) (o : MxOp) (c : FaultCode) : State :=
  setTh s o.th (fun t => raiseTh t { code := c, pos := o.pos, slot := 5, addr := 0, gate := 0, fq := 0, bpc := o.bpc })

/-- A slot popped by an operation of a thread (R114): a rollback of its window pushes it back (R168). -/
def mxPop (s : State) (o : MxOp) (q : Nat) : State :=
  let s' : State := { s with grp := ringPop s.grp q }
  if inWindow (thOf s o.th) o.pos then
    setTh s' o.th (fun t => { t with ckpt := { t.ckpt with pops := bump q 1 t.ckpt.pops } })
  else s'

/-- An accumulator written by an operation: copied aside at its window's first write to it (R168). -/
def mxAcc (s : State) (o : MxOp) (i : Nat) (a : Tab (BitVec 32)) : State :=
  let old := tget [] s.grp.acc i
  let s' : State := { s with grp := { s.grp with acc := tset [] s.grp.acc i a } }
  if inWindow (thOf s o.th) o.pos then
    setTh s' o.th (fun t => if t.ckpt.acc.any (fun x => x.1 == i) then t
      else { t with ckpt := { t.ckpt with acc := (i, old) :: t.ckpt.acc } })
  else s'

/-- MMA and MMAS at retirement. -/
def mmaRetire (s : State) (o : MxOp) (acc q : BitVec 3) (ws : BitVec 1) (m0 m k0 dep : Nat) (sparse : Bool) : State :=
  let base := slotAddr (ringOf s.grp q.toNat) o.slot
  let x := tget WSet.none s.grp.wsets ws.toNat
  let s1 := if scrBad s.grp (mmaReads o base m dep) then mxFault s o .poison
    else match mmaRun s.grp o base x.rows m0 m k0 dep sparse (tget [] s.grp.acc acc.toNat) with
      | some a => mxAcc s o acc.toNat a
      | none => mxFault s o .formatInvalid
  mxPop s1 o q.toNat

/-- WTILE at retirement (R176, R370): the set takes its rows; poisoned rows raise POISON. -/
def wtileRetire (s : State) (o : MxOp) (ws : BitVec 1) (row : BitVec 13) : State :=
  match tileShape (fmtMXW o.fmt) (mxwW o.fmt) with
  | none => s
  | some (_, e, sc) =>
    let old := tget WSet.none s.grp.wsets ws.toNat
    let bank := tget [] s.grp.banks o.bank
    let rows := (upFrom row.toNat (e + sc)).map (fun r => tget 0 bank r)
    let s1 : State := { s with grp := { s.grp with wsets := tset WSet.none s.grp.wsets ws.toNat { old with rows := rows } } }
    let s2 := setTh s1 o.th (fun t => if !inWindow t o.pos then t else
      { t with ckpt := { t.ckpt with ws := t.ckpt.ws.map (fun x =>
        if x.1 == ws.toNat && !x.2.2 then (x.1, { x.2.1 with rows := old.rows }, true) else x) } })
    if (upFrom row.toNat (e + sc)).any (fun r => s.grp.badRows.contains (o.bank, r)) then mxFault s2 o .poison else s2

/-- ACCWR at retirement (R379). -/
def accwrRetire (s : State) (o : MxOp) (acc q : BitVec 3) (m0 m : Nat) : State :=
  let base := slotAddr (ringOf s.grp q.toNat) o.slot
  let s1 := if scrBad s.grp (upFrom base (m * 2048)) then mxFault s o .poison
    else match accRows (fun i n => some (BitVec.ofNat 32 (leNat (tbytes s.grp.scratch (base + 2048 * i + 4 * n) 4)))) m0 m
        (tget [] s.grp.acc acc.toNat) with
      | some a => mxAcc s o acc.toNat a
      | none => s
  mxPop s1 o q.toNat

/-- ACCRD at retirement (R380, R381): a ring slot, scratch, or vector registers of the issuing thread. -/
def accrdRetire (s : State) (o : MxOp) (acc q : BitVec 3) (dk : BitVec 2) (m0 m cv nb cl vb : Nat) : State :=
  let a := tget [] s.grp.acc acc.toNat
  if dk = 2 then
    let w := rowRegs cv
    let regs := (upFrom 0 m).flatMap (fun i =>
      let x := leNat (padTo (64 * w) (readRow o cv a (m0 + i) (32 * nb) 32))
      (upFrom 0 w).map (fun j => (32 * cl + vb + w * i + j, BitVec.ofNat 512 (x / 2 ^ (512 * j)))))
    let put := fun (v : Tab VReg) => regs.foldl (fun v x => tset 0 v x.1 x.2) v
    setTh s o.th (fun t =>
      let t' := { t with v := put t.v }
      if inWindow t o.pos then t' else { t' with ckpt := { t'.ckpt with v := put t'.ckpt.v } })
  else
    let t := rowStride cv (bfpW o.fmt)
    let bs := (upFrom 0 m).flatMap (fun i => padTo t (readRow o cv a (m0 + i) 0 512))
    let g := scratchPut s.grp (o.dst.zip (bs.map (fun b => (b, false))))
    { s with grp := if dk = 0 then ringLand g q.toNat o.slot else g }

/-- What an operation does when it retires. -/
def mxPerform (s : State) (o : MxOp) : State :=
  match o.ins with
  | .mma acc q ws m0 m k0 dep _ => mmaRetire s o acc q ws m0.toNat m.toNat k0.toNat dep.toNat false
  | .mmas acc q ws m0 m k0 dep _ => mmaRetire s o acc q ws m0.toNat m.toNat k0.toNat dep.toNat true
  | .wtile ws row _ => wtileRetire s o ws row
  | .accz acc m0 m _ => match accRows (fun _ _ => some 0) m0.toNat m.toNat (tget [] s.grp.acc acc.toNat) with
    | some a => mxAcc s o acc.toNat a
    | none => s
  | .accwr acc q m0 m _ => accwrRetire s o acc q m0.toNat m.toNat
  | .accrd acc q dk m0 m cv ht xt _ vb _ => accrdRetire s o acc q dk m0.toNat m.toNat cv.toNat ht.toNat (xt.toNat % 8) vb.toNat
  | .rpop q _ => mxPop s o q.toNat
  | _ => s

/-- An operation that writes scratch (R380): its write performs after the loads before it in its thread (R150). -/
def mxStores (o : MxOp) : Bool :=
  match o.ins with
  | .accrd _ _ dk .. => dk != 2
  | _ => false

/-- The engine may start its next operation (R175, R181): none runs, its tiles are free of copies and shunts, and what performs
before a write of it has performed (R150). -/
def mxReady (s : State) : Bool :=
  match s.grp.mx with
  | (_, o) :: _ => !o.started && !(flights s.grp false (fun _ _ => false)).any (conflicts (mxTiles o).1 (mxTiles o).2) &&
      !(mxStores o && loadsAhead s o.th (o.pos, slotMx) (fun _ => true))
  | [] => false

/-- MX_OPERATION_START of the focused core. -/
def mxStart (s : State) : State :=
  match s.grp.mx with
  | (q, o) :: r => if mxReady s then { s with grp := { s.grp with mx := (q, { o with started := true }) :: r } } else s
  | [] => s

/-- MX_OPERATION_RETIRE of the focused core. -/
def mxRetire (s : State) : State :=
  match s.grp.mx with
  | (_, o) :: r => if o.started then mxPerform { s with grp := { s.grp with mx := r } } o else s
  | [] => s

end Sys2Proof.Machine
end

