-- ==== Sys2Proof/Machine/Focus.lean ====
section
/-!
DEFINITION. Focusing a core or a thread (the focused objects are then absent from the tables that hold them), and
acting on the array of a core or on every running group.
-/
namespace Sys2Proof.Machine
open Sys2Proof

/-- Core `co`, when nothing is focused. -/
def coreAt (s : State) (co : Nat) : Core := tget Core.init s.cores co

/-- Core `co` replaced. -/
def setCore (s : State) (co : Nat) (c : Core) : State := { s with cores := tset Core.init s.cores co c }

/-- The group that core `co` runs. -/
def groupAt (s : State) (co : Nat) : Option Group := (coreAt s co).grp

/-- The group on core `co` replaced. -/
def setGroup (s : State) (co : Nat) (g : Option Group) : State := setCore s co { coreAt s co with grp := g }

/-- Core `co` focused with its group; unchanged when it has none or something is focused already. -/
def focusCore (s : State) (co : Nat) : State :=
  match s.cur, groupAt s co with
  | .none, some g => { s with cur := .core co, grp := g, core := { coreAt s co with grp := none }, cores := tdel s.cores co }
  | _, _ => s

/-- The thread in context `cx` of the focused core focused too. -/
def focusCx (s : State) (cx : Nat) : State :=
  match s.cur with
  | .core co => { s with cur := .thread co cx, th := tget Thread.init s.grp.ths cx, grp := { s.grp with ths := tdel s.grp.ths cx } }
  | _ => s

/-- The focused thread put back into its group. -/
def unfocusCx (s : State) : State :=
  match s.cur with
  | .thread co cx => { s with cur := .core co, th := Thread.init, grp := { s.grp with ths := tset Thread.init s.grp.ths cx s.th } }
  | _ => s

/-- Nothing focused: everything back in its table. -/
def unfocus (s : State) : State :=
  let s := unfocusCx s
  match s.cur with
  | .core co => { s with cur := .none, grp := Group.init, core := Core.init, cores := tset Core.init s.cores co { s.core with grp := some s.grp } }
  | .ballast bc => { s with cur := .none, bi := BInst.none, bcores := tset BInst.none s.bcores bc s.bi }
  | _ => s

/-- A thread of a core focused. -/
def focusTh (s : State) (co cx : Nat) : State := focusCx (focusCore s co) cx

/-- A ballast core focused. -/
def focusBallast (s : State) (bc : Nat) : State :=
  match s.cur with
  | .none => { s with cur := .ballast bc, bi := tget BInst.none s.bcores bc, bcores := tdel s.bcores bc }
  | _ => s

/-- Is there a thread in context `cx` of core `co`? -/
def threadIs (s : State) (co cx : Nat) : Bool :=
  match groupAt s co with
  | some g => decide (cx < g.kern.threads)
  | none => false

/-- An event on a core with a group: `f` runs with the core focused. -/
def onCore (s : State) (co : Nat) (f : State → State) : State :=
  match s.cur, groupAt s co with
  | .none, some _ => unfocus (f (focusCore s co))
  | _, _ => s

/-- An event on a thread: `f` runs with the thread focused. -/
def onTh (s : State) (co cx : Nat) (f : State → State) : State :=
  match s.cur with
  | .none => if threadIs s co cx then unfocus (f (focusTh s co cx)) else s
  | _ => s

/-- `f` runs on core `co`'s array, whether or not the core has a group. -/
def onArray (s : State) (co : Nat) (f : State → State) : State :=
  let r := f { s with core := coreAt s co }
  { setCore r co r.core with core := s.core }

/-- The numbers of the cores that run a group which satisfies `p`. -/
def coresWhere (s : State) (p : Group → Bool) : List Nat :=
  s.cores.filterMap (fun c => match c.2.grp with
    | some g => if p g then some c.1 else none
    | none => none)

/-- Every running group changed. -/
def mapGroups (s : State) (f : Group → Group) : State :=
  { s with cores := s.cores.map (fun c => (c.1, { c.2 with grp := c.2.grp.map f })) }

/-- Every thread of a group changed. -/
def mapThreads (g : Group) (f : Nat → Thread → Thread) : Group :=
  { g with ths := (upFrom 0 g.kern.threads).foldl (fun t i => tset Thread.init t i (f i (tget Thread.init g.ths i))) g.ths }

/-- Thread i of a group. -/
def thAt (g : Group) (i : Nat) : Thread := tget Thread.init g.ths i

/-- Every thread of a group satisfies `p`. -/
def allThreads (g : Group) (p : Thread → Bool) : Bool := (upFrom 0 g.kern.threads).all (fun i => p (thAt g i))

/-- Two groups are of one gang (R54): of one launch, with the same first group. -/
def sameGang (a b : Group) : Bool := a.launch == b.launch && a.planeDom == b.planeDom

end Sys2Proof.Machine
end

