-- ==== Sys2Proof/Machine/Shunt.lean ====
section
/-!
DEFINITION. The completion of shunts and collectives (R157, R171 to R173, R268, R269). The running command of a queue
first reads its source and writes its destination (or supplies its part of a collective); it completes when what it
wrote to other devices has been acknowledged.
-/
namespace Sys2Proof.Machine
open Sys2Proof

/-- The sectors of other devices that sources need are at hand, or lie on a fenced device. -/
def srcReady (s : State) (srcs : List ByteSrc) : Bool :=
  !(missSectors s srcs).any (fun x => (homeData s x.1 x.2).isNone && !isFenced s x.1)

/-- A copy or tile load in flight writes a scratch line that the sources lie in (R181). -/
def srcWritten (s : State) (srcs : List ByteSrc) : Bool :=
  let ls := linesOf (srcScr srcs)
  (s.grp.ch.map (fun (x : Nat × CopyCmd) => copyTiles x.2) ++ s.grp.tld.map (fun c => ([], tldTiles c))).any (conflicts ls [])

/-- The participant that the focused group is in the collective of a command (its rank there). -/
def collMe (s : State) (op : CollOp) : Nat := grpRank s s.grp op.level

/-- The command has supplied its part. -/
def collSupplied (s : State) (op : CollOp) : Bool :=
  match collOf s op with
  | some c => (collPartOf c (collMe s op)).isSome
  | none => false

/-- How many participants a collective still waits for. -/
def collMissing (c : Coll) (n : Nat) : Nat :=
  ((collRanks c n).filter (fun r => (collPartOf c r).isNone)).length

/-- The collective crosses devices inside an enclave (R269). -/
def collEncl (s : State) (op : CollOp) : Bool := s.regs.encl && s.regs.inset && op.level == 5

/-- A participant that has not supplied its part runs on a device that has been fenced since the collective began (R173, R260); one
that had been fenced before is none (R53). -/
def collFenced (s : State) (op : CollOp) (c : Coll) : Bool :=
  op.level == 5 && s.regs.inset &&
  (collRanks c (domGroups s 5)).any (fun r => (collPartOf c r).isNone && isFenced s (r / 64))

/-- The collective of a command has everything it needs to end: a cut, or all parts and (in an enclave) CONFIRM. -/
def collReady (s : State) (op : CollOp) : Bool :=
  match collOf s op with
  | some c => c.cut || collFenced s op c || (collMissing c (domGroups s op.level) == 0 && (!collEncl s op || c.confirmed))
  | none => false

/-! Translations that a shoot-down has made stale (R128, R159): what the command has not accessed yet it accesses through
the new translation. -/

/-- What a command's new translation gives. -/
inductive Fresh where
  | ok (c : ShuntCmd) | ask (dev sec : Nat) | mig | bad (c : FaultCode) (addr : Nat)

/-- A byte of a handle's old page on its new one; `none` where that page has no such byte. -/
def moveByte (h n : Handle) (b : ByteSrc) : Option ByteSrc :=
  match b with
  | .home _ a =>
    let off : Int := (a : Int) - h.pa
    let va : Int := (h.va : Int) + off
    if decide (va / handlePage n = (n.va : Int) / handlePage n) then some (.home n.dev ((n.pa : Int) + off).toNat) else none
  | x => some x

/-- A stale handle walked again, with what its owner does with the new one. -/
def freshen (s : State) (h : Handle) (need : Handle → Bool) (c : ShuntCmd) (k : Handle → Option ShuntCmd) : Fresh :=
  if h.st != .stale then .ok c
  else match walk s (rootOf s s.grp.image) h.sys h.va with
    | .page pa lv leaf dev =>
      let n := pageHandle s h.va pa lv leaf dev
      if !need n then .bad .handlePerm h.va
      else match k n with
        | some c' => .ok c'
        | none => .bad .handleBound h.va
    | .bad e => .bad e h.va
    | .mig => if 64 ≤ c.tries then .bad .walkFault h.va else .mig
    | .wait d sec => .ask d sec

/-- Source, destination and counter in turn. -/
def freshShunt (s : State) (c : ShuntCmd) : Fresh :=
  let all := fun (h n : Handle) (l : List ByteSrc) => let l' := l.filterMap (moveByte h n); if l'.length = l.length then some l' else none
  match freshen s c.hs (fun n => n.r) c (fun n => (all c.hs n c.src).map (fun l => { c with src := l, hs := n })) with
  | .ok c => match freshen s c.hd (fun n => n.w) c (fun n => (all c.hd n c.dst).map (fun l => { c with dst := l, hd := n })) with
    | .ok c => freshen s c.hx (fun n => n.w) c (fun n => match c.ctr with
        | some (_, pa, amt) => match moveByte c.hx n (.home 0 pa) with
          | some (.home d pa') => some { c with ctr := some (d, pa', amt), hx := n }
          | _ => none
        | none => some { c with hx := n })
    | r => r
  | r => r

/-- The destination bytes in saddle scratch of any device: its home is asked whether they lie within their partition's extent (R119). -/
def dstSaddle (dst : List ByteSrc) : List ByteSrc :=
  dst.filter (fun x => match x with
    | .home _ a => (partOf a).isSome
    | _ => false)

/-- The first byte of a command beyond its partition's scratch extent (R119): of its destination, or of a source on another device. -/
def shuntOut (s : State) (c : ShuntCmd) : Option ByteSrc :=
  (c.src ++ dstSaddle c.dst).find? (fun x => srcOut s x || (c.dst.contains x && (match x with
    | .home d a => !isRemote s d && saddleOut s a
    | _ => false)))

/-- The VA of a byte of a command through its handles (R230). -/
def shuntVa (c : ShuntCmd) (x : ByteSrc) : Nat :=
  match x with
  | .home _ a =>
    let h := if c.src.contains x then c.hs else c.hd
    wrapNat ((a : Int) - h.pa + h.va) 64
  | .scratch a => a
  | _ => 0

/-- The first byte of a command on a fenced device. -/
def fencedVa (s : State) (c : ShuntCmd) : Nat :=
  match (c.src ++ c.dst).find? (fun x => match x with
    | .home d _ => isFenced s d
    | _ => false) with
  | some x => shuntVa c x
  | none => 0

/-- SHUNT_COMPLETION has something to do for the running command of a queue of the focused core. -/
def shuntReady (s : State) (u : Nat) : Bool :=
  match runningShunt s.grp u with
  | none => false
  | some c =>
    let s := asReader s (shuntTag s u)
    if c.adding then false
    else if c.sent then c.wait.isEmpty
    else match freshShunt s c with
      | .ask d sec => !asking s d sec
      | .mig => true
      | .bad .. => true
      | .ok c => match c.coll with
        | none => shuntFenced s c || needAsk s (c.src ++ dstSaddle c.dst) ||
            (srcReady s (c.src ++ dstSaddle c.dst) && !srcWritten s c.src)
        | some op => if collSupplied s op then
              collReady s op && (needAsk s (dstSaddle c.dst) || srcReady s (dstSaddle c.dst)) else needAsk s c.src || (srcReady s c.src && !srcWritten s c.src)

/-- Poison and bytes of a list of sources, in order; `early` are bytes taken before a store of the own core to them (R162). What lies
on a fenced device goes to the other participants as poisoned zeros: the spec does not say what they receive, a DESIGN CHOICE (log
entry 87). -/
def readSrcs (s : State) (early : List (ByteSrc × Byte × Bool)) (srcs : List ByteSrc) : List (Byte × Bool) :=
  srcs.map (fun x => match early.find? (fun y => y.1 == x) with
    | some y => y.2
    | none => (takeByte s x, srcPoison s x || (match x with
        | .home d _ => isFenced s d
        | _ => false)))

/-- The payloads by which a participant's part reaches another device, 52 words a flit: launch (setKey), first group of the
domain, level, sequence number, rank, kind, type, block count, root, total words, a poison bit a word, words (the model's
own layout). -/
def collPayloads (key dom : Nat) (op : CollOp) (p : CollPart) : List (List Byte) :=
  let head := leBytes key 8 ++ leBytes dom 4 ++ leBytes op.level 1 ++ leBytes op.seq 8 ++ leBytes p.rank 4 ++
    leBytes p.kind 1 ++ leBytes p.ty 1 ++ leBytes p.blocks 4 ++ leBytes p.root 4 ++ leBytes p.total 4
  let words := chunk 52 p.src.length (p.src.zip p.po)
  (if words.isEmpty then [[]] else words).map (fun w =>
    head ++ leBytes ((w.zip (upFrom 0 w.length)).foldl (fun n x => n + bitAt x.1.2 x.2) 0) 7 ++ w.flatMap (fun x => leBytes x.1.toNat 4))

/-- What names a collective in a control flit: level, sequence number, launch, first group of the domain. -/
def collName (s : State) (c : Coll) : List Byte := leBytes c.level 1 ++ leBytes c.n 8 ++ leBytes (setKey s c.launch) 8 ++ leBytes c.dom 4

/-- A collective changed. -/
def setColl (s : State) (c : Coll) (f : Coll → Coll) : State :=
  { s with colls := s.colls.map (fun x => if collIs x c.launch c.dom c.level c.n then f x else x) }

/-- The coordinator confirms every collective whose receipts are all there (R269): KIND 10, first byte 1. -/
def collConfirm (s : State) : State :=
  if s.encl.coord != s.regs.rank then s
  else
    let full := fun (c : Coll) => c.level == 5 && !c.confirmed && !c.cut &&
      (upFrom 0 (s.regs.ndev + 1)).all (fun r => isFenced s r || c.receipts.contains r)
    (s.colls.filter full).foldl (fun s c =>
      let s1 : State := { setColl s c (fun x => { x with confirmed := true }) with
        encl := { s.encl with conf := tmod 0 s.encl.conf (setKey s c.launch) (fun n => max n (c.n + 1)) } }
      (otherRanks s1).foldl (fun s r => sendFlit s r 10 0 0 ([BitVec.ofNat 8 1] ++ collName s c)) s1) s

/-- In an enclave a participant that holds every input sends its receipt to the coordinator (R269): KIND 10, first
byte 0, then the collective's name. -/
def sendReceipt (s : State) (c : Coll) : State :=
  if s.encl.coord = s.regs.rank then collConfirm (setColl s c (fun x => { x with receipts := insNat s.regs.rank x.receipts }))
  else sendFlit s s.encl.coord 10 0 0 ([BitVec.ofNat 8 0] ++ collName s c)

/-- A participant's part supplied (R172), here and, for a domain of the set, to every other device. -/
def collSupply (s : State) (op : CollOp) (xs : List (Byte × Bool)) : State :=
  let dom := domFirst s s.grp op.level
  let p : CollPart :=
    { rank := collMe s op, kind := op.kind, ty := op.ty, blocks := op.blocks, root := op.root, total := xs.length / 4,
      src := wordsOf (xs.map (fun x => x.1)), po := (chunk 4 xs.length xs).map (fun w => w.any (fun x => x.2)) }
  let s := collJoin s s.grp.launch dom op.level op.seq p
  let s := if op.level = 5 && s.regs.inset then
      (otherRanks s).foldl (fun s r => (collPayloads (setKey s s.grp.launch) dom op p).foldl (fun s d => sendFlit s r 7 0 0 d) s) s
    else s
  match collOf s op with
  | some c => if collEncl s op && collMissing c (domGroups s 5) == 0 then sendReceipt s c else s
  | none => s

/-- A command whose destination writes have left: it ends, or waits for acknowledgements. -/
def shuntSent (s : State) (u : Nat) (c : ShuntCmd) (wait : List (Nat × Nat)) : State :=
  if wait.isEmpty then shuntEnd s u c
  else { s with grp := { s.grp with qu := setShunt s.grp.qu u (fun c => some { c with sent := true, wait := wait }) } }

/-- A failure (R173): it stands in the queue's status word; a thread that has exited is reported against the launch. -/
def shuntFailed (s : State) (u : Nat) (c : ShuntCmd) (f : FaultCode) (addr : Nat) : State :=
  let s1 := shuntFails s u c.th f addr
  if (thOf s c.th).run = .exited then
    let r : Report :=
      { launch := s.grp.launch, core := some (coOf s), code := faultNum f, kind := 1, thr := c.th, image := s.grp.image,
        kernel := s.grp.kidx, mbox := s.grp.mbox, group := s.grp.index, noff := 0, poff := 2 ^ 64 - 1, addr := addr,
        info := u * 2 ^ 11, sys := false }
    { s1 with reports := s1.reports ++ [r],
              grp := { s1.grp with shuntFail := s1.grp.shuntFail.filter (fun x => x.2.1 != c.th) } }
  else s1

/-- The bytes of a failed shunt's destination are old or result, each by itself (R173): a free bit for each says which. A byte
whose result would need a source byte that is not at hand stays old. -/
def shuntTorn (s : State) (c : ShuntCmd) (xs : List (ByteSrc × Byte × Bool)) : State × List (Nat × Nat) :=
  let in_ := fun (x : ByteSrc) => !srcOut s x && (match x with
    | .home d a => isRemote s d || !saddleOut s a
    | _ => true)
  let n := xs.length
  let have_ : ByteSrc → Bool := fun x => match x with
    | .home d a => (hitByte s x).isSome || (homeData s d (a / 64)).isSome
    | _ => true
  let src := if c.coll.isSome then xs.map (fun _ => true) else c.src.map have_
  let l := ((xs.zip src).zip (upFrom s.freeCtr n)).filter (fun x => x.1.2 && in_ x.1.1.1 && Config.freeBit x.2)
  shuntWrite { s with freeCtr := s.freeCtr + n } c.cls (l.map (fun x => x.1.1))

/-- The transfer of a plain shunt (R171, R372). -/
def shuntMove (s : State) (c : ShuntCmd) : List (ByteSrc × Byte × Bool) :=
  (shuntRead s c.run c.early [] (c.src.length + 1) c.src c.dst).reverse

/-- A command that fails before it has ended: its status word, its destination, and, once what has left for other devices has landed,
its completion (R171, R173). -/
def shuntBroken (s : State) (u : Nat) (c : ShuntCmd) (xs : List (ByteSrc × Byte × Bool)) (f : FaultCode) (addr : Nat) : State :=
  let r := shuntTorn s c xs
  shuntSent (shuntFailed (readDone r.1 (shuntTag s u)) u c f addr) u c r.2

/-- A command's part of SHUNT_COMPLETION once its translations are good. -/
def shuntGo (s : State) (u : Nat) (c : ShuntCmd) : State :=
  match c.coll with
  | none =>
    if shuntFenced s c then shuntBroken s u c (shuntMove s c) .deviceFenced (fencedVa s c)
    else if !srcReady s (c.src ++ dstSaddle c.dst) then askAll s c.cls (c.src ++ dstSaddle c.dst)
    else match shuntOut s c with
    | some x => shuntBroken s u c (shuntMove s c) .scratchUnmapped (shuntVa c x)
    | none =>
      let s := tested s c.src
      let r := shuntWrite s c.cls (shuntMove s c)
      shuntSent (readDone r.1 (shuntTag s u)) u c r.2
  | some op =>
    if !collSupplied s op then
      if !srcReady s c.src then askAll s c.cls c.src else readDone (collSupply (tested s c.src) op (readSrcs s c.early c.src)) (shuntTag s u)
    else match collOf s op with
      | none => s
      | some k =>
        let n := domGroups s op.level
        if !collReady s op then s
        else if k.cut then shuntEnd (shuntFailed s u c .revoked 0) u c
        else if collFenced s op k then shuntEnd (shuntFailed s u c .deviceFenced 0) u c
        else if !collAgree k then shuntEnd (shuntFailed s u c .formatInvalid 0) u c
        else
          let bs := (collResult k n op (collMe s op)).flatMap (fun w => leBytes w.toNat 4)
          let po := (collPoison k n op (collMe s op)).flatMap (fun b => [b, b, b, b])
          let xs := c.dst.zip (bs.zip po)
          if shuntFenced s c then shuntBroken s u c xs .deviceFenced (fencedVa s c)
          else if !srcReady s (dstSaddle c.dst) then askAll s c.cls (dstSaddle c.dst)
          else match shuntOut s { c with src := [] } with
          | some x => shuntBroken s u c xs .scratchUnmapped (shuntVa c x)
          | none =>
            let r := shuntWrite s c.cls xs
            shuntSent (readDone r.1 (shuntTag s u)) u c r.2

/-- SHUNT_COMPLETION of a queue of the focused core. -/
def shuntDone (s : State) (u : Nat) : State :=
  let s := asReader s (shuntTag s u)
  match runningShunt s.grp u with
  | none => s
  | some c =>
    let put := fun (s : State) (c : ShuntCmd) => { s with grp := { s.grp with qu := setShunt s.grp.qu u (fun _ => some c) } }
    if c.adding then s
    else if c.sent then
      (if !c.wait.isEmpty then s
       else if c.bad then shuntEnd (shuntFailed s u c .deviceFenced (fencedVa s c)) u c
       else shuntEnd s u c)
    else
      let s := [c.hs, c.hd, c.hx].foldl (fun s h => if h.st == .stale then testWalk s (rootOf s s.grp.image) h.va else s) s
      match freshShunt s c with
      | .ok c' => shuntGo (if c' == c then s else put s c') u c'
      | .bad f a => shuntBroken s u c [] f a
      | .ask d sec => askSector s d sec c.cls
      | .mig => put (spent s) { c with tries := c.tries + 1 }

/-- The answer to a shunt's counter add at another device has come. -/
def shuntAdded (s : State) (u : Nat) : State :=
  match runningShunt s.grp u with
  | some c => if c.adding then shuntLeave s u c else s
  | none => s

end Sys2Proof.Machine
end

