-- ==== Sys2Proof/Machine/Commit.lean ====
section
/-!
DEFINITION. What leaves a window at its mark's step 1: the messages of a set that it may need, contributions to plane regions,
and the commit of the gate and of CPYO data (R23, R122, R132, R139 to R143, R156, R162, R368).
-/
namespace Sys2Proof.Machine
open Sys2Proof

/-! Messages among the devices of a set (KIND 11, R256): an operation, the launch's name, the first group of its gang,
and the operation's own fields (the model's own layout). -/

/-- A set message to one device. -/
def sendSet (s : State) (dst op launch dom : Nat) (rest : List Byte) : State := sendSet11 s dst op (setKey s launch) dom rest

/-- A set message to every other device. -/
def sendSetAll (s : State) (op launch dom : Nat) (rest : List Byte) : State :=
  (otherRanks s).foldl (fun s r => sendSet s r op launch dom rest) s

/-- The group's domain spans devices. -/
def spansSet (s : State) (g : Group) : Bool := g.kern.level == 5 && s.regs.inset && decide (0 < s.regs.ndev)

/-! Ranks and planes. -/

/-- A thread's rank in its domain at a level (R49): DOM's fields give it. -/
def thrRank (s : State) (g : Group) (level thr : Nat) : Nat := domRank (domAt s g thr) level

/-- One word contributed to a plane region of a domain (R132). -/
def planeAdd (s : State) (launch dom idx word rank : Nat) (v : BitVec 32) : State :=
  { s with planes := s.planes.map (fun p =>
      if p.launch == launch && p.dom == dom && p.idx == idx then { p with contrib := p.contrib ++ [(word, rank, v)] } else p) }

/-! Step 1: the gate commits. -/

/-- What commits at step 1: a gate entry, or a sector of a CPYO with the number of FENCEs before it; its place in commit order and
its poisoned bytes. -/
structure Item where
  ix : Nat
  ent : GateEnt
  po : BitVec 64
  fen : Option Nat
deriving DecidableEq, Repr

/-- The sectors that a CPYO's held bytes write (R368), each with the VA of its first byte. -/
def cpyoItems (x : HeldCopy) : List (GateEnt × BitVec 64 × Option Nat) :=
  let places := x.out.map (fun o => match o with
    | .home d a => (d, a)
    | _ => (0, 0))
  let put := fun (bs : List Byte) => farWrites ((places.zip bs).map (fun y => (y.1.1, y.1.2, y.2)))
  let bad := put (x.bad.map (fun b => if b then 1 else 0))
  ((put x.bytes).zip bad).map (fun y =>
    ({ at_ := .mem y.1.1 y.1.2.1, cls := x.cls, mask := y.1.2.2.1, data := y.1.2.2.2,
       va := wrapNat ((64 * y.1.2.1 : Nat) - (x.oh.pa : Int) + x.oh.va) 64 },
     BitVec.ofNat 64 ((upFrom 0 64).foldl (fun n i => n + bitAt (y.2.2.2.2.getLsbD (8 * i)) i) 0), some x.fen))

/-- Everything that commits at the mark, oldest first. -/
def commitItems (t : Thread) : List Item :=
  let l := t.gate.reverse.map (fun e => (e, (0 : BitVec 64), (none : Option Nat))) ++ t.heldCpyo.flatMap cpyoItems
  (l.zip (upFrom 0 l.length)).map (fun x => { ix := x.2, ent := x.1.1, po := x.1.2.1, fen := x.1.2.2 })

/-- What has still to commit. -/
def openItems (t : Thread) : List Item := (commitItems t).filter (fun x => !t.committed.contains x.ix)

/-- The sectors of saddle scratch of other devices that items store to: their homes are asked whether they lie within their
partitions' extents (R119, R122). -/
def itemAsks (s : State) (l : List Item) : List (Nat × Nat) :=
  l.filterMap (fun x => match x.ent.at_ with
    | .mem dev sec => if isRemote s dev && (partOf (64 * sec)).isSome && !isFenced s dev then some (dev, sec) else none
    | _ => none)

/-- The fault of an entry whose target refuses it now (R122, R260), as the present reader has learnt it of another device. -/
def itemBad (s : State) (x : Item) : Option FaultCode :=
  match x.ent.at_ with
  | .scr sec => if s.grp.pinned.contains (sec / 4) then none else some .scratchUnmapped
  | .mem dev sec => if (if isRemote s dev then remoteOut s dev sec else saddleOut s (64 * sec)) then some .scratchUnmapped else none
  | .pl reg _ => if (planeOf s reg).isNone then some .handlePerm else if planeFenced s then some .deviceFenced else none

/-- The lowest byte of a mask. -/
def lowByte (m : BitVec 64) : Nat := ((upFrom 0 64).find? (fun i => m.getLsbD i)).getD 0

/-- The item was issued before FENCE `k` of the window, whose gate held `n` entries. -/
def beforeFen (k n : Nat) (x : Item) : Bool :=
  match x.fen with
  | some f => decide (f ≤ k)
  | none => decide (x.ix < n)

/-- A FENCE of the window puts `y` before `x` (R143, R150). -/
def fenFirst (fences : List (Nat × Nat)) (y x : Item) : Bool :=
  (fences.reverse.zip (upFrom 0 fences.length)).any (fun f =>
    f.1.1.testBit y.ent.cls && f.1.1.testBit x.ent.cls && beforeFen f.2 f.1.2 y && !beforeFen f.2 f.1.2 x)

/-- `y` commits before `x`: by a FENCE, or as the earlier of one class, the gate's before a CPYO's (R23, R142, R156), or as the
gate's earlier store to a byte of both (R22); a FENCE that puts them the other way decides (log entry 57). -/
def commitsFirst (fences : List (Nat × Nat)) (y x : Item) : Bool :=
  fenFirst fences y x ||
  (decide (y.ix < x.ix) && !fenFirst fences x y &&
    (y.ent.cls == x.ent.cls || (y.fen.isNone && x.fen.isNone && y.ent.at_ == x.ent.at_ && y.ent.mask &&& x.ent.mask != 0)))

/-- The entry may commit next: nothing that commits before it remains. -/
def canCommit (fences : List (Nat × Nat)) (rest : List Item) (x : Item) : Bool := rest.all (fun y => !commitsFirst fences y x)

/-- A store of a class committed into the core array (R139, R141), whose line takes a way of its set (R110). The array's sector
keeps the class of the access that filled it; for one that a store has made, the store's (log entry 61). -/
def commitCached (s : State) (dev sec cls : Nat) (mask : BitVec 64) (data : BitVec 512) : State :=
  let s := wayFor s dev (sec / 4)
  let x := arrGet s.core dev sec
  let x' : Sector := { data := mergeBytes mask data x.data, valid := x.valid ||| mask, dirty := x.dirty ||| mask,
                       cls := if x.valid == 0 then cls else x.cls }
  fifoAdd { s with core := arrSet s.core dev sec x' } dev (sec / 4) cls false

/-- A store sent to its home at once (R139): on another device its FIFO entry stays until the home acknowledges it (R141); on
this one it is performed and acknowledged as it is sent. -/
def commitSent (s : State) (dev sec cls : Nat) (mask : BitVec 64) (data : BitVec 512) : State :=
  let s := writeBack s dev sec mask data cls
  if isRemote s dev && !isFenced s dev then fifoAdd s dev (sec / 4) cls true else s

/-- Poisoned bytes of a CPYO reach memory at once, and poison their sector (R173, R420). -/
def commitPoisoned (s : State) (dev sec cls : Nat) (mask : BitVec 64) (data : BitVec 512) : State :=
  let s := commitSent (cleanLine s dev (sec / 4) true) dev sec cls mask data
  if !isRemote s dev then poisonSec s sec
  else if isFenced s dev then s
  else { sendWrite s dev sec cls [] with farPoison := (dev, sec) :: s.farPoison }

/-- A store into a plane region: one contribution a word (R132), told to the devices that share the region. -/
def commitPlane (s : State) (reg sec : Nat) (mask : BitVec 64) (data : BitVec 512) : State :=
  let g := s.grp
  let cx := cxOf s
  let rank := thrRank s g g.kern.level cx
  (upFrom 0 16).foldl (fun s w =>
    if mask.getLsbD (4 * w) then
      let v : BitVec 32 := data.extractLsb' (32 * w) 32
      let s := planeAdd s g.launch (planeDomOf g cx) reg (16 * sec + w) rank v
      if spansSet s g then
        sendSetAll s 9 g.launch g.planeDom (leBytes reg 1 ++ leBytes (16 * sec + w) 4 ++ leBytes rank 4 ++ leBytes v.toNat 4)
      else s
    else s) s

/-- What an item writes, as an engine names it: bytes of scratch or of memory. -/
def itemPlaces (x : Item) : List ByteSrc :=
  let is := (upFrom 0 64).filter (fun i => x.ent.mask.getLsbD i)
  match x.ent.at_ with
  | .mem d sec => is.map (fun i => .home d (64 * sec + i))
  | .scr sec => is.map (fun i => .scratch (64 * sec + i))
  | .pl .. => []

/-- A running shunt of the core that has not moved its bytes has read, each 4-byte element by itself, or has not, before a
store of its core reaches them (R162): a free bit for each says which. -/
def shuntEarly (places : List ByteSrc) (s : State) (u : Nat) : State :=
  match runningShunt s.grp u with
  | none => s
  | some c =>
    let s0 := asReader s (shuntTag s u)
    let els := (chunk 4 c.src.length c.src).filter (fun e =>
      e.any (fun b => places.contains b) && srcReady s0 e && !c.early.any (fun y => e.contains y.1))
    if c.sent || c.adding || !places.any (fun b => c.src.contains b) then s
    else
      let took := (els.zip (upFrom s.freeCtr els.length)).filter (fun x => Config.freeBit x.2)
      let new := took.flatMap (fun x => x.1.map (fun b => (b, takeByte s0 b, srcPoison s0 b)))
      { s with freeCtr := s.freeCtr + els.length,
               grp := { s.grp with qu := setShunt s.grp.qu u (fun y => some { y with early := new ++ y.early }) } }

/-- A copy in flight that reads those bytes of memory may have performed its reads before the store reaches them (R156): a free
bit says whether it has. -/
def copyEarly (places : List ByteSrc) (s : State) (ch : Nat) : State :=
  match tfind s.grp.ch ch with
  | none => s
  | some c =>
    if c.got.isSome || !places.any (fun b => c.src.contains b) || loadsAhead s c.th (c.pos, slotCp) (fun k => k == c.cls) then s
    else
      let s1 := tick (tested s c.src)
      if Config.freeBit s.freeCtr then { s1 with grp := { s1.grp with ch := tput s1.grp.ch ch { c with got := engineRead s (copyTag s ch) c.src } } }
      else s1

/-- One entry committed. Engines that are reading or writing the bytes it stores to have got to them before it, or have not
(R156, R162). -/
def commitItem (s : State) (x : Item) : State :=
  let e := x.ent
  let ps := itemPlaces x
  let mem : Bool := match e.at_ with
    | .mem .. => true
    | _ => false
  let s := (upFrom 0 4).foldl (shuntEarly ps) s
  let s := if mem then (upFrom 0 4).foldl (copyEarly ps) s else touchAll s ps
  match e.at_ with
  | .mem dev sec =>
    if x.po != 0 then commitPoisoned s dev sec e.cls e.mask e.data
    else if cachedAt s dev (64 * sec) then commitCached s dev sec e.cls e.mask e.data
    else if !isRemote s dev && saddleOut s (64 * sec) then s
    else commitSent s dev sec e.cls e.mask e.data
  | .scr sec =>
    { s with grp := scratchPut s.grp (((upFrom 0 64).filter (fun i => e.mask.getLsbD i)).map (fun i =>
        (64 * sec + i, e.data.extractLsb' (8 * i) 8, false))) }
  | .pl reg sec => commitPlane s reg sec e.mask e.data

/-- The dirty FIFO has room for the item's entry, or the item needs none (R141). -/
def itemFits (s : State) (x : Item) : Bool :=
  match x.ent.at_ with
  | .mem dev sec =>
    decide (fifoCount s.core.fifo < 4096) || decide (fifoCount (fifoDrain s).core.fifo < 4096) ||
    (cachedAt s dev (64 * sec) && x.po == 0 && s.core.fifo.contains (.line dev (sec / 4) x.ent.cls false)) ||
    (!cachedAt s dev (64 * sec) && !isRemote s dev)
  | _ => true

/-- One of the items that may commit now, and the state after the choice among several. -/
def pickItem (s : State) (l : List Item) : Option (Item × State) :=
  match l with
  | [] => none
  | [x] => some (x, s)
  | x :: y :: z => some (nth x (x :: y :: z) (Config.choice s.freeCtr (x :: y :: z).length % (x :: y :: z).length), tick s)

/-- One item of the focused thread committed, if one may be: a full FIFO drains its oldest entry first (R141). -/
def commitNext (s : State) : State :=
  let rest := openItems s.th
  match pickItem s ((rest.filter (canCommit s.th.fences rest)).filter (itemFits s)) with
  | none => fifoDrain s
  | some (x, s1) =>
    let s2 := commitItem s1 x
    { s2 with th := { s2.th with committed := x.ix :: s2.th.committed } }

/-- Everything that has not committed does so, `n` bounding its number. -/
def commitAll (s : State) : Nat → State
  | 0 => s
  | n + 1 => if (openItems s.th).isEmpty then s else commitAll (commitNext s) n

/-- Nothing is left of the gate. -/
def gateGone (s : State) : State :=
  { s with th := { s.th with gate := [], fences := [], heldCpyo := [], committed := [] } }

end Sys2Proof.Machine
end

