-- ==== Sys2Proof/Machine/Faults.lean ====
section
/-!
DEFINITION. Fault records, host events and kills (R223 to R233, R418), rollbacks (R25, R168, R224, R234 to R237), and
saving a group (R238 to R241).
-/
namespace Sys2Proof.Machine
open Sys2Proof

/-! Fault records (R230 to R232). -/

/-- The fault queue has no room (R232). -/
def fqFull (r : Regs) : Bool := decide (256 ≤ ringCount r.fqProd r.fqCons)

/-- A fault record's 64 bytes (R230). -/
def recordBytes (seq state : Nat) (r : Report) : List Byte :=
  leBytes seq 4 ++ leBytes r.code 1 ++ leBytes r.kind 1 ++ leBytes state 1 ++ leBytes r.thr 1 ++ leBytes r.image 2 ++
  leBytes r.kernel 2 ++ leBytes r.mbox 1 ++ zeros 3 ++ leBytes r.group 4 ++ zeros 4 ++ leBytes r.noff 8 ++
  leBytes r.poff 8 ++ leBytes r.addr 8 ++ leBytes r.info 8 ++ zeros 8

/-- A record written into the fault queue; PROD advances (R230, R232). -/
def writeRecord (s : State) (state : Nat) (r : Report) : State :=
  let p := s.regs.fqProd
  let s' := homeStore s (s.regs.qbase + 64 * (p % 256)) (recordBytes p state r)
  { s' with regs := { s'.regs with fqProd := (p + 1) % 2 ^ 32 } }

/-- A kill's event (R228, R418). -/
def killEvent (s : State) (mbox image kernel ref flags : Nat) : State :=
  postEvent s { plainEvent 2 mbox image kernel with ref := ref, flags := flags }

/-- A kill recorded and its event posted; a full queue drops the record and raises LOST (R228, R232). -/
def recordKill (s : State) (r : Report) : State :=
  let p := s.regs.fqProd
  if fqFull s.regs then
    killEvent { s with regs := { s.regs with lost := min (s.regs.lost + 1) 0xFFFF } } r.mbox r.image r.kernel p 1
  else killEvent (writeRecord s 1 r) r.mbox r.image r.kernel p 0

/-! Reports. -/

/-- The portable offset of a native one (R212, R230). -/
def poffOf (g : Group) (noff : Nat) : Nat :=
  match g.kern.pmap.find? (fun x => x.1 == noff) with
  | some x => x.2
  | none => 2 ^ 64 - 1

/-- What the stationmaster is told of a fault of the focused thread (R230). -/
def reportOf (s : State) (f : FaultInfo) : Report :=
  { launch := s.grp.launch, core := some (coOf s), code := faultNum f.code, kind := 0, thr := cxOf s,
    image := s.grp.image, kernel := s.grp.kidx, mbox := s.grp.mbox, group := s.grp.index, noff := f.bpc,
    poff := if s.th.insys then 2 ^ 64 - 1 else poffOf s.grp f.bpc, addr := f.addr,
    info := f.slot % 16 + f.gate % 128 * 2 ^ 4 + f.fq % 32 * 2 ^ 11, sys := s.th.insys }

/-- Engine work that the thread issued in its window is still in flight (R168). -/
def windowBusy (s : State) (cx : Nat) : Bool :=
  let t := thOf s cx
  s.grp.ch.any (fun c => c.2.th == cx && inWindow t c.2.pos) || s.grp.mx.any (fun o => o.2.th == cx && inWindow t o.2.pos) ||
  s.grp.tld.any (fun c => c.th == cx && inWindow t c.pos)

/-- A load of the thread's window has not arrived. -/
def windowLoads (t : Thread) : Bool := t.pend.any (fun e => e.load.isSome && inWindow t e.pos)

/-- A recognised fault may be taken (R224): nothing of its window is outstanding. -/
def rollbackReady (s : State) (cx : Nat) : Bool :=
  (thOf s cx).fault.isSome && !windowBusy s cx && !windowLoads (thOf s cx)

/-- WINDOW_ROLLBACK of the focused thread (R25, R168, R224): the fault is reported and the window undone. -/
def windowRollback (s : State) : State :=
  match s.th.fault with
  | none => s
  | some f =>
    let r := reportOf s f
    let s' := rollback s
    { s' with th := { s'.th with fault := none, run := .station }, reports := s'.reports ++ [r] }

/-! Interrupts (R234 to R237). -/

/-- The interrupts pending for a thread taken at the mark it stands at (R234, R237). -/
def takeInterrupt (t : Thread) : Thread :=
  { t with run := .stopped, intr := false, idist := 0, defer := false, deferN := 0 }

/-- The thread is blocked at a point where R42 and R236 roll it back (a mark's drain, told by `marking`, is none). -/
def blockedOpen (t : Thread) : Bool :=
  match t.run with
  | .blocked => t.marking == 0
  | .walking _ => true
  | .waitge => true
  | .parked => true
  | _ => false

/-- An interrupt pending for the thread may be taken before its mark retires (R235 to R237, R312). -/
def intrOpen (t : Thread) : Bool := t.intr && !t.defer && !t.insys && t.fault.isNone

/-- The interrupt distance is used up, the mark not begun (R235). -/
def distanceOver (t : Thread) : Bool := intrOpen t && decide (65536 ≤ t.idist) && decide (t.marking < 2)

/-- BLOCKED_INTERRUPT_ROLLBACK is due (R42, R236, R237, R312). -/
def blockedReady (s : State) (cx : Nat) : Bool :=
  let t := thOf s cx
  intrOpen t && blockedOpen t && !windowBusy s cx

/-- The focused thread rolled back and its interrupts taken at its last mark (R42, R236). -/
def blockedRollback (s : State) : State :=
  let s' := rollback s
  { s' with th := takeInterrupt s'.th }

/-- INTERRUPT_DISTANCE_ROLLBACK is due (R235). -/
def distanceReady (s : State) (cx : Nat) : Bool :=
  distanceOver (thOf s cx) && !windowBusy s cx

/-- The same rollback; the thread will run with interrupts deferred (R235, R237). -/
def distanceRollback (s : State) : State :=
  let s' := rollback s
  { s' with th := { takeInterrupt s'.th with defer := true } }

/-- RUNAWAY_KILL is due (R237, R312). -/
def runawayReady (t : Thread) : Bool := t.intr && (t.defer || t.insys) && decide (16777216 ≤ t.deferN)

/-- The thread issues nothing more: one of those three is due (R235 to R237). -/
def heldBack (t : Thread) : Bool := (intrOpen t && blockedOpen t) || distanceOver t || runawayReady t

/-! Kills (R229). -/

/-- The shunts of the focused core's group drain as far as they can at once (R229); `n` bounds the steps. -/
def drainShunts (s : State) : Nat → State
  | 0 => s
  | n + 1 => match (upFrom 0 4).find? (shuntReady s) with
    | some u => drainShunts (shuntDone s u) n
    | none => s

/-- The core is released (R46, R229, R239): its FIFO has drained, it holds no group, context 0 has the next claim; a group that waited
on its platform for the one that has left waits there as any other (R70). -/
def releaseCore (s : State) (co : Nat) : State :=
  let c := coreAt s co
  setCore s co { c with grp := none, claim := 0, plat := c.plat.map (fun x => { x with same := false }) }

/-- A focused thread ends by a kill (R229): its window is undone, but a commit that has begun ends first. -/
def killThread (s : State) : State :=
  let s1 := if s.th.marking = 9 then gateGone (commitAll s (2 * (openItems s.th).length)) else s
  let s2 := rollback s1
  { s2 with th := { s2.th with run := .exited, pend := [], fault := none, intr := false } }

/-- Every participant's command of a collective has started, or its part has come: it will end. -/
def collStarted (s : State) (op : CollOp) : Bool :=
  let dom := domFirst s s.grp op.level
  let runs := fun (r : Nat) => (allGroups s).any (fun g =>
    g.launch == s.grp.launch && domFirst s g op.level == dom && grpRank s g op.level == r && g.qu.any (fun x => !x.2.held && (match x.2.coll with
      | some o => o.level == op.level && o.seq == op.seq
      | none => false)))
  let came := fun (r : Nat) => match collOf s op with
    | some c => (collPartOf c r).isSome
    | none => false
  (upFrom 0 (domGroups s op.level)).all (fun r => came r || runs r)

/-- The shunter queues of a killed group drain (R229): what has started goes on. A collective that waits for a participant whose
command has not started waits for one that is killed too: it goes no further (log entry 24). -/
def killShunts (s : State) : State :=
  { s with grp := { s.grp with ch := [], mx := [], tld := [], shuntFail := [],
                               qu := s.grp.qu.filter (fun x => !x.2.held && (match x.2.coll with
                                 | some op => collReady s op || collStarted s op
                                 | none => true)) },
           core := { s.core with fifo := s.core.fifo.filter (fun e => match e with
             | .marker .. => false
             | .line .. => true) } }

/-- A killed group keeps its core until its shunter queues and its core's FIFO have drained (R229 steps 2 and 3). -/
def killCore (s : State) (co : Nat) : State :=
  let n := match groupAt s co with
    | some g => g.kern.threads
    | none => 0
  let s1 := (upFrom 0 n).foldl (fun s cx => onTh s co cx killThread) s
  let s2 := onCore s1 co fun s => drainAll (drainShunts (killShunts s) (4 * s.grp.qu.length))
  match groupAt s2 co with
  | some g => if g.qu.isEmpty && (coreAt s2 co).fifo.isEmpty then releaseCore s2 co else s2
  | none => s2

/-- A launch's waiting groups dropped everywhere (R229 steps 1 and 4). -/
def dropStaged (s : State) (id : Nat) : State :=
  let keep := fun (l : List Staged) => l.filter (fun g => g.launch != id)
  let core := fun (c : Core) =>
    { c with plat := keep c.plat }
  { s with boxes := s.boxes.map (fun b => (b.1, { b.2 with recv := keep b.2.recv })),
           cores := s.cores.map (fun c => (c.1, core c.2)),
           returned := keep s.returned, saved := s.saved.filter (fun x => x.grp.launch != id) }

/-- Steps 1 to 4 of R229: nothing more of a compute launch is dispatched, its threads and its saved groups end, and each of its
cores is released as soon as it has drained. -/
def killWork (s : State) (id : Nat) : State :=
  let s1 := dropStaged (setLaunch s id (fun l => { l with killed := true, finished := true })) id
  let s2 := (coresWhere s1 (fun g => g.launch == id)).foldl killCore s1
  { s2 with colls := s2.colls.filter (fun c => c.launch != id), awaiting := s2.awaiting.filter (fun a => a.2.launch != id),
            awaitQ := s2.awaitQ.filter (fun a => a.launch != id) }

/-- Steps 5 and 6 of R229, once every core of the launch has been released: its plane regions go, the record is written and the
event posted. A kill that the host ordered carries the awaiting record's SEQ and writes none (R225). -/
def killDone (s : State) (id : Nat) : State :=
  if !(coresWhere s (fun g => g.launch == id)).isEmpty then s
  else
    let due := s.kills.filter (fun k => k.1.launch == id)
    due.foldl (fun s k => match k.2 with
        | none => recordKill s k.1
        | some seq => killEvent s k.1.mbox k.1.image k.1.kernel seq 0)
      { s with planes := s.planes.filter (fun p => p.launch != id), kills := s.kills.filter (fun k => k.1.launch != id) }

/-- A launch killed, with its own record and event, or (`seq`) with the event that answers the host (R225, R228). -/
def killWith (s : State) (r : Report) (seq : Option Nat) : State :=
  killDone (killWork { s with kills := s.kills ++ [(r, seq)] } r.launch) r.launch

/-- A kill with its own record and event (R225, R228). -/
def killLaunch (s : State) (r : Report) : State := killWith s r none

/-- A kill that another device has ordered: the launching device writes the record (R256). -/
def killQuiet (s : State) (id : Nat) : State := killDone (killWork s id) id

/-! Pre-emption (R238, R239). -/

/-- Interrupt every thread of a group; `save` asks for its pre-emption. -/
def interruptGroup (save : Bool) (g : Group) : Group :=
  { mapThreads g (fun _ t => if t.run = .exited || t.run = .stopped then t else { t with intr := true }) with
    saving := g.saving || save }

/-- The pre-emption of the group on a core is requested, and with it that of its whole gang (R56, R238, R241). -/
def requestPreempt (s : State) (co : Nat) : State :=
  match groupAt s co with
  | none => s
  | some g => mapGroups s (fun x => if sameGang x g && !x.saving then interruptGroup true x else x)

/-- Some group of the launch and gang waits for the host's answer (R227). -/
def gangHeld (s : State) (launch dom : Nat) : Bool :=
  s.saved.any (fun x => x.grp.launch == launch && x.grp.planeDom == dom &&
    x.grp.ths.any (fun t => t.2.pfault != 0)) ||
  s.cores.any (fun c => match c.2.grp with
    | some g => g.launch == launch && g.planeDom == dom && g.ths.any (fun t => t.2.pfault != 0)
    | none => false)

/-- A thread has reached the point at which it is saved (R234 to R236, R53); one in system code reaches none before its ERET
(R312). -/
def savePoint (t : Thread) : Bool :=
  match t.run with
  | .stopped => true
  | .exited => true
  | .arrived => !t.insys
  | _ => false

/-- A save waits until its core has acknowledged every shoot-down that has come (R241). -/
def shootsActed (s : State) : Bool := s.shoots.all (fun x => x.acted)

/-- Steps 1 to 4 of R239 are done, but for the drain of the FIFO. -/
def saveReady (c : Core) : Bool :=
  match c.grp with
  | none => false
  | some g => allThreads g savePoint && g.qu.isEmpty && g.ch.isEmpty && g.mx.isEmpty && g.tld.isEmpty &&
      allThreads g (fun t => t.pend.all (fun e => e.load.isNone)) && !allThreads g (fun t => t.run == .exited)

/-- The FIFO has nothing that waits for another device, or something to send. -/
def fifoMoves (q : List FifoEnt) : Bool := q.isEmpty || !(fifoLines q).isEmpty

/-- A group as it is saved: banks are not part of an image (R245). -/
def savedGroup (g : Group) : Group :=
  { g with banks := [], badRows := [], saving := false, halted := false,
           ths := g.ths.map (fun t => (t.1, { t.2 with intr := false })) }

/-- The saved group goes into the stationmaster's save area and, unless only the host or CTXRS brings it back, its
place in the Yard is kept by an entry of `returned` (R70, R227). Among returned groups of one effective priority the one that came back
first goes first: the spec sets them only ahead of queued launches, so this order is a DESIGN CHOICE (log entry 89). -/
def putSaved (s : State) (g : Group) (host : Bool) : State :=
  let x : Saved := { grp := savedGroup g, adds := [], host := host, prio := g.prio, waited := g.waited, gang := decide (2 ≤ g.kern.level),
                     tries := 0 }
  let e : Staged := { launch := g.launch, index := g.index, prio := g.prio, waited := g.waited, aged := false, saved := true, gang := x.gang, core := 0, same := false, seq := 0 }
  { s with saved := s.saved ++ [x], returned := if host then s.returned else s.returned ++ [e] }

/-- GROUP_SAVE of a core (R239): the FIFO drains; when nothing of it is left the image is written and the core freed. -/
def groupSave (s : State) (co : Nat) : State :=
  match groupAt s co with
  | none => s
  | some _ =>
    let s1 := onCore s co drainAll
    match (coreAt s1 co).fifo, groupAt s1 co with
    | [], some g => releaseCore (putSaved s1 g false) co
    | _, _ => s1

/-! The stationmaster (R225 to R228). -/

/-- A fault that goes to the host (R227, R250, R312). -/
def hostFault (s : State) (r : Report) : Bool :=
  s.regs.hostpage && !r.sys && r.kind == 0 && (r.code == 8 || r.code == 9)

/-- An awaiting record written, or kept until there is room (R227, R232). -/
def awaitRecord (s : State) (r : Report) : State :=
  if fqFull s.regs then { s with awaitQ := s.awaitQ ++ [r] }
  else
    let p := s.regs.fqProd
    let s' := writeRecord s 0 r
    { s' with awaiting := s'.awaiting ++ [(p, r)] }

/-- A host fault (R227): record, PFAULT, and the pre-emption of the group or gang. -/
def awaitHost (s : State) (r : Report) : State :=
  let s1 := awaitRecord s r
  match r.core with
  | none => s1
  | some co =>
    let stop := fun (t : Thread) => { takeInterrupt t with pfault := r.code, defer := t.defer, deferN := t.deferN }
    let s2 := match groupAt s1 co with
      | some g => setGroup s1 co (some { g with ths := tmod Thread.init g.ths r.thr stop })
      | none => s1
    requestPreempt s2 co

/-- STATIONMASTER_FAULT_HANDLING: the oldest report. A ballast launch has been killed by its dispatcher already (R197);
its fault is recorded. -/
def stationHandle (s : State) : State :=
  match s.reports with
  | [] => s
  | r :: rest =>
    let s := { s with reports := rest }
    if r.kind = 2 then recordKill s r
    else match launchOf s r.launch with
      | none => s
      | some l => if l.killed then s else if hostFault s r then awaitHost s r else killLaunch s r

/-- FAULT_RECORD_DEFERRED_WRITE (R232). -/
def deferredWrite (s : State) : State :=
  match s.awaitQ with
  | [] => s
  | r :: rest => if fqFull s.regs then s else awaitRecord { s with awaitQ := rest } r

/-- The thread of an awaiting record's group, changed wherever it is. -/
def awaitThread (s : State) (r : Report) (f : Group → Thread → Thread) : State :=
  let hit := fun (g : Group) => g.launch == r.launch && g.index == r.group
  let upd := fun (g : Group) (f : Thread → Thread) => if hit g then { g with ths := tmod Thread.init g.ths r.thr f } else g
  let s1 := mapGroups s (fun g => upd g (f g))
  { s1 with saved := s1.saved.map (fun x => { x with grp := upd x.grp (fun t => { t with pfault := 0 }) }) }

/-- The host has answered for a thread (R227): one that CTXRS has put back onto a core meanwhile goes on there. -/
def hostAnswer (g : Group) (t : Thread) : Thread :=
  { t with pfault := 0, run := if t.run == .stopped && t.pfault != 0 && !g.saving && !t.intr then .ready else t.run }

/-- FQRESP with ACT 1 (R227, R233): the gang may be dispatched again. -/
def fqResume (s : State) (seq : Nat) : State :=
  match s.awaiting.find? (fun a => a.1 == seq) with
  | none => s
  | some (_, r) =>
    let s1 := { s with awaiting := s.awaiting.filter (fun a => a.1 != seq) }
    awaitThread s1 r hostAnswer

/-- FQRESP with ACT 2 (R225, R227): no new record; the event carries the awaiting record's SEQ. -/
def fqKill (s : State) (seq : Nat) : State :=
  match s.awaiting.find? (fun a => a.1 == seq) with
  | none => s
  | some (_, r) => killWith s r (some seq)

/-- A write of FQRESP (R233): reserved bits, an ACT of 00 or 11 and a record that does not await are ignored. -/
def fqresp (s : State) (w : Nat) : State :=
  if w / 2 ^ 34 != 0 then s
  else if bitsOf w 33 32 = 1 then fqResume s (w % 2 ^ 32)
  else if bitsOf w 33 32 = 2 then fqKill s (w % 2 ^ 32)
  else s

end Sys2Proof.Machine
end

