-- ==== Sys2Proof/Machine/Regs.lean ====
section
/-!
DEFINITION. The system registers (R6, R59, R109, R120, R121, R231 to R233, R253, R309, R310, R386, R387) and the host's
view of BAR0 (R415 to R417, R422).
-/
namespace Sys2Proof.Machine
open Sys2Proof

/-! MBSTAT (R58, R59). -/

/-- The kernel of a launch. -/
def kernelOf (s : State) (image kidx : Nat) : Kernel :=
  match imageOf s image with
  | some i => nth Kernel.none i.kernels kidx
  | none => Kernel.none

/-- A set launch that runs on other devices too (R256). -/
def spansLaunch (s : State) (l : Launch) : Bool :=
  (kernelOf s l.image l.kidx).level == 5 && s.regs.inset && decide (0 < s.regs.ndev)

/-- A launch killed on a member is killed on every member. -/
def tellKill (s : State) (l : Launch) : State := if spansLaunch s l then sendSetAll s 7 l.id 0 [] else s

/-- The other members of a set are told of launches that have been killed here since `s` (R256). -/
def tellKills (s s' : State) : State :=
  let was := fun (id : Nat) => s.launches.any (fun l => l.id == id && l.killed)
  (s'.launches.filter (fun l => l.killed && !was l.id)).foldl tellKill s'

/-- A launch's groups on this device. -/
def localGroups (s : State) (l : Launch) : Nat :=
  if (kernelOf s l.image l.kidx).level = 5 && s.regs.inset then l.groups / (s.regs.ndev + 1) else l.groups

/-- The launch counts against mailbox `m` (R58): of a set launch the Yard here hands out this device's groups (log entry 68). -/
def countsIn (s : State) (m : Nat) (l : Launch) : Bool :=
  l.mbox == m && !l.finished && l.remote.isNone && l.from_.isNone &&
  (if l.ballast then !l.took else decide (l.handed < localGroups s l))

/-- MBSTAT.DEPTH. -/
def mboxDepth (s : State) (m : Nat) : Nat :=
  (s.launches.filter (countsIn s m)).length + (s.jobs.filter (fun j => j.mbox == m && !j.begun)).length

/-- MBSTAT's word. -/
def mbstatWord (s : State) (m : Nat) : Nat :=
  let b := tget Mbox.init s.mbox m
  let d := mboxDepth s m
  d % 64 + bitAt (d == 32) 6 + bitAt b.err 7 + b.code % 16 * 2 ^ 8

/-- A message refused with a code (R58, R59). -/
def refuse (s : State) (m code : Nat) : State :=
  { s with mbox := tmod Mbox.init s.mbox m (fun b => { b with err := true, code := code }) }

/-- ERR is write-1-clear. -/
def mbstatWrite (s : State) (m w : Nat) : State :=
  if w.testBit 7 then { s with mbox := tmod Mbox.init s.mbox m (fun b => { b with err := false }) } else s

/-! SPWAY (R119 to R121). -/

/-- SPWAY's word. -/
def spwayWord (p : Spway) : Nat := p.req % 16 + p.cur % 16 * 2 ^ 8 + bitAt p.busy 12 + bitAt p.pass 13

/-- The address of MiB `k` of a partition's scratch. -/
def spBase (part k : Nat) : Nat := 0x500000000000 + part * 0x1000000 + k * 2 ^ 20

/-- A range of home memory made zero and unpoisoned. -/
def clearRange (s : State) (a n : Nat) : State :=
  { s with mem := tfilter (fun k => !(decide (a ≤ k) && decide (k < a + n))) s.mem,
           poisoned := s.poisoned.filter (fun x => !(decide (a ≤ 64 * x) && decide (64 * x < a + n))),
           checks := tfilter (fun x => !(decide (a ≤ 64 * x) && decide (64 * x < a + n))) s.checks }

/-- A write of REQ (R121): a smaller target lowers CUR at once, the content beyond it is lost; the change ends with
SPWAY_CHANGE_COMPLETE. A partition out of service keeps CUR at 0. -/
def spwayWrite (s : State) (part v : Nat) : State :=
  let p := tget Spway.init s.spway part
  let q := v % 16
  if p.pass then { s with spway := tset Spway.init s.spway part { p with req := q } }
  else if q < p.cur then
    clearRange { s with spway := tset Spway.init s.spway part { p with req := q, cur := q, busy := true } }
      (spBase part q) ((p.cur - q) * 2 ^ 20)
  else { s with spway := tset Spway.init s.spway part { p with req := q, busy := decide (p.cur < q) } }

/-- SPWAY_WAY_COMPLETE: one way more is scratch; it reads as zero (R121). -/
def spwayWay (s : State) (part : Nat) : State :=
  let p := tget Spway.init s.spway part
  if p.busy && decide (p.cur < p.req) then
    clearRange { s with spway := tset Spway.init s.spway part { p with cur := p.cur + 1 } } (spBase part p.cur) (2 ^ 20)
  else s

/-- SPWAY_CHANGE_COMPLETE (R121). -/
def spwayDone (s : State) (part : Nat) : State :=
  let p := tget Spway.init s.spway part
  if p.busy && p.cur == p.req then { s with spway := tset Spway.init s.spway part { p with busy := false } } else s

/-! Reading and writing a system register (R386, R387). -/

/-- The number of instances of a register of a number (R386), if it is listed. -/
def sysCount (no : Nat) : Option Nat :=
  if no = 1 || no = 2 || no = 3 then some 1
  else if 0x10 ≤ no && no ≤ 0x15 then some 1
  else if no = 0x16 then some 16
  else if no = 0x20 then some 512
  else if no = 0x21 then some 64
  else none

/-- SETFENCE j's word (R253). -/
def fenceWord (s : State) (j : Nat) : Nat :=
  (upFrom 0 64).foldl (fun n b => n + bitAt (s.regs.fences.contains (64 * j + b)) b) 0

/-- A package register's value. -/
def pkgRead (s : State) (no i : Nat) : Nat :=
  let r := s.regs
  if no = 0x10 then r.sysent.toNat
  else if no = 0x11 then r.ipool
  else if no = 0x12 then bitAt r.hostpage 0 + r.qbase + r.lost * 2 ^ 48
  else if no = 0x13 then r.fqProd + r.fqCons * 2 ^ 32
  else if no = 0x15 then r.rank + r.ndev * 2 ^ 10 + bitAt r.inset 20 + bitAt r.encl 21 + bitAt r.cut 22
  else if no = 0x16 then fenceWord s i
  else if no = 0x20 then spwayWord (tget Spway.init s.spway i)
  else if no = 0x21 then mbstatWord s i
  else 0

/-- A register's value as RDSYS of the focused thread reads it: write-only fields read as zero. -/
def sysRead (s : State) (no i : Nat) : Nat :=
  if no = 1 then s.th.xpc.toNat
  else if no = 2 then s.th.xcause.toNat
  else if no = 3 then s.th.dom.toNat
  else pkgRead s no i

/-- A package register written (R387). MEMCFG is locked by the first accepted message (R109); SETCFG and SETFENCE
change only when a set forms or a fence falls (R253). -/
def pkgWrite (s : State) (no i v : Nat) : State :=
  let r := s.regs
  if no = 0x10 then { s with regs := { r with sysent := BitVec.ofNat 64 (v % 2 + bitsOf v 47 6 * 64) } }
  else if no = 0x11 then (if s.nextId = 0 then { s with regs := { r with ipool := min (v % 64) 48 } } else s)
  else if no = 0x12 then { s with regs := { r with hostpage := v.testBit 0, qbase := bitsOf v 47 14 * 2 ^ 14 } }
  else if no = 0x13 then { s with regs := { r with fqCons := bitsOf v 63 32 } }
  else if no = 0x14 then fqresp s v
  else if no = 0x20 then spwayWrite s i v
  else if no = 0x21 then mbstatWrite s i v
  else s

/-- A register written by WRSYS of the thread in context `cx` of core `co` (R310: XCAUSE is read-only; R387: DOM takes
every field), nothing being focused. -/
def sysWrite (s : State) (co cx no i v : Nat) : State :=
  let w := BitVec.ofNat 64 v
  if no = 1 then onTh s co cx (fun s => { s with th := { s.th with xpc := w } })
  else if no = 2 then s
  else if no = 3 then
    onTh s co cx (fun s => { s with th := { s.th with dom := w &&& 0x0000FFFFFF7FFFFF } })
  else pkgWrite s no i v

/-! BAR0 (R415 to R417, R422). -/

/-- HEALTH's word (R422). -/
def healthWord (s : State) : Nat :=
  let oos := (s.cores.filter (fun c => c.2.oos)).length
  let ports := (s.lanes.filter (fun p => p.2 != 0)).length
  bitAt s.regs.replace 0 + oos % 128 * 2 + s.boos.length % 256 * 2 ^ 8 + s.pass.length % 1024 * 2 ^ 16 +
  ports % 16 * 2 ^ 26 + s.edges.length % 8 * 2 ^ 30 + s.regs.npoison * 2 ^ 33

/-- What a host read of BAR0 at an aligned offset returns (R415, R416); a device whose boot has stopped reads as zero. -/
def barRead (s : State) (off : Nat) : Nat :=
  let r := s.regs
  if s.power = .bootStopped then 0
  else if 0x1000 ≤ off && off < 0x1100 then mbstatWord s ((off - 0x1000) / 4)
  else if off = 0x2000 then bitAt r.evEn 0 + r.evBase
  else if off = 0x2008 then r.evProd + r.evCons * 2 ^ 32
  else if off = 0x2010 then r.badwr + r.evlost * 2 ^ 32
  else if off = 0x2018 then healthWord s
  else if 0x10000 ≤ off then
    let no := (off - 0x10000) / 0x1000
    let i := off % 0x1000 / 8
    match sysCount no with
    | some n => if no < 4 || n ≤ i then 0 else pkgRead s no i
    | none => 0
  else 0

/-- A host write that is dropped and counted (R416). -/
def badWrite (s : State) : State := { s with regs := { s.regs with badwr := min (s.regs.badwr + 1) 0xFFFFFFFF } }

/-- A host write to BAR0 that is not a whole launch message (R416, R417). -/
def hostWrite (s : State) (off size w : Nat) : State :=
  if off < 0x1000 then badWrite s
  else if 0x1000 ≤ off && off < 0x1100 then (if size = 4 && off % 4 = 0 then mbstatWrite s ((off - 0x1000) / 4) w else s)
  else if size != 8 then s
  else if off = 0x2000 then { s with regs := { s.regs with evEn := w.testBit 0, evBase := w / 4096 * 4096 } }
  else if off = 0x2008 then { s with regs := { s.regs with evCons := bitsOf w 63 32 } }
  else if off = 0x22000 || off = 0x23000 || off = 0x24000 then pkgWrite s ((off - 0x10000) / 0x1000) 0 w
  else s

end Sys2Proof.Machine
end

