-- ==== Sys2Proof/Machine/MemEv.lean ====
section
/-!
DEFINITION. Memory-side events: arrivals of loads (R16, R139, R150), landings of tile loads (R339), write-backs of the
core array (R140), and the ends of what blocks a thread (R129, R308, R334, R362).
-/
namespace Sys2Proof.Machine
open Sys2Proof

/-- The load of entry `ix` of the focused thread's results in flight. -/
def loadAtIx (t : Thread) (ix : Nat) : Option (Pend × LoadReq) :=
  match t.pend.drop ix with
  | e :: _ => e.load.map (fun q => (e, q))
  | [] => none

/-- Sources wait for another device, or for an atomic under way on their line. -/
def srcsWait (s : State) (srcs : List ByteSrc) : Bool :=
  (missSectors s srcs).any (fun x => asking s x.1 x.2 || lineLocked s x.1 (x.2 / 4))

/-- LOAD_VALUE_ARRIVAL can happen for that entry: what performs before it has (R150). -/
def loadReady (s : State) (cx ix : Nat) : Bool :=
  match loadAtIx (thOf s cx) ix with
  | some (e, q) =>
    let s := asReader s [1, coOf s, cx, e.pos, q.slot]
    match q.fin with
    | .walk va sys _ => !(match walk s (rootOf s s.grp.image) sys va with
      | .wait d sec => asking s d sec
      | _ => false)
    | .pref _ => !srcsWait s q.srcs
    | _ => !loadsAhead s cx (e.pos, q.slot) (fun c => c == q.cls) && !copyLate s cx q.cls (e.pos, q.slot) && !srcsWait s q.srcs
  | none => false

/-- A load that performs late (R16). -/
def loadArrive (s : State) (ix : Nat) : State :=
  match loadAtIx s.th ix with
  | none => s
  | some (e, q) => loadPerform s e q

/-- The name of a tile load's reads. -/
def tldTag (s : State) (c : TldCmd) : List Nat := [4, coOf s, c.th, c.pos]

/-- TLD_LANDING can happen for tile load `ix` of the focused core. -/
def tldReady (s : State) (cx ix : Nat) : Bool :=
  match s.grp.tld.drop ix with
  | c :: _ =>
    let s := asReader s (tldTag s c)
    c.th == cx && !loadsAhead s cx (c.pos, c.slot) (fun k => k == c.cls) && !copyLate s cx c.cls (c.pos, c.slot) && !srcsWait s c.src
  | [] => false

/-- A tile load lands (R339): its tile takes the bytes, its busy bit clears. -/
def tldLand (s : State) (ix : Nat) : State :=
  match s.grp.tld.drop ix with
  | [] => s
  | c :: _ =>
    let s := copiesRead (asReader s (tldTag s c)) c.th c.cls (c.pos, c.slot)
    let gone := fun (g : Group) =>
      let g' := { g with tld := g.tld.take ix ++ g.tld.drop (ix + 1) }
      match c.ring with
      | some (q, k) => ringLand g' q k
      | none => g'
    match takeAll s c.cls true c.src with
    | .bytes s' bs => { s' with grp := gone (scratchPut s'.grp (c.dst.zip (bs.map (fun b => (b, false))))) }
    | .ask ss => ss.foldl (fun s x => askSector s x.1 x.2 c.cls) s
    | .bad f _ =>
      let i : FaultInfo := { code := f, pos := c.pos, slot := c.slot, addr := c.addr, gate := 0, fq := 0, bpc := c.bpc }
      setTh { spent s with grp := gone s.grp } c.th (fun t => raiseTh t i)

/-- FRONT_BUSY_END (R362). -/
def frontEnd (s : State) (fr : Nat) : State :=
  { s with th := { s.th with fbusy := s.th.fbusy &&& ~~~BitVec.ofNat 8 (2 ^ fr) } }

/-- WAITGE_REREAD (R334): the counter is read again. -/
def waitgeReread (s : State) : State :=
  if s.th.run = .waitge then { s with th := { s.th with run := .ready } } else s

/-- WALK_RETRY (R129): the walk is made again. -/
def walkRetry (s : State) : State :=
  match s.th.run with
  | .walking n => if n % 3 = 0 then { s with th := { s.th with run := .walking (n + 1) } } else s
  | _ => s

/-- PARK_EXPIRY (R308). -/
def parkExpiry (s : State) : State :=
  if s.th.run = .parked then { s with th := { s.th with run := .ready } } else s

/-- The dirty lines of a core's array, as device × 2^40 + line. -/
def dirtyLines (c : Core) : List Nat :=
  c.arr.foldl (fun l x => if x.2.dirty == 0 then l else insNat (x.1 / 2 ^ 42 * 2 ^ 40 + x.1 % 2 ^ 42 / 4) l) []

/-- CORE_ARRAY_WRITEBACK (R140) of the focused or bare core: the line's dirty bytes go home. -/
def lineBack (s : State) (ln : Nat) : State := cleanLine s (ln / 2 ^ 40) (ln % 2 ^ 40) false

/-- The copies, tile loads and matrix operations that the focused thread issued in its window, brought to their ends as
far as their data is at hand (R168). -/
def finishWork (s : State) (cx : Nat) : State :=
  let mine := fun (s : State) (pos th : Nat) => th == cx && inWindow (thOf s cx) pos
  let s1 := (upFrom 0 4).foldl (fun s ch => match tfind s.grp.ch ch with
    | some c => if mine s c.pos c.th && (copyBytes s ch c).isSome then copyDone s ch else s
    | none => s) s
  let s2 := (upFrom 0 s1.grp.tld.length).foldl (fun s _ =>
    match s.grp.tld.findIdx? (fun c => mine s c.pos c.th) with
    | some ix => tldLand s ix
    | none => s) s1
  (upFrom 0 s2.grp.mx.length).foldl (fun s _ =>
    if s.grp.mx.any (fun o => mine s o.2.pos o.2.th) then mxRetire (mxStart s) else s) s2

end Sys2Proof.Machine
end

