-- ==== Sys2Proof/Machine/Mem.lean ====
section
/-!
DEFINITION. The LS slot: loads, stores, handles, atomics, counters, near-memory reductions, ordering, scratch and line
operations, tile loads and stores, lowered windows, portable coordinates (R325 to R342). What a mark performs at its
step 2 is set here at issue (heldOp) and performed by `performHeld`.
-/
namespace Sys2Proof.Machine
open Sys2Proof

/-- An LS slot: nothing happens when its predicate is false (R11). -/
def slotOn (s : State) (p : BitVec 5) (k : Out) : Out := if predOk s.th p then k else .next s

/-! Loads and stores (R327, R328). -/

def execLd (d : BitVec 6) (h : BitVec 4) (x : BitVec 6) (imm : BitVec 24) (sz : BitVec 2) (sx : BitVec 1)
    (cls : BitVec 4) (p : BitVec 5) (s : State) : Out :=
  slotOn s p (withAccess s h.toNat (effOff s x imm.toInt) (2 ^ sz.toNat) (2 ^ sz.toNat) .r fun s _ l va =>
    .next (loadAt s (.s d.toNat) l (2 ^ sz.toNat) cls.toNat (.int (sx == 1)) va clsLoad))

/-- ST (R327): a byte or halfword into a plane region raises ALIGN (R131). -/
def execSt (d : BitVec 6) (h : BitVec 4) (x : BitVec 6) (imm : BitVec 24) (sz : BitVec 2)
    (cls : BitVec 4) (p : BitVec 5) (s : State) : Out :=
  slotOn s p (withAccess s h.toNat (effOff s x imm.toInt) (2 ^ sz.toNat) (2 ^ sz.toNat) .st fun s h l va =>
    if h.space == .plane && decide (sz.toNat < 2) then .next (raise s .align va)
    else .next (storeAt s l (leBytes (sReg s.th d.toNat).toNat (2 ^ sz.toNat)) cls.toNat va))

def execLdWalk (w : BitVec 3) (h : BitVec 4) (x : BitVec 6) (imm : BitVec 24) (cls : BitVec 4) (p : BitVec 5)
    (s : State) : Out :=
  slotOn s p (withAccess s h.toNat (effOff s x imm.toInt) 64 64 .r fun s _ l va =>
    .next (loadAt s (.w w.toNat) l 64 cls.toNat .lanes va clsLoad))
def execStWalk (w : BitVec 3) (h : BitVec 4) (x : BitVec 6) (imm : BitVec 24) (cls : BitVec 4) (p : BitVec 5)
    (s : State) : Out :=
  slotOn s p (withAccess s h.toNat (effOff s x imm.toInt) 64 64 .st fun s _ l va =>
    .next (storeAt s l (leBytes (wReg s.th w.toNat).toNat 64) cls.toNat va))

/-! Handles (R329 to R331). -/

/-- XLATE (R329): a walk that outlasts its latency, at a migrating entry or at a node of another device, leaves its result late
(R16, R129); after a migrating entry the next try is the first of its retries. -/
def execXlate (hd : BitVec 4) (a : BitVec 6) (p : BitVec 5) (s : State) : Out :=
  slotOn s p (
    let va := (sReg s.th a.toNat).toNat
    let s := testWalk s (rootOf s s.grp.image) va
    let late := fun (n : Nat) =>
      Host.Outcome.next { s with th := pushLoad s.th (.h hd.toNat) (lateReq s [] (.walk va s.th.seg.sys n) va) clsXlate }
    match walk (asReader s []) (rootOf s s.grp.image) s.th.seg.sys va with
    | .page pa lv leaf dev => .next (putH s hd.toNat (pageHandle s va pa lv leaf dev) clsXlate)
    | .bad c => .next (raise s c va)
    | .mig => late 1
    | .wait .. => late 0)
/-- The scratch handle (R111, R329). -/
def scratchHandle : Handle := { Handle.init with st := .valid, space := .scratch, r := true, w := true }
def execXlateScratch (hd : BitVec 4) (p : BitVec 5) (s : State) : Out :=
  slotOn s p (.next (putH s hd.toNat scratchHandle clsXlate))
/-- The handle on plane region `idx` (R131, R329). -/
def planeHandle (idx : Nat) : Handle :=
  { Handle.init with st := .valid, space := .plane, r := true, w := true, plane := idx }
def execXlatePlane (hd pidx : BitVec 4) (p : BitVec 5) (s : State) : Out :=
  slotOn s p (if s.grp.kern.planes.length ≤ pidx.toNat then .next (raise s .handlePerm 0)
    else .next (putH s hd.toNat (planeHandle pidx.toNat) clsXlate))
def execHfree (hd : BitVec 4) (p : BitVec 5) (s : State) : Out :=
  slotOn s p (.next (putH s hd.toNat Handle.init clsAlu))

/-- HTEST's word (R331). -/
def htestWord (s : State) (h : Handle) : Nat :=
  if h.st == .empty then 0
  else
    let mem := h.space == .memory
    (if h.st == .stale then 2 else 1) +
    4 * (match h.space with
      | .memory => 0
      | .scratch => 1
      | .plane => 2) +
    (if mem then 16 * h.size else 0) +
    bitAt h.r 6 + bitAt h.w 7 + bitAt h.sys 8 + bitAt h.comp 9 + bitAt h.lowered 10 +
    (match h.stack with
      | some k => 2 ^ 11 + k * 2 ^ 12
      | none => 0) +
    h.plane % 16 * 2 ^ 15 +
    (if mem then (if h.dev = 0 && !s.regs.inset then s.regs.rank else h.dev) * 2 ^ 19 + bitsOf h.pa 47 16 * 2 ^ 32 else 0)
def execHtest (d : BitVec 6) (hd : BitVec 4) (p : BitVec 5) (s : State) : Out :=
  slotOn s p (.next (putS s d.toNat (BitVec.ofNat 64 (htestWord s (hReg s.th hd.toNat))) clsLoad))

/-! What a mark performs at step 2 (R23, R148): set at issue. -/

/-- An operation held to step 2, with its operands as captured at issue. -/
def holdOp (s : State) (i : Instr) (a b c : Word) (h : Handle) (l : Loc) (va : Nat) : State :=
  let o : HeldOp :=
    { ins := i, a := a, b := b, c := c, h := h, va := va, pa := l.num, addr := va, lines := [], tries := 0, tries2 := 0 }
  { s with th := { s.th with heldOp := some o } }

/-- The width in bytes of an SZ whose upper bit is fixed at 1: 4 or 8. -/
def dwBytes (dw : BitVec 1) : Nat := if dw = 1 then 8 else 4

/-- An atomic at issue (R332): its operand needs W; a plane raises HANDLE_PERM. -/
def atomicIssue (s : State) (i : Instr) (h : BitVec 4) (x : BitVec 6) (imm : BitVec 14) (n : Nat) (a b : BitVec 6) : Out :=
  withAccess s h.toNat (effOff s x imm.toInt) n n .w fun s hh l va =>
    if hh.space == .plane then .next (raise s .handlePerm va)
    else .next (holdOp s i (sReg s.th a.toNat) (sReg s.th b.toNat) 0 hh l va)

/-- An NMR at issue (R335): scratch raises HANDLE_PERM too, pinned or not. -/
def nmrIssue (s : State) (i : Instr) (h : BitVec 4) (x : BitVec 6) (imm : BitVec 14) (n : Nat) (a : BitVec 6) : Out :=
  match useHandle s h.toNat with
  | .bad c va => .next (raise s c va)
  | .wait s' => .next s'
  | .ok s hh =>
    match locate s hh (effOff s x imm.toInt) n n .w with
    | .error (c, va) =>
      if hh.space != .memory && c == .scratchUnmapped then .next (raise s .handlePerm (wrapNat (addrOf hh (effOff s x imm.toInt)) 64))
      else .next (raise s c va)
    | .ok (l, va) =>
      if hh.space != .memory then .next (raise s .handlePerm va)
      else .next (holdOp s i (sReg s.th a.toNat) 0 0 hh l va)

/-- A counter's access (R333, R334): a handle with no home raises HANDLE_PERM whatever the offset. -/
def withCounter (s : State) (h : BitVec 4) (x : BitVec 6) (imm : BitVec 14) (need : Need)
    (k : State → Handle → Loc → Nat → Out) : Out :=
  let hh := hReg s.th h.toNat
  if hh.st != .empty && hh.space != .memory then .next (raise s .handlePerm 0)
  else withAccess s h.toNat (effOff s x imm.toInt) 8 8 need k

def execAadd (d : BitVec 6) (h : BitVec 4) (x : BitVec 6) (imm : BitVec 14) (a : BitVec 6) (dw : BitVec 1)
    (cls : BitVec 4) (p : BitVec 5) (s : State) : Out :=
  slotOn s p (atomicIssue s (.aadd d h x imm a dw cls p) h x imm (dwBytes dw) a 0)
def execAand (d : BitVec 6) (h : BitVec 4) (x : BitVec 6) (imm : BitVec 14) (a : BitVec 6) (dw : BitVec 1)
    (cls : BitVec 4) (p : BitVec 5) (s : State) : Out :=
  slotOn s p (atomicIssue s (.aand d h x imm a dw cls p) h x imm (dwBytes dw) a 0)
def execAor (d : BitVec 6) (h : BitVec 4) (x : BitVec 6) (imm : BitVec 14) (a : BitVec 6) (dw : BitVec 1)
    (cls : BitVec 4) (p : BitVec 5) (s : State) : Out :=
  slotOn s p (atomicIssue s (.aor d h x imm a dw cls p) h x imm (dwBytes dw) a 0)
def execAxor (d : BitVec 6) (h : BitVec 4) (x : BitVec 6) (imm : BitVec 14) (a : BitVec 6) (dw : BitVec 1)
    (cls : BitVec 4) (p : BitVec 5) (s : State) : Out :=
  slotOn s p (atomicIssue s (.axor d h x imm a dw cls p) h x imm (dwBytes dw) a 0)
def execAmin (d : BitVec 6) (h : BitVec 4) (x : BitVec 6) (imm : BitVec 14) (a : BitVec 6) (dw : BitVec 1)
    (cls : BitVec 4) (p : BitVec 5) (s : State) : Out :=
  slotOn s p (atomicIssue s (.amin d h x imm a dw cls p) h x imm (dwBytes dw) a 0)
def execAmax (d : BitVec 6) (h : BitVec 4) (x : BitVec 6) (imm : BitVec 14) (a : BitVec 6) (dw : BitVec 1)
    (cls : BitVec 4) (p : BitVec 5) (s : State) : Out :=
  slotOn s p (atomicIssue s (.amax d h x imm a dw cls p) h x imm (dwBytes dw) a 0)
def execAminu (d : BitVec 6) (h : BitVec 4) (x : BitVec 6) (imm : BitVec 14) (a : BitVec 6) (dw : BitVec 1)
    (cls : BitVec 4) (p : BitVec 5) (s : State) : Out :=
  slotOn s p (atomicIssue s (.aminu d h x imm a dw cls p) h x imm (dwBytes dw) a 0)
def execAmaxu (d : BitVec 6) (h : BitVec 4) (x : BitVec 6) (imm : BitVec 14) (a : BitVec 6) (dw : BitVec 1)
    (cls : BitVec 4) (p : BitVec 5) (s : State) : Out :=
  slotOn s p (atomicIssue s (.amaxu d h x imm a dw cls p) h x imm (dwBytes dw) a 0)
def execAxchg (d : BitVec 6) (h : BitVec 4) (x : BitVec 6) (imm : BitVec 14) (a : BitVec 6) (dw : BitVec 1)
    (cls : BitVec 4) (p : BitVec 5) (s : State) : Out :=
  slotOn s p (atomicIssue s (.axchg d h x imm a dw cls p) h x imm (dwBytes dw) a 0)
def execAcas (d : BitVec 6) (h : BitVec 4) (x : BitVec 6) (imm : BitVec 14) (a b : BitVec 6) (dw : BitVec 1)
    (cls : BitVec 4) (p : BitVec 5) (s : State) : Out :=
  slotOn s p (atomicIssue s (.acas d h x imm a b dw cls p) h x imm (dwBytes dw) a b)
def execAfadd (d : BitVec 6) (h : BitVec 4) (x : BitVec 6) (imm : BitVec 14) (a : BitVec 6)
    (cls : BitVec 4) (p : BitVec 5) (s : State) : Out :=
  slotOn s p (atomicIssue s (.afadd d h x imm a cls p) h x imm 4 a 0)

def execNmrAdd (h : BitVec 4) (x : BitVec 6) (imm : BitVec 14) (a : BitVec 6) (dw : BitVec 1) (cls : BitVec 4)
    (p : BitVec 5) (s : State) : Out :=
  slotOn s p (nmrIssue s (.nmrAdd h x imm a dw cls p) h x imm (dwBytes dw) a)
def execNmrFadd (h : BitVec 4) (x : BitVec 6) (imm : BitVec 14) (a : BitVec 6) (cls : BitVec 4)
    (p : BitVec 5) (s : State) : Out :=
  slotOn s p (nmrIssue s (.nmrFadd h x imm a cls p) h x imm 4 a)
def execNmrMin (h : BitVec 4) (x : BitVec 6) (imm : BitVec 14) (a : BitVec 6) (dw : BitVec 1) (cls : BitVec 4)
    (p : BitVec 5) (s : State) : Out :=
  slotOn s p (nmrIssue s (.nmrMin h x imm a dw cls p) h x imm (dwBytes dw) a)
def execNmrMax (h : BitVec 4) (x : BitVec 6) (imm : BitVec 14) (a : BitVec 6) (dw : BitVec 1) (cls : BitVec 4)
    (p : BitVec 5) (s : State) : Out :=
  slotOn s p (nmrIssue s (.nmrMax h x imm a dw cls p) h x imm (dwBytes dw) a)
def execNmrMinu (h : BitVec 4) (x : BitVec 6) (imm : BitVec 14) (a : BitVec 6) (dw : BitVec 1) (cls : BitVec 4)
    (p : BitVec 5) (s : State) : Out :=
  slotOn s p (nmrIssue s (.nmrMinu h x imm a dw cls p) h x imm (dwBytes dw) a)
def execNmrMaxu (h : BitVec 4) (x : BitVec 6) (imm : BitVec 14) (a : BitVec 6) (dw : BitVec 1) (cls : BitVec 4)
    (p : BitVec 5) (s : State) : Out :=
  slotOn s p (nmrIssue s (.nmrMaxu h x imm a dw cls p) h x imm (dwBytes dw) a)
def execNmrAnd (h : BitVec 4) (x : BitVec 6) (imm : BitVec 14) (a : BitVec 6) (dw : BitVec 1) (cls : BitVec 4)
    (p : BitVec 5) (s : State) : Out :=
  slotOn s p (nmrIssue s (.nmrAnd h x imm a dw cls p) h x imm (dwBytes dw) a)
def execNmrOr (h : BitVec 4) (x : BitVec 6) (imm : BitVec 14) (a : BitVec 6) (dw : BitVec 1) (cls : BitVec 4)
    (p : BitVec 5) (s : State) : Out :=
  slotOn s p (nmrIssue s (.nmrOr h x imm a dw cls p) h x imm (dwBytes dw) a)
def execNmrXor (h : BitVec 4) (x : BitVec 6) (imm : BitVec 14) (a : BitVec 6) (dw : BitVec 1) (cls : BitVec 4)
    (p : BitVec 5) (s : State) : Out :=
  slotOn s p (nmrIssue s (.nmrXor h x imm a dw cls p) h x imm (dwBytes dw) a)

def execCtradd (h : BitVec 4) (x : BitVec 6) (imm : BitVec 14) (a : BitVec 6) (cls : BitVec 4) (p : BitVec 5)
    (s : State) : Out :=
  slotOn s p (withCounter s h x imm .w fun s' hh l va =>
    .next (holdOp s' (.ctradd h x imm a cls p) (sReg s'.th a.toNat) 0 0 hh l va))

/-- A read-modify-write's new value, `w` bits wide (R332, R335): its operation is told by the row. -/
def rmw (i : Instr) (w old a b : Nat) : Nat :=
  let fa := (r32 0 (fadd 0 (f32 (BitVec.ofNat 32 old)) (f32 (BitVec.ofNat 32 a)))).toNat
  let lt : Bool := decide (sextNat old w < sextNat a w)
  match i with
  | .aadd .. => (old + a) % 2 ^ w
  | .nmrAdd .. => (old + a) % 2 ^ w
  | .ctradd .. => (old + a) % 2 ^ w
  | .aand .. => old &&& a
  | .nmrAnd .. => old &&& a
  | .aor .. => old ||| a
  | .nmrOr .. => old ||| a
  | .axor .. => old ^^^ a
  | .nmrXor .. => old ^^^ a
  | .amin .. => if lt then old else a
  | .nmrMin .. => if lt then old else a
  | .amax .. => if lt then a else old
  | .nmrMax .. => if lt then a else old
  | .aminu .. => min old a
  | .nmrMinu .. => min old a
  | .amaxu .. => max old a
  | .nmrMaxu .. => max old a
  | .axchg .. => a
  | .acas .. => if old = b then a else old
  | .afadd .. => fa
  | .nmrFadd .. => fa
  | _ => old

/-- The destination register and width in bytes of a read-modify-write. -/
def rmwForm : Instr → Option (Option Nat × Nat)
  | .aadd d _ _ _ _ dw _ _ => some (some d.toNat, dwBytes dw)
  | .aand d _ _ _ _ dw _ _ => some (some d.toNat, dwBytes dw)
  | .aor d _ _ _ _ dw _ _ => some (some d.toNat, dwBytes dw)
  | .axor d _ _ _ _ dw _ _ => some (some d.toNat, dwBytes dw)
  | .amin d _ _ _ _ dw _ _ => some (some d.toNat, dwBytes dw)
  | .amax d _ _ _ _ dw _ _ => some (some d.toNat, dwBytes dw)
  | .aminu d _ _ _ _ dw _ _ => some (some d.toNat, dwBytes dw)
  | .amaxu d _ _ _ _ dw _ _ => some (some d.toNat, dwBytes dw)
  | .axchg d _ _ _ _ dw _ _ => some (some d.toNat, dwBytes dw)
  | .acas d _ _ _ _ _ dw _ _ => some (some d.toNat, dwBytes dw)
  | .afadd d _ _ _ _ _ _ => some (some d.toNat, 4)
  | .nmrAdd _ _ _ _ dw _ _ => some (none, dwBytes dw)
  | .nmrFadd _ _ _ _ _ _ => some (none, 4)
  | .nmrMin _ _ _ _ dw _ _ => some (none, dwBytes dw)
  | .nmrMax _ _ _ _ dw _ _ => some (none, dwBytes dw)
  | .nmrMinu _ _ _ _ dw _ _ => some (none, dwBytes dw)
  | .nmrMaxu _ _ _ _ dw _ _ => some (none, dwBytes dw)
  | .nmrAnd _ _ _ _ dw _ _ => some (none, dwBytes dw)
  | .nmrOr _ _ _ _ dw _ _ => some (none, dwBytes dw)
  | .nmrXor _ _ _ _ dw _ _ => some (none, dwBytes dw)
  | .ctradd _ _ _ _ _ _ => some (none, 8)
  | _ => none

/-! Ordering (R143 to R145, R336), WAITGE (R334). -/

/-- A load, tile load or unread copy of the thread whose class is in a mask (R143). -/
def beforeFence (s : State) (mask : BitVec 16) : Bool :=
  s.th.pend.any (fun e => match e.load with
    | some q => mask.getLsbD q.cls
    | none => false) ||
  s.grp.tld.any (fun c => c.th == cxOf s && mask.getLsbD c.cls) ||
  s.grp.ch.any (fun c => c.2.th == cxOf s && c.2.op != 1 && c.2.op != 3 && c.2.got.isNone && mask.getLsbD c.2.cls)

def execFence (mask : BitVec 16) (p : BitVec 5) (s : State) : Out :=
  slotOn s p (if mask = 0 then .next s
    else if beforeFence s mask then .next (block s)
    else .next { s with th := { s.th with fences := (mask.toNat, s.th.gate.length) :: s.th.fences } })

/-- REL (R144): held to step 2 of its mark. -/
def execRel (mask : BitVec 16) (scope : BitVec 3) (p : BitVec 5) (s : State) : Out :=
  slotOn s p (.next { s with th := { s.th with heldRel := some (mask.toNat, scope.toNat) } })

/-- An ACQ acts on a core's array (R145); what other devices have sent or are about to send to the core's readers was read before
it and is read again. -/
def acquireHere (s : State) (co mask : Nat) : State := { forget s (coreReader co) with core := acquire s.core mask }

/-- A load or tile load of the thread whose class is in a mask has not performed (R145). -/
def beforeAcq (s : State) (mask : BitVec 16) : Bool :=
  s.th.pend.any (fun e => match e.load with
    | some q => mask.getLsbD q.cls
    | none => false) ||
  s.grp.tld.any (fun c => c.th == cxOf s && mask.getLsbD c.cls)

def execAcq (mask : BitVec 16) (scope : BitVec 3) (p : BitVec 5) (s : State) : Out :=
  slotOn s p (if mask = 0 then .next s
    else if beforeAcq s mask then .next (block s)
    else if scope = 1 then .next s
    else .next (acquireHere s (coOf s) mask.toNat))

/-- The clean bytes of a sector leave the focused core's array, as replacement may take them at any time (R110). -/
def dropClean (s : State) (dev sec : Nat) : State :=
  let x := arrGet s.core dev sec
  { s with core := arrSet s.core dev sec { x with valid := x.dirty } }

/-- WAITGE (R334): the counter is read at home under its class, never from the core array; the earlier loads of its class have
performed (R150), and a copy of the counter that the array holds is older than what was read and leaves it (R151). -/
def execWaitge (h : BitVec 4) (x : BitVec 6) (imm : BitVec 14) (a : BitVec 6) (cls : BitVec 4) (p : BitVec 5)
    (s : State) : Out :=
  slotOn s p (withCounter s h x imm .r fun s hh l va =>
    let sec := l.num / 64
    let s := asReader s [0, coOf s, cxOf s]
    if loadHeld s cls.toNat || lineLocked s hh.dev (l.num / 256) then .next (block s)
    else match homeData s hh.dev sec with
    | none => .next { askSector s hh.dev sec cls.toNat with th := { s.th with run := .waitge } }
    | some v =>
      if (if isRemote s hh.dev then remoteBad s hh.dev sec else isPoisoned s l.num) then
        .next (raise (if isRemote s hh.dev then spent s else testSec s sec) .poison va)
      else if isRemote s hh.dev && remoteOut s hh.dev sec then .next (raise (spent s) .scratchUnmapped va)
      else
        let s := copiesRead s (cxOf s) cls.toNat (s.th.pos, s.th.slot)
        let s := dropClean (forgetAt s (fun d x t => d == hh.dev && x == sec && t == s.rtag)) hh.dev sec
        if (v.extractLsb' (8 * (l.num % 64)) 64).ult (sReg s.th a.toNat) then .next { s with th := { s.th with run := .waitge } }
        else .next s)

/-! Scratch and lines (R337, R338). -/

/-- The bytes of a kernel's rings (R113). -/
def ringBytes (g : Group) : Nat := g.kern.rings.foldl (fun n r => n + r.1 * r.2) 0

/-- The lines of a scratch range. -/
def lineRange (a b : Nat) : List Nat := upFrom (a / 256) ((a + b - 1) / 256 + 1 - a / 256)

/-- The sets that lines of scratch lie in, without repeats (R110, R112: the set is bits 18:8). -/
def setsOf (ls : List Nat) : List Nat := ls.foldl (fun l x => insNat (x % 2048) l) []

/-- The sets have no more than 16 lines each: cache lines give up their ways, their dirty bytes written back (R112). -/
def fitSets (s : State) (ls : List Nat) : State := (setsOf ls).foldl (fun s k => fitSet s k 0 17) s

/-- PIN's result: the group with the range pinned, or `none` (R112). A newly pinned line reads as zero (R111). -/
def pinLines (s : State) (ls : List Nat) : Option Group :=
  let g := s.grp
  let new := ls.filter (fun l => !g.pinned.contains l)
  let ways := new.foldl (fun l x => insNat x l) (heldLines s)
  if decide (g.kern.scratch < g.pinned.length + new.length) ||
     new.any (fun l => decide (15 < (ways.filter (fun k => k % 2048 == l % 2048)).length)) then none
  else some { g with pinned := new.foldl (fun l x => insNat x l) g.pinned,
                     scratch := tfilter (fun a => !new.contains (a / 256)) g.scratch,
                     badScr := g.badScr.filter (fun x => !new.contains (x / 4)) }

def execPin (d a b : BitVec 6) (p : BitVec 5) (s : State) : Out :=
  slotOn s p (
    let av := (sReg s.th a.toNat).toNat
    let bv := (sReg s.th b.toNat).toNat
    if bv = 0 then .next (putS s d.toNat 1 clsLoad)
    else if 0x800000 < av + bv then .next (raise s .handleBound av)
    else match pinLines s (lineRange av bv) with
      | some g => .next (putS (fitSets { s with grp := g } (lineRange av bv)) d.toNat 1 clsLoad)
      | none => .next (putS s d.toNat 0 clsLoad))

/-- UNPIN (R112, R337): blocks while a copy or tile load in flight writes a line of the range, and until the thread's earlier loads
from those lines have read them, scratch being accessed in program order; ring storage stays. -/
def execUnpin (a b : BitVec 6) (p : BitVec 5) (s : State) : Out :=
  slotOn s p (
    let av := (sReg s.th a.toNat).toNat
    let bv := (sReg s.th b.toNat).toNat
    if bv = 0 then .next s
    else if 0x800000 < av + bv then .next (raise s .handleBound av)
    else
      let ls := lineRange av bv
      let g := s.grp
      let writing := g.ch.any (fun c => c.2.op != 1 && c.2.bank.isNone && c.2.dst.any (fun x => ls.contains (x / 256))) ||
        g.tld.any (fun c => c.dst.any (fun x => ls.contains (x / 256))) ||
        s.th.pend.any (fun e => match e.load with
          | some q => (srcScr q.srcs).any (fun x => ls.contains (x / 256))
          | none => false)
      if writing then .next (block s)
      else
        let out := ls.filter (fun l => g.pinned.contains l && decide (ringBytes g ≤ 256 * l))
        let kept := out.map (fun l => (l, tbytes g.scratch (256 * l) 256, g.badScr.filter (fun x => x / 4 == l)))
        let c := { s.th.ckpt with unpins := s.th.ckpt.unpins ++ kept }
        .next { s with grp := { g with pinned := g.pinned.filter (fun l => !out.contains l),
                                       scratch := tfilter (fun x => !out.contains (x / 256)) g.scratch,
                                       badScr := g.badScr.filter (fun x => !out.contains (x / 4)) },
                       th := { s.th with ckpt := c } })

/-- PREF (R338): a hint that fills the line; what would fault or is not cached is ignored. A line of another device comes when
its data has come. A handle that needs a walk takes its new translation if the walk ends at once; a walk that cannot end at once
is not waited for, since a PREF never blocks, and the hint is ignored. -/
def execPref (h : BitVec 4) (x : BitVec 6) (imm : BitVec 24) (cls : BitVec 4) (p : BitVec 5) (s : State) : Out :=
  slotOn s p (match useHandle s h.toNat with
    | .ok s hh => (match locate s hh (effOff s x imm.toInt) 1 1 .r with
      | .ok (.mem d pa, va) =>
        if !cachedAt s d pa then .next s
        else if isRemote s d then
          let srcs := (upFrom (pa / 256 * 256) 256).map (ByteSrc.home d)
          .next { s with th := pushLoad s.th (.s 0) (lateReq s srcs (.pref cls.toNat) va) clsLoad }
        else .next ((upFrom (pa / 256 * 4) 4).foldl (fun s sec =>
          if (arrGet s.core d sec).valid == BitVec.allOnes 64 then s
          else
            let s := testSec s sec
            if secBad s sec then s else fillWith s d sec cls.toNat (homeSector s sec)) s)
      | _ => .next s)
    | _ => .next s)

/-- CLEAN and INVAL (R338): the line's dirty bytes are written back; `drop` also invalidates it. -/
def lineOp (s : State) (h : BitVec 4) (x : BitVec 6) (imm : BitVec 24) (drop : Bool) : Out :=
  withAccess s h.toNat (effOff s x imm.toInt) 1 1 .none fun s _ l _ =>
    match l with
    | .mem d pa => .next (if cachedAt s d pa then cleanLine s d (pa / 256) drop else s)
    | _ => .next s
def execClean (h : BitVec 4) (x : BitVec 6) (imm : BitVec 24) (p : BitVec 5) (s : State) : Out :=
  slotOn s p (lineOp s h x imm false)
def execInval (h : BitVec 4) (x : BitVec 6) (imm : BitVec 24) (p : BitVec 5) (s : State) : Out :=
  slotOn s p (lineOp s h x imm true)

/-! Tile loads and stores (R339). -/

/-- A tile load accepted: in flight until TLD_LANDING; its bytes come from the gate where it holds them now. -/
def tldStart (s : State) (m : Side) (dst : List Nat) (ring : Option (Nat × Nat)) (cls : Nat) : State :=
  let c : TldCmd :=
    { src := (sideBytes m).map (srcOf s.th), dst := dst, cls := cls, ring := ring, pos := s.th.pos, th := cxOf s,
      addr := match m.runs with
        | r :: _ => r.2
        | [] => 0,
      slot := s.th.slot, bpc := s.th.bpc }
  { s with grp := { s.grp with tld := s.grp.tld ++ [c] } }

def execTld (h : BitVec 4) (x : BitVec 6) (wm : BitVec 3) (tk : BitVec 1) (q : BitVec 3) (ht : BitVec 4)
    (xt : BitVec 6) (wt : BitVec 3) (cls : BitVec 4) (p : BitVec 5) (s : State) : Out :=
  slotOn s p (withSide s (side s h.toNat x (wReg s.th wm.toNat) memOrPl .r) fun s m =>
    if tk = 1 then
      withSide s (side s ht.toNat xt (wReg s.th wt.toNat) scrOnly .w) fun s t =>
        if sideTotal m != sideTotal t then .next (raise s .formatInvalid 0)
        else if busy s [] (linesOf (sideScr t)) then .next (block s)
        else .next (tldStart s m (sideScr t) none cls.toNat)
    else if !ringDeclared s.grp q.toNat then .next (raise s .formatInvalid 0)
    else
      let r := ringOf s.grp q.toNat
      if r.bytes < sideTotal m then .next (raise s .formatInvalid 0)
      else if ringIsFull r then .next (stallOn s q.toNat .ringFull)
      else if busy s [] [.slot q.toNat r.tail] then .next (block s)
      else
        let (s', k) := ringPush s q.toNat
        .next (tldStart s' m (upFrom (slotAddr r k) (sideTotal m)) (some (q.toNat, k)) cls.toNat))

/-- Bytes laid down run by run through the gate (R339). -/
def storeRuns (s : State) (cls : Nat) (run : Nat) : List (Loc × Nat) → List Byte → State
  | [], _ => s
  | r :: rs, bs => storeRuns (storeAt s r.1 (bs.take run) cls r.2) cls run rs (bs.drop run)

/-- TST's bytes: the thread's own stores in the gate first (R22, R339), then scratch; poisoned scratch raises POISON. -/
def tstStore (s : State) (m : Side) (src : List Nat) (cls : Nat) : Out :=
  let srcs := src.map (fun a => srcOf s.th (.scr a))
  if srcs.any (srcPoison s) then .next (raise s .poison (match src with
    | a :: _ => a
    | [] => 0))
  else .next (storeRuns s cls m.run m.runs (srcs.map (takeByte s)))

def execTst (h : BitVec 4) (x : BitVec 6) (wm : BitVec 3) (tk : BitVec 1) (q : BitVec 3) (ht : BitVec 4)
    (xt : BitVec 6) (wt : BitVec 3) (cls : BitVec 4) (p : BitVec 5) (s : State) : Out :=
  slotOn s p (
    if tk = 1 then
      withSide s (side s ht.toNat xt (wReg s.th wt.toNat) scrOnly .r) fun s t =>
        withSide s (side s h.toNat x (wReg s.th wm.toNat) memOrPl.atCommit .w) fun s m =>
          if sideTotal m != sideTotal t then .next (raise s .formatInvalid 0)
          else if busy s (linesOf (sideScr t)) [] then .next (block s)
          else tstStore s m (sideScr t) cls.toNat
    else if !ringDeclared s.grp q.toNat then .next (raise s .formatInvalid 0)
    else withSide s (side s h.toNat x (wReg s.th wm.toNat) memOrPl.atCommit .w) fun s m =>
      let r := ringOf s.grp q.toNat
      if decide (r.bytes < sideTotal m) || r.filled == 0 then .next (raise s .formatInvalid 0)
      else if busy s [.slot q.toNat r.head] [] then .next (block s)
      else tstStore s m (upFrom (slotAddr r r.head) (sideTotal m)) cls.toNat)

/-! Lowered windows (R136, R137, R199, R340). -/

/-- LOWER's and RAISE's checks at issue (R340). -/
def windowIssue (s : State) (i : Instr) (h : BitVec 4) (x : BitVec 6) (imm : BitVec 14) (a : BitVec 6) : Out :=
  match useHandle s h.toNat with
  | .bad c va => .next (raise s c va)
  | .wait s' => .next s'
  | .ok s' hh =>
    let off := effOff s x imm.toInt
    let n := (sReg s.th a.toNat).toNat
    let va := addrOf hh off
    let w := window s'.grp hh
    if hh.st == .empty || !hh.w || hh.space != .memory || hh.stack.isNone || isRemote s' hh.dev then
      .next (raise s' .handlePerm 0)
    else if va % 65536 != 0 || n == 0 || n % 65536 != 0 then .next (raise s' .align (wrapNat va 64))
    else if decide (va < w.1) || decide (w.2 < va + n) then .next (raise s' .handleBound (wrapNat va 64))
    else .next (holdOp s' i (BitVec.ofNat 64 n) 0 0 hh (.mem hh.dev (wrapNat ((hh.pa : Int) + off) 64)) (wrapNat va 64))
def execLower (d : BitVec 6) (h : BitVec 4) (x : BitVec 6) (imm : BitVec 14) (a : BitVec 6) (cls : BitVec 4)
    (p : BitVec 5) (s : State) : Out :=
  slotOn s p (windowIssue s (.lower d h x imm a cls p) h x imm a)
def execRaise (h : BitVec 4) (x : BitVec 6) (imm : BitVec 14) (a : BitVec 6) (cls : BitVec 4) (p : BitVec 5)
    (s : State) : Out :=
  slotOn s p (windowIssue s (.raise h x imm a cls p) h x imm a)

/-- The other devices of the set learn that a window here has been lowered (operation 12) or raised (13), since their cores cache
none of its lines from then on, or may again (R136, R139; log entry 40). -/
def tellWindow (s : State) (op pa n : Nat) : State := (otherRanks s).foldl (fun s r => sendSet11 s r op pa 0 (leBytes n 8)) s

/-- LOWER at step 2 (R136, R199): the state and the status. -/
def lowerWindow (s : State) (pa n : Nat) : State × Nat :=
  if s.lowered.contains (pa, n) then (s, 1)
  else if s.lowered.any (fun w => decide (w.1 < pa + n) && decide (pa < w.1 + w.2)) then (s, 0)
  else if 64 ≤ (s.lowered.filter (fun w => stackOf s w.1 == stackOf s pa)).length then (s, 0)
  else
    let s := flushRange s (ownRank s) pa n
    (tellWindow { s with lowered := s.lowered ++ [(pa, n)] } 12 pa n, 1)

/-- A launch holds a window from the moment it takes effect until its completion add (R199). -/
def windowHeld (s : State) (pa n : Nat) : Bool :=
  s.launches.any (fun l => l.ballast && l.took && !l.finished && l.wpa == pa && l.wlen == n)

/-- RAISE at step 2 (R137, R199): it matches only a window identical to a lowered one; `none` where a launch holds it. -/
def raiseWindow (s : State) (pa n : Nat) : Option State :=
  if windowHeld s pa n then none
  else if s.lowered.contains (pa, n) then some (tellWindow { s with lowered := s.lowered.filter (fun w => w != (pa, n)) } 13 pa n)
  else some s

/-! Portable coordinates (R217 to R219, R341). -/

def execWcloc (d a b : BitVec 6) (sel : BitVec 1) (p : BitVec 5) (s : State) : Out :=
  slotOn s p (match patternOf s (sReg s.th a.toNat) (sReg s.th b.toNat) with
    | none => .next (raise s .coordRange (sReg s.th b.toNat).toNat)
    | some t => .next (putS s d.toNat (wclocWord t (sReg s.th b.toNat).toNat (sel == 1)) clsLoad))

/-- The name under which the answer of another device to a WCRD is kept: the address of its first word, beyond every sector. -/
def wcKey (pa : Nat) : Nat := 2 ^ 50 + pa

/-- A WCRD sent to the device that holds its words (R218, R255): operation 17, with the index and what the home needs, once. -/
def askWcrd (s : State) (dev pa i cls : Nat) (more : List Byte) : State :=
  if asking s dev (wcKey pa) || (remoteData s dev (wcKey pa)).isSome then s
  else sendFlit { s with readWait := s.readWait ++ [(dev, wcKey pa, cls, s.rtag)] } dev 4 cls pa
    ([17, 8] ++ leBytes 0 8 ++ leBytes i 8 ++ leBytes 0x4000 2 ++ more)

/-- A portable-coordinate access that waits for a table or a word of another device, as a walk does (R129). -/
def wcWait (s : State) : State :=
  let n := triesOf s.th
  if n = 0 then block s else { s with th := { s.th with run := .walking (3 * n + 2) } }

/-- A WCRD's words at their places: read as one access where another device holds them all, else here. -/
def wcrdAt (s : State) (d : Nat) (t : Tensor) (i cls : Nat) (l : List WcWord) : State :=
  match wcHome s l with
  | some dev =>
    let pa := match l with
      | x :: _ => x.pa
      | [] => 0
    (match remoteData s dev (wcKey pa) with
     | none => wcWait (askWcrd s dev pa i cls (wcPayload t l))
     | some bs =>
       let v := leNat (bs.drop 1)
       if leNat (bs.take 1) = 0 then putS (spent (copiesRead s (cxOf s) cls (s.th.pos, s.th.slot))) d (BitVec.ofNat 64 v) clsLoad
       else raise (spent s) .poison (match l.drop v with
         | x :: _ => t.va + (x.at_ - t.pa)
         | [] => t.va))
  | none => match l.find? (fun x => (homeData s x.dev (x.pa / 64)).isNone) with
    | some x => wcWait (askSector s x.dev (x.pa / 64) cls)
    | none =>
      if l.any (wcBad s) then raise (wcTested (spent s) l) .poison (poisonVa s t l)
      else
        let s := copiesRead s (cxOf s) cls (s.th.pos, s.th.slot)
        putS (spent s) d (wcrdWord (wcView s l) t i) clsLoad

/-- WCRD (R218): a load of its class performed at home, here or on another device (R255); what performs before an access of its class
has (R150). Its words lie where their VAs translate now; a migrating entry is retried as R129 says (R262). -/
def execWcrd (d a b : BitVec 6) (cls : BitVec 4) (p : BitVec 5) (s : State) : Out :=
  slotOn s p (match patternOf s (sReg s.th a.toNat) (sReg s.th b.toNat) with
    | none => .next (raise s .coordRange (sReg s.th b.toNat).toNat)
    | some t =>
      let i := (sReg s.th b.toNat).toNat
      let s := asReader s [0, coOf s, cxOf s]
      if loadHeld s cls.toNat then .next (block s)
      else match wcPlaces s s.grp.image t (blockWords t i false) with
        | .ask x y => .next (wcWait (askSector s x y cls.toNat))
        | .mig =>
          if 64 ≤ triesOf s.th then .next (raise s .walkFault t.va)
          else .next { spent s with th := { s.th with run := .walking (3 * triesOf s.th) } }
        | .fenced va => .next (raise s .deviceFenced va)
        | .ok l =>
          if l.any (fun x => lineLocked s x.dev (x.pa / 256)) then .next (block s)
          else .next (wcrdAt s d.toNat t i cls.toNat l))

/-- WCWR at issue (R219): COORD_RANGE; the write is performed at step 2. -/
def execWcwr (d a b c : BitVec 6) (cls : BitVec 4) (p : BitVec 5) (s : State) : Out :=
  slotOn s p (match patternOf s (sReg s.th a.toNat) (sReg s.th b.toNat) with
    | none => .next (raise s .coordRange (sReg s.th b.toNat).toNat)
    | some _ => .next (holdOp s (.wcwr d a b c cls p) (sReg s.th a.toNat) (sReg s.th b.toNat) (sReg s.th c.toNat)
        Handle.init (.scr 0) (sReg s.th b.toNat).toNat))

/-- What a held operation of this device does at step 2 (R23, R148): a fault, or the state after it. -/
inductive Held where
  | bad (c : FaultCode) | done (s : State)

/-- The class of a read-modify-write (R138). -/
def rmwCls : Instr → Nat
  | .aadd _ _ _ _ _ _ c _ => c.toNat
  | .aand _ _ _ _ _ _ c _ => c.toNat
  | .aor _ _ _ _ _ _ c _ => c.toNat
  | .axor _ _ _ _ _ _ c _ => c.toNat
  | .amin _ _ _ _ _ _ c _ => c.toNat
  | .amax _ _ _ _ _ _ c _ => c.toNat
  | .aminu _ _ _ _ _ _ c _ => c.toNat
  | .amaxu _ _ _ _ _ _ c _ => c.toNat
  | .axchg _ _ _ _ _ _ c _ => c.toNat
  | .acas _ _ _ _ _ _ _ c _ => c.toNat
  | .afadd _ _ _ _ _ c _ => c.toNat
  | .nmrAdd _ _ _ _ _ c _ => c.toNat
  | .nmrFadd _ _ _ _ c _ => c.toNat
  | .nmrMin _ _ _ _ _ c _ => c.toNat
  | .nmrMax _ _ _ _ _ c _ => c.toNat
  | .nmrMinu _ _ _ _ _ c _ => c.toNat
  | .nmrMaxu _ _ _ _ _ c _ => c.toNat
  | .nmrAnd _ _ _ _ _ c _ => c.toNat
  | .nmrOr _ _ _ _ _ c _ => c.toNat
  | .nmrXor _ _ _ _ _ c _ => c.toNat
  | .ctradd _ _ _ _ c _ => c.toNat
  | .wcwr _ _ _ _ c _ => c.toNat
  | _ => 0

/-- The words of the block that a held WCWR writes. -/
def wcwrWords (s : State) (o : HeldOp) (t : Tensor) : Places :=
  wcPlaces (asReader s [0, coOf s, cxOf s]) s.grp.image t (blockWords t o.b.toNat true)

/-- What a held WCWR does at step 2: a fault, its effect here with the status issued, a sector of another device to read first, a
migrating entry, or another device at which it is performed. -/
inductive Wcwr where
  | bad (c : FaultCode) | done (s : State) | wait (dev sec : Nat) | mig | far (t : Tensor) (l : List WcWord) (dev : Nat)

/-- WCWR at step 2 (R219, R255): performed at the one device that holds its block's words. Where they lie on several, which only a
block across a boundary of 1 TiB can do, those of other devices are read first and written back (log entry 47). -/
def wcwrPerform (s : State) (d : Nat) (o : HeldOp) : Wcwr :=
  match patternOf s o.a o.b with
  | none => .bad .coordRange
  | some t => match wcwrWords s o t with
    | .ask x y => .wait x y
    | .mig => if 64 ≤ o.tries then .bad .walkFault else .mig
    | .fenced _ => .bad .deviceFenced
    | .ok l =>
      let s1 := asReader s [0, coOf s, cxOf s]
      if l.any (fun w => heldSec s w.dev (w.pa / 64)) then .done (putS s d 0 clsLoad)
      else match wcHome s l with
        | some dev => .far t l dev
        | none => match l.find? (fun x => (homeData s1 x.dev (x.pa / 64)).isNone) with
          | some x => .wait x.dev (x.pa / 64)
          | none => match wcwrAt s1 s.grp.image t o.b.toNat (wcwrValue t o.c) l (rmwCls o.ins) with
            | .error c => .bad c
            | .ok r => .done (putS (spent r.1) d (BitVec.ofNat 64 r.2) clsLoad)

/-- The address that a fault of a held operation reports (R230): its operand's, and of WCWR the word's that is poisoned or lies on a
fenced device. -/
def heldAddr (s : State) (o : HeldOp) (c : FaultCode) : Nat :=
  match o.ins with
  | .wcwr .. => match patternOf s o.a o.b with
    | some t => (match wcwrWords s o t with
      | .ok l => if c == .poison then poisonVa (asReader s [0, coOf s, cxOf s]) t l else o.addr
      | .fenced va => if c == .deviceFenced then va else o.addr
      | _ => if c == .walkFault then t.va else o.addr)
    | none => o.addr
  | _ => o.addr

/-- The number by which an atomic's or NMR's flit names its operation (the model's own numbering). -/
def rmwNum : Instr → Nat
  | .aadd .. => 0 | .aand .. => 1 | .aor .. => 2 | .axor .. => 3 | .amin .. => 4 | .amax .. => 5 | .aminu .. => 6
  | .amaxu .. => 7 | .axchg .. => 8 | .acas .. => 9 | .afadd .. => 10 | .nmrAdd .. => 0 | .nmrFadd .. => 10
  | .nmrMin .. => 4 | .nmrMax .. => 5 | .nmrMinu .. => 6 | .nmrMaxu .. => 7 | .nmrAnd .. => 1 | .nmrOr .. => 2
  | .nmrXor .. => 3 | .wcwr .. => 16 | _ => 0

/-- A read-modify-write on this device or in scratch at step 2 (R332 to R335). -/
def rmwPerform (s : State) (o : HeldOp) (d : Option Nat) (n : Nat) : Held :=
  let w := 8 * n
  let fin := fun (s : State) (old : Nat) => match d with
    | some r => putS s r (BitVec.ofNat 64 old) clsLoad
    | none => s
  let new := fun old => rmw o.ins w old (o.a.toNat % 2 ^ w) (o.b.toNat % 2 ^ w)
  if o.h.space == .scratch then
    if s.grp.badScr.contains (o.pa / 64) then .bad .poison
    else
      let old := leNat (tbytes s.grp.scratch o.pa n)
      .done (fin { s with grp := { s.grp with scratch := tstore s.grp.scratch o.pa (leBytes (new old) n) } } old)
  else
    let s := cleanLine s o.h.dev (o.pa / 256) true
    if isPoisoned s o.pa then .bad .poison
    else if saddleOut s o.pa then .bad .scratchUnmapped
    else
      let old := memNat s o.pa n
      .done (fin (noticeCounter (homeStore s o.pa (leBytes (new old) n)) (o.pa / 8 * 8)) old)

end Sys2Proof.Machine
end

