-- ==== Sys2Proof/Machine/Vector.lean ====
section
/-!
DEFINITION. The V slots: the cascade and its units (R345 to R349), the standalone instructions (R351 to R354), vector
memory access (R355, R356).
-/
namespace Sys2Proof.Machine
open Sys2Proof

/-! Units of the cascade. -/

/-- A W-bit sub-element read by a numeric unit (R84, R346): `none` is FORMAT_INVALID. -/
def readNum (w : Nat) (sg : Bool) (rsub v : Nat) : Option Int :=
  if !sg then some (v % 2 ^ w : Nat)
  else if (w == 8 || w == 4) && v % 2 ^ w == 2 ^ (w - 1) then
    (match rsub with
      | 0 => some (sextNat v w)
      | 1 => some (sextNat v w + 1)
      | 2 => some 0
      | _ => none)
  else some (sextNat v w)

/-- The range SCALE saturates to (R346, R84). -/
def scaleRange (w : Nat) (sg : Bool) (rsub : Nat) : Int × Int :=
  if !sg then (0, (2 ^ w : Nat) - 1)
  else if (w == 8 || w == 4) && rsub != 0 then (-((2 ^ (w - 1) : Nat) - 1), (2 ^ (w - 1) : Nat) - 1)
  else (-(2 ^ (w - 1) : Nat), (2 ^ (w - 1) : Nat) - 1)

/-- CMP's condition on integers (R348). -/
def cmpInt (md : Nat) (x y : Int) : Bool :=
  match md with
  | 0 => x == y
  | 1 => x != y
  | 2 => decide (x < y)
  | 3 => decide (x ≤ y)
  | 4 => decide (y < x)
  | _ => decide (y ≤ x)

/-- CMP's condition on FP32 values (R347, R348): with a NaN only `ne` holds. -/
def cmpFp (md : Nat) (x y : Fv) : Bool :=
  if isNan x || isNan y then md == 1
  else match md with
    | 0 => feq x y
    | 1 => !feq x y
    | 2 => flt x y
    | 3 => flt x y || feq x y
    | 4 => flt y x
    | _ => flt y x || feq x y

/-- An integer unit on one W-bit sub-element (R347); `sg` its signedness. -/
def unitInt (op md w : Nat) (sg : Bool) (rm rsub x y : Nat) : Option Nat :=
  let num := fun (f : Int → Int → Int) => match readNum w sg rsub x, readNum w sg rsub y with
    | some a, some b => some (wrapNat (f a b) w)
    | _, _ => none
  let one := fun (f : Int → Int) => match readNum w sg rsub x with
    | some a => some (wrapNat (f a) w)
    | none => none
  let sh := y % 2 ^ w % w
  match op with
  | 0 => some x
  | 1 => num (fun a b => a + b)
  | 2 => num (fun a b => a - b)
  | 3 => num (fun a b => a * b)
  | 4 => num (fun a b => min a b)
  | 5 => num (fun a b => max a b)
  | 6 => some (x &&& y)
  | 7 => some (x ||| y)
  | 8 => some (x ^^^ y)
  | 9 => some (x * 2 ^ sh % 2 ^ w)
  | 10 => some (x / 2 ^ sh)
  | 11 => some (wrapNat (sextNat x w / (2 ^ sh : Nat)) w)
  | 12 => one (fun a => if sg then (a.natAbs : Int) else a)
  | 13 => one (fun a => -a)
  | 14 => one (fun a => if sg then max a 0 else a)
  | 16 => some (if (match md with
      | 0 => x != 0
      | 1 => decide (2 ^ (w - 1) ≤ x)
      | _ => x == 0) then y else x)
  | 17 => match readNum w sg rsub x, readNum w sg rsub y with
    | some a, some b => some (if cmpInt md a b then 2 ^ w - 1 else 0)
    | _, _ => none
  | 18 => match readNum w sg rsub x, readNum w true rsub y with
    | some a, some n =>
      let r := scaleRange w sg rsub
      match fOfInt a with
      | .fin g m e => some (wrapNat (fToInt rm r.1 r.2 (.fin g m (e + clampInt n (-64) 64))) w)
      | _ => none
    | _, _ => none
  | 19 => num (fun a b =>
      if md = 0 then (if sg then min (max a (-(b.natAbs : Int))) b.natAbs else min a b)
      else min (max a 0) (max b 0))
  | _ => some x

/-- An FP32 unit (R347). -/
def unitF32 (op md rm : Nat) (x y : BitVec 32) : BitVec 32 :=
  let a := f32 x
  let b := f32 y
  match op with
  | 0 => x
  | 1 => r32 rm (fadd rm a b)
  | 2 => r32 rm (fadd rm a (fneg b))
  | 3 => r32 rm (fmul a b)
  | 4 => fminmax false x y
  | 5 => fminmax true x y
  | 12 => if isNan a then nan32 else x &&& 0x7FFFFFFF
  | 13 => if isNan a then nan32 else x ^^^ 0x80000000
  | 14 => if isNan a then nan32 else if flt (.fin false 0 0) a then x else 0
  | 16 => if (match md with
      | 0 => x != 0
      | 1 => x.msb
      | 2 => isNan a
      | _ => x == 0) then y else x
  | 17 => if cmpFp md a b then 0xFFFFFFFF else 0
  | 18 => match a with
    | .fin g n e => r32 rm (.fin g n (e + clampInt y.toInt (-1000) 1000))
    | _ => r32 rm a
  | 19 =>
    if isNan a || isNan b then nan32
    else
      let hi := if md = 0 then y &&& 0x7FFFFFFF else fminmax true y 0
      let lo := if md = 0 then hi ||| 0x80000000 else 0
      fminmax false (fminmax true x lo) hi
  | _ => x

/-- The signed code laid out in a lane: INT16, INT8 and INT4 sign-extended, the others zero above (R349). -/
def layOut (code w v : Nat) : BitVec 32 :=
  if code = 7 || code = 9 || code = 11 then BitVec.ofInt 32 (sextNat v w) else BitVec.ofNat 32 v

/-- CVT (R349): `ty` the source type, `md` the target; `none` is FORMAT_INVALID. -/
def cvtLane (fmt : Word) (ty md : Nat) (x : BitVec 32) : Option (BitVec 32) :=
  let v : Option Fv := match ty with
    | 0 => some (f32 x)
    | 1 => some (fOfInt x.toInt)
    | 2 => some (fOfInt x.toNat)
    | _ => if fmtVFA fmt = 6 then none else elemVal (fmtVFA fmt) (fmtRSUB fmt) x.toNat
  let code : Option Nat := match md with
    | 0 => some 0
    | 1 => some 12
    | 2 => none
    | 3 => some 1
    | 4 => some 2
    | 5 => some 3
    | 6 => some 4
    | _ => some (fmtVFB fmt)
  match v with
  | none => none
  | some a => match code with
    | none => some (BitVec.ofInt 32 (fToInt (fmtRM fmt) 0 0xFFFFFFFF a))
    | some c =>
      if c = 6 then none
      else match elemEnc c (fmtRM fmt) (fmtRSUB fmt) (fmtSAT fmt) a with
        | some r => some (layOut c (fmtBits c 0) r)
        | none => none

/-- The width of FMT.IWID (R73). -/
def iwid (fmt : Word) : Nat := 32 / 2 ^ fmtIWID fmt

/-- Sub-elements from the lowest of `n`, each put through `f`; one that faults faults the lane. -/
def packSub (w : Nat) (f : Nat → Nat → Option Nat) (x y : Nat) : Nat → Option Nat
  | 0 => some 0
  | n + 1 => match f (x % 2 ^ w) (y % 2 ^ w), packSub w f (x / 2 ^ w) (y / 2 ^ w) n with
    | some a, some r => some (a + 2 ^ w * r)
    | _, _ => none

/-- One unit of a cascade on one lane (R345 to R349); `none` is FORMAT_INVALID. -/
def unitLane (fmt : Word) (op ty md : Nat) (x y : BitVec 32) : Option (BitVec 32) :=
  if op = 15 then cvtLane fmt ty md x
  else match ty with
    | 0 => some (unitF32 op md (fmtRM fmt) x y)
    | 1 => (unitInt op md 32 true (fmtRM fmt) (fmtRSUB fmt) x.toNat y.toNat).map (BitVec.ofNat 32)
    | 2 => (unitInt op md 32 false (fmtRM fmt) (fmtRSUB fmt) x.toNat y.toNat).map (BitVec.ofNat 32)
    | _ => (packSub (iwid fmt) (unitInt op md (iwid fmt) (fmtISGN fmt) (fmtRM fmt) (fmtRSUB fmt)) x.toNat y.toNat
        (32 / iwid fmt)).map (BitVec.ofNat 32)

/-- The lanes `l` upwards, `n` of them, of a lane function; a lane that faults faults the slot. -/
def lanesOpt (f : Nat → Option (BitVec 32)) (l : Nat) : Nat → Option Nat
  | 0 => some 0
  | n + 1 => match f l, lanesOpt f (l + 1) n with
    | some a, some r => some (a.toNat + 2 ^ 32 * r)
    | _, _ => none

/-- The vector registers the focused thread's clusters wait for under an ACCRD of an earlier bundle in flight (R381). -/
def vBusy (s : State) (rs : List Nat) : Bool :=
  s.grp.mx.any (fun o => o.2.th == cxOf s && o.2.pos != s.th.pos && rs.any (fun r => (mxTiles o.2).2.contains (.vreg (cxOf s) r)))

/-- A V or SF slot that reads and writes the registers `rs`: blocked while one is busy (R381). -/
def vSlot (s : State) (p : BitVec 5) (rs : List Nat) (k : State → Out) : Out :=
  if !predOk s.th p then .next s else if vBusy s rs then .next (block s) else k s

/-- The number of register `r` of cluster `cl`. -/
def vNum (cl : BitVec 3) (r : BitVec 5) : Nat := 32 * cl.toNat + r.toNat

/-- Lane l of register r of cluster cl. -/
def vLane (s : State) (cl : BitVec 3) (r : BitVec 5) (l : Nat) : BitVec 32 := laneOf (vReg s.th cl.toNat r.toNat) l

/-- A vector result that lands in the vector cascade class. -/
def putVec (s : State) (cl : BitVec 3) (d : BitVec 5) (x : VReg) : State := putV s cl.toNat d.toNat x clsVec

/-- The cascade on lane l (R345). -/
def cascade (s : State) (cl : BitVec 3) (va vb vc ve opa opb opc : BitVec 5) (tya tyb tyc : BitVec 2)
    (mda mdb mdc : BitVec 3) (l : Nat) : Option (BitVec 32) :=
  match unitLane s.th.fmt opa.toNat tya.toNat mda.toNat (vLane s cl va l) (vLane s cl vb l) with
  | none => none
  | some x => match unitLane s.th.fmt opb.toNat tyb.toNat mdb.toNat x (vLane s cl vc l) with
    | none => none
    | some y => unitLane s.th.fmt opc.toNat tyc.toNat mdc.toNat y (vLane s cl ve l)

/-- The registers that a cascade reads: the first unit's two, and one for each later unit; a unit code that takes no register
leaves its field unused (R290). -/
def vxRegs (cl : BitVec 3) (va vb vc ve opa opb opc : BitVec 5) : List Nat :=
  vNum cl va :: ((if unitNoReg opa then [] else [vNum cl vb]) ++ (if unitNoReg opb then [] else [vNum cl vc]) ++
    (if unitNoReg opc then [] else [vNum cl ve]))

def execVx (cl : BitVec 3) (vd va vb vc ve opa opb opc : BitVec 5) (tya tyb tyc : BitVec 2) (mda mdb mdc : BitVec 3)
    (p : BitVec 5) (s : State) : Out :=
  vSlot s p (vNum cl vd :: vxRegs cl va vb vc ve opa opb opc) fun s =>
    match lanesOpt (cascade s cl va vb vc ve opa opb opc tya tyb tyc mda mdb mdc) 0 16 with
    | some x => .next (putVec s cl vd (BitVec.ofNat 512 x))
    | none => .next (raise s .formatInvalid 0)

/-! Standalone instructions. -/

/-- The formats a form of VDOT accepts (R351). -/
def dotOk (form code : Nat) : Bool :=
  match form with
  | 0 => code == 7 || code == 8 || code == 3 || code == 4
  | 1 => code == 11 || code == 1 || code == 2
  | _ => code == 9 || code == 10 || code == 5

/-- An integer format. -/
def isIntFmt (code : Nat) : Bool := decide (7 ≤ code) && decide (code ≤ 12)

/-- VDOT's element width. -/
def dotW (form : Nat) : Nat := if form = 0 then 8 else if form = 1 then 16 else 4

/-- The products of one lane (R351): `none` when a reserved code is read under RSUB = 11. -/
def dotTerms (fmt : Word) (w a b : Nat) : Nat → Option (List Fv)
  | 0 => some []
  | n + 1 =>
    match elemVal (fmtVFA fmt) (fmtRSUB fmt) (a % 2 ^ w), elemVal (fmtVFB fmt) (fmtRSUB fmt) (b % 2 ^ w),
      dotTerms fmt w (a / 2 ^ w) (b / 2 ^ w) n with
    | some x, some y, some r => some (fmulInt (isIntFmt (fmtVFA fmt) && isIntFmt (fmtVFB fmt)) x y :: r)
    | _, _, _ => none

/-- VDOT on one lane (R351, R91). -/
def dotLane (fmt : Word) (form dest : Nat) (a b c : BitVec 32) : Option (BitVec 32) :=
  let sg := fmtISGN fmt
  match dotTerms fmt (dotW form) a.toNat b.toNat (32 / dotW form) with
  | none => none
  | some ts =>
    if dest = 2 then some (r32 (fmtRM fmt) (fsum (fmtRM fmt) (f32 c :: ts)))
    else
      let w := if dest = 0 then 32 else 16
      let ci : Int := if sg then sextNat c.toNat w else ((c.toNat % 2 ^ w : Nat) : Int)
      let t := match fsum 0 (fOfInt ci :: ts) with
        | .fin g n e => if g then -((n * 2 ^ e.toNat : Nat) : Int) else ((n * 2 ^ e.toNat : Nat) : Int)
        | _ => 0
      some (BitVec.ofInt 32 (satInt sg w t))

def execVdot (cl : BitVec 3) (vd va vb vc : BitVec 5) (form dest : BitVec 2) (p : BitVec 5) (s : State) : Out :=
  vSlot s p [vNum cl vd, vNum cl va, vNum cl vb, vNum cl vc] fun s =>
    let fmt := s.th.fmt
    if !dotOk form.toNat (fmtVFA fmt) || !dotOk form.toNat (fmtVFB fmt) ||
       (dest != 2 && !(isIntFmt (fmtVFA fmt) && isIntFmt (fmtVFB fmt))) then .next (raise s .formatInvalid 0)
    else match lanesOpt (fun l => dotLane fmt form.toNat dest.toNat (vLane s cl va l) (vLane s cl vb l) (vLane s cl vc l)) 0 16 with
      | some x => .next (putVec s cl vd (BitVec.ofNat 512 x))
      | none => .next (raise s .formatInvalid 0)

/-- A fold over lanes. -/
def foldLanes (f : BitVec 32 → BitVec 32 → BitVec 32) : List (BitVec 32) → BitVec 32
  | [] => 0
  | x :: r => r.foldl f x

/-- A reduction of lanes (R352, R403): operation, type (0 f32, 1 i32, 2 u32), rounding mode; a 64-bit result. -/
def reduceLanes (op ty rm : Nat) (xs : List (BitVec 32)) : Word :=
  match op with
  | 0 =>
    if ty = 0 then (r32 rm (fsum rm (xs.map f32))).setWidth 64
    else if ty = 1 then BitVec.ofInt 64 (xs.foldl (fun n x => n + x.toInt) 0)
    else BitVec.ofNat 64 (xs.foldl (fun n x => n + x.toNat) 0)
  | 1 =>
    if ty = 0 then (foldLanes (fminmax false) xs).setWidth 64
    else if ty = 1 then (foldLanes (fun a b => if b.slt a then b else a) xs).signExtend 64
    else (foldLanes (fun a b => if b.ult a then b else a) xs).setWidth 64
  | 2 =>
    if ty = 0 then (foldLanes (fminmax true) xs).setWidth 64
    else if ty = 1 then (foldLanes (fun a b => if a.slt b then b else a) xs).signExtend 64
    else (foldLanes (fun a b => if a.ult b then b else a) xs).setWidth 64
  | 3 => (foldLanes (fun a b => a &&& b) xs).setWidth 64
  | 4 => (foldLanes (fun a b => a ||| b) xs).setWidth 64
  | _ => (foldLanes (fun a b => a ^^^ b) xs).setWidth 64

def execVred (cl : BitVec 3) (sd : BitVec 6) (v : BitVec 5) (op : BitVec 3) (ty : BitVec 2) (p : BitVec 5)
    (s : State) : Out :=
  vSlot s p [vNum cl v] fun s =>
    .next (putS s sd.toNat (reduceLanes op.toNat ty.toNat (fmtRM s.th.fmt) ((upFrom 0 16).map (vLane s cl v))) clsVec)

def execVperm (cl : BitVec 3) (vd va vb vc : BitVec 5) (p : BitVec 5) (s : State) : Out :=
  vSlot s p [vNum cl vd, vNum cl va, vNum cl vb, vNum cl vc] fun s =>
    .next (putVec s cl vd (mkV (fun l =>
      let i := (vLane s cl vb l).toNat % 32
      if i < 16 then vLane s cl va i else vLane s cl vc (i - 16))))

def execVbcast (cl : BitVec 3) (v : BitVec 5) (sa : BitVec 6) (md : BitVec 2) (p : BitVec 5) (s : State) : Out :=
  vSlot s p [vNum cl v] fun s =>
    let x := (sReg s.th sa.toNat).toNat
    let y := if md = 0 then x % 2 ^ 32 else if md = 1 then x % 2 ^ 16 * 0x10001 else x % 2 ^ 8 * 0x1010101
    .next (putVec s cl v (mkV (fun _ => BitVec.ofNat 32 y)))

def execVxc (cl : BitVec 3) (vd : BitVec 5) (cs : BitVec 3) (va : BitVec 5) (p : BitVec 5) (s : State) : Out :=
  vSlot s p [vNum cl vd, vNum cs va] fun s =>
    .next (putV s cl.toNat vd.toNat (vReg s.th cs.toNat va.toNat) clsXc)

def execVmov (cl : BitVec 3) (vd va : BitVec 5) (p : BitVec 5) (s : State) : Out :=
  vSlot s p [vNum cl vd, vNum cl va] fun s => .next (putVec s cl vd (vReg s.th cl.toNat va.toNat))

def execViota (cl : BitVec 3) (vd : BitVec 5) (md : BitVec 2) (p : BitVec 5) (s : State) : Out :=
  vSlot s p [vNum cl vd] fun s =>
    .next (putVec s cl vd (mkV (fun l =>
      let i := if md.getLsbD 1 then 16 * cl.toNat + l else l
      BitVec.ofNat 32 (if md.getLsbD 0 then 4 * i else i))))

/-! Vector memory (R355, R356). -/

/-- The sixteen lanes' offsets: contiguous words, or per-lane offsets from an index register. -/
def laneOffs (s : State) (x : BitVec 6) (imm : BitVec 24) : List Int :=
  (upFrom 0 16).map (fun (l : Nat) => effOff s x imm.toInt + 4 * (l : Int))
def laneOffsX (s : State) (cl : BitVec 3) (x : BitVec 6) (imm : BitVec 24) (vi : BitVec 5) : List Int :=
  (upFrom 0 16).map (fun l => effOff s x imm.toInt + (vLane s cl vi l).toInt)

/-- Every lane located, or the lowest failing lane's fault. -/
def locateAll (s : State) (h : Handle) (need : Need) : List Int → Except (FaultCode × Nat) (List (Loc × Nat))
  | [] => .ok []
  | o :: r => match locate s h o 4 4 need with
    | .error e => .error e
    | .ok l => match locateAll s h need r with
      | .error e => .error e
      | .ok ls => .ok (l :: ls)

/-- A vector access: its lanes located, or its fault; `tile` admits scratch only. -/
def withLanes (s : State) (h : BitVec 4) (offs : List Int) (need : Need) (tile : Bool)
    (k : State → List (Loc × Nat) → Out) : Out :=
  match useHandle s h.toNat with
  | .bad c a => .next (raise s c (match offs with
      | o :: _ => wrapNat (addrOf (hReg s.th h.toNat) o) 64
      | [] => a))
  | .wait s' => .next s'
  | .ok s' hh =>
    if tile && hh.st != .empty && hh.space != .scratch then
      .next (raise s' .handlePerm (match offs with
        | o :: _ => wrapNat (addrOf hh o) 64
        | [] => 0))
    else match locateAll s' hh need offs with
      | .error (c, a) => .next (raise s' c a)
      | .ok ls => k s' ls

/-- A vector load of located lanes. -/
def vload (s : State) (cl : BitVec 3) (v : BitVec 5) (cls : BitVec 4) (ls : List (Loc × Nat)) : State :=
  startLoad s (.v (vNum cl v)) (ls.flatMap (fun x => (locBytes x.1 4).map (srcOf s.th))) cls.toNat .lanes
    (ls.map (fun x => x.2)) clsLoad

/-- A vector store of located lanes, in ascending lane order. -/
def vstore (s : State) (cl : BitVec 3) (v : BitVec 5) (cls : BitVec 4) (ls : List (Loc × Nat)) : State :=
  (ls.zip (upFrom 0 16)).foldl (fun s' x =>
    storeAt s' x.1.1 (leBytes (vLane s cl v x.2).toNat 4) cls.toNat x.1.2) s

/-- The scratch lines of located lanes. -/
def laneLines (ls : List (Loc × Nat)) : List Tile := linesOf (ls.map (fun x => x.1.num))

def execVld (cl : BitVec 3) (v : BitVec 5) (h : BitVec 4) (x : BitVec 6) (imm : BitVec 24) (cls : BitVec 4)
    (p : BitVec 5) (s : State) : Out :=
  vSlot s p [vNum cl v] fun s =>
    withLanes s h (laneOffs s x imm) .r false fun s ls => .next (vload s cl v cls ls)
def execVst (cl : BitVec 3) (v : BitVec 5) (h : BitVec 4) (x : BitVec 6) (imm : BitVec 24) (cls : BitVec 4)
    (p : BitVec 5) (s : State) : Out :=
  vSlot s p [vNum cl v] fun s =>
    withLanes s h (laneOffs s x imm) .st false fun s ls => .next (vstore s cl v cls ls)
def execVldx (cl : BitVec 3) (v : BitVec 5) (h : BitVec 4) (x : BitVec 6) (imm : BitVec 24) (vi : BitVec 5)
    (cls : BitVec 4) (p : BitVec 5) (s : State) : Out :=
  vSlot s p [vNum cl v, vNum cl vi] fun s =>
    withLanes s h (laneOffsX s cl x imm vi) .r false fun s ls => .next (vload s cl v cls ls)
def execVstx (cl : BitVec 3) (v : BitVec 5) (h : BitVec 4) (x : BitVec 6) (imm : BitVec 24) (vi : BitVec 5)
    (cls : BitVec 4) (p : BitVec 5) (s : State) : Out :=
  vSlot s p [vNum cl v, vNum cl vi] fun s =>
    withLanes s h (laneOffsX s cl x imm vi) .st false fun s ls => .next (vstore s cl v cls ls)
def execVldt (cl : BitVec 3) (v : BitVec 5) (h : BitVec 4) (x : BitVec 6) (imm : BitVec 24) (cls : BitVec 4)
    (p : BitVec 5) (s : State) : Out :=
  vSlot s p [vNum cl v] fun s =>
    withLanes s h (laneOffs s x imm) .r true fun s ls =>
      if busy s (laneLines ls) [] then .next (block s) else .next (vload s cl v cls ls)
def execVstt (cl : BitVec 3) (v : BitVec 5) (h : BitVec 4) (x : BitVec 6) (imm : BitVec 24) (cls : BitVec 4)
    (p : BitVec 5) (s : State) : Out :=
  vSlot s p [vNum cl v] fun s =>
    withLanes s h (laneOffs s x imm) .w true fun s ls =>
      if busy s [] (laneLines ls) then .next (block s) else .next (vstore s cl v cls ls)

end Sys2Proof.Machine
end

