-- ==== Sys2Proof/Machine/Fronts.lean ====
section
/-!
DEFINITION. Front registers and the front instructions (R92 to R106, R360 to R362). A write takes effect at the end of
its bundle (heldFr), so that every slot reads the fronts as they stood before it (R101).
-/
namespace Sys2Proof.Machine
open Sys2Proof

/-! The configuration word (R93). -/

/-- The key count. -/
def frKeys (cfg : BitVec 32) : Nat := bitsOf cfg.toNat 1 0 + 1
/-- The type of key j: 0 INT16, 1 INT32, 2 FP32. -/
def frType (cfg : BitVec 32) (j : Nat) : Nat := bitsOf cfg.toNat (2 * j + 3) (2 * j + 2)
/-- The direction of key j: 0 minimise, 1 maximise, 2 ignore. -/
def frDir (cfg : BitVec 32) (j : Nat) : Nat := bitsOf cfg.toNat (2 * j + 11) (2 * j + 10)
/-- The overflow policy: 0 DROP, 1 EVICT_K, 2 FAULT. -/
def frPol (cfg : BitVec 32) : Nat := bitsOf cfg.toNat 19 18
/-- EVICT_K's key. -/
def frEk (cfg : BitVec 32) : Nat := bitsOf cfg.toNat 21 20
/-- The capacity. -/
def frCap (cfg : BitVec 32) : Nat := if bitsOf cfg.toNat 27 22 = 0 then 64 else bitsOf cfg.toNat 27 22
/-- The keys that take part. -/
def frActive (cfg : BitVec 32) : List Nat := (upFrom 0 (frKeys cfg)).filter (fun j => frDir cfg j != 2)

/-- R94: the word is refused. -/
def frCfgBad (cfg : BitVec 32) : Bool :=
  let n := frKeys cfg
  (upFrom 0 4).any (fun j => frType cfg j == 3 || frDir cfg j == 3) || frPol cfg == 3 || bitsOf cfg.toNat 31 28 != 0 ||
  (upFrom n (4 - n)).any (fun j => frType cfg j != 0 || frDir cfg j != 0) ||
  (frActive cfg).isEmpty || (frPol cfg == 1 && !(frActive cfg).contains (frEk cfg))

/-! Keys and dominance (R95). -/

/-- Key j of a tuple. -/
def frKey (t : Tuple) (j : Nat) : BitVec 32 := nth 0 t.keys j

/-- A key as a front holds it: an INT16 key is its lane's low half, sign-extended. -/
def frRead (cfg : BitVec 32) (j : Nat) (x : BitVec 32) : BitVec 32 :=
  if frType cfg j = 0 then (x.setWidth 16).signExtend 32 else x

/-- Key j of t is better than that of u. -/
def frBetter (cfg : BitVec 32) (j : Nat) (t u : Tuple) : Bool :=
  let x := frKey t j
  let y := frKey u j
  let lt := fun (a b : BitVec 32) => if frType cfg j = 2 then flt (f32 a) (f32 b) else a.slt b
  if frDir cfg j = 1 then lt y x else lt x y

/-- Tuple t has an FP32 NaN in a key that takes part. -/
def frNan (cfg : BitVec 32) (t : Tuple) : Bool :=
  (frActive cfg).any (fun j => frType cfg j == 2 && isNan (f32 (frKey t j)))

/-- t dominates u. -/
def frDom (cfg : BitVec 32) (t u : Tuple) : Bool :=
  (frActive cfg).all (fun j => !frBetter cfg j u t) && (frActive cfg).any (fun j => frBetter cfg j t u)

/-- t equals u. -/
def frEq (cfg : BitVec 32) (t u : Tuple) : Bool :=
  (frActive cfg).all (fun j => !frBetter cfg j u t && !frBetter cfg j t u)

/-- The first key that takes part. -/
def frFirst (cfg : BitVec 32) : Nat := match frActive cfg with
  | j :: _ => j
  | [] => 0

/-! Insertion (R96). -/

/-- A counter's increment, saturating (R92). -/
def frUp (x : BitVec 32) : BitVec 32 := if x = 0xFFFFFFFF then x else x + 1

/-- t placed after every held tuple whose first active key is better than or equal to its own. -/
def frPlace (cfg : BitVec 32) (t : Tuple) : List Tuple → List Tuple
  | [] => [t]
  | h :: r => if (h :: r).any (fun u => !frBetter cfg (frFirst cfg) t u) then h :: frPlace cfg t r else t :: h :: r

/-- The slot of the held tuple worst in key EK, the highest among ties; `w` is the worst so far, at slot `k`. -/
def frWorst (cfg : BitVec 32) (w : Tuple) (k i : Nat) : List Tuple → Nat
  | [] => k
  | h :: r => if frBetter cfg (frEk cfg) h w then frWorst cfg w k (i + 1) r else frWorst cfg h i (i + 1) r

/-- The tuples without the one in slot `k`. -/
def frDrop (k : Nat) (l : List Tuple) : List Tuple := l.take k ++ l.drop (k + 1)

/-- `insert(t)` of R96; `none` is FRONT_OVERFLOW. -/
def frInsert (f : Front) (t : Tuple) : Option Front :=
  let c := f.cfg
  if frNan c t then some { f with nanc := frUp f.nanc }
  else if f.tup.any (fun h => frDom c h t || frEq c h t) then some f
  else
    let l := f.tup.filter (fun h => !frDom c t h)
    if l.length < frCap c then some { f with tup := frPlace c t l }
    else match frPol c, l with
      | 1, h :: r => some { f with tup := frPlace c t (frDrop (frWorst c h 0 1 r) l), ovf := frUp f.ovf }
      | 2, _ => none
      | _, _ => some { f with tup := l, ovf := frUp f.ovf }

/-- Tuples inserted in order. -/
def frInserts (f : Front) : List Tuple → Option Front
  | [] => some f
  | t :: r => match frInsert f t with
    | some g => frInserts g r
    | none => none

/-- A front emptied, with OVF and NANC zero (R92). -/
def frClear (f : Front) : Front := { f with tup := [], ovf := 0, nanc := 0 }

/-- R99's word for a tuple. -/
def frTest (f : Front) (t : Tuple) : BitVec 32 :=
  let c := f.cfg
  if frNan c t then 512
  else
    let n := (f.tup.filter (fun h => frDom c t h)).length
    let dom := f.tup.any (fun h => frDom c h t)
    let eq := f.tup.any (fun h => frEq c h t)
    BitVec.ofNat 32 (n + bitAt dom 7 + bitAt eq 8 + bitAt (!dom && !eq && f.tup.length - n == frCap c) 10)

/-! The instructions (R360, R361). -/

/-- A front instruction on fronts `is`: an undeclared front faults (R94), a busy one blocks the bundle (R101, R362). -/
def frSlot (s : State) (p : BitVec 5) (is : List Nat) (k : State → Out) : Out :=
  if !predOk s.th p then .next s
  else if is.any (fun i => decide (s.grp.kern.fronts ≤ i)) then .next (raise s .formatInvalid 0)
  else if is.any (fun i => s.th.fbusy.getLsbD i) then .next (block s)
  else k { s with th := { s.th with heldBusy := is.foldl (fun b i => b ||| BitVec.ofNat 8 (2 ^ i)) s.th.heldBusy } }

/-- A front written at the bundle's end. -/
def setFr (s : State) (i : Nat) (f : Front) : State :=
  { s with th := { s.th with heldFr := s.th.heldFr ++ [(i, f)] } }

/-- A register block from vB (R360): past v31 it faults; an ACCRD in flight on it blocks (R381). -/
def frBlock (s : State) (cl : BitVec 3) (vb : BitVec 5) (f : Front) (more : List Nat) (k : Out) : Out :=
  if 31 < vb.toNat + frKeys f.cfg then .next (raise s .formatInvalid 0)
  else if vBusy s (upFrom (vNum cl vb) (frKeys f.cfg + 1) ++ more) then .next (block s)
  else k

/-- The tuple that lane l of a block presents (R96). -/
def frLane (s : State) (cl : BitVec 3) (vb : BitVec 5) (cfg : BitVec 32) (l : Nat) : Tuple :=
  let reg := fun (j : Nat) => laneOf (vReg s.th cl.toNat (vb.toNat + j)) l
  { keys := (upFrom 0 (frKeys cfg)).map (fun j => frRead cfg j (reg j)), pay := reg (frKeys cfg) }

/-- How many lanes take part: min(s, 16). -/
def frCount (s : State) (a : BitVec 6) : Nat := min (sReg s.th a.toNat).toNat 16

def execPfcfg (_cl fr : BitVec 3) (a : BitVec 6) (p : BitVec 5) (s : State) : Out :=
  frSlot s p [fr.toNat] fun s =>
    let c := (sReg s.th a.toNat).setWidth 32
    .next (if frCfgBad c then raise s .formatInvalid 0 else setFr s fr.toNat { Front.init with cfg := c })

def execPfins (cl fr : BitVec 3) (vb : BitVec 5) (a : BitVec 6) (p : BitVec 5) (s : State) : Out :=
  frSlot s p [fr.toNat] fun s =>
    let f := fReg s.th fr.toNat
    frBlock s cl vb f [] (
      match frInserts f ((upFrom 0 (frCount s a)).map (frLane s cl vb f.cfg)) with
      | some g => .next (setFr s fr.toNat g)
      | none => .next (raise s .frontOverflow 0))

def execPftst (cl : BitVec 3) (vd : BitVec 5) (fr : BitVec 3) (vb : BitVec 5) (a : BitVec 6) (p : BitVec 5)
    (s : State) : Out :=
  frSlot s p [fr.toNat] fun s =>
    let f := fReg s.th fr.toNat
    frBlock s cl vb f [vNum cl vd] (
      .next (putVec s cl vd (mkV (fun l => if l < frCount s a then frTest f (frLane s cl vb f.cfg l) else 0))))

/-- PFMRG (R98): NANC of the destination does not change. -/
def execPfmrg (_cl fr fs : BitVec 3) (p : BitVec 5) (s : State) : Out :=
  frSlot s p [fr.toNat, fs.toNat] fun s =>
    let d := fReg s.th fr.toNat
    let f := fReg s.th fs.toNat
    if bitsOf d.cfg.toNat 9 0 != bitsOf f.cfg.toNat 9 0 then .next (raise s .formatInvalid 0)
    else match frInserts d f.tup with
      | some g => .next (setFr s fr.toNat { g with nanc := d.nanc })
      | none => .next (raise s .frontOverflow 0)

/-- What PFRD gives lane l of block register j (R100); j = NKEY + 1 is the payload. -/
def frOut (f : Front) (j i : Nat) : BitVec 32 :=
  match f.tup.drop i with
  | t :: _ => if j = frKeys f.cfg then t.pay else frKey t j
  | [] => if j = frKeys f.cfg then 0xFFFFFFFF else 0

def execPfrd (cl : BitVec 3) (vb : BitVec 5) (fr : BitVec 3) (a : BitVec 6) (p : BitVec 5) (s : State) : Out :=
  frSlot s p [fr.toNat] fun s =>
    let f := fReg s.th fr.toNat
    let i0 := min (sReg s.th a.toNat).toNat 64
    frBlock s cl vb f [] (
      .next ((upFrom 0 (frKeys f.cfg + 1)).foldl (fun s' j =>
        putV s' cl.toNat (vb.toNat + j) (mkV (fun l => frOut f j (i0 + l))) clsVec) s))

def execPfcnt (_cl : BitVec 3) (d : BitVec 6) (fr : BitVec 3) (sel : BitVec 2) (p : BitVec 5) (s : State) : Out :=
  frSlot s p [fr.toNat] fun s =>
    let f := fReg s.th fr.toNat
    let x : Word := match sel.toNat with
      | 0 => BitVec.ofNat 64 f.tup.length
      | 1 => f.ovf.setWidth 64
      | 2 => f.nanc.setWidth 64
      | _ => f.cfg.setWidth 64
    .next (putS s d.toNat x clsVec)

def execPfclr (_cl fr : BitVec 3) (p : BitVec 5) (s : State) : Out :=
  frSlot s p [fr.toNat] fun s => .next (setFr s fr.toNat (frClear (fReg s.th fr.toNat)))

/-! Spill images (R102 to R104). -/

/-- The image of a front. -/
def frImage (f : Front) : List Byte :=
  leBytes f.cfg.toNat 4 ++ leBytes f.tup.length 4 ++ leBytes f.ovf.toNat 4 ++ leBytes f.nanc.toNat 4 ++
  f.tup.flatMap (fun t => (upFrom 0 4).flatMap (fun j => leBytes (frKey t j).toNat 4) ++ leBytes t.pay.toNat 4)

/-- A number of 4 bytes at an offset of an image. -/
def le4 (bs : List Byte) (o : Nat) : Nat := leNat ((bs.drop o).take 4)

/-- The slots of an image, as tuples of a configuration. -/
def frTuples (cfg : BitVec 32) (bs : List Byte) (n : Nat) : List Tuple :=
  (upFrom 0 n).map (fun i =>
    { keys := (upFrom 0 (frKeys cfg)).map (fun j => frRead cfg j (BitVec.ofNat 32 (le4 bs (16 + 20 * i + 4 * j)))),
      pay := BitVec.ofNat 32 (le4 bs (32 + 20 * i)) })

/-- The front an image fills (R104): `none` when its CFG or count is refused. -/
def frFill (bs : List Byte) : Option Front :=
  let cfg := BitVec.ofNat 32 (le4 bs 0)
  let n := le4 bs 4
  if frCfgBad cfg || decide (frCap cfg < n) then none
  else match frInserts { Front.init with cfg := cfg } (frTuples cfg bs n) with
    | some f => some { f with ovf := BitVec.ofNat 32 (le4 bs 8), nanc := BitVec.ofNat 32 (le4 bs 12) }
    | none => none

/-- The image's target (R103, R104): the handle's state, a stale one walked again (R128), then its space: scratch or a plane. Scratch
that is not pinned is SCRATCH_UNMAPPED, as R111 and R326 have it, where R103 taken by its words might say HANDLE_PERM: the model's
reading (log entry 92). -/
def withImage (s : State) (h : BitVec 4) (x : BitVec 6) (imm : BitVec 24) (n : Nat) (need : Need)
    (k : State → Loc → Nat → Out) : Out :=
  match useHandle s h.toNat with
  | .bad c a => .next (raise s c a)
  | .wait s' => .next s'
  | .ok s hh =>
    if hh.st == .empty || hh.space == .memory then .next (raise s .handlePerm 0)
    else match locate s hh (effOff s x imm.toInt) n 4 need with
      | .error (c, a) => .next (raise s c a)
      | .ok (l, va) => k s l va

def execPfspl (_cl : BitVec 3) (f : BitVec 3) (h : BitVec 4) (x : BitVec 6) (imm : BitVec 24) (cls : BitVec 4)
    (p : BitVec 5) (s : State) : Out :=
  frSlot s p [f.toNat] fun s =>
    let bs := frImage (fReg s.th f.toNat)
    withImage s h x imm bs.length .w fun s l va => .next (storeAt s l bs cls.toNat va)

/-- The sources of `n` bytes of an image. -/
def imageSrcs (s : State) (l : Loc) (n : Nat) : List ByteSrc := (locBytes l n).map (srcOf s.th)

/-- The tile loads of a class that the present bundle has issued land before a later slot's access (R149, R150). -/
def ownTlds (s : State) (cls : Nat) : State :=
  (s.grp.tld.filter (fun c => c.th == cxOf s && c.pos == s.th.pos && c.cls == cls)).foldl (fun s c =>
    match s.grp.tld.findIdx? (fun x => x == c) with
    | some ix => if tldReady s (cxOf s) ix then { tldLand s ix with rtag := s.rtag } else s
    | none => s) s

/-- PFFIL: a load of its class, performed at issue; an earlier load or tile load of the class performs before it, one of its own bundle
too (R149, R150). Poisoned scratch raises POISON. -/
def execPffil (_cl : BitVec 3) (f : BitVec 3) (h : BitVec 4) (x : BitVec 6) (imm : BitVec 24) (cls : BitVec 4)
    (p : BitVec 5) (s : State) : Out :=
  frSlot s p [f.toNat] fun s => withImage s h x imm 16 .r fun s l va =>
    let s := ownTlds (ownLoads s cls.toNat) cls.toNat
    if loadHeld s cls.toNat then .next (block s)
    else
      let s := touchAll (copiesRead s (cxOf s) cls.toNat (s.th.pos, s.th.slot)) (imageSrcs s l 16)
      let hd := imageSrcs s l 16
      if hd.any (srcPoison s) then .next (raise s .poison va)
      else
        let b0 := hd.map (takeByte s)
        let cfg := BitVec.ofNat 32 (le4 b0 0)
        let n := le4 b0 4
        if frCfgBad cfg || decide (frCap cfg < n) then .next (raise s .formatInvalid 0)
        else withImage s h x imm (16 + 20 * n) .r fun s l va =>
          let s := touchAll s (imageSrcs s (l.plus 16) (20 * n))
          let tl := imageSrcs s (l.plus 16) (20 * n)
          if tl.any (srcPoison s) then .next (raise s .poison va)
          else match frFill (b0 ++ tl.map (takeByte s)) with
            | some g => .next (setFr s f.toNat g)
            | none => .next (raise s .formatInvalid 0)

end Sys2Proof.Machine
end

