-- ==== Sys2Proof/Machine/Domain.lean ====
section
/-!
DEFINITION. The retirement of a mark (R23 step 5, R24, R226, R234, R311) and the sync points of domains with the swap
of plane regions (R47 to R54, R130 to R133). Where a function says 'bare', nothing is focused.
-/
namespace Sys2Proof.Machine
open Sys2Proof

/-! Planes. -/

/-- The last value each rank contributed to a word, in ascending rank. -/
def lastOf (w : Nat) : List (Nat × Nat × BitVec 32) → List (Nat × BitVec 32)
  | [] => []
  | (w', r, v) :: rest =>
    let l := lastOf w rest
    if w' = w && !l.any (fun x => x.1 == r) then tins l r v else l

/-- A word of the next plane settled from its contributions (R132): rules 0 PRIORITY, 1 SUM_I32, 2 SUM_F32, 3 FAULT. -/
def settle (rule : Nat) : List (BitVec 32) → BitVec 32
  | [] => 0
  | x :: r =>
    if rule = 1 then r.foldl (fun a b => a + b) x
    else if rule = 2 then r.foldl (fun a b => r32 0 (fadd 0 (f32 a) (f32 b))) (r32 0 (f32 x))
    else (x :: r).getLast (by simp)

/-- The words that contributions name, without repeats. -/
def wordsIn (l : List (Nat × Nat × BitVec 32)) : List Nat := l.foldl (fun a x => insNat x.1 a) []

/-- A region after its swap (R132). -/
def swapRegion (p : PlaneReg) : PlaneReg :=
  let put := fun (t : Tab Byte) (w : Nat) => tstore t (4 * w) (leBytes (settle p.rule ((lastOf w p.contrib).map (fun x => x.2))).toNat 4)
  { p with present := (wordsIn p.contrib).foldl put p.present, contrib := [] }

/-- The ranks that take PLANE_COLLISION at a region's swap (R133). -/
def collided (p : PlaneReg) : List Nat :=
  if p.rule != 3 then []
  else (wordsIn p.contrib).foldl (fun a w =>
    let l := lastOf w p.contrib
    if 1 < l.length then l.foldl (fun a x => insNat x.1 a) a else a) []

/-! Retirement. -/

/-- The first fault that falls after the focused thread's mark (R226). -/
def afterFault (s : State) : Option FaultInfo :=
  let mk := fun (c : FaultCode) (q a : Nat) =>
    ({ code := c, pos := s.th.pos, slot := 0, addr := a, gate := 0, fq := q, bpc := s.th.bpc } : FaultInfo)
  let mine := s.grp.shuntFail.filter (fun x => x.2.1 == cxOf s)
  if s.th.after.any (fun x => x.1 == .planeCollision) then some (mk .planeCollision 0 0)
  else match s.th.after with
    | x :: _ => some (mk x.1 0 x.2)
    | [] => (upFrom 0 4).foldl (fun (r : Option FaultInfo) u => match r with
        | some f => some f
        | none => (mine.find? (fun x => x.1 == u)).map (fun x => mk x.2.2.1 u x.2.2.2)) none

/-- A new window opens at the focused thread (R20); the bank roles at its opening mark are remembered (R168, R169). -/
def newWindow (s : State) : State :=
  let t := openWindow s.th
  { s with th := { t with ckpt := { t.ckpt with act := s.grp.active } } }

/-- TRAP's event (R396, R418). -/
def trapEvent (s : State) (imm : Nat) : State :=
  postEvent s { plainEvent 3 s.grp.mbox s.grp.image s.grp.kidx with imm := imm, group := s.grp.index, thr := cxOf s }

/-- ERET once its mark has retired (R311): it returns, or XPC is no bundle of the kernel's segment (R302) and the thread,
still in system code, has raised ILLEGAL_TARGET at the ERET's bundle. -/
def returnSystem (s : State) : State :=
  if targetOk s s.grp.kern.seg s.th.xpc.toNat then leaveSystem s
  else
    let f : FaultInfo := { code := .illegalTarget, pos := s.th.pos - 1, slot := 0, addr := 0, gate := 0, fq := 0, bpc := s.th.bpc }
    { s with th := { s.th with run := .station }, reports := s.reports ++ [reportOf s f] }

/-- What EXIT, SVC, TRAP and ERET do once their mark has retired (R24, R308, R311). -/
def ctlRetire (s : State) : State :=
  match s.th.heldCtl with
  | some (0, _) => { s with th := { s.th with run := .exited } }
  | some (1, imm) => enterSystem s imm false
  | some (2, imm) => enterSystem (trapEvent s imm) imm true
  | some (3, _) => returnSystem s
  | _ => s

/-- An interrupt pending for the focused thread is taken at its mark, except in system code (R234, R237, R312). -/
def markInterrupt (s : State) : State :=
  let t := s.th
  if t.insys || t.run = .exited then s
  else if t.intr then { s with th := takeInterrupt t }
  else { s with th := { t with defer := false, deferN := 0, idist := 0 } }

/-- Step 5 of R23 for the focused thread: the shadows close (R17), the window opens, faults after the mark and
interrupts are taken. -/
def retireMark (s : State) : State :=
  let t := landMark s.th.pos s.th
  let run : RunState := match t.run with
    | .yielded => .yielded
    | .parked => .parked
    | _ => .ready
  let s1 : State := { s with th := { t with pos := t.pos + 1, arrival := none, run := run } }
  match afterFault { s1 with th := { s1.th with pos := t.pos } } with
  | some f =>
    let r := reportOf s1 f
    let s2 := newWindow s1
    { s2 with th := { s2.th with after := [], run := .station }, reports := s2.reports ++ [r],
              grp := { s2.grp with shuntFail := s2.grp.shuntFail.filter (fun x => x.2.1 != cxOf s2) } }
  | none => markInterrupt (newWindow (ctlRetire s1))

/-! Sync points (R52, R53), bare. -/

/-- A sync point: launch, level, first group of the domain, and the thread for a thread domain. -/
structure Point where
  launch : Nat
  level : Nat
  first : Nat
  cx : Nat
deriving DecidableEq, Repr

/-- The point at which a thread stands. -/
def pointOf (s : State) (g : Group) (cx : Nat) (t : Thread) : Option Point :=
  match t.run, t.arrival with
  | .arrived, some (l, _) =>
    some { launch := g.launch, level := l, first := domFirst s g l, cx := if l = 0 then cx else 0 }
  | _, _ => none

/-- The running threads: core, context, group, thread. -/
def allRunning (s : State) : List (Nat × Nat × Group × Thread) :=
  s.cores.flatMap (fun c => match c.2.grp with
    | some g => (upFrom 0 g.kern.threads).map (fun cx => (c.1, cx, g, thAt g cx))
    | none => [])

/-- A group and thread belong to a point's domain. -/
def inPoint (s : State) (p : Point) (g : Group) (cx : Nat) : Bool :=
  g.launch == p.launch && domFirst s g p.level == p.first && (p.level != 0 || cx == p.cx)

/-- The local members of a point's domain that have not exited. -/
def members (s : State) (p : Point) : List (Nat × Nat × Group × Thread) :=
  (allRunning s).filter (fun x => inPoint s p x.2.2.1 x.2.1 && x.2.2.2.run != .exited)

/-- A member's group is saved: the point waits for its return. -/
def memberSaved (s : State) (p : Point) : Bool :=
  s.saved.any (fun x => (upFrom 0 x.grp.kern.threads).any (fun cx => inPoint s p x.grp cx && (thAt x.grp cx).run != .exited))

/-- The ranks on other devices that a set-level point waits for or has (R53, R260). -/
def farRanks (s : State) (p : Point) (threads : Nat) : List Nat :=
  if p.level != 5 || !s.regs.inset then []
  else (upFrom 0 (64 * (s.regs.ndev + 1) * threads)).filter (fun r =>
    let d := r / (64 * threads)
    d != s.regs.rank && !isFenced s d &&
    (s.farArr.any (fun a => a.launch == p.launch && a.dom == p.first && a.rank == r) ||
     !s.gone.any (fun a => a.launch == p.launch && a.dom == p.first && a.rank == r)))

/-- The arrival of a rank on another device, its oldest. -/
def farArrival (s : State) (p : Point) (r : Nat) : Option FarArr :=
  s.farArr.find? (fun a => a.launch == p.launch && a.dom == p.first && a.rank == r)

/-- Every current member has arrived (R52). -/
def pointFull (s : State) (p : Point) (threads : Nat) : Bool :=
  !memberSaved s p &&
  (members s p).all (fun x => pointOf s x.2.2.1 x.2.1 x.2.2.2 == some p) &&
  (farRanks s p threads).all (fun r => (farArrival s p r).isSome)

/-- The oldest arrival of each rank consumed. -/
def takeFar (p : Point) : List Nat → List FarArr → List FarArr
  | [], l => l
  | r :: rs, l =>
    match l.findIdx? (fun a => a.launch == p.launch && a.dom == p.first && a.rank == r) with
    | some i => takeFar p rs (l.take i ++ l.drop (i + 1))
    | none => takeFar p rs l

/-- A contribution that came from another device (operation 9). -/
def farPlane (s : State) (launch dom : Nat) (d : List Byte) : State :=
  let idx := leNat (d.take 1)
  let word := leNat ((d.drop 1).take 4)
  let rank := leNat ((d.drop 5).take 4)
  planeAdd s launch (4 * dom) idx word rank (BitVec.ofNat 32 (leNat ((d.drop 9).take 4)))

/-- A contribution of another device applied, or kept while its thread has an arrival that is not yet used. -/
def farContrib (s : State) (f : Flit) : State :=
  match ofKey s (leNat ((f.data.drop 1).take 8)) with
  | none => s
  | some launch =>
    let dom := leNat ((f.data.drop 9).take 4)
    let rest := f.data.drop 13
    if s.farArr.any (fun a => a.launch == launch && a.dom == dom && a.rank == leNat ((rest.drop 5).take 4)) then
      { s with farQ := s.farQ ++ [f] }
    else farPlane s launch dom rest

/-- The kept contributions offered again. -/
def farAgain (s : State) : State := s.farQ.foldl farContrib { s with farQ := [] }

/-- The domain's plane regions swap; each local contributor to a collided word of a FAULT region is told (R132, R133). -/
def swapPlanes (s : State) (p : Point) : State :=
  let dom := fun (g : Group) (cx : Nat) => planeDomOf g cx
  let hit := fun (q : PlaneReg) => q.launch == p.launch && (members s p).any (fun x => dom x.2.2.1 x.2.1 == q.dom)
  let bad := (s.planes.filter hit).flatMap collided
  let s1 := { s with planes := s.planes.map (fun q => if hit q then swapRegion q else q) }
  (members s p).foldl (fun s x =>
    if bad.contains (thrRank s x.2.2.1 x.2.2.1.kern.level x.2.1) then
      onTh s x.1 x.2.1 (fun s => { s with th := { s.th with after := (.planeCollision, 0) :: s.th.after } })
    else s) s1

/-- A full point completes (R52). -/
def completePoint (s : State) (p : Point) (threads : Nat) : State :=
  let far := farRanks s p threads
  let ms := members s p
  let steps := ms.map (fun x => match x.2.2.2.arrival with
    | some (_, b) => b
    | none => false) ++ far.map (fun r => match farArrival s p r with
    | some a => a.isStep
    | none => false)
  let s1 := if steps.all id then swapPlanes s p else s
  let s2 := if steps.any id && !steps.all id then
      ms.foldl (fun s x => onTh s x.1 x.2.1 (fun s => { s with th := { s.th with after := s.th.after ++ [(.domainMismatch, 0)] } })) s1
    else s1
  let s3 := farAgain { s2 with farArr := takeFar p far s2.farArr }
  ms.foldl (fun s x => onTh s x.1 x.2.1 retireMark) s3

/-- Every full point completes. -/
def syncAll (s : State) : State :=
  let pts := (allRunning s).filterMap (fun x => (pointOf s x.2.2.1 x.2.1 x.2.2.2).map (fun p => (p, x.2.2.1.kern.threads)))
  pts.foldl (fun s p =>
    if (allRunning s).any (fun x => pointOf s x.2.2.1 x.2.1 x.2.2.2 == some p.1) && pointFull s p.1 p.2
    then completePoint s p.1 p.2 else s) s

/-- A set-level domain still has members on other devices (R53, R130): those that are not fenced and have not exited. -/
def farLives (s : State) (p : PlaneReg) : Bool :=
  match launchOf s p.launch with
  | none => false
  | some l => match imageOf s l.image with
    | none => false
    | some i =>
      let k := nth Kernel.none i.kernels l.kidx
      k.level == 5 && !(farRanks s { launch := p.launch, level := 5, first := p.dom / 4, cx := 0 } k.threads).isEmpty

/-- The regions of domains that have lost their last member are freed (R130). -/
def freePlanes (s : State) : State :=
  let lives := fun (p : PlaneReg) =>
    (allRunning s).any (fun x => x.2.2.1.launch == p.launch && planeDomOf x.2.2.1 x.2.1 == p.dom && x.2.2.2.run != .exited) ||
    s.saved.any (fun x => x.grp.launch == p.launch && (upFrom 0 x.grp.kern.threads).any (fun cx =>
      planeDomOf x.grp cx == p.dom && (thAt x.grp cx).run != .exited)) ||
    farLives s p
  { s with planes := s.planes.filter lives }

/-- A thread of a set-level domain has exited: the other devices are told. -/
def tellExit (s : State) (g : Group) (cx : Nat) : State :=
  if spansSet s g then sendSetAll s 11 g.launch g.planeDom (leBytes (thrRank s g 5 cx) 4) else s

end Sys2Proof.Machine
end

