-- ==== Sys2Proof/Machine/Shoot.lean ====
section
/-!
DEFINITION. Shoot-downs and fencing (R128, R159, R241, R258 to R261, R388). Everything here is bare: nothing is focused.
-/
namespace Sys2Proof.Machine
open Sys2Proof

/-! On this device (R128, R159). -/

/-- A page [a, a + n) overlaps the range [lo, lo + len). -/
def overlaps (lo len a n : Nat) : Bool := decide (a < lo + len) && decide (lo < a + n)

/-- A handle that covers a shot-down page goes stale (R128). -/
def staleHandle (lo len : Nat) (h : Handle) : Handle :=
  if h.st != .empty && h.space == .memory && overlaps lo len (h.va - h.va % handlePage h) (handlePage h)
  then { h with st := .stale } else h

/-- The handles of a list of results in flight. -/
def stalePend (lo len : Nat) (l : List Pend) : List Pend :=
  l.map (fun e => match e.val with
    | .h x => { e with val := .h (staleHandle lo len x) }
    | _ => e)

/-- A thread's handles, in the register log too. -/
def staleThread (lo len : Nat) (t : Thread) : Thread :=
  let c := t.ckpt
  { t with h := t.h.map (fun x => (x.1, staleHandle lo len x.2)), pend := stalePend lo len t.pend,
           ckpt := { c with h := c.h.map (fun x => (x.1, staleHandle lo len x.2)), pend := stalePend lo len c.pend } }

/-- The handles of a started shunt that has not moved its bytes (R159): it goes on through the new translation. -/
def staleShunt (lo len : Nat) (c : ShuntCmd) : ShuntCmd :=
  if c.sent || c.adding then c
  else { c with hs := staleHandle lo len c.hs, hd := staleHandle lo len c.hd, hx := staleHandle lo len c.hx }

/-- The thread's window has used such a page. -/
def usedShot (lo len : Nat) (t : Thread) : Bool := t.used.any (fun x => overlaps lo len x.1 x.2)

/-- The thread's window has accessed memory through such a handle, and its mark has not begun to commit it (R128). A fault that the
window has met and not yet taken goes with it: the window runs again through the new translation. -/
def shotWindow (lo len : Nat) (t : Thread) : Bool :=
  [0, 1, 2, 8].contains t.marking && usedShot lo len t &&
  (match t.run with
    | .stopped => false
    | .station => false
    | .exited => false
    | .arrived => false
    | _ => true)

/-- What such a window has begun and cannot be undone any more: a commit, an operation at another device. -/
def shotCommit (lo len : Nat) (t : Thread) : Bool := [3, 9, 10].contains t.marking && usedShot lo len t

/-- A shoot-down that this device has not acted on holds the thread: it issues nothing more before its rollback. -/
def shotHold (s : State) (image : Nat) (t : Thread) : Bool :=
  s.shoots.any (fun x => !x.rolled && x.image == image && shotWindow x.lo x.len t)

/-- The focused thread's part of a shoot-down: its handles go stale, and its window is rolled back if need be, once its engine
work has ended (R128, R168). -/
def shootThread (lo len : Nat) (s : State) : State :=
  let s1 := if shotWindow lo len s.th then
      let s' := finishWork s (cxOf s)
      if windowBusy s' (cxOf s) then s'
      else
        let s'' := rollback s'
        { s'' with th := { s''.th with run := .ready, fault := none } }
    else s
  { s1 with th := staleThread lo len s1.th, grp := { s1.grp with qu := s1.grp.qu.map (fun x => (x.1, staleShunt lo len x.2)) } }

/-- A page that a core has used is one that the shoot-down names. -/
def shotPage (x : Shoot) (p : PageUse) : Bool := p.image == x.image && overlaps x.lo x.len p.va p.size

/-- A place of memory lies in one of these pages. -/
def inPages (l : List PageUse) (b : ByteSrc) : Bool :=
  match b with
  | .home d a => l.any (fun p => p.dev == d && decide (p.pa ≤ a) && decide (a < p.pa + p.size))
  | _ => false

/-- Something made through the old translation is still under way on a core with a group: a window to be rolled back, a commit, a
copy or a tile load that has not read, a CPYO that has not ended, a shunt's writes on their way to another device. -/
def shotBusy (x : Shoot) (c : Core) (g : Group) : Bool :=
  let pages := c.pages.filter (shotPage x)
  let copy := fun (c : CopyCmd) => (c.got.isNone && c.src.any (inPages pages)) || c.out.any (inPages pages)
  let shunt := fun (c : ShuntCmd) =>
    (c.sent || c.adding) && [c.hs, c.hd, c.hx].any (fun h => h.space == .memory && overlaps x.lo x.len (h.va - h.va % handlePage h) (handlePage h))
  g.image == x.image &&
  (!allThreads g (fun t => !shotWindow x.lo x.len t && !shotCommit x.lo x.len t) || g.qu.any (fun q => shunt q.2) ||
   (!pages.isEmpty && (g.ch.any (fun q => copy q.2) || g.tld.any (fun q => q.src.any (inPages pages)))))

/-- The pages of the focused or bare core that a shoot-down names leave its array, their dirty bytes written back (R159). -/
def flushPages (x : Shoot) (s : State) : State :=
  let s1 := (s.core.pages.filter (shotPage x)).foldl (fun s p => flushRange s p.dev p.pa p.size) s
  { s1 with core := { s1.core with pages := s1.core.pages.filter (fun p => !shotPage x p) } }

/-- The lines of those pages whose write-backs from a core wait for another device's acknowledgement (R258). -/
def shotLines (pages : List PageUse) (c : Core) : List (Nat × Nat) :=
  c.fifo.filterMap (fun e => match e with
    | .line dev ln _ true => if inPages pages (.home dev (256 * ln)) then some (dev, ln) else none
    | _ => none)

/-- A shoot-down acted on by every core and walker of this device (R128, R159, R258): windows are rolled back, and when nothing of
the old translation is under way the arrays are flushed and what walks have read is dropped. The oldest one comes first. -/
def shootLocal (s : State) (x : Shoot) : State :=
  if s.shoots.find? (fun y => !y.rolled) != some x then s
  else
    let s1 := (allRunning s).foldl (fun s y =>
      if y.2.2.1.image == x.image then onTh s y.1 y.2.1 (shootThread x.lo x.len) else s) s
    if s1.cores.any (fun c => match c.2.grp with
      | some g => shotBusy x c.2 g
      | none => false) then s1
    else
      let pages := (s1.cores.flatMap (fun c => c.2.pages)).filter (shotPage x)
      let s2 := (s1.cores.map (fun c => c.1)).foldl (fun s co => onArray s co (flushPages x)) s1
      let waits := s2.cores.flatMap (fun c => shotLines pages c.2)
      { forget s2 (fun _ => true) with
        launches := if s2.regs.inset then s2.launches.map (fun l =>
          if l.image == x.image && !l.ready && l.depAddr != 0 && overlaps x.lo x.len l.depAddr 8 then { l with seen := false } else l)
          else s2.launches,
        shoots := s2.shoots.map (fun y => if y == x then { y with rolled := true, waits := waits } else y) }

/-- The write-backs that a shoot-down has made are acknowledged. -/
def acksDone (s : State) (x : Shoot) : Bool :=
  x.waits.all (fun w => s.cores.all (fun c => c.2.fifo.all (fun e => match e with
    | .line dev ln _ ack => !(ack && dev == w.1 && ln == w.2)
    | _ => true)))

/-! The tree of acknowledgements (R259). -/

/-- A rank as the shoot-down's tree counts it. -/
def treeIx (s : State) (init rank : Nat) : Nat := (rank + (s.regs.ndev + 1) - init % (s.regs.ndev + 1)) % (s.regs.ndev + 1)

/-- The rank of a tree index. -/
def treeRank (s : State) (init ix : Nat) : Nat := (ix + init) % (s.regs.ndev + 1)

/-- The tree indices of the subtree at `ix`, to a depth. -/
def subtree (n ix : Nat) : Nat → List Nat
  | 0 => []
  | d + 1 => if n < ix then [] else ix :: (upFrom (8 * ix + 1) 8).flatMap (fun k => subtree n k d)

/-- The ranks of the subtree at this device. -/
def myTree (s : State) (init : Nat) : List Nat :=
  (subtree s.regs.ndev (treeIx s init (ownRank s)) 5).map (treeRank s init)

/-- A bitmap of ranks as 128 bytes. -/
def rankBits (l : List Nat) : List Byte := leBytes (l.foldl (fun n r => n ||| 2 ^ r) 0) 128

/-- The ranks of a bitmap. -/
def bitRanks (bs : List Byte) : List Nat :=
  let n := leNat bs
  (upFrom 0 1024).filter (fun r => n.testBit r)

/-- A shoot-down flit's payload: identifier, first VA, length, image (the model's own layout). -/
def shootPayload (x : Shoot) : List Byte := leBytes x.id 8 ++ leBytes x.lo 8 ++ leBytes x.len 8 ++ leBytes x.image 2

/-- An acknowledgement's payload: identifier, initiator, bitmap. -/
def ackPayload (x : Shoot) (l : List Nat) : List Byte := leBytes x.id 8 ++ leBytes x.init 2 ++ rankBits l

/-- The shoot-downs with one changed or (none) removed. -/
def setShoot (s : State) (init id : Nat) (f : Shoot → Option Shoot) : State :=
  { s with shoots := s.shoots.filterMap (fun x => if x.init == init && x.id == id then f x else some x) }

/-- A shoot-down in flight by initiator and identifier. -/
def shootOf (s : State) (init id : Nat) : Option Shoot := s.shoots.find? (fun x => x.init == init && x.id == id)

/-- The ranks that the initiator still waits for. -/
def shootMissing (s : State) (x : Shoot) : List Nat :=
  if x.scope < 2 then (if x.acted then [] else [ownRank s])
  else (upFrom 0 (s.regs.ndev + 1)).filter (fun r => !isFenced s r && !x.acks.contains r)

/-- A completed SHOOT (R388): sD takes the number of ranks fenced, and its thread's mark goes on. -/
def shootEnd (s : State) (x : Shoot) : State :=
  let s1 := setShoot s x.init x.id (fun _ => none)
  match x.waiter with
  | none => s1
  | some (co, cx, d) => onTh s1 co cx (fun s =>
      let e : Pend := { reg := .s d, val := .s (BitVec.ofNat 64 x.fenced), land := s.th.pos + 1, pos := s.th.pos, load := none }
      { s with th := { s.th with pend := insertPend e s.th.pend, heldPriv := s.th.heldPriv.drop 1, marking := 5 } })

/-- What a device does when it has acted, or heard from below: the initiator completes, another sends its one
acknowledgement to its parent when its subtree is whole (R259). -/
def shootStep (s : State) (init id : Nat) : State :=
  match shootOf s init id with
  | none => s
  | some x =>
    if init = ownRank s then (if (shootMissing s x).isEmpty then shootEnd s x else s)
    else if x.acted && !x.late && (myTree s init).all (fun r => x.acks.contains r || isFenced s r) then
      let parent := treeRank s init ((treeIx s init (ownRank s) - 1) / 8)
      let s1 := sendFlit s parent 6 0 id (ackPayload x x.acks)
      setShoot s1 init id (fun _ => none)
    else s

/-- This device has acted on every shoot-down that it can act on, and whose write-backs are acknowledged (R159, R258). -/
def shootActed (s : State) : State :=
  let s1 := s.shoots.foldl shootLocal s
  let acts := fun (x : Shoot) => x.rolled && !x.acted && acksDone s1 x
  let s2 := { s1 with shoots := s1.shoots.map (fun x => if acts x then { x with acted := true, acks := insNat (ownRank s1) x.acks } else x) }
  (s1.shoots.filter acts).foldl (fun s x => shootStep s x.init x.id) s2

/-- SHOOT performed (R388): the waiter is the thread whose mark it holds. -/
def shootIssue (s : State) (image lo len scope : Nat) (waiter : Option (Nat × Nat × Nat)) : State :=
  let sc := if s.regs.inset then scope else 1
  let x : Shoot :=
    { id := s.shootN, init := ownRank s, lo := lo, len := len, image := image, acks := [], acted := false, rolled := false,
      waits := [], late := false, scope := sc, fenced := 0, waiter := waiter }
  let s1 := { s with shoots := s.shoots ++ [x], shootN := s.shootN + 1 }
  let s2 := if sc = 2 then (otherRanks s1).foldl (fun s r => sendFlit s r 5 0 x.id (shootPayload x)) s1 else s1
  shootActed s2

/-- A shoot-down flit arrives (R258, R259). -/
def shootFlit (s : State) (f : Flit) : State :=
  let x : Shoot :=
    { id := leNat (f.data.take 8), init := f.src, lo := leNat ((f.data.drop 8).take 8), len := leNat ((f.data.drop 16).take 8),
      image := leNat ((f.data.drop 24).take 2), acks := [], acted := false, rolled := false, waits := [], late := false, scope := 2,
      fenced := 0, waiter := none }
  shootActed { s with shoots := s.shoots ++ [x] }

/-- An acknowledgement arrives; one from a fenced rank is ignored (R259, R261). -/
def shootAck (s : State) (f : Flit) : State :=
  if isFenced s f.src then s
  else
    let id := leNat (f.data.take 8)
    let init := leNat ((f.data.drop 8).take 2)
    let got := (bitRanks (f.data.drop 10)).filter (fun r => !isFenced s r)
    let s1 := setShoot s init id (fun x => some { x with acks := got.foldl (fun l r => insNat r l) x.acks })
    shootStep s1 init id

/-- 90 us after a request (R259): the partial bitmap goes to the initiator directly. -/
def shootLate (s : State) (id : Nat) : State :=
  match s.shoots.find? (fun x => x.id == id && x.init != ownRank s) with
  | none => s
  | some x =>
    let s1 := sendFlit s x.init 6 0 id (ackPayload x x.acks)
    if x.acted then setShoot s1 x.init id (fun _ => none) else setShoot s1 x.init id (fun y => some { y with late := true })

/-- What fewer ranks to wait for lets go on: what waited only on write-backs to them, and the shoot-downs that waited only for
their acknowledgements (R259 to R261). -/
def settleShoots (s : State) : State :=
  let s1 := shootActed s
  s1.shoots.foldl (fun s x => if x.acted then shootStep s x.init x.id else s) s1

/-! Fencing (R260). -/

/-- A thread whose mark waits for an operation at a device that has been fenced takes DEVICE_FENCED (R260): its window has
committed, so the fault falls after its mark (log entry 78). -/
def fenceThread (d : Nat) (t : Thread) : Thread :=
  match t.heldOp with
  | some o =>
    if t.marking == 3 && o.h.dev == d then
      { t with heldOp := none, marking := 10, after := t.after ++ [(.deviceFenced, o.addr)] }
    else t
  | none => t

/-- A shunt that waits for a device that has been fenced (R173, R260): what it wrote there fails it, what it added there is
discarded. -/
def fenceShunt (d : Nat) (c : ShuntCmd) : ShuntCmd :=
  { c with wait := c.wait.filter (fun w => w.1 != d), bad := c.bad || c.wait.any (fun w => w.1 == d),
           adding := c.adding && (match c.ctr with
             | some (dev, _, _) => dev != d
             | none => false) }

/-- Everything here that waits for a device is let go: it is heard no more. -/
def unlink (s : State) (d : Nat) : State :=
  let fifo := fun (q : List FifoEnt) => q.filter (fun e => match e with
    | .line dev _ _ ack => !(dev == d && ack)
    | _ => true)
  let grp := fun (g : Group) => mapThreads { g with qu := g.qu.map (fun x => (x.1, fenceShunt d x.2)) } (fun _ t => fenceThread d t)
  let core := fun (c : Core) => { c with fifo := fifo c.fifo, grp := c.grp.map grp }
  { s with wacks := s.wacks.filter (fun x => x.1 != d), readWait := s.readWait.filter (fun x => x.1 != d),
           rdata := s.rdata.filter (fun x => x.1 != d), farPoison := s.farPoison.filter (fun x => x.1 != d),
           watches := s.watches.filter (fun w => w.rank != d), cores := s.cores.map (fun c => (c.1, core c.2)) }

/-- A device is fenced on this one: links and everything that waits for it are cut, its groups leave the set-level
domains (R53), its collectives fail when their turn comes. -/
def fenceRank (s : State) (d : Nat) : State :=
  if isFenced s d || d = ownRank s then s
  else settleShoots (syncAll (freePlanes (unlink { s with regs := { s.regs with fences := insNat d s.regs.fences } } d)))

/-- The device cuts itself off (R272): to it every other device is as a fenced one (log entry 84). -/
def cutAll (s : State) : State :=
  let l := otherRanks s
  settleShoots (syncAll (freePlanes (l.foldl unlink { s with regs := { s.regs with cut := true } })))

/-- The fence told to every other member (operation 8 of the set messages). -/
def tellFence (s : State) (d : Nat) : State := sendSetAll s 8 0 d []

/-- SHOOT_DOWN_FENCE_TIMEOUT (R259): ranks in no bitmap are fenced, and the shoot-down completes. -/
def shootTimeout (s : State) (id : Nat) : State :=
  match shootOf s (ownRank s) id with
  | none => s
  | some x =>
    let bad := (shootMissing s x).filter (fun r => r != ownRank s)
    let s1 := setShoot s x.init id (fun y => some { y with fenced := y.fenced + bad.length })
    settleShoots (bad.foldl (fun s d => tellFence (fenceRank s d) d) s1)

end Sys2Proof.Machine
end

