-- ==== Sys2Proof/Machine/Image.lean ====
section
/-!
DEFINITION. Context images (R242 to R244, R247, R251) and the restore of a group (R249, R250).
-/
namespace Sys2Proof.Machine
open Sys2Proof

/-- Bytes cut or padded with zeros to a length. -/
def fitTo (n : Nat) (bs : List Byte) : List Byte := padTo n (bs.take n)

/-- A boolean as a number. -/
def b2n (b : Bool) : Nat := if b then 1 else 0

/-! Writing (R242 to R244). -/

/-- A handle's 32 bytes (R243). -/
def handleBytes (h : Handle) : List Byte :=
  let st := match h.st with
    | .empty => 0
    | .valid => 1
    | .stale => 2
    | .restored => 1
  let sp := match h.space with
    | .memory => 0
    | .scratch => 1
    | .plane => 2
  let place := match h.stack with
    | some k => 1 + 2 * k
    | none => 0
  leBytes st 1 ++ leBytes sp 1 ++
  leBytes (bitAt h.r 0 + bitAt h.w 1 + bitAt h.sys 2 + bitAt h.comp 3 + bitAt h.lowered 4) 1 ++ leBytes h.plane 1 ++
  leBytes h.size 1 ++ leBytes place 1 ++ leBytes h.dev 2 ++ leBytes h.va 8 ++ leBytes (bitsOf h.pa 47 16) 4 ++ zeros 12

/-- A pending result's 80 bytes (R243): the remaining distance counts from the mark's position. The rule names no class for the
landing of a walk descriptor (R328); the model gives it 5 (log entry 62). -/
def pendBytes (m : Nat) (e : Pend) : List Byte :=
  let (cls, ix, cl) := match e.reg with
    | .s i => (0, i, 0)
    | .p i => (1, i, 0)
    | .h i => (2, i, 0)
    | .v i => (3, i % 32, i / 32)
    | .w i => (5, i, 0)
    | .fmt => (4, 0, 0)
  let v := match e.val with
    | .s x => leBytes x.toNat 8
    | .p b => leBytes (b2n b) 1
    | .h h => handleBytes h
    | .v x => leBytes x.toNat 64
  leBytes cls 1 ++ leBytes ix 1 ++ leBytes cl 1 ++ zeros 1 ++ leBytes (e.land - m) 4 ++ fitTo 64 v ++ zeros 8

/-- A loop counter's word (R306). -/
def loopWord (pc : Nat) (c : LoopCtr) : Nat :=
  c.count.toNat + bitAt c.act 16 + c.body.toNat * 2 ^ 17 + (if c.act then (pc - c.first) / 4 % 2 ^ 11 * 2 ^ 21 else 0)

/-- A thread's 3072 bytes (R243). One that stands at a sync point is saved as its mark leaves it when it retires, with its
shadows closed (R17). -/
def threadBytes (th : Thread) : List Byte :=
  let t := if th.run = .arrived then landMark th.pos th else th
  let m := if th.run = .arrived then t.pos else wrapNat ((t.pos : Int) - 1) 64
  let es := t.pend.filter (fun e => e.load.isNone && e.reg != .s 0 && e.reg != .p 0)
  leBytes t.pc.toNat 8 ++ leBytes m 8 ++ leBytes t.fmt.toNat 8 ++ leBytes t.dom.toNat 8 ++ leBytes t.mpc.toNat 8 ++
  leBytes t.p.toNat 2 ++ leBytes (b2n t.defer) 1 ++ leBytes es.length 1 ++ leBytes t.pfault 1 ++ zeros 3 ++
  (upFrom 0 6).flatMap (fun i => leBytes (loopWord t.pc.toNat (tget LoopCtr.init t.n i)) 4) ++ zeros 8 ++
  (upFrom 0 64).flatMap (fun i => leBytes (sReg t i).toNat 8) ++
  (upFrom 0 8).flatMap (fun i => leBytes (wReg t i).toNat 64) ++
  (upFrom 0 16).flatMap (fun i => handleBytes (hReg t i)) ++
  fitTo 1280 (es.flatMap (pendBytes m)) ++ zeros 176

/-- The group section's 512 bytes (R244). -/
def groupBytes (g : Group) : List Byte :=
  let ring := fun (q : Nat) =>
    let r := tget Ring.none g.rings q
    leBytes r.base 4 ++ leBytes r.bytes 4 ++ leBytes r.slots 4 ++ leBytes r.head 4 ++ leBytes r.tail 4 ++
    leBytes r.filled 4 ++ leBytes r.stall 4 ++ zeros 4
  let ws := fun (i : Nat) =>
    let w := tget WSet.none g.wsets i
    leBytes (b2n w.valid) 1 ++ leBytes w.bank 1 ++ leBytes w.mxw 1 ++ leBytes (if w.mxw = 6 then w.bw else 0) 1 ++
    leBytes w.row 4 ++ zeros 8
  let arr := fun (i : Nat) => match (thAt g i).arrival with
    | some (l, st) => leBytes (1 + l % 8 * 2 + bitAt st 4) 4
    | none => zeros 4
  (upFrom 0 32).flatMap (fun k => leBytes (flagOf g k) 4) ++ (upFrom 0 8).flatMap (fun u => leBytes (unitWord g u) 8) ++
  (upFrom 0 8).flatMap ring ++ leBytes g.active 1 ++ zeros 15 ++ ws 0 ++ ws 1 ++ (upFrom 0 4).flatMap arr

/-- A provenance entry's 96 bytes (R247). -/
def provBytes (e : Prov) : List Byte :=
  leBytes e.bank 1 ++ leBytes e.cls 1 ++ zeros 2 ++ leBytes e.row0 4 ++ leBytes e.rows 4 ++ leBytes e.chk 4 ++
  leBytes e.va 8 ++ zeros 8 ++ leBytes e.walk.toNat 64

/-- The accumulators that are not all zero. -/
def accMask (g : Group) : List Nat := (upFrom 0 8).filter (fun i => !(tget [] g.acc i).isEmpty)

/-- A group's threads. -/
def threadIxs (g : Group) : List Nat := upFrom 0 g.kern.threads

/-- The sections of an image in ascending LIVE bit: the bit and the bytes (R242). -/
def imageSections (g : Group) (adds : Tab Nat) : List (Nat × List Byte) :=
  let ts := threadIxs g
  let pins := g.pinned
  [(0, ts.flatMap (fun i => threadBytes (thAt g i)))] ++
  (if ts.all (fun i => (thAt g i).v.isEmpty) then []
   else [(1, ts.flatMap (fun i => (upFrom 0 256).flatMap (fun k => leBytes (tget 0 (thAt g i).v k).toNat 64)))]) ++
  (if ts.all (fun i => (thAt g i).fr.isEmpty) then []
   else [(2, ts.flatMap (fun i => (upFrom 0 g.kern.fronts).flatMap (fun j => fitTo 1296 (frImage (fReg (thAt g i) j)))))]) ++
  [(3, groupBytes g)] ++
  (if (accMask g).isEmpty then []
   else [(4, (accMask g).flatMap (fun i => (upFrom 0 32768).flatMap (fun k => leBytes (tget 0 (tget [] g.acc i) k).toNat 4)))]) ++
  (if pins.isEmpty then []
   else [(5, padTo (roundUp (4 * pins.length) 256) (pins.flatMap (fun l => leBytes l 4)) ++
     pins.flatMap (fun l => tbytes g.scratch (256 * l) 256))]) ++
  (if g.prov.isEmpty then [] else [(6, g.prov.flatMap provBytes)]) ++
  (if adds.isEmpty then [] else [(7, (upFrom 0 32).flatMap (fun k => leBytes (tget 0 adds k) 4))])

/-- Sections laid out from an offset: (bit, offset, bytes). -/
def placeSections (off : Nat) : List (Nat × List Byte) → List (Nat × Nat × List Byte)
  | [] => []
  | (b, bs) :: r => let o := roundUp off 256
    (b, o, bs) :: placeSections (o + bs.length) r

/-- A group's image (R242), with what it holds at each section. -/
def imageOfGroup (g : Group) (adds : Tab Nat) : List Byte :=
  let ps := placeSections 128 (imageSections g adds)
  let len := match ps.getLast? with
    | some (_, o, bs) => o + bs.length
    | none => 128
  let live := ps.foldl (fun n p => n + 2 ^ p.1) 0
  let offs := (upFrom 0 8).flatMap (fun b => leBytes (match ps.find? (fun p => p.1 == b) with
    | some (_, o, _) => o
    | none => 0) 8)
  let head := leBytes 0x58435A49 4 ++ leBytes 1 2 ++ leBytes 0x0309 2 ++ leBytes 0xF 8 ++ leBytes live 4 ++
    leBytes g.kern.threads 1 ++ leBytes g.kern.fronts 1 ++ leBytes ((accMask g).foldl (fun n i => n + 2 ^ i) 0) 1 ++ zeros 1 ++
    leBytes g.image 2 ++ leBytes g.kidx 2 ++ leBytes g.index 4 ++ leBytes len 8 ++ leBytes g.pinned.length 4 ++
    leBytes g.prov.length 4 ++ zeros 16 ++ offs
  ps.foldl (fun bs p => padTo p.2.1 bs ++ p.2.2) head

/-- The offsets in an image of the sectors that hold poisoned scratch (R420). -/
def imagePoison (g : Group) (adds : Tab Nat) : List Nat :=
  match (placeSections 128 (imageSections g adds)).find? (fun p => p.1 == 5) with
  | none => []
  | some (_, o, _) =>
    let body := o + roundUp (4 * g.pinned.length) 256
    (g.pinned.zip (upFrom 0 g.pinned.length)).flatMap (fun x =>
      ((upFrom 0 4).filter (fun q => g.badScr.contains (4 * x.1 + q))).map (fun q => body + 256 * x.2 + 64 * q))

/-- The bytes that a group's image can take: the end of its last section, room for pending additions (section 7) counted. -/
def imageSize (g : Group) : Nat :=
  let ts := (threadIxs g).length
  let sizes := [3072 * ts, if (threadIxs g).all (fun i => (thAt g i).v.isEmpty) then 0 else 16384 * ts,
    if (threadIxs g).all (fun i => (thAt g i).fr.isEmpty) then 0 else 1296 * g.kern.fronts * ts, 512, 131072 * (accMask g).length,
    if g.pinned.isEmpty then 0 else roundUp (4 * g.pinned.length) 256 + 256 * g.pinned.length, 96 * g.prov.length, 128]
  sizes.foldl (fun n b => if b = 0 then n else roundUp n 256 + b) 128

/-- The save area has room for the images of more groups beside those it holds and those being saved (R238): firmware sizes it at
bring-up, and an image that CTXSV has written elsewhere is not in it. -/
def saveRoom (s : State) (gs : List Group) : Bool :=
  let held := (s.saved.filter (fun x => !x.host)).map (fun x => x.grp) ++ s.cores.filterMap (fun c => match c.2.grp with
    | some g => if g.saving then some g else none
    | none => none)
  decide ((held ++ gs).foldl (fun n g => n + imageSize g) 0 ≤ Config.saveArea)

/-! Reading. -/

/-- A number of `n` bytes at an offset. -/
def numAt (bs : List Byte) (o n : Nat) : Nat := leNat ((bs.drop o).take n)

/-- A handle's 32 bytes read (R243): the first use of a memory handle translates it again, whether it was saved valid or stale. -/
def handleAt (bs : List Byte) (o : Nat) : Handle :=
  let st := numAt bs o 1
  let sp := numAt bs (o + 1) 1
  let a := numAt bs (o + 2) 1
  let place := numAt bs (o + 5) 1
  let size := numAt bs (o + 4) 1
  let va := numAt bs (o + 8) 8
  if st = 0 then Handle.init
  else
    { st := if sp = 0 then (if st = 2 then .stale else .restored) else .valid, space := if sp = 0 then .memory else if sp = 1 then .scratch else .plane,
      va := va, pa := numAt bs (o + 16) 4 * 65536 + va % 65536, size := size, r := a.testBit 0, w := a.testBit 1,
      sys := a.testBit 2, comp := a.testBit 3, lowered := a.testBit 4,
      stack := if place % 2 = 1 then some (place / 2 % 8) else none, plane := numAt bs (o + 3) 1,
      dev := if sp = 0 then numAt bs (o + 6) 2 else 0 }

/-- A pending entry read: it lands at its remaining distance from the mark at position `m`. -/
def pendAt (m : Nat) (bs : List Byte) (o : Nat) : Pend :=
  let cls := numAt bs o 1
  let ix := numAt bs (o + 1) 1
  let cl := numAt bs (o + 2) 1
  let land := m + numAt bs (o + 4) 4
  let v := numAt bs (o + 8) 64
  let e := fun (r : RegName) (x : RegVal) => ({ reg := r, val := x, land := land, pos := m, load := none } : Pend)
  if cls = 0 then e (.s ix) (.s (BitVec.ofNat 64 v))
  else if cls = 1 then e (.p ix) (.p (v % 2 == 1))
  else if cls = 2 then e (.h ix) (.h (handleAt bs (o + 8)))
  else if cls = 3 then e (.v (32 * cl + ix)) (.v (BitVec.ofNat 512 v))
  else if cls = 5 then e (.w ix) (.v (BitVec.ofNat 512 v))
  else e .fmt (.s (BitVec.ofNat 64 v))

/-- Depths of active loops, the outermost first (R307): an inner body begins later. -/
def loopDepths (n : Tab LoopCtr) : Tab LoopCtr :=
  n.map (fun x => if x.2.act then
    (x.1, { x.2 with depth := (n.filter (fun y => y.2.act && decide (y.2.first < x.2.first))).length }) else x)

/-- A loop counter's word read (R306): the body is found at PC − 4 × OFS. -/
def loopAt (s : State) (g : Seg) (pc w : Nat) : LoopCtr :=
  let act := w.testBit 16
  let body := BitVec.ofNat 4 (w / 2 ^ 17)
  let first := pc - 4 * bitsOf w 31 21
  let last := match skipBundles s g (body.toNat + 1) first 0 with
    | some (_, l) => l
    | none => first
  { count := BitVec.ofNat 16 w, act := act, body := body, first := if act then first else 0, last := if act then last else 0, sys := false,
    depth := 0 }

/-- A table built from a list of (key, value) pairs. -/
def tabOf {α : Type} [DecidableEq α] (d : α) (l : List (Nat × α)) : Tab α := l.foldl (fun t x => tset d t x.1 x.2) []

/-- Thread i of an image read into a thread of segment `g`; `fr` its fronts' section, `v` its vector section. -/
def threadAt (s : State) (seg : Seg) (bs : List Byte) (o : Nat) (v : Option Nat) (fr : Option Nat) (nfront : Nat) : Thread :=
  let pos := (numAt bs (o + 8) 8 + 1) % 2 ^ 64
  let m := numAt bs (o + 8) 8
  let pc := numAt bs o 8
  let w := fun (i : Nat) => loopAt s seg pc (numAt bs (o + 0x30 + 4 * i) 4)
  let fro := fun (a i : Nat) => let im := (bs.drop (a + 1296 * i)).take 1296
    let cfg : BitVec 32 := BitVec.ofNat 32 (le4 im 0)
    ({ cfg := cfg, tup := frTuples cfg im (le4 im 4), ovf := BitVec.ofNat 32 (le4 im 8), nanc := BitVec.ofNat 32 (le4 im 12) } : Front)
  openWindow { Thread.init with
    pc := BitVec.ofNat 64 pc, pos := pos, fmt := BitVec.ofNat 64 (numAt bs (o + 0x10) 8), dom := BitVec.ofNat 64 (numAt bs (o + 0x18) 8),
    mpc := BitVec.ofNat 64 (numAt bs (o + 0x20) 8), p := BitVec.ofNat 16 (numAt bs (o + 0x28) 2) ||| 1,
    defer := (numAt bs (o + 0x2A) 1).testBit 0, pfault := numAt bs (o + 0x2C) 1,
    n := loopDepths (tabOf LoopCtr.init ((upFrom 0 6).map (fun i => (i, w i)))),
    s := tabOf 0 ((upFrom 1 63).map (fun i => (i, BitVec.ofNat 64 (numAt bs (o + 0x50 + 8 * i) 8)))),
    w := tabOf 0 ((upFrom 0 8).map (fun i => (i, BitVec.ofNat 512 (numAt bs (o + 0x250 + 64 * i) 64)))),
    h := tabOf Handle.init ((upFrom 0 16).map (fun i => (i, handleAt bs (o + 0x450 + 32 * i)))),
    pend := (upFrom 0 (min (numAt bs (o + 0x2B) 1) 16)).map (fun i => pendAt m bs (o + 0x650 + 80 * i)),
    v := match v with
      | some a => tabOf 0 ((upFrom 0 256).map (fun k => (k, BitVec.ofNat 512 (numAt bs (a + 64 * k) 64))))
      | none => [],
    fr := match fr with
      | some a => tabOf Front.init ((upFrom 0 nfront).map (fun i => (i, fro a i)))
      | none => [],
    seg := seg, run := .stopped }

/-- The header's checks (R250 step 1, R251): the sizes are those of the sections that LIVE names, in place. -/
def imageOk (k : Kernel) (bs : List Byte) : Bool :=
  let live := numAt bs 0x10 4
  let t := numAt bs 0x14 1
  let nf := numAt bs 0x15 1
  let am := numAt bs 0x16 1
  let npin := numAt bs 0x28 4
  let nprov := numAt bs 0x2C 4
  let accs := ((upFrom 0 8).filter (fun i => am.testBit i)).length
  let size := fun (b : Nat) =>
    if b = 0 then t * 3072 else if b = 1 then t * 16384 else if b = 2 then t * nf * 1296 else if b = 3 then 512
    else if b = 4 then accs * 131072 else if b = 5 then roundUp (4 * npin) 256 + 256 * npin
    else if b = 6 then 96 * nprov else 128
  let live? := fun (b : Nat) => live.testBit b
  let off := fun (b : Nat) => numAt bs (0x40 + 8 * b) 8
  let ends := (upFrom 0 8).foldl (fun (r : Nat × Bool) b =>
    if live? b then (off b + size b, r.2 && off b == roundUp r.1 256) else (r.1, r.2 && off b == 0)) (128, true)
  numAt bs 0 4 == 0x58435A49 && numAt bs 4 2 == 1 && numAt bs 0x17 1 == 0 && numAt bs 0x30 16 == 0 && live / 256 == 0 &&
  live? 0 && live? 3 && t == k.threads && nf == k.fronts && (live? 4 == (am != 0)) && (live? 5 == (npin != 0)) &&
  (live? 6 == (nprov != 0)) && decide (npin ≤ k.scratch) && decide (nprov ≤ 16384) && ends.2 && numAt bs 0x20 8 == ends.1 &&
  numAt bs 8 8 / 16 == 0

/-- Entries in list order without the rows that later ones have overwritten (R245). -/
def cutLive : List Prov → List Prov
  | [] => []
  | e :: r => { e with live := e.live.filter (fun x => !r.any (fun f => f.bank == e.bank && decide (f.row0 ≤ x) && decide (x < f.row0 + f.rows))) } ::
      cutLive r

/-- The entry as the saved group has it: what it read stays held (R248). -/
def heldAs (old : List Prov) (e : Prov) : Prov :=
  match old.find? (fun o => o.bank == e.bank && o.row0 == e.row0 && o.rows == e.rows && o.va == e.va && o.walk == e.walk && o.chk == e.chk) with
  | some o => { e with secs := o.secs }
  | none => e

/-- The group of an image, for a launch's kernel. -/
def groupOfImage (s : State) (old : Group) (bs : List Byte) : Group × Tab Nat :=
  let live := numAt bs 0x10 4
  let off := fun (b : Nat) => numAt bs (0x40 + 8 * b) 8
  let at? := fun (b o : Nat) => if live.testBit b then some (off b + o) else none
  let k := old.kern
  let gs := off 3
  let ring := fun (q : Nat) => let o := gs + 0xC0 + 32 * q
    ({ base := numAt bs o 4, bytes := numAt bs (o + 4) 4, slots := numAt bs (o + 8) 4, head := numAt bs (o + 12) 4,
       tail := numAt bs (o + 16) 4, filled := numAt bs (o + 20) 4, stall := numAt bs (o + 24) 4, flying := [], taken := 0 } : Ring)
  let ws := fun (i : Nat) => let o := gs + 0x1D0 + 16 * i
    ({ valid := numAt bs o 1 == 1, bank := numAt bs (o + 1) 1, row := numAt bs (o + 4) 4, mxw := numAt bs (o + 2) 1,
       bw := numAt bs (o + 3) 1, rows := [] } : WSet)
  let stat := fun (u : Nat) => let w := numAt bs (gs + 0x80 + 8 * u) 8
    ({ stall := w % 2 ^ 32, err := w.testBit 38, code := bitsOf w 46 39 } : QStat)
  let th := fun (i : Nat) =>
    let t := threadAt s k.seg bs (off 0 + 3072 * i) (at? 1 (16384 * i)) (at? 2 (1296 * k.fronts * i)) k.fronts
    let a := numAt bs (gs + 0x1F0 + 4 * i) 4
    let gone := (thAt old i).run == .exited
    if gone then { t with run := .exited }
    else if a % 2 = 1 then
      { t with run := .arrived, marking := 7, pos := (t.pos + 2 ^ 64 - 1) % 2 ^ 64, arrival := some (a / 2 % 8, a.testBit 4) }
    else t
  let accs := (upFrom 0 8).filter (fun i => (numAt bs 0x16 1).testBit i)
  let acc := fun (j : Nat) => (upFrom 0 32768).foldl (fun t i =>
    tset 0 t i (BitVec.ofNat 32 (numAt bs (off 4 + 131072 * j + 4 * i) 4))) ([] : Tab (BitVec 32))
  let npin := if live.testBit 5 then numAt bs 0x28 4 else 0
  let pins := (upFrom 0 npin).map (fun i => numAt bs (off 5 + 4 * i) 4)
  let body := off 5 + roundUp (4 * npin) 256
  let scr := (pins.zip (upFrom 0 npin)).foldl (fun t x => tstore t (256 * x.1) ((bs.drop (body + 256 * x.2)).take 256)) ([] : Tab Byte)
  let nprov := if live.testBit 6 then numAt bs 0x2C 4 else 0
  let prov := fun (i : Nat) => let o := off 6 + 96 * i
    ({ id := i + 1, bank := numAt bs o 1, cls := numAt bs (o + 1) 1, row0 := numAt bs (o + 4) 4, rows := numAt bs (o + 8) 4,
       chk := numAt bs (o + 12) 4, va := numAt bs (o + 16) 8, walk := BitVec.ofNat 512 (numAt bs (o + 32) 64), secs := [],
       live := upFrom (numAt bs (o + 4) 4) (numAt bs (o + 8) 4) } : Prov)
  let g : Group :=
    { old with
      ths := tabOf Thread.init ((upFrom 0 k.threads).map (fun i => (i, th i))),
      flags := tabOf 0 ((upFrom 0 32).map (fun i => (i, BitVec.ofNat 32 (numAt bs (gs + 4 * i) 4)))),
      rings := tabOf Ring.none ((upFrom 0 k.rings.length).map (fun q => (q, ring q))),
      acc := tabOf [] ((accs.zip (upFrom 0 accs.length)).map (fun x => (x.1, acc x.2))),
      banks := [], badRows := [], active := numAt bs (gs + 0x1C0) 1,
      wsets := tabOf WSet.none ((upFrom 0 2).map (fun i => (i, ws i))),
      scratch := scr, pinned := pins.foldl (fun l x => insNat x l) [], badScr := [],
      chStat := tabOf QStat.init ((upFrom 0 4).map (fun u => (u, stat u))),
      quStat := tabOf QStat.init ((upFrom 0 4).map (fun u => (u, stat (u + 4)))),
      prov := cutLive (((upFrom 0 nprov).map prov).map (heldAs old.prov)) }
  let adds := if live.testBit 7 then tabOf 0 ((upFrom 0 32).map (fun i => (i, numAt bs (off 7 + 4 * i) 4))) else []
  (g, adds)

/-! Restore (R250). -/

/-- The outcome of a restore's steps. -/
inductive Revive (α : Type) where
  | ok (x : α) | bad (c : FaultCode) (addr : Nat) | ask (l : List (Nat × Nat)) | mig

/-- The sources of a provenance entry's replay under the present translation of its VA (R250 step 4). -/
def provSrcs (s : State) (g : Group) (e : Prov) : Revive (List ByteSrc) :=
  match walk s (rootOf s g.image) false e.va with
  | .bad c => .bad c e.va
  | .mig => .mig
  | .wait d sec => .ask [(d, sec)]
  | .page pa lv leaf dev =>
    let h := pageHandle s e.va pa lv leaf dev
    if !h.r then .bad .handlePerm e.va
    else if isFenced s dev then .bad .deviceFenced e.va
    else .ok ((walkOffs (walkOf e.walk).dims).flatMap (fun o =>
      let a := wrapNat ((h.pa : Int) + o) 64
      (upFrom a (walkOf e.walk).run).map (fun x => .home dev x)))

/-- The VA of byte `i` of what a provenance entry's walk reads. -/
def provVa (e : Prov) (i : Nat) : Nat :=
  wrapNat ((e.va : Int) + nth 0 (walkOffs (walkOf e.walk).dims) (i / (walkOf e.walk).run) + (i % (walkOf e.walk).run : Nat)) 64

/-- A sector whose bytes a replay would read is poisoned (R420). -/
def replayBad (s : State) (b : ByteSrc) : Bool :=
  match b with
  | .home d a => if isRemote s d then remoteBad s d (a / 64) else secBad s (a / 64)
  | _ => false

/-- Provenance entries replayed in list order into a group's banks (R250 step 4), read at home. -/
def replay (s : State) (g : Group) : List Prov → Revive Group
  | [] => .ok g
  | e :: r =>
    match provSrcs s g e with
    | .bad c a => .bad c a
    | .ask l => .ask l
    | .mig => .mig
    | .ok srcs =>
      let secs := srcSectors srcs
      let far := secs.filter (fun x => (homeData s x.1 x.2).isNone)
      if !far.isEmpty then .ask far
      else if srcs.any (replayBad s) then .bad .poison (provVa e (srcs.findIdx (replayBad s)))
      else
        let bs := srcs.map (takeByte { s with core := Core.init })
        if crc32c bs != e.chk then .bad .integrity 0
        else
          let g' := bankPut g e.bank e.row0 bs (bs.map (fun _ => false))
          replay s { g' with prov := g'.prov.map (fun x => if x.id == e.id then { x with secs := secs } else x) } r

/-- A weight set reloaded from its rows (R250 step 5). -/
def reloadSet (g : Group) (w : WSet) : WSet :=
  match tileShape w.mxw w.bw with
  | some (_, e, sc) => if w.valid then { w with rows := (upFrom w.row (e + sc)).map (fun r => tget 0 (tget [] g.banks w.bank) r) } else w
  | none => w

/-- A thread as it comes back (R243, R250 step 8): memory handles to be translated again, hash contexts empty, running again unless it
awaits the host or stands at a sync point. -/
def reviveThread (active : Nat) (t : Thread) : Thread :=
  let again := fun (h : Handle) => if h.st == .valid && h.space == .memory then { h with st := .restored } else h
  let h := t.h.map (fun x => (x.1, again x.2))
  let pend := t.pend.map (fun e => match e.val with
    | .h x => { e with val := .h (again x) }
    | _ => e)
  let run : RunState := match t.run with
    | .exited => .exited
    | .arrived => .arrived
    | _ => if t.pfault = 0 then .ready else .stopped
  let t1 : Thread := { t with h := h, pend := pend, hs := [], run := run, intr := false, idist := 0, deferN := 0, stalls := [], fbusy := 0 }
  let t2 := if run = .arrived then t1 else openWindow t1
  { t2 with ckpt := { t2.ckpt with act := active } }

/-- Steps 4 to 7 of R250 on a group. -/
def reviveGroup (s : State) (g : Group) (adds : Tab Nat) : Revive Group :=
  match replay s { g with banks := [], badRows := [] } g.prov with
  | .bad c a => .bad c a
  | .ask l => .ask l
  | .mig => .mig
  | .ok g1 =>
    let g2 := { g1 with wsets := g1.wsets.map (fun w => (w.1, reloadSet g1 w.2)) }
    let g3 := adds.foldl (fun g a => addFlag g a.1 a.2) g2
    .ok { g3 with ths := g3.ths.map (fun t => (t.1, reviveThread g3.active t.2)) }

/-- Early flag additions that waited for a group to start (R256). -/
def withEarly (s : State) (g : Group) : Group :=
  (s.earlyAdds.filter (fun x => x.1 == g.launch && x.2.1 == g.index)).foldl (fun g x => addFlag g x.2.2.1 x.2.2.2) g

/-- The lines of cache that rings pinned at a group's start take ways from (R112, R113). -/
def pinFits (s : State) (co : Nat) (g : Group) : State :=
  onArray s co (fun s => (g.pinned.foldl (fun l x => insNat (x % 2048) l) []).foldl (fun s k =>
    fitSet s k (g.pinned.filter (fun l => l % 2048 == k)).length 17) s)

/-- A group put onto a free core (R147, R250 step 8, R33): what its core's readers had been given is forgotten with the clean bytes. -/
def seatGroup (s : State) (co : Nat) (g : Group) : State :=
  let s := pinFits (forget s (coreReader co)) co g
  let g := withEarly s g
  let c := acquire (coreAt s co) 0xFFFF
  setCore { s with bseq := s.bseq + 1, earlyAdds := s.earlyAdds.filter (fun x => !(x.1 == g.launch && x.2.1 == g.index)) } co
    { c with grp := some { g with disp := s.bseq }, claim := 0 }

/-- A restore that has failed (R250): the stationmaster is told, with KIND 3 and the VA that the replay failed at (R230). -/
def restoreFailed (s : State) (g : Group) (co : Nat) (c : FaultCode) (addr : Nat) : State :=
  let r : Report :=
    { launch := g.launch, core := some co, code := faultNum c, kind := 3, thr := 0, image := g.image, kernel := g.kidx,
      mbox := g.mbox, group := g.index, noff := 0, poff := 2 ^ 64 - 1, addr := addr, info := 0, sys := false }
  { s with reports := s.reports ++ [r] }

end Sys2Proof.Machine
end

