-- ==== Sys2Proof/Machine/Ballast.lean ====
section
/-!
DEFINITION. The ballast level: the dispatchers (R189 to R199, bare, or with a ballast core focused), BLAUNCH's effect
(R190), and the instructions of Lamesque-B (R398 to R405), which act on the focused instance.
-/
namespace Sys2Proof.Machine
open Sys2Proof

/-! Instances. -/

/-- The value of e(i): e0 reads as zero (R184). -/
def eReg (b : BInst) (i : Nat) : Word := if i = 0 then 0 else tget 0 b.e i

/-- The value of z(i). -/
def zReg (b : BInst) (i : Nat) : ZReg := tget 0 b.z i

/-- Row slot y(i). -/
def ySlot (b : BInst) (i : Nat) : RowSlot := tget RowSlot.init b.y i

/-- e(d) written; writes to e0 are discarded. -/
def setE (d : Nat) (x : Word) (b : BInst) : BInst := if d = 0 then b else { b with e := tset 0 b.e d x }

/-- z(d) written. -/
def setZ (d : Nat) (x : ZReg) (b : BInst) : BInst := { b with z := tset 0 b.z d x }

/-- y(i) written. -/
def setY (i : Nat) (x : RowSlot) (b : BInst) : BInst := { b with y := tset RowSlot.init b.y i x }

/-- A launch with nothing in it. -/
def noLaunch : Launch :=
  { id := 0, mbox := 0, station := false, image := 0, kidx := 0, groups := 0, prio := 0, waited := 0, aged := false,
    evt := false, seen := true, depAddr := 0, depTgt := 0, doneAddr := 0, doneInc := 0, arg0 := 0, arg1 := 0, ready := false, readySeq := 0,
    handed := 0, ended := 0, killed := false, finished := false, forwarded := false, ballast := false,
    took := false, started := 0, stack := 0, wpa := 0, wlen := 0, from_ := none, remote := none, ready2 := [],
    reports := [], tries := 0 }

/-- Instance `i` of a launch as it begins (R184). -/
def freshInst (s : State) (l : Launch) (i : Nat) : BInst :=
  let e : Tab Word := [(1, BitVec.ofNat 64 l.wlen), (2, BitVec.ofNat 64 l.arg1), (3, BitVec.ofNat 64 i), (4, BitVec.ofNat 64 l.groups)]
  { launch := l.id, index := i, prio := l.prio, waited := 0, seq := 0, pc := 0, e := e.foldl (fun t x => tset 0 t x.1 x.2) [],
    z := [], y := [], wlen := l.wlen, wpa := l.wpa, code := (kernelOf s l.image l.kidx).bcode }

/-! The dispatcher of a stack (R192 to R195). -/

/-- The waiting instances of a stack, those waiting longest at a priority first. -/
def waitList (s : State) (st : Nat) : List BInst := tget [] s.bwait st

/-- The queue entries of a stack that are occupied (R192). -/
def queueCount (s : State) (st : Nat) : Nat :=
  (s.launches.filter (fun l => l.ballast && l.took && !l.killed && l.stack == st && decide (l.started < l.groups))).length

/-- A launch takes effect (R191): it holds its window, and its instances wait. -/
def ballastTake (s : State) (id pa n st : Nat) : State :=
  let s1 := setLaunch s id (fun l => { l with took := true, wpa := pa, wlen := n, stack := st, tries := 0 })
  match launchOf s1 id with
  | some l => { s1 with bwait := tmod [] s1.bwait st (fun w => w ++ (upFrom 0 l.groups).map (freshInst s1 l)) }
  | none => s1

/-- The highest effective priority in a list. -/
def topPrio (l : List BInst) : Nat := l.foldl (fun m b => max m b.prio) 0

/-- The place of the instance that goes first (R192). -/
def pickIx (l : List BInst) : Nat := (l.findIdx? (fun b => b.prio == topPrio l)).getD 0

/-- The instance that goes first leaves the waiting list: its save slot is freed if it has one, its queue entry counts
it as started; it takes the dispatcher's present start number (R192, R194), as one that starts anew does (log entry 64). -/
def takeWaiting (s : State) (st : Nat) : Option (BInst × State) :=
  let w := waitList s st
  match w.drop (pickIx w) with
  | [] => none
  | b :: _ =>
    let seq := s.bseq + (if Config.freeBit s.freeCtr then 1 else 0)
    let s1 : State := { tick s with bwait := tset [] s.bwait st (w.take (pickIx w) ++ w.drop (pickIx w + 1)), bseq := seq }
    let s2 := if b.seq = 0 then setLaunch s1 b.launch (fun l => { l with started := l.started + 1 })
      else { s1 with bsave := tmod 0 s1.bsave st (fun n => n - 1) }
    some ({ b with seq := seq + 1 }, s2)

/-- An instance saved into a save slot (R194): ahead of all that wait (`front`), or behind them (R195). -/
def saveInst (s : State) (st : Nat) (b : BInst) (front : Bool) : State :=
  { s with bwait := tmod [] s.bwait st (fun w => if front then b :: w else w ++ [b]), bsave := tmod 0 s.bsave st (fun n => n + 1) }

/-- The ballast cores of a stack that are in service. -/
def stackCores (s : State) (st : Nat) : List Nat := (upFrom (16 * st) 16).filter (fun c => !s.boos.contains c)

/-- The instance that runs on a ballast core. -/
def bcoreAt (s : State) (bc : Nat) : Option BInst := tfind s.bcores bc

/-- The lowest-numbered free core of a stack. -/
def freeBcore (s : State) (st : Nat) : Option Nat := (stackCores s st).find? (fun c => (bcoreAt s c).isNone)

/-- The running instance that R193 would take a core from: lowest priority, then started (or resumed, log entry 64) last, then the
lowest core. -/
def ballastVictim (s : State) (st : Nat) : Option (Nat × BInst) :=
  (stackCores s st).foldl (fun r c => match bcoreAt s c with
    | none => r
    | some b => if b.prio = 7 then r else match r with
      | none => some (c, b)
      | some (_, m) => if decide (b.prio < m.prio) || (b.prio == m.prio && decide (m.seq < b.seq)) then some (c, b) else r) none

/-- A waiting instance put onto a core. -/
def ballastPut (s : State) (st bc : Nat) : State :=
  match takeWaiting s st with
  | some (b, s') => { s' with bcores := tset BInst.none s'.bcores bc b }
  | none => s

/-- BALLAST_INSTANCE_START can happen: a core is free, or one can be pre-empted (R192, R193). -/
def ballastStartReady (s : State) (st : Nat) : Bool :=
  !(waitList s st).isEmpty &&
  ((freeBcore s st).isSome ||
   (match ballastVictim s st with
    | some (_, m) => decide (m.prio < topPrio (waitList s st)) && decide (tget 0 s.bsave st < 32)
    | none => false))

/-- BALLAST_INSTANCE_START (R192, R193). -/
def ballastStart (s : State) (st : Nat) : State :=
  if !ballastStartReady s st then s
  else match freeBcore s st with
    | some bc => ballastPut s st bc
    | none => match ballastVictim s st with
      | none => s
      | some (bc, m) =>
        -- the one that goes first is chosen before the pre-empted one returns
        match takeWaiting s st with
        | none => s
        | some (b, s') => saveInst { s' with bcores := tset BInst.none s'.bcores bc b } st m true

/-- BALLAST_AGEING (R192): instance `inst` of launch `id`, waiting at a stack, has waited for one more 100 us. -/
def ballastAge (s : State) (st id inst : Nat) : State :=
  { s with bwait := tmod [] s.bwait st (fun w => w.map (fun b =>
      if b.launch == id && b.index == inst then
        { b with waited := b.waited + 1, prio := if b.prio < 6 then b.prio + 1 else b.prio }
      else b)) }

/-- A ballast core leaves service (R194, R421): its instance is saved, whatever the number of slots. -/
def ballastOut (s : State) (bc : Nat) : State :=
  match bcoreAt s bc with
  | some b => saveInst { s with bcores := tdel s.bcores bc, boos := insNat bc s.boos } (bc / 16) b true
  | none => { s with boos := insNat bc s.boos }

/-- What a VA that should name a lowered window gives (R189 to R191): the window whose base it translates to; none, with the stack it
translates into; a table of another device to be read; a migrating entry. -/
inductive WinRes where
  | window (pa len : Nat) | none (st : Option Nat) | wait (dev sec : Nat) | mig
deriving DecidableEq, Repr

/-- The window that a VA of an image's space names; `sys` is the system bit of the segment that names it. -/
def windowAt (s : State) (img : Nat) (sys : Bool) (va : Nat) : WinRes :=
  match walk s (rootOf s img) sys va with
  | .page p lv _ dev =>
    let pa := p + va % pageBytes lv
    if isRemote s dev then .none none
    else match s.lowered.find? (fun w => w.1 == pa) with
      | some w => .window w.1 w.2
      | none => .none (stackOf s pa)
  | .wait d sec => .wait d sec
  | .mig => .mig
  | .bad _ => .none none

/-- An image that a job has taken exclusively: nothing more of it is dispatched (R210). -/
def imageHeld (s : State) (image : Nat) : Bool :=
  match imageOf s image with
  | some i => i.hold
  | none => false

/-- What an amount added to the counter at a VA of a space gives: the state after it, a table of another device to be read first,
or a migrating entry. -/
inductive AddRes where
  | done (s : State) | wait (dev sec : Nat) | mig

/-- An amount added to the counter at a VA of the space whose root is `root`: here, or on the device that holds it (R72, R255).
Where the VA no longer translates, or its device is fenced, nothing is added (log entry 63). Three points that the spec leaves open
are a DESIGN CHOICE (log entry 86): an add here is made in a poisoned sector, which stays poisoned, and in saddle scratch beyond its
extent, where another device would refuse it; and a page that has become a system page since the message was accepted is added to. -/
def rootAdd (s : State) (root va inc : Nat) : AddRes :=
  if va = 0 then .done s
  else match walk s root true va with
    | .page pa level _ dev =>
      let a := pa + va % pageBytes level
      .done (if isFenced s dev then s
        else if isRemote s dev then sendFlit s dev 4 0 a ([BitVec.ofNat 8 0, BitVec.ofNat 8 8] ++ leBytes inc 8 ++ leBytes 0 8)
        else addCounter s a inc)
    | .wait d sec => .wait d sec
    | .mig => .mig
    | .bad _ => .done s

/-- A completion add by a unit of the package, whose reads carry `tag`: `fin` follows it. Where the walk needs a table of another
device, the unit asks for it and comes again; a migrating entry is walked again 64 times, which `again` counts (R129). -/
def withAdd (s : State) (tag : List Nat) (root va inc tries : Nat) (again fin : State → State) : State :=
  let s := testWalk (asReader s tag) root va
  match rootAdd s root va inc with
  | .done s' => fin (readDone s' tag)
  | .wait d sec => askSector s d sec 0
  | .mig => if 64 ≤ tries then fin (readDone s tag) else again (spent s)

/-- A launch's completion add (R72, R198), then what follows it. -/
def doneAdd (s : State) (l : Launch) (inc : Nat) (fin : State → State) : State :=
  withAdd s [5, l.id] (rootOf s l.image) l.doneAddr inc l.tries
    (fun s => setLaunch s l.id (fun l => { l with tries := l.tries + 1 })) fin

/-- A completion add can go on: its counter's translation is at hand, or still to be read. -/
def addGoes (s : State) (l : Launch) : Bool :=
  match rootAdd (asReader s [5, l.id]) (rootOf s l.image) l.doneAddr l.doneInc with
  | .wait d sec => !asking s d sec
  | _ => true

/-- A launch leaves the device. -/
def dropLaunch (s : State) (id : Nat) : State := { s with launches := s.launches.filter (fun l => l.id != id) }

/-- A ballast launch's completion add and event (R198). -/
def ballastEnd (s : State) (l : Launch) : State :=
  doneAdd s l (l.doneInc + if l.killed then 2 ^ 63 else 0) fun s1 =>
    let s2 := if l.evt then postEvent s1 (plainEvent 1 l.mbox l.image l.kidx) else s1
    dropLaunch s2 l.id

/-- BALLAST_LAUNCH_COMPLETION can happen for a launch. -/
def ballastOver (l : Launch) : Bool := l.ballast && l.took && (l.killed || decide (l.groups ≤ l.ended))

/-- BALLAST_LAUNCH_COMPLETION (R198). -/
def ballastComplete (s : State) (id : Nat) : State :=
  match launchOf s id with
  | some l => if ballastOver l then ballastEnd s l else s
  | none => s

/-- A stack's queue has a free entry (R192); a VA that lies on no stack waits for none. -/
def queueFree (s : State) (st : Option Nat) : Bool :=
  match st with
  | some k => decide (queueCount s k < 64)
  | none => true

/-- BALLAST_LAUNCH_ENQUEUE can happen for a launch: it is a ready host launch of an image that no job holds (R210), and the queue of
its window's stack has a free entry (R191, R192), or its window's translation needs a read. -/
def enqueueReady (s : State) (l : Launch) : Bool :=
  let s := asReader s [5, l.id]
  l.ballast && l.ready && !l.took && !l.killed && !imageHeld s l.image &&
  (match windowAt s l.image false l.arg0 with
   | .window pa _ => queueFree s (stackOf s pa)
   | .none st => queueFree s st
   | .wait d sec => !asking s d sec
   | .mig => true)

/-- BALLAST_LAUNCH_ENQUEUE (R191): the window is checked again as the launch enters its queue. -/
def ballastEnqueue (s : State) (id : Nat) : State :=
  match launchOf s id with
  | none => s
  | some l =>
    let gone := fun (s : State) =>
      let l' := { l with killed := true, took := true, tries := 0 }
      ballastEnd (setLaunch (refuse s l.mbox 9) id (fun _ => l')) l'
    if !enqueueReady s l then s
    else
      let s := testWalk (asReader s [5, id]) (rootOf s l.image) l.arg0
      match windowAt s l.image false l.arg0 with
      | .window pa n => ballastTake (readDone s [5, id]) id pa n ((stackOf s pa).getD 0)
      | .none _ => gone (readDone s [5, id])
      | .wait d sec => askSector s d sec 0
      | .mig => if 64 ≤ l.tries then gone (readDone s [5, id])
          else setLaunch (spent s) id (fun l => { l with tries := l.tries + 1 })

/-- A ballast launch is killed (R197): its instances stop at their next boundary, those waiting are dropped. -/
def ballastKill (s : State) (id : Nat) : State :=
  let mine := fun (b : BInst) => b.launch == id
  let saves := s.bwait.map (fun x => (x.1, (x.2.filter (fun b => mine b && b.seq != 0)).length))
  let bsave := saves.foldl (fun t x => tmod 0 t x.1 (fun n => n - x.2)) s.bsave
  let bwait := s.bwait.foldl (fun t x => tset [] t x.1 (x.2.filter (fun b => !mine b))) s.bwait
  setLaunch { s with bcores := s.bcores.filter (fun x => !mine x.2), bwait := bwait, bsave := bsave } id
    (fun l => { l with killed := true })

/-- A fault of the focused instance (R197): the report, and the kill of its launch. -/
def ballastFault (s : State) (c : FaultCode) (addr : Nat) : State :=
  let b := s.bi
  let l := (launchOf s b.launch).getD noLaunch
  let grp : Nat := match l.from_ with
    | some (_, g) => g
    | none => 0
  let r : Report :=
    { launch := b.launch, core := none, code := faultNum c, kind := 2, thr := b.index, image := l.image, kernel := l.kidx,
      mbox := l.mbox, group := grp, noff := b.pc.toNat, poff := 2 ^ 64 - 1, addr := addr, info := 0, sys := false }
  let s1 := ballastKill s b.launch
  { s1 with bi := BInst.none, reports := s1.reports ++ [r] }

/-! BLAUNCH at step 2 of its mark (R190). -/

/-- What a descriptor gives: a fault, a table of another device to be read, a migrating entry that the walk of WINDOW or (`ctr`) of
DONEADDR met, or its effect. -/
inductive Blaunch where
  | bad (c : FaultCode) | wait (dev sec : Nat) | mig (ctr : Bool) | done (s : State)

/-- The effect of a descriptor that has been read. -/
def blaunchDesc (s : State) (d : Nat) (bs : List Byte) : Blaunch :=
  let at_ := fun o n => leNat ((bs.drop o).take n)
  let kidx := at_ 0 2
  let inst := at_ 2 1
  let pri := at_ 3 1
  let img := s.th
  let image := s.grp.image
  let done := at_ 0x18 8
  let k := kernelOf s image kidx
  let s := testWalk (testWalk s (rootOf s image) (at_ 8 8)) (rootOf s image) done
  let known := match imageOf s image with
    | some i => decide (kidx < i.kernels.length) && k.kind == 2
    | none => false
  if decide (8 ≤ pri) || at_ 4 4 != 0 || inst == 0 || decide (16 < inst) || (pri == 7 && !img.seg.sys) || !known then
    .bad .formatInvalid
  else match windowAt s image img.seg.sys (at_ 8 8) with
    | .none _ => .bad .handlePerm
    | .wait d sec => .wait d sec
    | .mig => .mig false
    | .window pa len =>
      let enqueue : Blaunch :=
        let st := (stackOf s pa).getD 0
        if decide (64 ≤ queueCount s st) then .done (putS s d 0 clsLoad)
        else
          let l : Launch :=
            { noLaunch with id := s.nextId, mbox := 255, image := image, kidx := kidx, groups := inst,
                            prio := if pri = 7 then 7 else min pri k.prio, doneAddr := done, doneInc := 1, arg1 := at_ 0x10 8,
                            ready := true, ballast := true, from_ := some (s.grp.launch, s.grp.index) }
          let s1 : State := { s with launches := s.launches ++ [l], nextId := s.nextId + 1 }
          .done (putS (ballastTake s1 l.id pa len st) d 1 clsLoad)
      if done = 0 then enqueue
      else if done % 8 != 0 then .bad .align
      else match walk s (rootOf s image) img.seg.sys done with
        | .page _ _ leaf _ => if leaf.testBit 3 then enqueue else .bad .handlePerm
        | .wait d sec => .wait d sec
        | .mig => .mig true
        | .bad _ => .bad .handlePerm

/-! The instructions. -/

/-- An instruction that goes on with the next word. -/
def bNext (s : State) (f : BInst → BInst) : Out :=
  let b := f s.bi
  .next { s with bi := { b with pc := s.bi.pc + 4 } }

/-- A scalar result. -/
def bScal (s : State) (d : BitVec 5) (x : Word) : Out := bNext s (setE d.toNat x)

/-- The operands of a scalar instruction. -/
def be (s : State) (a : BitVec 5) : Word := eReg s.bi a.toNat

/-- A branch (R401). -/
def bBranch (s : State) (c : Bool) (off : BitVec 32) : Out :=
  .next { s with bi := { s.bi with pc := if c then s.bi.pc + 4 * off else s.bi.pc + 4 } }

/-- A shift amount. -/
def bAmt (s : State) (b : BitVec 5) : Nat := (be s b).toNat % 64

def execBAdd (d a b : BitVec 5) (s : State) : Out := bScal s d (be s a + be s b)
def execBSub (d a b : BitVec 5) (s : State) : Out := bScal s d (be s a - be s b)
def execBMul (d a b : BitVec 5) (s : State) : Out := bScal s d (be s a * be s b)
def execBAnd (d a b : BitVec 5) (s : State) : Out := bScal s d (be s a &&& be s b)
def execBOr (d a b : BitVec 5) (s : State) : Out := bScal s d (be s a ||| be s b)
def execBXor (d a b : BitVec 5) (s : State) : Out := bScal s d (be s a ^^^ be s b)
def execBShl (d a b : BitVec 5) (s : State) : Out := bScal s d (be s a <<< bAmt s b)
def execBShr (d a b : BitVec 5) (s : State) : Out := bScal s d (be s a >>> bAmt s b)
def execBSar (d a b : BitVec 5) (s : State) : Out := bScal s d ((be s a).sshiftRight (bAmt s b))
def execBMin (d a b : BitVec 5) (s : State) : Out := bScal s d (if (be s a).slt (be s b) then be s a else be s b)
def execBMax (d a b : BitVec 5) (s : State) : Out := bScal s d (if (be s a).slt (be s b) then be s b else be s a)
def execBAddi (d a : BitVec 5) (imm : BitVec 16) (s : State) : Out := bScal s d (be s a + imm.signExtend 64)
def execBAndi (d a : BitVec 5) (imm : BitVec 16) (s : State) : Out := bScal s d (be s a &&& imm.signExtend 64)
def execBOri (d a : BitVec 5) (imm : BitVec 16) (s : State) : Out := bScal s d (be s a ||| imm.signExtend 64)
def execBXori (d a : BitVec 5) (imm : BitVec 16) (s : State) : Out := bScal s d (be s a ^^^ imm.signExtend 64)
def execBLui (d : BitVec 5) (imm : BitVec 16) (s : State) : Out := bScal s d (imm.signExtend 64 <<< 16)
def execBShli (d a : BitVec 5) (imm : BitVec 6) (s : State) : Out := bScal s d (be s a <<< imm.toNat)
def execBBeq (a b : BitVec 5) (off : BitVec 16) (s : State) : Out := bBranch s (be s a == be s b) (off.signExtend 32)
def execBBne (a b : BitVec 5) (off : BitVec 16) (s : State) : Out := bBranch s (be s a != be s b) (off.signExtend 32)
def execBBlt (a b : BitVec 5) (off : BitVec 16) (s : State) : Out := bBranch s ((be s a).slt (be s b)) (off.signExtend 32)
def execBBge (a b : BitVec 5) (off : BitVec 16) (s : State) : Out := bBranch s (!(be s a).slt (be s b)) (off.signExtend 32)
def execBBltu (a b : BitVec 5) (off : BitVec 16) (s : State) : Out := bBranch s ((be s a).ult (be s b)) (off.signExtend 32)
def execBBgeu (a b : BitVec 5) (off : BitVec 16) (s : State) : Out := bBranch s (!(be s a).ult (be s b)) (off.signExtend 32)
def execBJ (off : BitVec 26) (s : State) : Out := bBranch s true (off.signExtend 32)

/-! Row access (R402). -/

/-- The offset of a row access. -/
def rowOff (s : State) (a : BitVec 5) (imm : BitVec 12) : Nat := (be s a + imm.setWidth 64).toNat

/-- ROPEN (R185, R402): the row's bytes are copied into the slot. A sector that is poisoned, or whose check fails and which the open
poisons, gives POISON (R187). -/
def execRopen (y : BitVec 2) (a : BitVec 5) (imm : BitVec 12) (s : State) : Out :=
  let o := rowOff s a imm
  if o % 1024 != 0 then .next (ballastFault s .align o)
  else if decide (s.bi.wlen ≤ o) then .next (ballastFault s .handleBound o)
  else if anyPoison s (s.bi.wpa + o) 1024 then .next (ballastFault (testRange s (s.bi.wpa + o) 1024) .poison o)
  else bNext s (setY y.toNat { isOpen := true, off := o, data := BitVec.ofNat 8192 (memNat s (s.bi.wpa + o) 1024) })

/-- The checks of an access of `n` bytes, aligned to `al`, through a slot (R402). -/
def rowBad (r : RowSlot) (o n al : Nat) : Option FaultCode :=
  if !r.isOpen then some .formatInvalid
  else if decide (1024 < o + n) then some .handleBound
  else if o % al != 0 then some .align
  else none

/-- A slot access that passes its checks goes on; a fault reports the offset in the window (R230). -/
def withRow (s : State) (y : BitVec 2) (a : BitVec 5) (imm : BitVec 12) (n al : Nat) (k : RowSlot → Nat → Out) : Out :=
  let r := ySlot s.bi y.toNat
  let o := rowOff s a imm
  match rowBad r o n al with
  | some c => .next (ballastFault s c (if r.isOpen then r.off + o else 0))
  | none => k r o

/-- Bytes `o` to `o + n − 1` of a slot. -/
def rowNat (r : RowSlot) (o n : Nat) : Nat := (r.data >>> (8 * o)).toNat % 2 ^ (8 * n)

/-- A slot with `n` bytes at `o` replaced. -/
def rowSet (r : RowSlot) (o n v : Nat) : RowSlot :=
  let m : BitVec 8192 := BitVec.ofNat 8192 ((2 ^ (8 * n) - 1) * 2 ^ (8 * o))
  { r with data := (r.data &&& ~~~m) ||| BitVec.ofNat 8192 (v % 2 ^ (8 * n) * 2 ^ (8 * o)) }

/-- A store through a slot: the slot and the row change together (R185). -/
def rowStore (s : State) (y : BitVec 2) (r : RowSlot) (o n v : Nat) : Out :=
  bNext (homeStore s (s.bi.wpa + r.off + o) (leBytes v n)) (setY y.toNat (rowSet r o n v))

/-- LDY (R402): SZ 00 zero-extended, 01 sign-extended, 10 eight bytes. -/
def execLdy (d : BitVec 5) (y : BitVec 2) (a : BitVec 5) (imm : BitVec 12) (sz : BitVec 2) (s : State) : Out :=
  let n := if sz.toNat = 2 then 8 else 4
  withRow s y a imm n n fun r o =>
    let x := rowNat r o n
    bScal s d (if sz = 1 then (BitVec.ofNat 32 x).signExtend 64 else BitVec.ofNat 64 x)

/-- STY (R402). -/
def execSty (d : BitVec 5) (y : BitVec 2) (a : BitVec 5) (imm : BitVec 12) (sz : BitVec 2) (s : State) : Out :=
  let n := if sz.toNat = 2 then 8 else 4
  withRow s y a imm n n fun r o => rowStore s y r o n (be s d).toNat

/-- VLDY (R402). -/
def execVldy (z : BitVec 4) (y : BitVec 2) (a : BitVec 5) (imm : BitVec 12) (s : State) : Out :=
  withRow s y a imm 256 4 fun r o => bNext s (setZ z.toNat (BitVec.ofNat 2048 (rowNat r o 256)))

/-- VSTY (R402). -/
def execVsty (z : BitVec 4) (y : BitVec 2) (a : BitVec 5) (imm : BitVec 12) (s : State) : Out :=
  withRow s y a imm 256 4 fun r o => rowStore s y r o 256 (zReg s.bi z.toNat).toNat

/-! Vectors (R403, R404). TY: 00 i32, 01 u32, 10 f32. -/

/-- The TYPE code of R352 for a type of R403. -/
def redType (ty : BitVec 2) : Nat := if ty = 2 then 0 else ty.toNat + 1

/-- Lane `l` of z(i). -/
def bLane (s : State) (z : BitVec 4) (l : Nat) : BitVec 32 := laneOf (zReg s.bi z.toNat) l

/-- Addition, minimum and maximum under a type. -/
def bSum (ty : BitVec 2) (a b : BitVec 32) : BitVec 32 := if ty = 2 then r32 0 (fadd 0 (f32 a) (f32 b)) else a + b
def bMinimum (ty : BitVec 2) (a b : BitVec 32) : BitVec 32 :=
  if ty = 2 then fminmax false a b else if ty = 0 then (if a.slt b then a else b) else (if a.ult b then a else b)
def bMaximum (ty : BitVec 2) (a b : BitVec 32) : BitVec 32 :=
  if ty = 2 then fminmax true a b else if ty = 0 then (if a.slt b then b else a) else (if a.ult b then b else a)

/-- A lane-by-lane result. -/
def bLanes (s : State) (d a b : BitVec 4) (f : BitVec 32 → BitVec 32 → BitVec 32) : Out :=
  bNext s (setZ d.toNat (mkZ (fun l => f (bLane s a l) (bLane s b l))))

def execBVadd (d a b : BitVec 4) (ty : BitVec 2) (s : State) : Out := bLanes s d a b (bSum ty)
def execBVsub (d a b : BitVec 4) (ty : BitVec 2) (s : State) : Out :=
  bLanes s d a b (fun x y => if ty = 2 then r32 0 (fadd 0 (f32 x) (fneg (f32 y))) else x - y)
def execBVmul (d a b : BitVec 4) (ty : BitVec 2) (s : State) : Out :=
  bLanes s d a b (fun x y => if ty = 2 then r32 0 (fmul (f32 x) (f32 y)) else x * y)
def execBVmin (d a b : BitVec 4) (ty : BitVec 2) (s : State) : Out := bLanes s d a b (bMinimum ty)
def execBVmax (d a b : BitVec 4) (ty : BitVec 2) (s : State) : Out := bLanes s d a b (bMaximum ty)
def execBVand (d a b : BitVec 4) (s : State) : Out := bLanes s d a b (fun x y => x &&& y)
def execBVor (d a b : BitVec 4) (s : State) : Out := bLanes s d a b (fun x y => x ||| y)
def execBVxor (d a b : BitVec 4) (s : State) : Out := bLanes s d a b (fun x y => x ^^^ y)
def execVbc (d : BitVec 4) (a : BitVec 5) (s : State) : Out :=
  bNext s (setZ d.toNat (mkZ (fun _ => (be s a).setWidth 32)))
def execBViota (d : BitVec 4) (s : State) : Out := bNext s (setZ d.toNat (mkZ (fun l => BitVec.ofNat 32 l)))
def execBVred (d : BitVec 5) (a : BitVec 4) (op : BitVec 3) (ty : BitVec 2) (s : State) : Out :=
  bScal s d (reduceLanes op.toNat (redType ty) 0 ((upFrom 0 64).map (bLane s a)))

/-- The operation of a row-level reduce on one word (R404). -/
def rredWord (op : BitVec 3) (ty : BitVec 2) (x y : BitVec 32) : BitVec 32 :=
  match op.toNat with
  | 0 => bSum ty x y
  | 1 => bMinimum ty x y
  | 2 => bMaximum ty x y
  | 3 => x &&& y
  | 4 => x ||| y
  | _ => x ^^^ y

/-- The row that a reduce makes of a row (as bytes, little-endian) and z(A) to z(A + 3). -/
def rredRow (s : State) (z : BitVec 4) (op : BitVec 3) (ty : BitVec 2) (row : Nat) : Nat :=
  (upFrom 0 256).foldl (fun n i =>
    n + (rredWord op ty (BitVec.ofNat 32 (row / 2 ^ (32 * i))) (laneOf (zReg s.bi (z.toNat + i / 64)) (i % 64))).toNat * 2 ^ (32 * i)) 0

/-- RRED (R404): the row's present contents are combined and written as one operation; the slot holds the new row. -/
def execRred (y : BitVec 2) (z : BitVec 4) (op : BitVec 3) (ty : BitVec 2) (s : State) : Out :=
  let r := ySlot s.bi y.toNat
  let pa := s.bi.wpa + r.off
  if !r.isOpen then .next (ballastFault s .formatInvalid 0)
  else if anyPoison s pa 1024 then .next (ballastFault (testRange s pa 1024) .poison r.off)
  else
    let v := rredRow s z op ty (memNat s pa 1024)
    bNext (homeStore s pa (leBytes v 1024)) (setY y.toNat { r with data := BitVec.ofNat 8192 v })

/-! KPOST, YIELDB, ENDB (R195, R196, R405). -/

/-- KPOST (R196): nothing happens when no group launched it or that group has ended. -/
def execKpost (k : BitVec 5) (c : BitVec 8) (s : State) : Out :=
  match (launchOf s s.bi.launch).bind (fun l => l.from_) with
  | some (l, g) => bNext (addFlagTo s l g k.toNat c.toNat) id
  | none => bNext s id

/-- The stack of the focused ballast core. -/
def stackHere (s : State) : Nat :=
  match s.cur with
  | .ballast bc => bc / 16
  | _ => 0

/-- YIELDB (R195): the instance is saved behind those that wait, and the core starts the first of them. -/
def execYieldb (s : State) : Out :=
  let st := stackHere s
  let b := { s.bi with pc := s.bi.pc + 4 }
  if decide (tget 0 s.bsave st < 32) && (waitList s st).any (fun w => decide (b.prio ≤ w.prio)) then
    match takeWaiting (saveInst s st b false) st with
    | some (n, s') => .next { s' with bi := n }
    | none => .next { s with bi := b }
  else .next { s with bi := b }

/-- ENDB (R195, R198): the instance ends and its core is free. -/
def execEndb (s : State) : Out :=
  .next { setLaunch s s.bi.launch (fun l => { l with ended := l.ended + 1 }) with bi := BInst.none }

end Sys2Proof.Machine
end

