-- ==== Sys2Proof/Machine/Crypto.lean ====
section
/-!
DEFINITION. The primitives that the spec names by their standards: SHA-512 (FIPS 180-4), HMAC and HKDF (RFC 5869),
Ed25519 (RFC 8032, pure form). PRESUMED: the standards' own definitions (log entry 20).
-/
namespace Sys2Proof.Machine
open Sys2Proof

/-! SHA-512. -/

/-- The first 80 primes. -/
def primes : List Nat :=
  [2, 3, 5, 7, 11, 13, 17, 19, 23, 29, 31, 37, 41, 43, 47, 53, 59, 61, 67, 71] ++
  [73, 79, 83, 89, 97, 101, 103, 107, 109, 113, 127, 131, 137, 139, 149, 151, 157, 163, 167, 173] ++
  [179, 181, 191, 193, 197, 199, 211, 223, 227, 229, 233, 239, 241, 251, 257, 263, 269, 271, 277, 281] ++
  [283, 293, 307, 311, 313, 317, 331, 337, 347, 349, 353, 359, 367, 373, 379, 383, 389, 397, 401, 409]

/-- The integer cube root below 2^b, bit by bit. -/
def icbrtFrom (n r : Nat) : Nat → Nat
  | 0 => r
  | b + 1 => let r' := r + 2 ^ b
    if r' * r' * r' ≤ n then icbrtFrom n r' b else icbrtFrom n r b

/-- The round constants: the first 64 fraction bits of the primes' cube roots. -/
def shaK : List Word := primes.map (fun p => BitVec.ofNat 64 (icbrtFrom (p * 2 ^ 192) 0 68))
/-- The initial state: the first 64 fraction bits of the first eight primes' square roots. -/
def shaInit : List Word := (primes.take 8).map (fun p => BitVec.ofNat 64 (isqrt (p * 2 ^ 128)))

/-- A big-endian number of bytes. -/
def beNat (bs : List Byte) : Nat := leNat bs.reverse
/-- A number as `n` big-endian bytes. -/
def beBytes (x n : Nat) : List Byte := (leBytes x n).reverse

/-- A rotation to the right. -/
def rotr (x : Word) (n : Nat) : Word := x.rotateRight n

/-- The message schedule, latest word first, extended by `n` words. -/
def shaSched : Nat → List Word → List Word
  | 0, w => w
  | n + 1, w =>
    let x := nth 0 w 1
    let y := nth 0 w 14
    let s1 := rotr x 19 ^^^ rotr x 61 ^^^ (x >>> 6)
    let s0 := rotr y 1 ^^^ rotr y 8 ^^^ (y >>> 7)
    shaSched n ((nth 0 w 15 + s0 + nth 0 w 6 + s1) :: w)

/-- One round on the eight working variables. -/
def shaRound (v : List Word) (k w : Word) : List Word :=
  match v with
  | [a, b, c, d, e, f, g, h] =>
    let t1 := h + (rotr e 14 ^^^ rotr e 18 ^^^ rotr e 41) + ((e &&& f) ^^^ (~~~e &&& g)) + k + w
    let t2 := (rotr a 28 ^^^ rotr a 34 ^^^ rotr a 39) + ((a &&& b) ^^^ (a &&& c) ^^^ (b &&& c))
    [t1 + t2, a, b, c, d + t1, e, f, g]
  | _ => v

/-- One 128-byte block. -/
def shaBlock (st : List Word) (blk : List Byte) : List Word :=
  let w := ((chunk 8 16 blk).map (fun b => BitVec.ofNat 64 (beNat b))).reverse
  let ws := (shaSched 64 w).reverse
  let v := (shaK.zip ws).foldl (fun v x => shaRound v x.1 x.2) st
  (st.zip v).map (fun x => x.1 + x.2)

/-- The padded message. -/
def shaPad (m : List Byte) : List Byte :=
  let z := (240 - (m.length + 1) % 128) % 128
  m ++ [0x80] ++ List.replicate z 0 ++ beBytes (8 * m.length) 16

/-- SHA-512. -/
def sha512 (m : List Byte) : List Byte :=
  let p := shaPad m
  ((chunk 128 p.length p).foldl shaBlock shaInit).flatMap (fun w => beBytes w.toNat 8)

/-- HMAC over SHA-512. -/
def hmac (key m : List Byte) : List Byte :=
  let k := if 128 < key.length then sha512 key else key
  let k := k ++ List.replicate (128 - k.length) 0
  sha512 (k.map (fun b => b ^^^ 0x5C) ++ sha512 (k.map (fun b => b ^^^ 0x36) ++ m))

/-- HKDF-Expand to `n` bytes, at most 64 (RFC 5869). -/
def hkdfExpand (prk info : List Byte) (n : Nat) : List Byte := (hmac prk (info ++ [1])).take n

/-! Ed25519. -/

/-- The field's prime and the group's order. -/
def edP : Nat := 2 ^ 255 - 19
def edL : Nat := 2 ^ 252 + 27742317777372353535851937790883648493

/-- b^e modulo m, over `n` bits of e from the lowest. -/
def powMod (m b e : Nat) : Nat → Nat
  | 0 => 1 % m
  | n + 1 => let r := powMod m (b * b % m) (e / 2) n
    if e % 2 = 1 then r * b % m else r
/-- The inverse in the field. -/
def edInv (x : Nat) : Nat := powMod edP x (edP - 2) 256
/-- The difference in the field. -/
def edSub (a b : Nat) : Nat := (a + (edP - b % edP)) % edP
/-- The curve constant d = −121665/121666. -/
def edD : Nat := (edP - 121665) * edInv 121666 % edP
/-- A square root of −1. -/
def edI : Nat := powMod edP 2 ((edP - 1) / 4) 256

/-- A point in extended coordinates. -/
structure EdPt where
  x : Nat
  y : Nat
  z : Nat
  t : Nat
deriving DecidableEq, Repr

def edZero : EdPt := { x := 0, y := 1, z := 1, t := 0 }

/-- The sum of two points. -/
def edAdd (p q : EdPt) : EdPt :=
  let a := edSub p.y p.x * edSub q.y q.x % edP
  let b := (p.y + p.x) * (q.y + q.x) % edP
  let c := 2 * p.t * q.t * edD % edP
  let d := 2 * p.z * q.z % edP
  let e := edSub b a
  let f := edSub d c
  let g := (d + c) % edP
  let h := (b + a) % edP
  { x := e * f % edP, y := g * h % edP, z := f * g % edP, t := e * h % edP }

/-- n times a point, over `k` bits. -/
def edMul (n : Nat) (p : EdPt) : Nat → EdPt
  | 0 => edZero
  | k + 1 => let r := edMul (n / 2) (edAdd p p) k
    if n % 2 = 1 then edAdd r p else r

/-- Two points are the same. -/
def edSame (p q : EdPt) : Bool :=
  edSub (p.x * q.z % edP) (q.x * p.z % edP) == 0 && edSub (p.y * q.z % edP) (q.y * p.z % edP) == 0

/-- The x of a y and a sign (RFC 8032 5.1.3). -/
def edRecover (y sign : Nat) : Option Nat :=
  if edP ≤ y then none
  else
    let u := edSub (y * y % edP) 1
    let v := (edD * y * y + 1) % edP
    let x2 := u * edInv v % edP
    if x2 = 0 then (if sign = 1 then none else some 0)
    else
      let r := powMod edP x2 ((edP + 3) / 8) 256
      let x := if r * r % edP = x2 then r else r * edI % edP
      if x * x % edP ≠ x2 then none
      else some (if x % 2 = sign then x else edP - x)

/-- The point of a 32-byte encoding. -/
def edDecode (bs : List Byte) : Option EdPt :=
  let n := leNat bs
  let y := n % 2 ^ 255
  (edRecover y (n / 2 ^ 255 % 2)).map (fun x => { x := x, y := y, z := 1, t := x * y % edP })

/-- The encoding of a point. -/
def edEncode (p : EdPt) : List Byte :=
  let i := edInv p.z
  let x := p.x * i % edP
  leBytes (p.y * i % edP + x % 2 * 2 ^ 255) 32

/-- The base point. -/
def edBase : EdPt :=
  let y := 4 * edInv 5 % edP
  match edRecover y 0 with
  | some x => { x := x, y := y, z := 1, t := x * y % edP }
  | none => edZero

/-- The secret scalar of a seed. -/
def edScalar (seed : List Byte) : Nat :=
  let n := leNat ((sha512 seed).take 32)
  n % 2 ^ 254 / 8 * 8 + 2 ^ 254

/-- The public key of a seed. -/
def edPublic (seed : List Byte) : List Byte := edEncode (edMul (edScalar seed) edBase 256)

/-- The signature of a message under a seed. -/
def edSign (seed m : List Byte) : List Byte :=
  let a := edScalar seed
  let pk := edPublic seed
  let r := leNat (sha512 ((sha512 seed).drop 32 ++ m)) % edL
  let rb := edEncode (edMul r edBase 256)
  let k := leNat (sha512 (rb ++ pk ++ m)) % edL
  rb ++ leBytes ((r + k * a) % edL) 32

/-- A signature verifies under a public key. -/
def edVerify (pk m sig : List Byte) : Bool :=
  let sn := leNat ((sig.drop 32).take 32)
  if pk.length ≠ 32 ∨ sig.length ≠ 64 ∨ edL ≤ sn then false
  else match edDecode pk, edDecode (sig.take 32) with
    | some a, some r =>
      let k := leNat (sha512 (sig.take 32 ++ pk ++ m)) % edL
      edSame (edMul 8 (edMul sn edBase 256) 4) (edMul 8 (edAdd r (edMul k a 256)) 4)
    | _, _ => false

/-- The device identity key's seed and public key (R425, R427). -/
def idSeed : List Byte := (upFrom 0 32).map Config.identitySeed
def idPublic : List Byte := edPublic idSeed

end Sys2Proof.Machine
end

