-- ==== Sys2Proof/Machine/Scalar.lean ====
section
/-!
DEFINITION. The scalar slots SA and SB: integer, logic, bit-field, move, compare, predicate and FP32 operations (R301,
R316 to R324).
-/
namespace Sys2Proof.Machine
open Sys2Proof

/-- A scalar result of class `c`, if the slot's predicate holds (R11, R301). -/
def scal (s : State) (p : BitVec 5) (d : BitVec 6) (c : Nat) (x : Word) : Out :=
  .next (if predOk s.th p then putS s d.toNat x c else s)

/-- A predicate result, if the slot's predicate holds. -/
def scalP (s : State) (p : BitVec 5) (d : BitVec 4) (c : Nat) (x : Bool) : Out :=
  .next (if predOk s.th p then putP s d.toNat x c else s)

/-- The value of the register a field names. -/
def rs (s : State) (a : BitVec 6) : Word := sReg s.th a.toNat

/-- The FP32 pattern in a register (R301). -/
def rf (s : State) (a : BitVec 6) : BitVec 32 := (rs s a).setWidth 32

/-- FMT.RM as in effect for the bundle. -/
def rmOf (s : State) : Nat := fmtRM s.th.fmt

/-- An FP32 result in bits 31:0, zeros above (R301). -/
def scalF (s : State) (p : BitVec 5) (d : BitVec 6) (x : BitVec 32) : Out := scal s p d clsFp (x.setWidth 64)

/-- The quotient and remainder of signed division (R317). -/
def divS (a b : Word) : Word × Word :=
  if b = 0 then (0xFFFFFFFFFFFFFFFF, a)
  else if a = 0x8000000000000000 && b = 0xFFFFFFFFFFFFFFFF then (a, 0)
  else (BitVec.ofInt 64 (a.toInt.tdiv b.toInt), BitVec.ofInt 64 (a.toInt.tmod b.toInt))

/-- The quotient and remainder of unsigned division (R317). -/
def divU (a b : Word) : Word × Word :=
  if b = 0 then (0xFFFFFFFFFFFFFFFF, a) else (a / b, a % b)

/-- The number of leading zero bits of a 64-bit value (R318). -/
def clz64 (a : Word) : Nat := 64 - bitLen a.toNat

/-- The number of trailing zero bits among the first `n` from bit `i`. -/
def ctzFrom (a : Nat) (i : Nat) : Nat → Nat
  | 0 => i
  | n + 1 => if a.testBit i then i else ctzFrom a (i + 1) n

/-- The number of one bits among the low `n`. -/
def popFrom (a : Nat) : Nat → Nat
  | 0 => 0
  | n + 1 => a % 2 + popFrom (a / 2) n

/-- The low `n` bits reversed. -/
def brevFrom (a acc : Nat) : Nat → Nat
  | 0 => acc
  | n + 1 => brevFrom (a / 2) (2 * acc + a % 2) n

/-- The low `n` bytes reversed. -/
def bswapFrom (a acc : Nat) : Nat → Nat
  | 0 => acc
  | n + 1 => bswapFrom (a / 256) (256 * acc + a % 256) n

/-- A value extended from its low `w` bits (R319). -/
def extTo (sg : Bool) (w : Nat) (a : Word) : Word :=
  if sg then BitVec.ofInt 64 (sextNat a.toNat w) else BitVec.ofNat 64 (a.toNat % 2 ^ w)

/-- BFX (R319): position from bits 5:0 of b, length from bits 11:6 plus 1. -/
def bfx (a b : Word) : Word :=
  let pos := bitsOf b.toNat 5 0
  let len := bitsOf b.toNat 11 6 + 1
  BitVec.ofNat 64 ((a.toNat >>> pos) % 2 ^ len)

/-- BFI (R319): bits pos to pos + len − 1 of d replaced by the low bits of a; bits beyond 63 are dropped. -/
def bfi (d a b : Word) : Word :=
  let pos := bitsOf b.toNat 5 0
  let len := bitsOf b.toNat 11 6 + 1
  let m : Word := BitVec.ofNat 64 ((2 ^ len - 1) * 2 ^ pos)
  (d &&& ~~~m) ||| (BitVec.ofNat 64 (a.toNat % 2 ^ len * 2 ^ pos) &&& m)

def execAdd (d a b : BitVec 6) (p : BitVec 5) (s : State) : Out := scal s p d clsAlu (rs s a + rs s b)
def execAddi (d a : BitVec 6) (imm : BitVec 9) (p : BitVec 5) (s : State) : Out :=
  scal s p d clsAlu (rs s a + imm.signExtend 64)
def execSub (d a b : BitVec 6) (p : BitVec 5) (s : State) : Out := scal s p d clsAlu (rs s a - rs s b)
def execMul (d a b : BitVec 6) (p : BitVec 5) (s : State) : Out := scal s p d clsMul (rs s a * rs s b)
def execMulh (d a b : BitVec 6) (p : BitVec 5) (s : State) : Out :=
  scal s p d clsMul (BitVec.ofInt 64 ((rs s a).toInt * (rs s b).toInt / 2 ^ 64))
def execMulhu (d a b : BitVec 6) (p : BitVec 5) (s : State) : Out :=
  scal s p d clsMul (BitVec.ofNat 64 ((rs s a).toNat * (rs s b).toNat / 2 ^ 64))
def execDiv (d a b : BitVec 6) (p : BitVec 5) (s : State) : Out := scal s p d clsMul (divS (rs s a) (rs s b)).1
def execDivu (d a b : BitVec 6) (p : BitVec 5) (s : State) : Out := scal s p d clsMul (divU (rs s a) (rs s b)).1
def execRem (d a b : BitVec 6) (p : BitVec 5) (s : State) : Out := scal s p d clsMul (divS (rs s a) (rs s b)).2
def execRemu (d a b : BitVec 6) (p : BitVec 5) (s : State) : Out := scal s p d clsMul (divU (rs s a) (rs s b)).2
def execAnd (d a b : BitVec 6) (p : BitVec 5) (s : State) : Out := scal s p d clsAlu (rs s a &&& rs s b)
def execAndi (d a : BitVec 6) (imm : BitVec 9) (p : BitVec 5) (s : State) : Out :=
  scal s p d clsAlu (rs s a &&& imm.signExtend 64)
def execOr (d a b : BitVec 6) (p : BitVec 5) (s : State) : Out := scal s p d clsAlu (rs s a ||| rs s b)
def execOri (d a : BitVec 6) (imm : BitVec 9) (p : BitVec 5) (s : State) : Out :=
  scal s p d clsAlu (rs s a ||| imm.signExtend 64)
def execXor (d a b : BitVec 6) (p : BitVec 5) (s : State) : Out := scal s p d clsAlu (rs s a ^^^ rs s b)
def execXori (d a : BitVec 6) (imm : BitVec 9) (p : BitVec 5) (s : State) : Out :=
  scal s p d clsAlu (rs s a ^^^ imm.signExtend 64)
def execAndn (d a b : BitVec 6) (p : BitVec 5) (s : State) : Out := scal s p d clsAlu (rs s a &&& ~~~(rs s b))
def execShl (d a b : BitVec 6) (p : BitVec 5) (s : State) : Out :=
  scal s p d clsAlu (rs s a <<< ((rs s b).toNat % 64))
def execShr (d a b : BitVec 6) (p : BitVec 5) (s : State) : Out :=
  scal s p d clsAlu (rs s a >>> ((rs s b).toNat % 64))
def execSar (d a b : BitVec 6) (p : BitVec 5) (s : State) : Out :=
  scal s p d clsAlu ((rs s a).sshiftRight ((rs s b).toNat % 64))
def execRot (d a b : BitVec 6) (p : BitVec 5) (s : State) : Out :=
  scal s p d clsAlu ((rs s a).rotateLeft ((rs s b).toNat % 64))
def execClz (d a : BitVec 6) (p : BitVec 5) (s : State) : Out :=
  scal s p d clsAlu (BitVec.ofNat 64 (clz64 (rs s a)))
def execCtz (d a : BitVec 6) (p : BitVec 5) (s : State) : Out :=
  scal s p d clsAlu (BitVec.ofNat 64 (ctzFrom (rs s a).toNat 0 64))
def execPopc (d a : BitVec 6) (p : BitVec 5) (s : State) : Out :=
  scal s p d clsAlu (BitVec.ofNat 64 (popFrom (rs s a).toNat 64))
def execBrev (d a : BitVec 6) (p : BitVec 5) (s : State) : Out :=
  scal s p d clsAlu (BitVec.ofNat 64 (brevFrom (rs s a).toNat 0 64))
def execBswap (d a : BitVec 6) (p : BitVec 5) (s : State) : Out :=
  scal s p d clsAlu (BitVec.ofNat 64 (bswapFrom (rs s a).toNat 0 8))
def execMin (d a b : BitVec 6) (p : BitVec 5) (s : State) : Out :=
  scal s p d clsAlu (if (rs s a).slt (rs s b) then rs s a else rs s b)
def execMax (d a b : BitVec 6) (p : BitVec 5) (s : State) : Out :=
  scal s p d clsAlu (if (rs s a).slt (rs s b) then rs s b else rs s a)
def execMinu (d a b : BitVec 6) (p : BitVec 5) (s : State) : Out :=
  scal s p d clsAlu (if (rs s a).ult (rs s b) then rs s a else rs s b)
def execMaxu (d a b : BitVec 6) (p : BitVec 5) (s : State) : Out :=
  scal s p d clsAlu (if (rs s a).ult (rs s b) then rs s b else rs s a)
def execAbs (d a : BitVec 6) (p : BitVec 5) (s : State) : Out :=
  scal s p d clsAlu (if (rs s a).msb then 0 - rs s a else rs s a)
def execExt (d a : BitVec 6) (wd : BitVec 2) (sg : BitVec 1) (p : BitVec 5) (s : State) : Out :=
  scal s p d clsAlu (extTo (sg == 1) (8 * 2 ^ wd.toNat) (rs s a))
def execBfx (d a b : BitVec 6) (p : BitVec 5) (s : State) : Out := scal s p d clsAlu (bfx (rs s a) (rs s b))
def execBfi (d a b : BitVec 6) (p : BitVec 5) (s : State) : Out :=
  scal s p d clsAlu (bfi (rs s d) (rs s a) (rs s b))
def execMov (d a : BitVec 6) (p : BitVec 5) (s : State) : Out := scal s p d clsAlu (rs s a)
def execMovi (d : BitVec 6) (imm : BitVec 15) (p : BitVec 5) (s : State) : Out :=
  scal s p d clsAlu (imm.signExtend 64)
def execMovhi (d : BitVec 6) (imm : BitVec 15) (p : BitVec 5) (s : State) : Out :=
  scal s p d clsAlu (rs s d * 32768 + imm.setWidth 64)
def execSel (d : BitVec 6) (ps : BitVec 3) (a b : BitVec 6) (p : BitVec 5) (s : State) : Out :=
  scal s p d clsAlu (if pReg s.th ps.toNat then rs s a else rs s b)
def execCmp (pd : BitVec 4) (a b : BitVec 6) (cond : BitVec 3) (p : BitVec 5) (s : State) : Out :=
  scalP s p pd clsAlu (condInt cond.toNat (rs s a) (rs s b))
def execCmpi (pd : BitVec 4) (a : BitVec 6) (imm : BitVec 8) (cond : BitVec 3) (p : BitVec 5) (s : State) : Out :=
  scalP s p pd clsAlu (condInt cond.toNat (rs s a) (imm.signExtend 64))
/-- PSET (R321): bit 2 × pA + pB of the truth table. -/
def execPset (pd pa pb tt : BitVec 4) (p : BitVec 5) (s : State) : Out :=
  scalP s p pd clsAlu
    (tt.getLsbD (2 * (if pReg s.th pa.toNat then 1 else 0) + (if pReg s.th pb.toNat then 1 else 0)))
/-- PMOV.rd (R321): the predicates in bits 15:0; bit 0 is 1. -/
def execPmovRd (d : BitVec 6) (p : BitVec 5) (s : State) : Out :=
  scal s p d clsAlu ((s.th.p ||| 1).setWidth 64)
/-- PMOV.wr (R321): p1 to p15 from bits 1 to 15 of a. -/
def execPmovWr (a : BitVec 6) (p : BitVec 5) (s : State) : Out :=
  .next (if predOk s.th p then
    (upFrom 1 15).foldl (fun s' j => putP s' j ((rs s a).getLsbD j) clsAlu) s else s)
def execFadd (d a b : BitVec 6) (p : BitVec 5) (s : State) : Out :=
  scalF s p d (r32 (rmOf s) (fadd (rmOf s) (f32 (rf s a)) (f32 (rf s b))))
def execFsub (d a b : BitVec 6) (p : BitVec 5) (s : State) : Out :=
  scalF s p d (r32 (rmOf s) (fadd (rmOf s) (f32 (rf s a)) (fneg (f32 (rf s b)))))
def execFmul (d a b : BitVec 6) (p : BitVec 5) (s : State) : Out :=
  scalF s p d (r32 (rmOf s) (fmul (f32 (rf s a)) (f32 (rf s b))))
/-- FFMA (R322): rounded once; sD before the bundle is the addend. -/
def execFfma (d a b : BitVec 6) (p : BitVec 5) (s : State) : Out :=
  scalF s p d (r32 (rmOf s) (fadd (rmOf s) (fmul (f32 (rf s a)) (f32 (rf s b))) (f32 (rf s d))))
def execFmin (d a b : BitVec 6) (p : BitVec 5) (s : State) : Out := scalF s p d (fminmax false (rf s a) (rf s b))
def execFmax (d a b : BitVec 6) (p : BitVec 5) (s : State) : Out := scalF s p d (fminmax true (rf s a) (rf s b))
def execFsgnCp (d a b : BitVec 6) (p : BitVec 5) (s : State) : Out := scalF s p d (fsgn (rf s a) (rf s b).msb)
def execFsgnNeg (d a b : BitVec 6) (p : BitVec 5) (s : State) : Out := scalF s p d (fsgn (rf s a) (!(rf s b).msb))
def execFsgnXor (d a b : BitVec 6) (p : BitVec 5) (s : State) : Out :=
  scalF s p d (fsgn (rf s a) ((rf s a).msb != (rf s b).msb))
def execFcmp (pd : BitVec 4) (a b : BitVec 6) (cond : BitVec 3) (p : BitVec 5) (s : State) : Out :=
  scalP s p pd clsFp (condFp cond.toNat (rf s a) (rf s b))
def execFclass (d a : BitVec 6) (p : BitVec 5) (s : State) : Out :=
  scal s p d clsFp (BitVec.ofNat 64 (2 ^ fclassBit (rf s a)))
def execFcvtI32F32 (d a : BitVec 6) (p : BitVec 5) (s : State) : Out :=
  scal s p d clsFp (BitVec.ofInt 64 (fToInt (rmOf s) (-2147483648) 2147483647 (f32 (rf s a))))
def execFcvtF32I32 (d a : BitVec 6) (p : BitVec 5) (s : State) : Out :=
  scalF s p d (r32 (rmOf s) (fOfInt (rf s a).toInt))
def execFcvtU32F32 (d a : BitVec 6) (p : BitVec 5) (s : State) : Out :=
  scal s p d clsFp (BitVec.ofInt 64 (fToInt (rmOf s) 0 4294967295 (f32 (rf s a))))
def execFcvtF32U32 (d a : BitVec 6) (p : BitVec 5) (s : State) : Out :=
  scalF s p d (r32 (rmOf s) (fOfInt ((rf s a).toNat : Int)))
def execFcvtF16F32 (d a : BitVec 6) (p : BitVec 5) (s : State) : Out :=
  scal s p d clsFp (BitVec.ofNat 64 (fenc fp16 (rmOf s) false (f32 (rf s a))))
def execFcvtF32F16 (d a : BitVec 6) (p : BitVec 5) (s : State) : Out :=
  scalF s p d (r32 (rmOf s) (fdec fp16 ((rf s a).toNat % 65536)))
def execFcvtBf16F32 (d a : BitVec 6) (p : BitVec 5) (s : State) : Out :=
  scal s p d clsFp (BitVec.ofNat 64 (fenc bf16 (rmOf s) false (f32 (rf s a))))
def execFcvtF32Bf16 (d a : BitVec 6) (p : BitVec 5) (s : State) : Out :=
  scalF s p d (r32 (rmOf s) (fdec bf16 ((rf s a).toNat % 65536)))

end Sys2Proof.Machine
end

