-- ==== Sys2Proof/Machine/System.lean ====
section
/-!
DEFINITION. The privileged instructions (R384 to R394): what each checks at issue, and what a held one does at step 3 of
its window's closing mark.
-/
namespace Sys2Proof.Machine
open Sys2Proof

/-! Local physical operands (R385). -/

/-- The end of the region of R108 that an address lies in, if there is memory behind it. -/
def regionEnd (s : State) (a : Nat) : Option Nat :=
  if a < poolTop s then some (poolTop s)
  else match stackOf s a with
    | some st => some (0x400000000000 + st * 0x1000000000 + (48 - s.regs.ipool) * gib)
    | none => match partOf a with
      | some p => if saddleOut s a then none else some (0x500000000000 + p * 0x1000000 + spCur s p * 2 ^ 20)
      | none => none

/-- Every byte of `n` at an address has memory behind it; the range spans at most `k` regions. -/
def rangeOk (s : State) : Nat → Nat → Nat → Bool
  | 0, _, n => n == 0
  | k + 1, a, n =>
    n == 0 || (match regionEnd s a with
      | none => false
      | some e => decide (a + n ≤ e) || rangeOk s k e (n - (e - a)))

/-- The fault of a local physical operand of `n` bytes, aligned to `al`. -/
def localBad (s : State) (a n al : Nat) : Option FaultCode :=
  if !rangeOk s 600 a n then some .handleBound else if a % al != 0 then some .align else none

/-- Some sector that a local read covers is poisoned. -/
def localPoison (s : State) (a n : Nat) : Bool := anyPoison s a n

/-! Issue. -/

/-- A privileged instruction held (R384). -/
def holdPriv (s : State) (i : Instr) (a b c : Word) : Out :=
  .next { s with th := { s.th with heldPriv := s.th.heldPriv ++
    [{ ins := i, a := a, b := b, c := c, h := Handle.init, va := 0, pa := 0, addr := 0, lines := [], tries := 0, tries2 := 0 }] } }

/-- Held if no check fails. -/
def privIssue (s : State) (i : Instr) (a b c : Word) (bad : Option (FaultCode × Nat)) : Out :=
  match bad with
  | some (f, x) => .next (raise s f x)
  | none => holdPriv s i a b c

/-- A check that fails when its condition holds. -/
def failIf (c : Bool) (f : FaultCode) (addr : Nat) : Option (FaultCode × Nat) := if c then some (f, addr) else none

/-- The check of a local operand, with the address it reports. -/
def failLocal (s : State) (a n al : Nat) : Option (FaultCode × Nat) := (localBad s a n al).map (fun f => (f, a))

/-- The register number and instance of RDSYS and WRSYS (R386). -/
def sysNo (imm : BitVec 22) : Nat := imm.toNat / 4096
def sysInst (s : State) (imm : BitVec 22) (a : BitVec 6) : Nat := imm.toNat % 4096 + (rs s a).toNat

/-- The number or the instance is not one of R386's. -/
def sysBad (s : State) (imm : BitVec 22) (a : BitVec 6) : Option (FaultCode × Nat) :=
  match sysCount (sysNo imm) with
  | none => some (.formatInvalid, 0)
  | some n => failIf (decide (n ≤ sysInst s imm a)) .formatInvalid 0

def execRdsys (d a : BitVec 6) (imm : BitVec 22) (p : BitVec 5) (s : State) : Out :=
  slotOn s p (match sysBad s imm a with
    | some (f, x) => .next (raise s f x)
    | none => .next (putS s d.toNat (BitVec.ofNat 64 (sysRead s (sysNo imm) (sysInst s imm a))) clsLoad))
def execWrsys (a b : BitVec 6) (imm : BitVec 22) (p : BitVec 5) (s : State) : Out :=
  slotOn s p (privIssue s (.wrsys a b imm p) (BitVec.ofNat 64 (sysInst s imm a)) (rs s b) 0 (sysBad s imm a))

/-- SHOOT's checks (R388). -/
def shootIssueBad (s : State) (a b c : Nat) : Option (FaultCode × Nat) :=
  (failIf (a % 65536 != 0 || b % 65536 != 0 || b == 0) .align a).or
    ((failIf (decide (2 ^ 52 < a + b)) .handleBound a).or (failIf (imageOf s c).isNone .formatInvalid 0))

def execShootPkg (d a b c : BitVec 6) (p : BitVec 5) (s : State) : Out :=
  slotOn s p (privIssue s (.shootPkg d a b c p) (rs s a) (rs s b) (rs s c)
    (shootIssueBad s (rs s a).toNat (rs s b).toNat (rs s c).toNat))
def execShootSet (d a b c : BitVec 6) (p : BitVec 5) (s : State) : Out :=
  slotOn s p (privIssue s (.shootSet d a b c p) (rs s a) (rs s b) (rs s c)
    (shootIssueBad s (rs s a).toNat (rs s b).toNat (rs s c).toNat))

/-- A core number above 63 (R389). -/
def coreBad (a : Word) : Option (FaultCode × Nat) := failIf (decide (63 < a.toNat)) .formatInvalid 0

def execCtxsv (d a b c : BitVec 6) (cls : BitVec 4) (p : BitVec 5) (s : State) : Out :=
  slotOn s p (privIssue s (.ctxsv d a b c cls p) (rs s a) (rs s b) (rs s c)
    ((coreBad (rs s a)).or (failLocal s (rs s b).toNat (rs s c).toNat 256)))
def execCtxrs (d a b : BitVec 6) (cls : BitVec 4) (p : BitVec 5) (s : State) : Out :=
  slotOn s p (privIssue s (.ctxrs d a b cls p) (rs s a) (rs s b) 0
    ((coreBad (rs s a)).or (failLocal s (rs s b).toNat 128 256)))

/-- HALTC's check (R390): the issuing thread's own core may not be named. -/
def haltBad (s : State) (a : Word) : Option (FaultCode × Nat) :=
  (coreBad a).or (failIf (a.toNat == coOf s) .formatInvalid 0)

def execHaltcStop (d a : BitVec 6) (p : BitVec 5) (s : State) : Out :=
  slotOn s p (privIssue s (.haltcStop d a p) (rs s a) 0 0 (haltBad s (rs s a)))
def execHaltcGo (d a : BitVec 6) (p : BitVec 5) (s : State) : Out :=
  slotOn s p (privIssue s (.haltcGo d a p) (rs s a) 0 0 (haltBad s (rs s a)))

/-- KEYLD's checks (R391). -/
def keyBad (s : State) (a b : Word) : Option (FaultCode × Nat) :=
  (failIf (decide (2048 ≤ a.toNat)) .formatInvalid 0).or (failLocal s b.toNat 32 32)

def execKeyldPart (d a b c : BitVec 6) (cls : BitVec 4) (p : BitVec 5) (s : State) : Out :=
  slotOn s p (privIssue s (.keyldPart d a b c cls p) (rs s a) (rs s b) (rs s c) (keyBad s (rs s a) (rs s b)))
def execKeyldLink (d a b c : BitVec 6) (cls : BitVec 4) (p : BitVec 5) (s : State) : Out :=
  slotOn s p (privIssue s (.keyldLink d a b c cls p) (rs s a) (rs s b) (rs s c) (keyBad s (rs s a) (rs s b)))
def execKeyldSign (d a b c : BitVec 6) (cls : BitVec 4) (p : BitVec 5) (s : State) : Out :=
  slotOn s p (privIssue s (.keyldSign d a b c cls p) (rs s a) (rs s b) (rs s c) (keyBad s (rs s a) (rs s b)))
def execKeydrop (a : BitVec 6) (p : BitVec 5) (s : State) : Out :=
  slotOn s p (privIssue s (.keydrop a p) (rs s a) 0 0
    (failIf (decide (2048 ≤ (rs s a).toNat) && rs s a != BitVec.allOnes 64) .formatInvalid 0))

def execHsinit (cx : BitVec 2) (p : BitVec 5) (s : State) : Out := slotOn s p (holdPriv s (.hsinit cx p) 0 0 0)
/-- HSUPD (R392). -/
def execHsupd (cx : BitVec 2) (a b : BitVec 6) (cls : BitVec 4) (p : BitVec 5) (s : State) : Out :=
  slotOn s p (privIssue s (.hsupd cx a b cls p) (rs s a) (rs s b) 0
    ((failIf (decide (2 ^ 32 < (rs s b).toNat)) .formatInvalid 0).or (failLocal s (rs s a).toNat (rs s b).toNat 1)))
def execHsfin (d : BitVec 6) (cx : BitVec 2) (a : BitVec 6) (cls : BitVec 4) (p : BitVec 5) (s : State) : Out :=
  slotOn s p (privIssue s (.hsfin d cx a cls p) (rs s a) 0 0 (failLocal s (rs s a).toNat 64 8))

/-- The message of EDSIGN and EDVER (R393). -/
def edBad (s : State) (a b : Word) : Option (FaultCode × Nat) :=
  (failIf (b.toNat == 0 || decide (65536 < b.toNat)) .formatInvalid 0).or (failLocal s a.toNat b.toNat 1)

def execEdsign (d a b c : BitVec 6) (cls : BitVec 4) (p : BitVec 5) (s : State) : Out :=
  slotOn s p (privIssue s (.edsign d a b c cls p) (rs s a) (rs s b) (rs s c)
    ((edBad s (rs s a) (rs s b)).or (failLocal s (rs s c).toNat 64 8)))
def execEdver (d a b c : BitVec 6) (cls : BitVec 4) (p : BitVec 5) (s : State) : Out :=
  slotOn s p (privIssue s (.edver d a b c cls p) (rs s a) (rs s b) (rs s c)
    ((edBad s (rs s a) (rs s b)).or (failLocal s (rs s c).toNat 96 1)))
def execEdverSlots (d a b c : BitVec 6) (cls : BitVec 4) (p : BitVec 5) (s : State) : Out :=
  slotOn s p (privIssue s (.edverSlots d a b c cls p) (rs s a) (rs s b) (rs s c)
    ((edBad s (rs s a) (rs s b)).or (failLocal s (rs s c).toNat 64 1)))

/-- MEXT (R394): measurement registers 6 and 7 alone. -/
def execMext (d a b : BitVec 6) (cls : BitVec 4) (p : BitVec 5) (s : State) : Out :=
  slotOn s p (privIssue s (.mext d a b cls p) (rs s a) (rs s b) 0
    ((failIf (rs s a != 6 && rs s a != 7) .formatInvalid 0).or (failLocal s (rs s b).toNat 64 8)))
/-- RAND (R394): 64 free bits. -/
def execRand (d : BitVec 6) (p : BitVec 5) (s : State) : Out :=
  slotOn s p (.next (putS (tick s) d.toNat (Config.random s.freeCtr) clsLoad))

/-! Measurements (R264) and key slots (R391). -/

/-- A measurement register's 64 bytes. -/
def measBytes (s : State) (i : Nat) : List Byte := leBytes (tget 0 s.meas i).toNat 64

/-- A measurement register extended (R264, R394). -/
def measExtend (s : State) (i : Nat) (bs : List Byte) : State :=
  { s with meas := tset 0 s.meas i (BitVec.ofNat 512 (leNat (sha512 (measBytes s i ++ bs)))) }

/-- Keys of a kind dropped, or one slot emptied. -/
def keyDrop (s : State) (a : Nat) : State :=
  if a = 2 ^ 64 - 1 then { s with keys := s.keys.filter (fun k => k.2.kind == 2) } else { s with keys := tdel s.keys a }

/-- 1 + the lowest slot of kind `sign` whose key verifies a signature, or 0 (R393). -/
def slotVerify (s : State) (m sig : List Byte) : Nat :=
  match s.keys.find? (fun k => k.2.kind == 2 && edVerify k.2.key m sig) with
  | some k => k.1 + 1
  | none => 0

/-! Step 3. -/

/-- The focused thread's global action: it runs with nothing focused, and the thread is focused again if its group is
still there. -/
def bareAct (s : State) (f : State → State × Nat) : State × Nat :=
  match s.cur with
  | .thread co cx =>
    let r := f (unfocus s)
    match groupAt r.1 co with
    | some g => if g.launch == s.grp.launch && g.index == s.grp.index && g.disp == s.grp.disp then (focusTh r.1 co cx, r.2) else r
    | none => r
  | _ => f s

/-- The thread that acts is still focused. -/
def focused (s : State) : Bool :=
  match s.cur with
  | .thread _ _ => true
  | _ => false

/-- The first held privileged instruction has completed: its result lands at the first bundle after the mark (R384). -/
def finishPriv (s : State) (d : Option (BitVec 6)) (v : Nat) : State :=
  if !focused s then s
  else
    let t := s.th
    let pend := match d with
      | some r => insertPend { reg := .s r.toNat, val := .s (BitVec.ofNat 64 v), land := t.pos + 1, pos := t.pos, load := none } t.pend
      | none => t.pend
    { s with th := { t with pend := pend, heldPriv := t.heldPriv.drop 1 } }

/-- CTXSV (R389), bare: the image is written and the core released. -/
def ctxSave (s : State) (co addr cap : Nat) : State × Nat :=
  match groupAt s co with
  | none => (s, 0)
  | some g =>
    if !saveReady (coreAt s co) || !(coreAt s co).fifo.isEmpty then (s, 0)
    else
      let bs := imageOfGroup g []
      if cap < bs.length then (s, 1)
      else
        let s1 := homeStore s addr bs
        let s2 := (imagePoison g []).foldl (fun s o => poisonSec s ((addr + o) / 64)) s1
        (releaseCore (putSaved s2 g true) co, bs.length)

/-- The saved group that an image belongs to: the one that waits for CTXRS with its image, kernel and index. -/
def savedFor (s : State) (bs : List Byte) : Option Saved :=
  s.saved.find? (fun x => x.host && x.grp.image == numAt bs 0x18 2 && x.grp.kidx == numAt bs 0x1A 2 && x.grp.index == numAt bs 0x1C 4)

/-- Two sums of pending additions (R40, R240). -/
def mergeAdds (a b : Tab Nat) : Tab Nat := b.foldl (fun t x => tset 0 t x.1 (min (tget 0 t x.1 + x.2) 0xFFFFFFFF)) a

/-- The first provenance VA of a group that meets a migrating entry. -/
def migVa (s : State) (g : Group) : Nat :=
  match g.prov.find? (fun e => match provSrcs s g e with
    | .mig => true
    | _ => false) with
  | some e => e.va
  | none => 0

/-- CTXRS (R389, R250), bare: `none` while data of another device is awaited. -/
def ctxRestore (s : State) (co addr : Nat) : State × Option Nat :=
  let c := coreAt s co
  if c.grp.isSome || c.oos then (s, some 255)
  else if localPoison s addr 128 then (s, some 0)
  else
    let len := memNat s (addr + 0x20) 8
    let bs := memBytes s addr (if rangeOk s 600 addr len && decide (len ≤ 2 ^ 26) then len else 128)
    match savedFor s bs with
    | none => (s, some 19)
    | some x =>
      let fail := fun (f : FaultCode) (va : Nat) => (restoreFailed s x.grp co f va, some (faultNum f))
      if localPoison s addr bs.length then (s, some 0)
      else if !imageOk x.grp.kern bs then fail .integrity 0
      else
        let r := groupOfImage s x.grp bs
        let adds := mergeAdds r.2 x.adds
        let tag := [5, x.grp.launch]
        let s := asReader s tag
        match reviveGroup s r.1 adds with
        | .bad f va => fail f va
        | .ask l => (l.foldl (fun s y => askSector s y.1 y.2 0) s, none)
        | .mig => if 64 ≤ x.tries then fail .walkFault (migVa s r.1)
            else ({ spent s with saved := s.saved.map (fun y => if y == x then { y with tries := y.tries + 1 } else y) }, none)
        | .ok g =>
          let s := readDone s tag
          if x.gang then
            let e : Staged := { launch := g.launch, index := g.index, prio := x.prio, waited := x.waited, aged := false, saved := true, gang := true, core := co, same := false, seq := s.bseq }
            let s1 := setCore s co { c with plat := e :: c.plat }
            ({ s1 with saved := s1.saved.map (fun y => if y == x then { y with grp := r.1, adds := adds, host := false } else y) }, some 0)
          else (syncAll (seatGroup { s with saved := s.saved.filter (fun y => y != x) } co g), some 0)

/-- HALTC (R390), bare. -/
def haltStop (s : State) (co : Nat) : State × Nat :=
  match groupAt s co with
  | some g => (setGroup s co (some { interruptGroup false g with halted := true }), 1)
  | none => (s, 0)
def haltGo (s : State) (co : Nat) : State × Nat :=
  match groupAt s co with
  | some g =>
    let go := fun (_ : Nat) (t : Thread) =>
      if g.saving || t.pfault != 0 then t
      else if t.run = .stopped then { t with run := .ready, intr := false } else { t with intr := false, idist := 0 }
    (setGroup s co (some (if g.halted then { mapThreads g go with halted := false } else g)), 1)
  | none => (s, 0)

/-- A key slot filled (R391): `none` when the key lies in a poisoned sector. -/
def keyLoad (s : State) (kind a b bind : Nat) : State × Nat :=
  if localPoison s b 32 then (s, 0)
  else ({ s with keys := tput s.keys a { kind := kind, key := memBytes s b 32, bind := bind } }, 1)

/-- A thread's hash context (R392). -/
def hashOf (t : Thread) (cx : Nat) : HashCtx := tget { msg := [], bad := false } t.hs cx
def setHash (s : State) (cx : Nat) (x : HashCtx) : State :=
  { s with th := { s.th with hs := tset { msg := [], bad := false } s.th.hs cx x } }

/-- HSFIN (R392). -/
def hashEnd (s : State) (cx addr : Nat) : State × Nat :=
  let x := hashOf s.th cx
  let s1 := setHash s cx { msg := [], bad := false }
  if x.bad then (s1, 0) else (homeStore s1 addr (sha512 x.msg), 1)

/-- BLAUNCH at issue (R190): the descriptor's range is checked; it is read when the mark performs it. -/
def execBlaunch (d : BitVec 6) (h : BitVec 4) (imm : BitVec 24) (cls : BitVec 4) (p : BitVec 5) (s : State) : Out :=
  slotOn s p (withAccess s h.toNat imm.toInt 32 8 .r (fun s hh l va => .next (holdOp s (.blaunch d h imm cls p) 0 0 0 hh l va)))

/-- The local ranges, address and length, that a held privileged instruction reads or writes (R385, R389 to R394). -/
def privRanges (i : Instr) (a b c : Nat) : List (Nat × Nat) :=
  match i with
  | .ctxsv .. => [(b, c)]
  | .ctxrs .. => [(b, 2 ^ 26)]
  | .keyldPart .. | .keyldLink .. | .keyldSign .. => [(b, 32)]
  | .hsupd .. => [(a, b)]
  | .hsfin .. => [(a, 64)]
  | .edsign .. => [(a, b), (c, 64)]
  | .edver .. => [(a, b), (c, 96)]
  | .edverSlots .. => [(a, b), (c, 64)]
  | .mext .. => [(b, 64)]
  | _ => []

/-- Those of them that it reads. -/
def privReads (i : Instr) (a b c : Nat) : List (Nat × Nat) :=
  match i with
  | .ctxsv .. => []
  | .hsfin .. => []
  | .edsign .. => [(a, b)]
  | i => privRanges i a b c

/-- Accesses performed at home, never in the issuing core's array (R385): what the array holds of the ranges goes home first, so that
the window's stores are seen (R395), and is dropped. -/
def atHome (s : State) (l : List (Nat × Nat)) : State := l.foldl (fun s r => flushRange s (ownRank s) r.1 r.2) s

/-- What a held privileged instruction reads and writes is at home, and the checks of what it reads have been tested (R385, R420). -/
def privHome (s : State) (i : Instr) (a b c : Nat) : State :=
  (privReads i a b c).foldl (fun s r => testRange s r.1 r.2) (atHome s (privRanges i a b c))

/-- The first held privileged instruction of the focused thread performed (R384, R387 to R394). It leaves the list when
it has completed; a SHOOT, and a CTXRS that reads another device, may stay. -/
def privStep (s : State) (o : HeldOp) : State :=
  let a := o.a.toNat
  let b := o.b.toNat
  let c := o.c.toNat
  let co := coOf s
  let cx := cxOf s
  let s := privHome s o.ins a b c
  let fin := fun (r : State × Nat) (d : BitVec 6) => finishPriv r.1 (some d) r.2
  let shoot := fun (d : BitVec 6) (scope : Nat) =>
    (bareAct { s with th := { s.th with marking := 6 } } (fun s => (shootIssue s c a b scope (some (co, cx, d.toNat)), 0))).1
  match o.ins with
  | .wrsys _ _ imm _ => finishPriv (bareAct s (fun s => (tellKills s (sysWrite s co cx (sysNo imm) a b), 0))).1 none 0
  | .shootPkg d .. => shoot d 1
  | .shootSet d .. => shoot d 2
  | .ctxsv d .. => fin (bareAct s (fun s => ctxSave s a b c)) d
  | .ctxrs d .. =>
    let r := bareAct s (fun s => match ctxRestore s a b with
      | (s', some v) => (s', v)
      | (s', none) => (s', 2 ^ 64))
    if r.2 = 2 ^ 64 then r.1 else fin r d
  | .haltcStop d .. => fin (bareAct s (fun s => haltStop s a)) d
  | .haltcGo d .. => fin (bareAct s (fun s => haltGo s a)) d
  | .keyldPart d .. => fin (keyLoad s 0 a b (c &&& 0xFFFFFFFF000003FF)) d
  | .keyldLink d .. => fin (keyLoad s 1 a b (c % 1024)) d
  | .keyldSign d .. => fin (keyLoad s 2 a b 0) d
  | .keydrop .. => finishPriv (keyDrop s a) none 0
  | .hsinit cx .. => finishPriv (setHash s cx.toNat { msg := [], bad := false }) none 0
  | .hsupd cx .. =>
    let x := hashOf s.th cx.toNat
    finishPriv (setHash s cx.toNat
      { msg := x.msg ++ memBytes s a b, bad := x.bad || localPoison s a b }) none 0
  | .hsfin d cx .. => fin (hashEnd s cx.toNat a) d
  | .edsign d .. =>
    if localPoison s a b then finishPriv s (some d) 0
    else finishPriv (homeStore s c (edSign idSeed (memBytes s a b))) (some d) 1
  | .edver d .. =>
    if localPoison s a b || localPoison s c 96 then finishPriv s (some d) 0
    else finishPriv s (some d) (b2n (edVerify (memBytes s c 32) (memBytes s a b) (memBytes s (c + 32) 64)))
  | .edverSlots d .. =>
    if localPoison s a b || localPoison s c 64 then finishPriv s (some d) 0
    else finishPriv s (some d) (slotVerify s (memBytes s a b) (memBytes s c 64))
  | .mext d .. =>
    if localPoison s b 64 then finishPriv s (some d) 0
    else finishPriv (measExtend s a (memBytes s b 64)) (some d) 1
  | _ => finishPriv s none 0

end Sys2Proof.Machine
end

