-- ==== Sys2Proof/Machine/Mark.lean ====
section
/-!
DEFINITION. The header: IDLE, WAIT, TAKE, POST, and the mark with its five steps (R23, R24, R122, R142 to R144). A mark
that must wait keeps its step in the thread's `marking`: 1 for its drain, 8 for its own operations, 2 for what the checks before step 1
need, 9 in step 1, 10 in step 2, 3 for another device's answer, 4 for a REL, 5 in step 3, 6 for a SHOOT, 7 at a synchronisation point.
-/
namespace Sys2Proof.Machine
open Sys2Proof

/-! Step 2: the held operation, and a REL. -/

/-- What step 2 does: a fault, an end, sectors of other devices to read first, a migrating entry to walk again (`ctr`: BLAUNCH's walk
of its counter), or an operation that its device performs, of so many bytes, with what its flit carries beside its operands and the
sectors there that it acts on. -/
inductive Two where
  | bad (c : FaultCode) | done (s : State) | ask (l : List (Nat × Nat)) (cls : Nat) | again (ctr : Bool)
  | far (o : HeldOp) (n : Nat) (more : List Byte) (secs : List (Nat × Nat))

/-- The place that a held memory operand reaches. -/
def heldLoc (o : HeldOp) : Loc :=
  match o.h.space with
  | .memory => .mem o.h.dev o.pa
  | .scratch => .scr o.pa
  | .plane => .pl o.h.plane o.pa

/-- The reader that a mark's steps 1 and 2 are. -/
def markReader (s : State) : State := asReader s [0, coOf s, cxOf s]

/-- BLAUNCH (R190): the descriptor is read after the gate has committed. A walk that still meets MIG after 64 retries fails as any other
of its walks does. -/
def blaunchPerform (s : State) (o : HeldOp) (d cls : Nat) : Two :=
  let srcs := (locBytes (heldLoc o) 32).map rawSrc
  match takeAll (tested (markReader s) srcs) cls true srcs with
  | .bad c _ => .bad c
  | .ask l => .ask l cls
  | .bytes s' bs => match blaunchDesc s' d bs with
    | .bad c => .bad c
    | .wait d sec => .ask [(d, sec)] cls
    | .mig ctr => if 64 ≤ (if ctr then o.tries2 else o.tries) then .bad .handlePerm else .again ctr
    | .done s'' => .done s''

/-- WCWR (R219, R255). -/
def wcwrTwo (s : State) (o : HeldOp) (d : Nat) : Two :=
  match wcwrPerform s d o with
  | .bad c => .bad c
  | .done s' => .done s'
  | .wait dev sec => .ask [(dev, sec)] (rmwCls o.ins)
  | .mig => .again false
  | .far t l dev =>
    let pa := match l with
      | x :: _ => x.pa
      | [] => 0
    let o' := { o with h := { o.h with dev := dev }, pa := pa, lines := l.foldl (fun k w => insNat (w.pa / 256) k) [] }
    .far o' 8 (wcPayload t l) ((l.foldl (fun k w => insNat (w.pa / 64) k) []).map (fun sec => (dev, sec)))

/-- An atomic, an NMR or a CTRADD (R332 to R335): at its address's home (R148). -/
def rmwTwo (s : State) (o : HeldOp) (d : Option Nat) (n : Nat) : Two :=
  if o.h.space == .memory && isRemote s o.h.dev then
    (if isFenced s o.h.dev then .bad .deviceFenced
     else .far { o with lines := [o.pa / 256] } n [] [(o.h.dev, o.pa / 64)])
  else match rmwPerform s o d n with
    | .bad c => .bad c
    | .done s' => .done s'

/-- The held operation performed (R23 step 2). -/
def heldPerform (s : State) : Two :=
  match s.th.heldOp with
  | none => .done s
  | some o => match o.ins with
    | .lower d .. =>
      let r := lowerWindow s o.pa o.a.toNat
      .done (putS r.1 d.toNat (BitVec.ofNat 64 r.2) clsLoad)
    | .raise .. => match raiseWindow s o.pa o.a.toNat with
      | none => .bad .handlePerm
      | some s' => .done s'
    | .wcwr d .. => wcwrTwo s o d.toNat
    | .blaunch d _ _ cls _ => blaunchPerform s o d.toNat cls.toNat
    | i => match rmwForm i with
      | some (d, n) => rmwTwo s o d n
      | none => .done s

/-- An operation at another device leaves the core (R148, R255): the array's bytes of its lines have gone ahead (KIND 4: operation,
width, operands, requester, and what a WCWR's home needs: the model's own layout). -/
def sendHeld (s : State) (o : HeldOp) (n : Nat) (more : List Byte) : State :=
  let s := o.lines.foldl (fun s ln => cleanLine s o.h.dev ln true) s
  let arg := if more.isEmpty then (o.a, o.b) else (o.c, o.b)
  let s1 := sendFlit s o.h.dev 4 (rmwCls o.ins) o.pa
    ([BitVec.ofNat 8 (rmwNum o.ins), BitVec.ofNat 8 n] ++ leBytes arg.1.toNat 8 ++ leBytes arg.2.toNat 8 ++
      leBytes (4 * coOf s + cxOf s) 2 ++ more)
  { s1 with th := { s1.th with heldOp := some o } }

/-- An entry that a REL waits for (R144, R146): of a class in its mask, and of the issuing device's memory unless its
scope is the set. -/
def relWants (s : State) (mask scope : Nat) (e : FifoEnt) : Bool :=
  match e with
  | .line dev _ cls _ => mask.testBit cls && (scope == 5 || !isRemote s dev)
  | .marker .. => false

/-- The entries ahead of a context's marker. -/
def aheadOf (cx : Nat) : List FifoEnt → List FifoEnt
  | [] => []
  | .marker c m sc :: r => if c = cx then [] else .marker c m sc :: aheadOf cx r
  | e :: r => e :: aheadOf cx r

/-- A context's marker in the FIFO. -/
def markerOf (cx : Nat) : List FifoEnt → Option (Nat × Nat)
  | [] => none
  | .marker c m sc :: r => if c = cx then some (m, sc) else markerOf cx r
  | _ :: r => markerOf cx r

/-- REL_COMPLETION can happen for a context of the focused or given core's FIFO (R144). -/
def relReady (s : State) (fifo : List FifoEnt) (cx : Nat) : Bool :=
  match markerOf cx fifo with
  | some (m, sc) => !(aheadOf cx fifo).any (relWants s m sc)
  | none => true

/-! Steps 3 to 5. -/

/-- The thread stands at its mark and waits. -/
def markWait (s : State) (step : Nat) (r : RunState) : State := { s with th := { s.th with run := r, marking := step } }

/-- What an EXIT's mark tells its domains (R53, R130). -/
def afterExit (s : State) : State :=
  let g := s.grp
  let cx := cxOf s
  (bareAct s (fun s => (syncAll (freePlanes (tellExit s g cx)), 0))).1

/-- Steps 4 and 5 (R23). -/
def markEnd (s : State) : State :=
  let s := match s.th.heldPost with
    | some (k, c) => { s with grp := addFlag s.grp k c }
    | none => s
  match s.th.heldSync with
  | some (lvl, st) =>
    let s1 := { s with th := { s.th with run := .arrived, marking := 7, arrival := some (lvl, st && lvl == domLevel s.th) } }
    let s2 := if lvl = 5 && spansSet s s.grp then
        sendSetAll s1 10 s.grp.launch s.grp.planeDom (leBytes (thrRank s s.grp 5 (cxOf s)) 4 ++ leBytes (b2n (st && lvl == domLevel s.th)) 1)
      else s1
    (bareAct s2 (fun s => (syncAll s, 0))).1
  | none =>
    let s1 := retireMark s
    if s1.th.run = .exited then afterExit s1 else s1

/-- The held privileged instructions performed in issue order (R384); `n` bounds their number. -/
def markPriv (s : State) : Nat → State
  | 0 => s
  | n + 1 =>
    match s.th.heldPriv with
    | [] => markEnd s
    | o :: r =>
      let s1 := privStep { s with th := { s.th with marking := 5 } } o
      if !focused s1 then s1
      else if s1.th.heldPriv.length == r.length then markPriv s1 n
      else markWait s1 s1.th.marking .heldWait

/-- Step 3 (R23, R157, R384). -/
def markThree (s : State) : State :=
  let s1 := startShunts s
  markPriv s1 (s1.th.heldPriv.length + 1)

/-- A REL at step 2 (R144): at core scope, with mask 0 or with nothing to wait for it completes at once. -/
def markRel (s : State) : State :=
  match s.th.heldRel with
  | none => markThree s
  | some (m, sc) =>
    if sc = 1 || m = 0 || !s.core.fifo.any (relWants s m sc) then markThree s
    else markWait { s with core := { s.core with fifo := s.core.fifo ++ [.marker (cxOf s) m sc] } } 4 .relWait

/-- A fault that a mark meets before anything of its window is written: the window will be rolled back. -/
def markFault (s : State) (f : FaultInfo) : State :=
  { s with th := { raiseTh s.th f with run := .ready, marking := 0 } }

/-- The fault of a held operation at step 2. -/
def heldFault (s : State) (o : HeldOp) (c : FaultCode) : FaultInfo :=
  { code := c, pos := s.th.pos, slot := slotLs, addr := heldAddr s o c, gate := 0, fq := 0, bpc := s.th.bpc }

/-- The held operation is over, and a REL may follow. -/
def heldOver (s : State) : State := markRel { s with th := { s.th with heldOp := none } }

/-- The held operation fails after its window has committed, which nothing had foreseen: the fault falls after the mark (log entry
78). -/
def heldLate (s : State) (o : HeldOp) (c : FaultCode) : State :=
  heldOver { s with th := { s.th with after := s.th.after ++ [(c, heldAddr s o c)] } }

/-- One retry more of a held operation's walk. -/
def heldAgain (s : State) (o : HeldOp) (ctr : Bool) : State :=
  let s1 := spent s
  { s1 with th := { s1.th with heldOp := some (if ctr then { o with tries2 := o.tries2 + 1 } else { o with tries := o.tries + 1 }) } }

/-- Sectors of other devices asked for by the present reader. -/
def askSecs (s : State) (l : List (Nat × Nat)) (cls : Nat) : State := l.foldl (fun s x => askSector s x.1 x.2 cls) s

/-- Step 2 once everything has committed (R23, R142, R148): here at once, or at another device, whose answer the mark waits for. -/
def heldStep (s : State) : State :=
  match s.th.heldOp with
  | none => markRel s
  | some o =>
    let s := markReader s
    match heldPerform s with
    | .bad c => heldLate s o c
    | .done s2 => heldOver s2
    | .ask l cls => markWait (askSecs s l cls) 10 .heldWait
    | .again ctr => markWait (heldAgain s o ctr) 10 .heldWait
    | .far o' n more _ => markWait (sendHeld s o' n more) 3 .heldWait

/-- The gate has committed. -/
def markTwo (s : State) : State := heldStep (gateGone s)

/-- Step 1, one item at a time: what another context does in between sees some classes before others (R142). -/
def markCommit (s : State) : State :=
  let s1 := if (openItems s.th).isEmpty then s else commitNext s
  if (openItems s1.th).isEmpty then markTwo s1 else markWait s1 9 .heldWait

/-- What the window will have stored when its mark has committed it; `n` bounds the number of its items. Nothing comes of it. -/
def foreseen (s : State) : Nat → State
  | 0 => gateGone s
  | n + 1 =>
    let rest := openItems s.th
    match rest.find? (canCommit s.th.fences rest) with
    | none => gateGone s
    | some x =>
      let s2 := commitItem s x
      foreseen { s2 with th := { s2.th with committed := x.ix :: s2.th.committed } } n

/-- The window stores to every byte of a sector of another device, or its core has stored to it before. -/
def coversSec (s : State) (dev sec : Nat) : Bool :=
  (openItems s.th).foldl (fun m x => if x.ent.at_ == .mem dev sec && x.po == 0 then m ||| x.ent.mask else m) (arrGet s.core dev sec).dirty
    == BitVec.allOnes 64

/-- What the sectors of another device that an operation will act on answer: out of extent (R119), or poisoned where the window does
not write them whole (R420). -/
def farBad (s : State) (l : List (Nat × Nat)) : Option FaultCode :=
  if l.any (fun x => remoteOut s x.1 x.2) then some .scratchUnmapped
  else if l.any (fun x => remoteBad s x.1 x.2 && !coversSec s x.1 x.2) then some .poison
  else none

/-- The checks of what a failing operation has read here tested (R420). -/
def heldTested (s : State) (o : HeldOp) : State :=
  match o.ins with
  | .wcwr .. => match patternOf s o.a o.b with
    | some t => (match wcwrWords s o t with
      | .ok l => wcTested s l
      | _ => s)
    | none => s
  | _ => if o.h.space == .memory && !isRemote s o.h.dev then testRange s o.pa 32 else s

/-- A held operation tried before anything commits, so that where it fails the window writes nothing (R25, R326). -/
def markTry (s : State) (o : HeldOp) : State :=
  let t := foreseen s (openItems s.th).length
  match heldPerform t with
  | .bad c => markFault (heldTested s o) (heldFault t o c)
  | .ask l cls => markWait (askSecs s l cls) 2 .heldWait
  | .again ctr => markWait (heldAgain s o ctr) 2 .heldWait
  | .done _ => markCommit (spent { s with th := { s.th with heldOp := some { o with tries := 0, tries2 := 0 } } })
  | .far o' _ _ secs =>
    if secs.any (fun x => (remoteData s x.1 x.2).isNone) then markWait (askSecs s secs (rmwCls o.ins)) 2 .heldWait
    else match farBad s secs with
      | some c => markFault s (heldFault s o' c)
      | none => markCommit (spent { s with th := { s.th with heldOp := some { o with tries := 0, tries2 := 0 } } })

/-- A copy of the mark bundle that reads. -/
def ownCopy (s : State) (c : CopyCmd) : Bool := c.th == cxOf s && decide (s.th.pos ≤ c.pos) && c.op != 1 && c.op != 3

/-- The mark bundle's copies perform their reads before anything commits, or ask for what they need (R150, R158, R161). -/
def ownReads (s : State) : State :=
  (upFrom 0 4).foldl (fun s ch => match tfind s.grp.ch ch with
    | none => s
    | some c =>
      if !ownCopy s c || c.got.isSome || loadsAhead s c.th (c.pos, slotCp) (fun k => k == c.cls) then s
      else match engineRead s (copyTag s ch) c.src with
        | some x =>
          let s1 := tested s c.src
          { s1 with grp := { s1.grp with ch := tput s1.grp.ch ch { c with got := some x } } }
        | none => askAll (asReader s (copyTag s ch)) c.cls c.src) s

/-- The operations of the mark bundle itself that perform before step 1: its loads and tile loads, the reads of its copies, its CPYOs
(R150, R158, R161, R166). -/
def ownDone (s : State) : Bool :=
  let mine := fun (th pos : Nat) => th == cxOf s && decide (pos ≤ s.th.pos)
  !loadsBefore s.th (s.th.pos + 1) && !s.grp.tld.any (fun c => mine c.th c.pos) &&
  !s.grp.ch.any (fun c => (c.2.op == 1 && mine c.2.th c.2.pos) || (ownCopy s c.2 && c.2.got.isNone))

/-- Steps 1 and 2 (R23, R122): the fault of the first entry that fails, or of the operation, before anything is written. A thread that
has run away is killed before its mark retires (R237). -/
def markOne (s0 : State) : State :=
  let s := ownReads s0
  let l := openItems s.th
  let asks := itemAsks s l
  if !ownDone s || runawayReady s.th then markWait s 8 .heldWait
  else
    let s1 := if asks.isEmpty && s.th.heldOp.isNone then s else markReader s
    if asks.any (fun x => (remoteData s1 x.1 x.2).isNone) then markWait (askSecs s1 asks 0) 2 .heldWait
    else match l.find? (fun x => (itemBad s1 x).isSome) with
      | some x => markFault s1 { code := (itemBad s1 x).getD .scratchUnmapped, pos := s.th.pos, slot := 0,
                                 addr := x.ent.va + lowByte x.ent.mask, gate := x.ix, fq := 0, bpc := s.th.bpc }
      | none => match s1.th.heldOp with
        | none => markCommit (if asks.isEmpty then s1 else spent s1)
        | some o => markTry s1 o

/-- A mark that waits goes on from the step it has reached. -/
def markOn (s : State) : State :=
  if s.th.fault.isSome || runawayReady s.th then s
  else if s.th.marking = 2 ∨ s.th.marking = 8 then markOne s
  else if s.th.marking = 9 then markCommit s
  else if s.th.marking = 10 then heldStep s
  else if s.th.marking = 5 then markPriv s (s.th.heldPriv.length + 1)
  else s

/-- REL_COMPLETION of the focused thread (R144). -/
def relComplete (s : State) : State :=
  if s.th.run != .relWait || !relReady s s.core.fifo (cxOf s) then s
  else
    let fifo := s.core.fifo.filter (fun e => match e with
      | .marker c _ _ => c != cxOf s
      | .line .. => true)
    markThree { s with core := { s.core with fifo := fifo } }

/-- The core's readers read the sectors of a line of another device again: what they have, or may be sent, is older than an
operation on the line. -/
def forgetLine (s : State) (dev ln : Nat) : State :=
  forgetAt s (fun d sec tag => d == dev && sec / 4 == ln && coreReader (coOf s) tag)

/-- The answer of another device to the focused thread's operation (R148, R255, R257): the old value, or a fault that nothing had
foreseen. The operation's lines are this core's again. -/
def atomicReply (s : State) (old : Except FaultCode Nat) : State :=
  match s.th.heldOp with
  | none => s
  | some o =>
    let s1 := o.lines.foldl (fun s ln => forgetLine (cleanLine s o.h.dev ln true) o.h.dev ln) s
    match old with
    | .error c => heldLate s1 o c
    | .ok v =>
      let s2 := match rmwForm o.ins with
        | some (some d, _) => putS s1 d (BitVec.ofNat 64 v) clsLoad
        | _ => match o.ins with
          | .wcwr d .. =>
            let s2 := match patternOf s1 o.a o.b with
              | some t => if v = 3 then noteReenc s1 s1.grp.image t o.b.toNat else s1
              | none => s1
            putS s2 d.toNat (BitVec.ofNat 64 v) clsLoad
          | _ => s1
      heldOver s2

/-! The header's instructions. -/

/-- Nothing that the thread issued before this bundle is outstanding (R23). -/
def markDrained (s : State) : Bool :=
  let mine := fun (th pos : Nat) => th == cxOf s && decide (pos < s.th.pos)
  !loadsBefore s.th s.th.pos && !s.grp.tld.any (fun c => mine c.th c.pos) && !s.grp.ch.any (fun c => mine c.2.th c.2.pos) &&
  !s.grp.mx.any (fun o => mine o.2.th o.2.pos)

/-- IDLE (R9, R274): an empty bundle has no effect but to take a position. -/
def execIdle (s : State) : Out := .next s

/-- WAIT (R39). -/
def execWait (c : BitVec 8) (f : BitVec 5) (_mk : BitVec 1) (_k : BitVec 15) (s : State) : Out :=
  .next (if syncMet s.grp f.toNat c.toNat then s else block s)

/-- TAKE (R39, R41): the window remembers what it took. -/
def takeFlag (s : State) (k c : Nat) : State :=
  { s with grp := subFlag s.grp k c,
           th := { s.th with ckpt := { s.th.ckpt with takes := bump k c s.th.ckpt.takes } } }

def execTake (c : BitVec 8) (f : BitVec 5) (_mk : BitVec 1) (_k : BitVec 15) (s : State) : Out :=
  .next (if syncMet s.grp f.toNat c.toNat then takeFlag s f.toNat c.toNat else block s)

/-- POST (R39): held to step 4 of its mark (a POST elsewhere is refused when its bundle is decoded, R276 step 7). -/
def execPost (c : BitVec 8) (f : BitVec 5) (_mk : BitVec 1) (_k : BitVec 15) (s : State) : Out :=
  .next { s with th := { s.th with heldPost := some (f.toNat, c.toNat) } }

/-- A mark (R23): its own WAIT, TAKE or POST, its drain, its five steps. It follows the bundle's slots. -/
def execRestartMark (c : BitVec 8) (f : BitVec 5) (y : BitVec 2) (_k : BitVec 15) (s : State) : Out :=
  if decide (2 ≤ s.th.marking) then .next (markOn s)
  else if s.th.fault.isSome then .next s
  else if !markDrained s then .next { block s with th := { (block s).th with marking := 1 } }
  else if (y == 1 || y == 3) && !syncMet s.grp f.toNat c.toNat then .next { block s with th := { (block s).th with marking := 0 } }
  else
    let s1 := if y = 3 then takeFlag s f.toNat c.toNat
      else if y = 2 then { s with th := { s.th with heldPost := some (f.toNat, c.toNat) } }
      else s
    .next (markOne s1)

end Sys2Proof.Machine
end

