-- ==== Sys2Proof/Machine/Yard.lean ====
section
/-!
DEFINITION. The Marshalling Yard and the signal boxes (R54 to R72, R189, R256): launch messages, ageing, batches,
staging, pre-emption on behalf of waiting groups, the start and the end of groups and gangs, completion. Everything here is
bare: nothing is focused.
-/
namespace Sys2Proof.Machine
open Sys2Proof

/-! Launch messages (R57, R58, R189). -/

/-- A field of a message, little-endian. -/
def msgField (m : BitVec 512) (o n : Nat) : Nat := (m >>> (8 * o)).toNat % 2 ^ (8 * n)

/-- The cores of a die, and of one of its columns. -/
def dieCores (die : Nat) : List Nat := upFrom (16 * die) 16
def colCores (die col : Nat) : List Nat := upFrom (16 * die + 4 * col) 4

/-- A core is in service. -/
def liveCore (s : State) (co : Nat) : Bool := !(coreAt s co).oos

/-- A group or gang of a level has cores of its shape in service (R58 code 6). -/
def shapeFits (s : State) (level : Nat) : Bool :=
  if level < 2 then (upFrom 0 64).any (liveCore s)
  else if level = 2 then (upFrom 0 4).any (fun d => (upFrom 0 4).any (fun c => (colCores d c).all (liveCore s)))
  else if level = 3 then (upFrom 0 4).any (fun d => (dieCores d).all (liveCore s))
  else (upFrom 0 64).all (liveCore s)

/-- How many copies of its plane regions a group or gang needs (R130). -/
def planeCopies (k : Kernel) : Nat := if k.level = 0 then k.threads else 1

/-- A kernel's declaration breaks R44, R113 or R130 (code 8). -/
def kernelBad (k : Kernel) : Bool :=
  let rb := k.rings.foldl (fun n r => n + r.1 * r.2) 0
  let pb := k.planes.foldl (fun n p => n + p.1) 0
  k.threads == 0 || decide (4 < k.threads) || decide (32768 < k.scratch) || decide (8 < k.rings.length) ||
  decide (16 < k.planes.length) || decide (8 < k.fronts) || decide (5 < k.level) || decide (6 < k.prio) ||
  k.rings.any (fun r => r.1 % 256 != 0 || r.2 == 0 || decide (4096 < r.2)) || decide (256 * k.scratch < rb) || decide (7864320 < rb) ||
  k.planes.any (fun p => p.1 == 0 || p.1 % 256 != 0 || decide (2 ^ 22 < p.1) || decide (3 < p.2)) ||
  decide (16 < planeCopies k * k.planes.length) || decide (2 ^ 24 < planeCopies k * pb)

/-- What a check of a message finds (R58): its condition does not hold, or holds, or a table of another device must be read or a
migrating entry walked again before it is known. -/
inductive Check where
  | no | yes | wait (dev sec : Nat) | mig
deriving DecidableEq, Repr

/-- The check of a condition that is known. -/
def known (b : Bool) : Check := if b then .yes else .no

/-- Either of two conditions. -/
def Check.or : Check → Check → Check
  | .yes, _ => .yes
  | _, .yes => .yes
  | .no, c => c
  | c, _ => c

/-- What the checks of a message give: it is accepted, or refused with a code, or waits. -/
inductive MsgRes where
  | ok | code (n : Nat) | wait (dev sec : Nat) | mig
deriving DecidableEq, Repr

/-- The lowest code whose condition holds (R58); where it is not yet known whether a lower one does, the message waits. -/
def lowCode : List (Nat × Check) → MsgRes
  | [] => .ok
  | (n, c) :: r => match c with
    | .no => lowCode r
    | .yes => .code n
    | .wait d sec => .wait d sec
    | .mig => .mig

/-- A VA does not translate; an entry that still migrates after 64 retries is a failed walk (R129). -/
def walkCheck (s : State) (root : Nat) (sys : Bool) (va tries : Nat) : Check :=
  match walk s root sys va with
  | .bad _ => .yes
  | .page .. => .no
  | .wait d sec => .wait d sec
  | .mig => if 64 ≤ tries then .yes else .mig

/-- A counter's address is misaligned or does not translate (code 5); 0 names no counter. -/
def counterCheck (s : State) (root : Nat) (sys : Bool) (va tries : Nat) : Check :=
  if va = 0 then .no else if va % 8 != 0 then .yes else walkCheck s root sys va tries

/-- The gang size by which a launch's group count is divided (R54, R256). -/
def gangSize (s : State) (level : Nat) : Nat := domGroups s level

/-- ARG0 of a ballast launch names no lowered window (code 9). -/
def windowCheck (s : State) (image va tries : Nat) : Check :=
  match windowAt s image false va with
  | .window .. => .no
  | .none _ => .yes
  | .wait d sec => .wait d sec
  | .mig => if 64 ≤ tries then .yes else .mig

/-- The checks of a launch message (R58, R189), whose walks have met a migrating entry `tries` times. `st`: a station core wrote it. -/
def launchCode (s : State) (mb : Nat) (st : Bool) (m : BitVec 512) (tries : Nat) : MsgRes :=
  let kidx := msgField m 0 2
  let image := msgField m 2 2
  let groups := msgField m 4 4
  let pri := msgField m 8 1
  match imageOf s image with
  | none => .code 1
  | some im =>
    let k := nth Kernel.none im.kernels kidx
    if im.kernels.length ≤ kidx then .code 1
    else if k.level == 5 && s.regs.inset && k.kind != 2 && !im.everywhere then .code 1
    else
      let counter := fun (va : Nat) => counterCheck s (rootOf s image) false va tries
      let common : List (Nat × Check) :=
        [(3, known (pri % 8 == 7 && !st)), (4, known (decide (16 ≤ pri) || msgField m 9 7 != 0)),
         (5, (counter (msgField m 0x10 8)).or (counter (msgField m 0x20 8)))]
      let full := [(7, known (decide (32 ≤ mboxDepth s mb)))]
      if k.kind = 2 then
        lowCode ((2, known (groups == 0 || decide (16 < groups))) :: (common ++ full ++
          [(9, windowCheck s image (msgField m 0x30 8) tries)]))
      else
        lowCode ((2, known (groups == 0 || decide (2 ^ 24 < groups) || groups % gangSize s k.level != 0)) :: (common ++
          [(6, known (!shapeFits s k.level))] ++ full ++ [(8, known (kernelBad k))]))

/-- The home of a launch's dependency counter, if its translation is at hand: device and physical address (R62). -/
def depHome (s : State) (image va : Nat) : Option (Nat × Nat) :=
  match walk s (rootOf s image) false va with
  | .page pa lv _ dev => some (dev, pa + va % pageBytes lv)
  | _ => none

/-- The launch of an accepted message (R58, R60 to R62, R189). A counter of this device is compared with its target. -/
def launchOfMsg (s : State) (mb : Nat) (st : Bool) (m : BitVec 512) : Launch :=
  let kidx := msgField m 0 2
  let image := msgField m 2 2
  let k := kernelOf s image kidx
  let pri := msgField m 8 1
  let dep := msgField m 0x10 8
  let tgt := msgField m 0x18 8
  let met := match depHome s image dep with
    | some (dev, a) => !isRemote s dev && decide (tgt ≤ memNat s a 8)
    | none => false
  { noLaunch with id := s.nextId, mbox := mb, station := st, image := image, kidx := kidx, groups := msgField m 4 4,
                  prio := if pri % 8 = 7 then 7 else min (pri % 8) k.prio, evt := pri.testBit 3, depAddr := dep, depTgt := tgt,
                  doneAddr := msgField m 0x20 8, doneInc := msgField m 0x28 8, arg0 := msgField m 0x30 8,
                  arg1 := msgField m 0x38 8, ready := dep == 0 || met, readySeq := s.nextId, ballast := k.kind == 2 }

/-- The launch waits for its dependency counter. -/
def depWaits (l : Launch) : Bool := !l.ready && !l.killed && l.depAddr != 0

/-- A waiting launch's counter is watched at its home (R62, log entry 36): another device is asked to compare it now and at each update
(operation 14 of the set messages); one of this device whose translation needs other devices' tables is listed here. -/
def watchHome (s : State) (l : Launch) : State :=
  if !depWaits l then s
  else match depHome s l.image l.depAddr with
    | none => s
    | some (dev, a) =>
      let key := ownRank s + 1024 * l.id
      if isRemote s dev then sendSet11 s dev 14 key 0 (leBytes a 8 ++ leBytes l.depTgt 8)
      else if (transl { s with rtag := [] } l.image l.depAddr).isSome then s
      else { s with watches := s.watches ++ [{ rank := ownRank s, key := key, pa := a, tgt := l.depTgt }] }

/-- An accepted launch enters its mailbox (R58). -/
def launchAccept (s : State) (l : Launch) : State :=
  watchHome { s with launches := s.launches ++ [l], nextId := s.nextId + 1 } l

/-- A message is a Fitter job (R57, R208). -/
def isJob (m : BitVec 512) : Bool := msgField m 2 2 == 0xFFFF

/-- A message names a ballast kernel. -/
def namesBallast (s : State) (m : BitVec 512) : Bool := (kernelOf s (msgField m 2 2) (msgField m 0 2)).kind == 2

/-- The mailboxes' host ports are closed until the boot has set SYSENT.V (R426). -/
def portOpen (s : State) (mb : Nat) (st : Bool) : Bool := decide (mb < 64) && (st || sysentV s)

/-! A dependency counter whose translation has changed since its home was told to watch it (R62, R128, log entry 36). -/

/-- There is something to read, or read already, for a waiting launch of a device set whose counter may have moved. -/
def watchReady (s : State) (l : Launch) : Bool :=
  let s := asReader s [5, l.id]
  s.regs.inset && depWaits l && !l.seen && (match walk s (rootOf s l.image) false l.depAddr with
    | .wait d sec => !asking s d sec
    | _ => true)

/-- The other devices no longer watch a launch's counter: operation 14 with 1 in the place of a gang. -/
def forgetWatch (s : State) (l : Launch) : State :=
  (otherRanks s).foldl (fun s r => sendSet11 s r 14 (ownRank s + 1024 * l.id) 1 [])
    { s with watches := s.watches.filter (fun w => !(w.rank == ownRank s && w.key / 1024 == l.id)) }

/-- The counter's home looked up again: where it lies now it is compared and watched. One of this device is compared here. -/
def watchDep (s : State) (id : Nat) : State :=
  match launchOf s id with
  | none => s
  | some l =>
    if !watchReady s l then s
    else
      let s := asReader s [5, id]
      let done := fun (s : State) => readDone (setLaunch s id (fun l => { l with seen := true, tries := 0 })) [5, id]
      match walk s (rootOf s l.image) false l.depAddr with
      | .wait d sec => askSector s d sec 0
      | .mig => if 64 ≤ l.tries then done (forgetWatch s l) else setLaunch (spent s) id (fun l => { l with tries := l.tries + 1 })
      | .bad _ => done (forgetWatch s l)
      | .page .. =>
        let s1 := watchHome (forgetWatch s l) l
        done (match depHome s l.image l.depAddr with
          | some (dev, a) => if !isRemote s dev && decide (l.depTgt ≤ memNat s a 8) then depMet s1 id else s1
          | none => s1)

/-- A device asks for a counter of this one to be watched, or no longer to be (`dom` 1). -/
def takeWatch (s : State) (src key dom : Nat) (d : List Byte) : State :=
  let s1 := { s with watches := s.watches.filter (fun w => !(w.rank == src && w.key == key)) }
  let w : Watch := { rank := src, key := key, pa := leNat (d.take 8), tgt := leNat ((d.drop 8).take 8) }
  if dom = 1 then s1
  else if w.tgt ≤ memNat s w.pa 8 then sendSet11 s1 src 15 key 0 []
  else { s1 with watches := s1.watches ++ [w] }

/-! Ageing (R63). -/

/-- One effective priority higher, up to 6. -/
def older (p : Nat) : Nat := if p < 6 then p + 1 else p

/-- The groups of a gang that waits for the host's answer are not ready: they do not age (R227). -/
def agesBack (s : State) (e : Staged) : Bool := !s.awaiting.any (fun a => a.2.launch == e.launch)

/-- A waiting group ages, surely where `sure` and it has waited since groups of its launch aged last, else as a free bit says. -/
def ageStaged (s : State) (id : Nat) (sure : Bool) (g : Staged) : Staged :=
  if g.launch != id then g
  else if (sure && g.aged) || Config.freeBit (s.freeCtr + g.index) then { g with prio := older g.prio, waited := g.waited + 1, aged := true }
  else { g with aged := true }

/-- LAUNCH_AGEING: 100 us have passed since groups of the launch aged last (R63). What has waited all that time rises: the launch's part
in the Yard's queue, its groups that are back in the Yard, those in a box. What has begun to wait meanwhile has its own accumulated time
(R70): a free bit says whether it is full (log entry 38). So it is with a group on a platform (log entry 69). A ballast launch does not
age in its mailbox: it enqueues at the smaller of PRI and the cap (R189, log entry 70). -/
def launchAge (s : State) (id : Nat) : State :=
  let s1 := setLaunch s id (fun l =>
    if l.ready && !l.ballast && decide (l.handed < localGroups s l) then
      (if l.aged || Config.freeBit (s.freeCtr + 2 ^ 24) then { l with prio := older l.prio, waited := l.waited + 1, aged := true }
       else { l with aged := true })
    else l)
  { s1 with boxes := s1.boxes.map (fun b => (b.1, { b.2 with recv := b.2.recv.map (ageStaged s id true) })),
            cores := s1.cores.map (fun c => (c.1, { c.2 with plat := c.2.plat.map (ageStaged s id false) })),
            returned := s1.returned.map (fun e => if agesBack s e then ageStaged s id true e else e),
            freeCtr := s1.freeCtr + 2 ^ 24 + 1 }

/-! Slots and places (R66, R67). -/

/-- The occupied slots of a core's platform: a running group has one, which a group that it is pre-empted for shares until it is
free (R66, R70). -/
def occ (c : Core) : Nat :=
  (c.plat.filter (fun x => !x.same)).length + (if c.grp.isSome || c.plat.any (fun x => x.same) then 1 else 0)

/-- The occupied slots of a column. -/
def colOcc (s : State) (die col : Nat) : Nat := (colCores die col).foldl (fun n c => n + occ (coreAt s c)) 0

/-- A die's signal box. -/
def boxAt (s : State) (die : Nat) : SigBox := tget SigBox.init s.boxes die

/-- A signal box changed. -/
def setBox (s : State) (die : Nat) (f : SigBox → SigBox) : State :=
  { s with boxes := tmod SigBox.init s.boxes die f }

/-- A column's dispatch threshold (R68). -/
def colThr (s : State) (die col : Nat) : Nat := tget 8 (boxAt s die).thr col

/-- The cores of a list that have a free slot and are in service. -/
def roomCores (s : State) (l : List Nat) : List Nat := l.filter (fun c => liveCore s c && decide (occ (coreAt s c) < 4))

/-- A box's free platform slots (R65). -/
def boxFree (s : State) (die : Nat) : Nat :=
  ((dieCores die).filter (liveCore s)).foldl (fun n c => n + (4 - occ (coreAt s c))) 0 - (boxAt s die).recv.length

/-- A waiting group is a gang's. -/
def gangLevel (s : State) (e : Staged) : Nat :=
  match launchOf s e.launch with
  | some l => (kernelOf s l.image l.kidx).level
  | none => 0

/-- The first group of a waiting group's domain. -/
def gangFirst (s : State) (e : Staged) : Nat := e.index - e.index % gangSize s (gangLevel s e)

/-- The place of a gang's member among the groups of this device (R48, R54). -/
def gangPlace (s : State) (e : Staged) : Nat := (e.index - gangFirst s e) % 64

/-- Two waiting groups are of one gang. -/
def sameStaged (s : State) (a b : Staged) : Bool :=
  a.gang && b.gang && a.launch == b.launch && gangFirst s a == gangFirst s b

/-- A group staged on a core: a gang's member ahead of non-gang groups, another behind all, or (`next`) in the slot of the group being
pre-empted for it, ahead of the non-gang groups (R55, R66, R70). -/
def stageOn (s : State) (co : Nat) (e : Staged) (next : Bool) : State :=
  let e := { e with core := co, same := next && !e.gang, seq := s.bseq }
  let c := coreAt s co
  let gangs := c.plat.filter (fun x => x.gang)
  let rest := c.plat.filter (fun x => !x.gang)
  setCore { s with bseq := s.bseq + 1 } co { c with plat := if e.gang || next then gangs ++ e :: rest else gangs ++ rest ++ [e] }

/-- The waiting group that a list serves first: the first of highest priority. -/
def topStaged : List Staged → Option Staged
  | [] => none
  | e :: r => match topStaged r with
    | some f => if decide (e.prio < f.prio) then some f else some e
    | none => some e

/-! Pre-emption on behalf of waiting groups (R69 to R71). -/

/-- The effective priority of the group on a core, and when it was dispatched, unless it is being saved already. -/
def runningOn (s : State) (co : Nat) : Option (Nat × Nat) :=
  match groupAt s co with
  | some g => if g.saving then none else some (g.prio, g.disp)
  | none => none

/-- The victim of R69 among cores: lowest priority, most recently dispatched, lowest core number; never priority 7. -/
def lowRunning (s : State) (cores : List Nat) : Option (Nat × Nat) :=
  (cores.foldl (fun (r : Option (Nat × Nat × Nat)) c => match runningOn s c with
    | none => r
    | some (p, d) => if p = 7 then r else match r with
      | none => some (c, p, d)
      | some (_, q, e) => if decide (p < q) || (p == q && decide (e < d)) then some (c, p, d) else r) none).map
    (fun x => (x.1, x.2.1))

/-- The groups that the pre-emption of the groups on cores would save, with their gangs (R56). -/
def savedBy (s : State) (cores : List Nat) : List Group :=
  s.cores.filterMap (fun c => match c.2.grp with
    | some x => if !x.saving && cores.any (fun o => match groupAt s o with
        | some g => sameGang x g
        | none => false) then some x else none
    | none => none)

/-- A gang's member on the die is being saved: its core goes to staging (R67, R70). -/
def gangLeaves (s : State) (die : Nat) : Bool :=
  (dieCores die).any (fun c => match groupAt s c with
    | some g => g.saving && decide (2 ≤ g.kern.level)
    | none => false)

/-- Every column of a die is at or above its threshold (R69), or has no core in service with a free slot. -/
def colsFull (s : State) (die : Nat) : Bool :=
  (upFrom 0 4).all (fun c => (roomCores s (colCores die c)).isEmpty || decide (colThr s die c ≤ colOcc s die c))

/-- R69 for a non-gang group: the victim's core, if every column is full, the gap is two or more, and the save area has room (R238). -/
def victimFor (s : State) (die prio : Nat) : Option Nat :=
  match lowRunning s (dieCores die) with
  | some (c, p) => if colsFull s die && decide (p + 2 ≤ prio) && !gangLeaves s die && saveRoom s (savedBy s [c]) then some c else none
  | none => none

/-- R69's pre-emption for a waiting group, which leaves where it waits by `leave` and takes the victim's slot (R70). A victim that is a
gang's member gives every core of its gang to staging (R67): the group goes on waiting. -/
def preemptFor (s : State) (co : Nat) (es : List Staged) (leave : State → State) : State :=
  match groupAt s co with
  | some g => if 2 ≤ g.kern.level then requestPreempt s co
      else es.foldl (fun s e => stageOn s co e true) (requestPreempt (leave s) co)
  | none => s

/-- One more than the highest effective priority among the groups that run on cores; 0 when none runs. -/
def topRunning (s : State) (cores : List Nat) : Nat :=
  cores.foldl (fun m c => match groupAt s c with
    | some g => max m (g.prio + 1)
    | none => m) 0

/-- A member can take a slot on a core: one is free, or a non-gang group staged there can go back (R71). -/
def canTake (s : State) (co : Nat) : Bool :=
  let c := coreAt s co
  decide (occ c < 4) || c.plat.any (fun x => !x.gang && !x.same)

/-- The group of a list that was staged most recently. -/
def lastStaged (l : List Staged) : Option Staged :=
  l.foldl (fun r e => match r with
    | none => some e
    | some m => if m.seq ≤ e.seq then some e else r) none

/-- The non-gang group staged most recently on a full platform goes back to its box (R71). -/
def evict (s : State) (co : Nat) : State :=
  let c := coreAt s co
  if occ c < 4 then s
  else match lastStaged (c.plat.filter (fun x => !x.gang && !x.same)) with
    | none => s
    | some e => setBox (setCore s co { c with plat := c.plat.filter (fun x => x != e) }) (co / 16)
        (fun b => { b with recv := e :: b.recv })

/-- The members of a gang put on the cores from `base` on, by their places. -/
def placeGang (s : State) (base size : Nat) (es : List Staged) : State :=
  es.foldl (fun s e =>
    let co := base + gangPlace s e % size
    stageOn (evict s co) co e true) s

/-- Every running group on a gang's cores is below it by two or more, or on its way out (R71). -/
def gapOk (s : State) (cores : List Nat) (prio : Nat) : Bool :=
  cores.all (fun c => match runningOn s c with
    | some (p, _) => decide (p + 2 ≤ prio) && p != 7
    | none => true)

/-- A gang can be staged on cores as they are (R67): in service, with a free slot for each member. -/
def gangRoom (s : State) (base size : Nat) (es : List Staged) : Bool :=
  (upFrom base size).all (liveCore s) && es.all (fun e => decide (occ (coreAt s (base + gangPlace s e % size)) < 4))

/-- Pre-emption on a gang's behalf on given cores (R71), if it may happen. -/
def gangForce (s : State) (base size prio : Nat) (es : List Staged) : Option State :=
  let cores := upFrom base size
  if cores.all (liveCore s) && gapOk s cores prio && saveRoom s (savedBy s cores) &&
      es.all (fun e => canTake s (base + gangPlace s e % size)) then
    some (placeGang (cores.foldl requestPreempt s) base size es)
  else none

/-- Of several places, the one whose highest running priority is lowest, the first among ties (R71). -/
def bestBase (s : State) (size : Nat) : List Nat → Option Nat
  | [] => none
  | b :: r =>
    let live := (upFrom b size).all (liveCore s)
    match bestBase s size r with
    | none => if live then some b else none
    | some c => if live && decide (topRunning s (upFrom b size) ≤ topRunning s (upFrom c size)) then some b else some c

/-! Set gangs (R256): what the launching device and the members tell one another. KIND 11 operations: 0 a launch
forwarded, 1 a part staged, 2 start, 3 a pre-emption asked of the launching device, 4 that request passed on, 5 a part of a gang
ended, 6 a part of the launch ended, 7 the launch killed. -/

/-- This device launched the launch. -/
def launcher (l : Launch) : Bool := l.remote.isNone

/-- A report of a member noted by the launching device. -/
def noteReport (s : State) (id kind dom rank : Nat) : State :=
  setLaunch s id (fun l => if l.reports.contains (kind, dom, rank) then l else { l with reports := l.reports ++ [(kind, dom, rank)] })

/-- A message of this device about a launch: to the launching device, or noted here if it is that. -/
def tellLauncher (s : State) (l : Launch) (op dom : Nat) : State :=
  match l.remote with
  | none => noteReport s l.id op dom (ownRank s)
  | some (r, _) => sendSet s r op l.id dom (leBytes (ownRank s) 2)

/-- The members that a launching device waits for. -/
def setMembers (s : State) : List Nat := (upFrom 0 (s.regs.ndev + 1)).filter (fun r => !isFenced s r)

/-- Every member has reported its part of a gang staged, or ended, and the gang has not been started. -/
def setDue (s : State) (l : Launch) (dom : Nat) : Bool :=
  launcher l && !l.ready2.contains dom && (setMembers s).any (fun r => l.reports.contains (1, dom, r)) &&
  (setMembers s).all (fun r => l.reports.contains (1, dom, r) || l.reports.contains (5, dom, r))

/-- The launching device starts a gang once every member has reported it staged (R256). -/
def startSet (s : State) (id dom : Nat) : State :=
  match launchOf s id with
  | none => s
  | some l =>
    if setDue s l dom then
      sendSetAll (setLaunch s id (fun l => { l with ready2 := l.ready2 ++ [dom],
                                                    reports := l.reports.filter (fun x => !(x.1 == 1 && x.2.1 == dom)) })) 2 id dom []
    else s

/-- A set gang's part has been staged here: the launching device is told, once. -/
def tellStaged (s : State) (id dom : Nat) : State :=
  match launchOf s id with
  | some l =>
    if spansLaunch s l && !l.reports.contains (1, dom, ownRank s) then
      startSet (tellLauncher (noteReport s id 1 dom (ownRank s)) l 1 dom) id dom
    else s
  | none => s

/-- The waiting members of a gang on platforms. -/
def gangWaits (s : State) (id dom : Nat) : List Staged :=
  s.cores.flatMap (fun c => c.2.plat.filter (fun e => e.launch == id && e.gang && gangFirst s e == dom))

/-- A gang's groups on cores. -/
def gangRuns (s : State) (id dom : Nat) : List (Nat × Group) :=
  s.cores.filterMap (fun c => match c.2.grp with
    | some g => if g.launch == id && g.planeDom == dom then some (c.1, g) else none
    | none => none)

/-- A gang's saved groups. -/
def gangSaved (s : State) (id dom : Nat) : List Saved := s.saved.filter (fun x => x.grp.launch == id && x.grp.planeDom == dom)

/-- Set gangs whose part here stands whole on platforms, though the launching device has not heard of it: what CTXRS has put there group
by group (R249, R256). -/
def stagedParts (s : State) : List (Nat × Nat) :=
  s.launches.flatMap (fun l =>
    if !spansLaunch s l || l.killed then []
    else ((s.cores.flatMap (fun c => (c.2.plat.filter (fun e => e.launch == l.id && e.gang && e.saved)).map (gangFirst s))).foldl
        (fun a d => insNat d a) []).filter (fun dom =>
      !l.ready2.contains dom && !l.reports.contains (1, dom, ownRank s) && (gangRuns s l.id dom).isEmpty &&
      (gangWaits s l.id dom).length == (gangSaved s l.id dom).length) |>.map (fun dom => (l.id, dom)))

/-- The save area has room for the part of a set gang that runs here (R238). -/
def partRoom (s : State) (id dom : Nat) : Bool := saveRoom s (((gangRuns s id dom).filter (fun x => !x.2.saving)).map (fun x => x.2))

/-- The part of a set gang here is pre-empted (R256), once the save area has room for it (R238): until then the request stands, noted as
a report of this device (4). -/
def preemptPart (s : State) (id dom : Nat) : State :=
  if !partRoom s id dom then noteReport s id 4 dom (ownRank s)
  else
  let s := setLaunch s id (fun l => { l with reports := l.reports.filter (fun x => x != (4, dom, ownRank s)) })
  let s1 := mapGroups s (fun g => if g.launch == id && g.planeDom == dom && !g.saving then interruptGroup true g else g)
  setLaunch s1 id (fun l => { l with ready2 := l.ready2.filter (fun d => d != dom) })

/-- Set gangs whose pre-emption the other members have not heard of are told (R56, R256). -/
def tellPreempt (s : State) : State :=
  let gs := s.cores.filterMap (fun c => c.2.grp)
  gs.foldl (fun s g => match launchOf s g.launch with
    | some l =>
      if g.saving && spansLaunch s l && l.ready2.contains g.planeDom then
        let s1 := setLaunch s l.id (fun l => { l with ready2 := l.ready2.filter (fun d => d != g.planeDom) })
        if launcher l then sendSetAll s1 4 l.id g.planeDom [] else tellLauncher s1 l 3 g.planeDom
      else s
    | none => s) s

/-! Batches (R64, R65, R70). -/

/-- The index of a launch's k-th group on this device (R256). -/
def groupIndex (s : State) (l : Launch) (k : Nat) : Nat :=
  if (kernelOf s l.image l.kidx).level = 5 && s.regs.inset then
    k / 64 * gangSize s 5 + s.regs.rank * 64 + k % 64
  else k

/-- A launch has groups that the Yard may hand out. -/
def launchReady (s : State) (l : Launch) : Bool :=
  !l.ballast && l.ready && !l.killed && !l.finished && decide (l.handed < localGroups s l) && !imageHeld s l.image &&
  (!spansLaunch s l || l.forwarded)

/-- A returned group may be dispatched again: its gang is whole and awaits no answer (R56, R227). One of an image that a job has taken
goes on: the job waits for it (R210, log entry 71). -/
def returnReady (s : State) (e : Staged) : Bool :=
  match launchOf s e.launch with
  | none => false
  | some l =>
    let mates := s.saved.filter (fun x => x.grp.launch == e.launch && (if e.gang then x.grp.planeDom == gangFirst s e else x.grp.index == e.index))
    !l.killed && !gangHeld s e.launch (gangFirst s e) &&
    mates.all (fun x => !x.host && s.returned.any (fun y => y.launch == e.launch && y.index == x.grp.index)) &&
    (!e.gang || !s.cores.any (fun c => match c.2.grp with
      | some g => g.launch == e.launch && g.planeDom == gangFirst s e
      | none => false))

/-- The rotation's next mailbox, among those that have a launch of the priority (R64): each priority has its own turn. -/
def nextMbox (s : State) (prio : Nat) (ls : List Launch) : Option Nat :=
  (upFrom (tget 255 s.mboxRot prio + 1) 256).foldl (fun r i => match r with
    | some m => some m
    | none => if ls.any (fun l => l.mbox == i % 256) then some (i % 256) else none) none

/-- The first of a mailbox's launches: earliest ready, then earliest accepted. -/
def firstReady : List Launch → Option Launch
  | [] => none
  | l :: r => match firstReady r with
    | some m => if decide (m.readySeq < l.readySeq) || (m.readySeq == l.readySeq && decide (m.id < l.id)) then some m else some l
    | none => some l

/-- What the Yard would hand out next: a returned group (with its gang), or a launch. -/
inductive Next where
  | nothing | back (es : List Staged) | launch (l : Launch)

/-- The Yard's choice (R64, R70). -/
def yardNext (s : State) : Next :=
  let backs := s.returned.filter (returnReady s)
  let ls := s.launches.filter (launchReady s)
  let pl := ls.foldl (fun m l => max m (l.prio + 1)) 0
  match topStaged backs with
  | some e => if pl ≤ e.prio + 1 then .back (backs.filter (fun x => x == e || sameStaged s x e))
    else match nextMbox s (pl - 1) (ls.filter (fun l => l.prio + 1 == pl)) with
      | some m => (match firstReady (ls.filter (fun l => l.prio + 1 == pl && l.mbox == m)) with
        | some l => .launch l
        | none => .nothing)
      | none => .nothing
  | none => match nextMbox s (pl - 1) (ls.filter (fun l => l.prio + 1 == pl)) with
    | some m => (match firstReady (ls.filter (fun l => l.prio + 1 == pl && l.mbox == m)) with
      | some l => .launch l
      | none => .nothing)
    | none => .nothing

/-- The box with the most free slots, in rotation among ties, if it has at least `n` (R65). -/
def freeBox (s : State) (n : Nat) : Option Nat :=
  let dies := (upFrom (s.boxRot + 1) 4).map (fun d => d % 4)
  let most := dies.foldl (fun m d => max m (boxFree s d)) 0
  if most < n || most = 0 then none else dies.find? (fun d => boxFree s d == most)

/-- The box whose lowest-priority running group is lowest (R65). Of several boxes that tie the rule says nothing: the model takes the
lowest die (log entry 72). -/
def offerBox (s : State) : Option Nat :=
  ((upFrom 0 4).foldl (fun (r : Option (Nat × Nat)) d => match lowRunning s (dieCores d) with
    | none => r
    | some (_, p) => match r with
      | none => some (d, p)
      | some (_, q) => if p < q then some (d, p) else r) none).map (fun x => x.1)

/-- The waiting groups of a launch's next batch, `n` of them. -/
def batchOf (s : State) (l : Launch) (n : Nat) : List Staged :=
  (upFrom l.handed n).map (fun k =>
    { launch := l.id, index := groupIndex s l k, prio := l.prio, waited := l.waited, aged := l.aged, saved := false,
      gang := decide (2 ≤ (kernelOf s l.image l.kidx).level), core := 0, same := false, seq := 0 })

/-- Groups that the Yard gives away leave it. The rotation moves on when the launch's last group has been handed out: until then its
mailbox keeps its priority's turn (R64). -/
def leaveYard (s : State) (src : Next) (es : List Staged) : State :=
  match src with
  | .back _ => { s with returned := s.returned.filter (fun x => !es.contains x) }
  | .launch l =>
    { setLaunch s l.id (fun l => { l with handed := l.handed + es.length }) with
      mboxRot := tset 255 s.mboxRot l.prio (if localGroups s l ≤ l.handed + es.length then l.mbox else (l.mbox + 255) % 256) }
  | .nothing => s

/-- A batch sent to a box. -/
def sendBatch (s : State) (src : Next) (die : Nat) (es : List Staged) : State :=
  { setBox (leaveYard s src es) die (fun b => { b with recv := b.recv ++ es }) with boxRot := die }

/-- Groups that fill no gang: a batch to the freest box, or R69's comparison when no slot is free. -/
def yardPlain (s : State) (src : Next) (prio : Nat) (take : Nat → List Staged) : Option State :=
  match freeBox s 1 with
  | some d => some (sendBatch s src d (take (min 64 (boxFree s d))))
  | none => match offerBox s with
    | none => none
    | some d => match victimFor s d prio with
      | none => none
      | some co => some (preemptFor s co (take 1) (fun s => leaveYard s src (take 1)))

/-- A gang of a column or a die: whole gangs to the freest box, or R71. -/
def yardGang (s : State) (src : Next) (prio size n : Nat) (take : Nat → List Staged) : Option State :=
  match freeBox s n with
  | some d => some (sendBatch s src d (take (min 64 (boxFree s d) / n * n)))
  | none =>
    let es := take n
    let s1 := leaveYard s src es
    if size = 4 then
      match offerBox s with
      | none => none
      | some d => (match bestBase s 4 ((upFrom 0 4).map (fun c => 16 * d + 4 * c)) with
        | some b => gangForce s1 b 4 prio es
        | none => none)
    else match bestBase s 16 [0, 16, 32, 48] with
      | some b => gangForce s1 b 16 prio es
      | none => none

/-- A package gang, or this device's part of a set gang, placed by the Yard on all 64 cores (R55, R71). -/
def yardPackage (s : State) (src : Next) (prio : Nat) (es : List Staged) : Option State :=
  let s1 := leaveYard s src es
  let r := if gangRoom s1 0 64 es then some (placeGang s1 0 64 es) else gangForce s1 0 64 prio es
  match r, es with
  | some s2, e :: _ => some (tellStaged s2 e.launch (gangFirst s e))
  | r, _ => r

/-- A ready set launch that the other members have not yet been sent (R256). -/
def toForward (s : State) : Option Launch :=
  s.launches.find? (fun l => spansLaunch s l && launcher l && l.ready && !l.killed && !l.finished && !l.forwarded)

/-- A launch sent to every member: image, kernel, group count, priority, the arguments (R256). -/
def forwardLaunch (s : State) (l : Launch) : State :=
  sendSetAll (setLaunch s l.id (fun l => { l with forwarded := true })) 0 l.id 0
    (leBytes l.image 2 ++ leBytes l.kidx 2 ++ leBytes l.groups 4 ++ leBytes l.prio 1 ++ leBytes l.arg0 8 ++ leBytes l.arg1 8)

/-- YARD_BATCH_DISPATCH, if the Yard has something that it can hand out. -/
def yardStep (s : State) : Option State :=
  match toForward s with
  | some l => some (forwardLaunch s l)
  | none =>
    let src := yardNext s
    let r : Option State := match src with
      | .nothing => none
      | .back es => match es with
        | [] => none
        | e :: _ =>
          let lv := gangLevel s e
          let all := fun (_ : Nat) => es
          if lv < 2 then yardPlain s src e.prio (fun n => es.take n)
          else if lv = 2 then yardGang s src e.prio 4 es.length all
          else if lv = 3 then yardGang s src e.prio 16 es.length all
          else yardPackage s src e.prio es
      | .launch l =>
        let lv := (kernelOf s l.image l.kidx).level
        let take := fun n => batchOf s l (min n (localGroups s l - l.handed))
        if lv < 2 then yardPlain s src l.prio take
        else if lv = 2 then yardGang s src l.prio 4 4 take
        else if lv = 3 then yardGang s src l.prio 16 16 take
        else yardPackage s src l.prio (take 64)
    r.map tellPreempt

/-! Staging (R67, R69, R71). -/

/-- The qualifying column of least load, in rotation among ties (R67). -/
def pickColumn (s : State) (die : Nat) (ok : Nat → Bool) : Option Nat :=
  let cols := (upFrom ((boxAt s die).rot + 1) 4).map (fun c => c % 4)
  let good := cols.filter (fun c => ok c && decide (colOcc s die c < colThr s die c))
  let least := good.foldl (fun m c => min m (colOcc s die c)) 1000
  good.find? (fun c => colOcc s die c == least)

/-- The core of a column with the fewest occupied slots, the lowest among ties. -/
def pickCore (s : State) (die col : Nat) : Option Nat :=
  let l := roomCores s (colCores die col)
  let least := l.foldl (fun m c => min m (occ (coreAt s c))) 1000
  l.find? (fun c => occ (coreAt s c) == least)

/-- Groups leave a box. -/
def leaveBox (s : State) (die : Nat) (es : List Staged) : State :=
  setBox s die (fun b => { b with recv := b.recv.filter (fun x => !es.contains x) })

/-- GROUP_STAGING of a die's box, if it can stage something. The columns' thresholds bind what R67 places by column: a die gang takes
its sixteen cores by their free slots alone (log entry 73). A column or die gang at the top of the box that can neither be placed nor
force its cores holds back the groups below it: this step then stages nothing, a DESIGN CHOICE (log entry 90). -/
def stageStep (s : State) (die : Nat) : Option State :=
  match topStaged (boxAt s die).recv with
  | none => none
  | some e =>
    let es := (boxAt s die).recv.filter (fun x => x == e || sameStaged s x e)
    let s1 := leaveBox s die es
    let lv := gangLevel s e
    let r : Option State :=
      if lv < 2 then
        match pickColumn s die (fun c => !(roomCores s (colCores die c)).isEmpty) with
        | some c => (match pickCore s die c with
          | some co => some (setBox (stageOn (leaveBox s die [e]) co e false) die (fun b => { b with rot := c }))
          | none => none)
        | none => (match victimFor s die e.prio with
          | some co => some (preemptFor s co [e] (fun s => leaveBox s die [e]))
          | none => none)
      else if lv = 2 then
        match pickColumn s die (fun c => gangRoom s (16 * die + 4 * c) 4 es) with
        | some c => some (setBox (placeGang s1 (16 * die + 4 * c) 4 es) die (fun b => { b with rot := c }))
        | none => (match bestBase s 4 ((upFrom 0 4).map (fun c => 16 * die + 4 * c)) with
          | some b => gangForce s1 b 4 e.prio es
          | none => none)
      else if gangRoom s (16 * die) 16 es then some (placeGang s1 (16 * die) 16 es)
      else gangForce s1 (16 * die) 16 e.prio es
    r.map tellPreempt

/-- DISPATCH_THRESHOLD_ADAPT (R68): `col` is die × 4 + column; `n` groups ended, of mean run length `mean` us. -/
def thrAdapt (s : State) (col n mean : Nat) : State :=
  let t := colThr s (col / 4) (col % 4)
  let t' := if n = 0 then t else if mean < 4 then min (t + 1) 16 else if 16 < mean then max (t - 1) 4 else t
  if col < 16 then setBox s (col / 4) (fun b => { b with thr := tset 8 b.thr (col % 4) t' }) else s

/-! Starting (R45, R55, R113, R130, R147). -/

/-- DOM of a thread (R48). -/
def domWord (s : State) (k : Kernel) (index thr : Nat) : Word :=
  let p := (index % gangSize s k.level) % 64
  let at_ := fun (lv v : Nat) => if lv ≤ k.level then v else 0
  BitVec.ofNat 64 (thr + (k.threads - 1) * 4 + at_ 2 (p % 4) * 2 ^ 4 + at_ 3 (p / 4 % 4) * 2 ^ 6 + at_ 4 (p / 16 % 4) * 2 ^ 8 +
    at_ 5 (ownRank s) * 2 ^ 10 + k.level * 2 ^ 20 + index % 2 ^ 24 * 2 ^ 24)

/-- The rings of a kernel laid out from scratch address 0 (R113). -/
def layRings : Nat → Nat → List (Nat × Nat) → Tab Ring
  | _, _, [] => []
  | q, b, (bytes, slots) :: r => (q, { Ring.none with base := b, bytes := bytes, slots := slots }) :: layRings (q + 1) (b + bytes * slots) r

/-- A thread as its group starts (R8, R45). -/
def freshThread (s : State) (l : Launch) (k : Kernel) (index thr : Nat) : Thread :=
  let regs : Tab Word := [(1, BitVec.ofNat 64 l.arg0), (2, BitVec.ofNat 64 l.arg1), (3, BitVec.ofNat 64 l.groups)]
  openWindow { Thread.init with
    pc := BitVec.ofNat 64 k.seg.entry, s := regs.foldl (fun t x => tset 0 t x.1 x.2) [],
    dom := domWord s k index thr, seg := k.seg }

/-- A group as it starts (R45). -/
def freshGroup (s : State) (l : Launch) (e : Staged) : Group :=
  let k := kernelOf s l.image l.kidx
  let rb := k.rings.foldl (fun n r => n + r.1 * r.2) 0
  { Group.init with
    launch := l.id, image := l.image, kidx := l.kidx, index := e.index, prio := e.prio, waited := e.waited, mbox := l.mbox, kern := k,
    ths := (upFrom 0 k.threads).map (fun i => (i, freshThread s l k e.index i)), rings := layRings 0 0 k.rings,
    pinned := upFrom 0 ((rb + 255) / 256), planeDom := gangFirst s e }

/-- The plane regions that a fresh group or gang brings: its domains, on a die (R130); on a device that does not hold the
set's rank 0 its copy counts against no die. -/
def newPlanes (s : State) (l : Launch) (e : Staged) (die : Nat) : List PlaneReg :=
  let k := kernelOf s l.image l.kidx
  let doms := if k.level = 0 then (upFrom (4 * e.index) k.threads) else [4 * gangFirst s e]
  let d := if k.level = 5 && s.regs.inset && s.regs.rank != 0 then 4 else die
  doms.flatMap (fun dm => (k.planes.zip (upFrom 0 k.planes.length)).map (fun x =>
    { size := x.1.1, rule := x.1.2, launch := l.id, dom := dm, idx := x.2, die := d, present := [], contrib := [] }))

/-- Regions fit a die beside those it holds (R130). -/
def planesFit (s : State) (new : List PlaneReg) : Bool :=
  new.all (fun p => p.die == 4 ||
    (let all := (s.planes ++ new).filter (fun q => q.die == p.die)
     decide (all.length ≤ 16) && decide (all.foldl (fun n q => n + q.size) 0 ≤ 2 ^ 24)))

/-- The group at the head of a core's platform. -/
def headOf (s : State) (co : Nat) : Option Staged := (coreAt s co).plat.head?

/-- Every member of a gang that waits at the head of a free core's platform: core and entry. -/
def gangHeads (s : State) (e : Staged) : List (Nat × Staged) :=
  (upFrom 0 64).filterMap (fun c => match headOf s c with
    | some f => if sameStaged s e f && (groupAt s c).isNone && liveCore s c then some (c, f) else none
    | none => none)

/-- How many members of a gang are to start here: all of a new one, of one that comes back those that are saved. -/
def gangCount (s : State) (e : Staged) : Nat :=
  if e.saved then (gangSaved s e.launch (gangFirst s e)).length else min 64 (gangSize s (gangLevel s e))

/-- The members stand on cores of their gang's shape (R54, R249): one column, one die, or the package, with those that run already. -/
def gangShape (s : State) (co : Nat) (hs : List (Nat × Staged)) : Bool :=
  let same := fun (e : Staged) (c : Nat) => c / min 64 (gangSize s (gangLevel s e)) == co / min 64 (gangSize s (gangLevel s e))
  hs.all (fun x => same x.2 x.1 && (gangRuns s x.2.launch (gangFirst s x.2)).all (fun y => same x.2 y.1))

/-- Members of the gang are still being saved: it comes back as a whole (R56). -/
def gangSaving (s : State) (e : Staged) : Bool := (gangRuns s e.launch (gangFirst s e)).any (fun x => x.2.saving)

/-- What would start on a core: cores and entries, empty if nothing can (R55). -/
def startSet? (s : State) (co : Nat) : List (Nat × Staged) :=
  match headOf s co with
  | none => []
  | some e =>
    if (groupAt s co).isSome || !liveCore s co then []
    else if !e.gang then [(co, e)]
    else
      let hs := gangHeads s e
      let told := match launchOf s e.launch with
        | some l => !spansLaunch s l || l.ready2.contains (gangFirst s e)
        | none => false
      if hs.length == gangCount s e && gangShape s co hs && !gangSaving s e && told then hs else []

/-- The plane regions that a start needs: none for groups that come back. -/
def startPlanes (s : State) (es : List (Nat × Staged)) : List PlaneReg :=
  match es with
  | (_, e) :: _ => if e.saved then [] else (match launchOf s e.launch with
      | some l => newPlanes s l e ((es.foldl (fun m x => if gangPlace s x.2 < m.2 then (x.1, gangPlace s x.2) else m) (0, 64)).1 / 16)
      | none => [])
  | [] => []

/-- The saved group of a waiting entry. -/
def savedOf (s : State) (e : Staged) : Option Saved :=
  s.saved.find? (fun x => x.grp.launch == e.launch && x.grp.index == e.index)

/-- The head of a core's platform leaves it. -/
def popPlat (s : State) (co : Nat) : State := setCore s co { coreAt s co with plat := (coreAt s co).plat.drop 1 }

/-- One group started on its core; a group that comes back is restored (R250), which may fail. -/
def startOne (s : State) (co : Nat) (e : Staged) : State :=
  match launchOf s e.launch with
  | none => popPlat s co
  | some l =>
    if !e.saved then seatGroup (popPlat s co) co (freshGroup s l e)
    else match savedOf s e with
      | none => popPlat s co
      | some x => match reviveGroup s x.grp x.adds with
        | .ok g => seatGroup { popPlat s co with saved := s.saved.filter (fun y => y != x) } co { g with prio := e.prio, waited := e.waited }
        | .bad c a => restoreFailed (popPlat s co) x.grp co c a
        | .mig => restoreFailed (popPlat s co) x.grp co .walkFault (migVa s x.grp)
        | .ask _ => s

/-- What returning groups wait for before they can start: data of other devices, and walks to be made again (R129). -/
def startWaits (s : State) (es : List (Nat × Staged)) : List (Nat × Nat) × List Saved :=
  (es.filterMap (fun x => if x.2.saved then savedOf s x.2 else none)).foldl (fun r y => match reviveGroup s y.grp y.adds with
    | .ask l => (r.1 ++ l, r.2)
    | .mig => if 64 ≤ y.tries then r else (r.1, y :: r.2)
    | _ => r) ([], [])

/-- The package reads for the restores of a launch under the launch's name. -/
def startReader (s : State) (es : List (Nat × Staged)) : State :=
  match es with
  | (_, e) :: _ => asReader s [5, e.launch]
  | [] => s

/-- GROUP_START can happen on a core: its head fits, and has data of other devices at hand or still to ask for. -/
def startReady (s : State) (co : Nat) : Bool :=
  let es := startSet? s co
  let s := startReader s es
  let far := (startWaits s es).1
  !es.isEmpty && planesFit s (startPlanes s es) && (far.isEmpty || far.any (fun y => !asking s y.1 y.2))

/-- Groups start together. The members of a gang start in the same cycle: they share one dispatch number. A group is dispatched when it
starts on its core (R69 does not say which of its moments counts, log entry 74). -/
def startTogether (s : State) (es : List (Nat × Staged)) (new : List PlaneReg) : State :=
  let s1 := es.foldl (fun s x => startOne s x.1 x.2) { s with planes := s.planes ++ new }
  let disp := s.bseq
  let s2 := { s1 with cores := s1.cores.map (fun c => (c.1, { c.2 with grp := c.2.grp.map (fun g =>
      if disp ≤ g.disp then { g with disp := disp } else g) })) }
  -- the arrivals of members that come back stand again, and may complete their point (R53, R250 step 7)
  if es.any (fun x => x.2.saved) then syncAll s2 else s2

/-- GROUP_START (R55): the group at the head of a core's platform, or its whole gang. -/
def groupStart (s : State) (co : Nat) : State :=
  let es := startSet? s co
  let new := startPlanes s es
  if es.isEmpty || !planesFit s new then s
  else
    let s := startReader s es
    match startWaits s es with
    | ([], []) => match es with
      | (_, e) :: _ => readDone (startTogether s es new) [5, e.launch]
      | [] => s
    | ([], again) =>
      { spent s with saved := s.saved.map (fun y => if again.contains y then { y with tries := y.tries + 1 } else y) }
    | (far, _) => far.foldl (fun s y => askSector s y.1 y.2 0) s

/-! Ending (R46, R72). -/

/-- Every group of a compute launch has ended, on every member of a set that is to report, and no fault of it awaits the
stationmaster, whose kill would come first (R72, R226, R256). -/
def endDue (s : State) (l : Launch) : Bool :=
  !l.ballast && !l.killed && decide (localGroups s l ≤ l.ended) && !s.reports.any (fun r => r.launch == l.id) &&
  (!launcher l || !spansLaunch s l || (setMembers s).all (fun r => r == ownRank s || l.reports.contains (6, 0, r)))

/-- A launch whose groups have all ended completes (R72, R256). -/
def launchEnd (s : State) (id : Nat) : State :=
  match launchOf s id with
  | none => s
  | some l =>
    if !endDue s l then s
    else if !launcher l then dropLaunch (tellLauncher s l 6 0) id
    else doneAdd s l l.doneInc fun s1 =>
      let s2 := if l.evt then postEvent s1 (plainEvent 1 l.mbox l.image l.kidx) else s1
      let s3 := dropLaunch s2 id
      { s3 with colls := s3.colls.filter (fun c => c.launch != id) }

/-- A completion that has had to wait can go on (R72). -/
def endGoes (s : State) (l : Launch) : Bool := endDue s l && addGoes s l

/-- GROUP_END can happen on a core (R46). -/
def endReady (c : Core) : Bool :=
  match c.grp with
  | some g => allThreads g (fun t => t.run == .exited) && g.qu.isEmpty && g.ch.isEmpty && g.mx.isEmpty && g.tld.isEmpty &&
      fifoMoves c.fifo
  | none => false

/-- A group of a launch has left its core for good: it counts as ended, or, of a launch that is being killed, its kill may be
complete (R72, R229). -/
def groupOver (s : State) (id : Nat) : State :=
  match launchOf s id with
  | some l => if l.killed then killDone s id else launchEnd (setLaunch s id (fun l => { l with ended := l.ended + 1 })) id
  | none => s

/-- The last group of a set gang's part here has ended: the launching device need not wait for it to be placed again (R256). -/
def partOver (s : State) (g : Group) : State :=
  match launchOf s g.launch with
  | some l =>
    if spansLaunch s l && !l.killed && (gangRuns s g.launch g.planeDom).isEmpty && (gangSaved s g.launch g.planeDom).isEmpty then
      tellLauncher s l 5 g.planeDom
    else s
  | none => s

/-- GROUP_END (R46, R147): the FIFO drains; when nothing of it is left the core is released and the group counted. -/
def groupEnd (s : State) (co : Nat) : State :=
  if !endReady (coreAt s co) then s
  else
    let s1 := onCore s co drainAll
    match (coreAt s1 co).fifo, groupAt s1 co with
    | [], some g => groupOver (partOver (releaseCore s1 co) g) g.launch
    | _, _ => s1

/-! Messages of set launches (R256). -/

/-- A launch that another device forwards. -/
def takeForward (s : State) (src key : Nat) (d : List Byte) : State :=
  let image := leNat (d.take 2)
  let l : Launch :=
    { noLaunch with id := s.nextId, mbox := 255, image := image, kidx := leNat ((d.drop 2).take 2), groups := leNat ((d.drop 4).take 4),
                    prio := leNat ((d.drop 8).take 1), arg0 := leNat ((d.drop 9).take 8), arg1 := leNat ((d.drop 17).take 8),
                    ready := true, readySeq := s.nextId, forwarded := true, remote := some (src, key / 1024) }
  { s with launches := s.launches ++ [l], nextId := s.nextId + 1 }

/-- SET_LAUNCH_CONTROL_FLIT: operations 0 to 7 and 9 to 11 of set launches, 8 a fence, 12 and 13 a window of the sender lowered and
raised, 14 a counter to be watched and 15 that it has reached its target, 16 and 17 a sector of the sender poisoned and whole again
(log entry 40). -/
def setFlit (s : State) (f : Flit) : State :=
  let op := leNat (f.data.take 1)
  let key := leNat ((f.data.drop 1).take 8)
  let dom := leNat ((f.data.drop 9).take 4)
  let rest := f.data.drop 13
  let s1 := if op = 0 then takeForward s f.src key rest
    else if op = 8 then fenceRank s dom
    else if op = 12 then { s with farLow := s.farLow ++ [(f.src, key, leNat (rest.take 8))] }
    else if op = 13 then { s with farLow := s.farLow.filter (fun w => w != (f.src, key, leNat (rest.take 8))) }
    else if op = 14 then takeWatch s f.src key dom rest
    else if op = 16 then { s with farPoison := (f.src, key) :: s.farPoison.filter (fun x => x != (f.src, key)) }
    else if op = 17 then { s with farPoison := s.farPoison.filter (fun x => x != (f.src, key)) }
    else match ofKey s key with
      | none => s
      | some id => match op with
        | 1 => startSet (noteReport s id 1 dom f.src) id dom
        | 2 => setLaunch s id (fun l => { l with ready2 := dom :: l.ready2.filter (fun d => d != dom),
                                                  reports := l.reports.filter (fun x => x != (1, dom, ownRank s)) })
        | 3 => sendSetAll (preemptPart s id dom) 4 id dom []
        | 4 => preemptPart s id dom
        | 5 => startSet (noteReport s id 5 dom f.src) id dom
        | 6 => launchEnd (noteReport s id 6 0 f.src) id
        | 7 => killQuiet s id
        | 9 => farContrib s f
        | 10 => syncAll { s with farArr := s.farArr ++ [{ launch := id, dom := dom, rank := leNat (rest.take 4), isStep := leNat ((rest.drop 4).take 1) == 1 }] }
        | 15 => depMet s id
        | 11 => freePlanes <| syncAll { s with gone := s.gone ++ [{ launch := id, dom := dom, rank := leNat (rest.take 4), isStep := false }] }
        | _ => s
  s1

end Sys2Proof.Machine
end

