-- ==== Sys2Proof/Machine/Fitter.lean ====
section
/-!
DEFINITION. Rilgan containers and the Fitter (R200 to R222, R293 to R300): the install checks in the order of R207, the
private encoding of tensors, the jobs. Everything here is bare.
-/
namespace Sys2Proof.Machine
open Sys2Proof

/-! Bytes in a space. -/

/-- What the Fitter finds for some bytes of a space: what it wants, sectors of other devices to be read first, or an entry that migrates. -/
inductive Got (α : Type) where
  | got (x : α) | ask (l : List (Nat × Nat)) | mig

/-- The byte at a VA of a space, as the Fitter reads it: zero where nothing is mapped, and in a sector of a fenced device or that came
as poisoned. -/
def vaByte (s : State) (root va : Nat) : Got Byte :=
  match walk s root true va with
  | .page pa level _ dev =>
    let a := pa + va % pageBytes level
    if !isRemote s dev then .got (memRead s a)
    else if isFenced s dev then .got 0
    else match remoteData s dev (a / 64) with
      | some bs => .got (nth 0 bs (a % 64))
      | none => .ask [(dev, a / 64)]
  | .wait dev sec => .ask [(dev, sec)]
  | .mig => .mig
  | .bad _ => .got 0

/-- The checks of the sectors that `n` bytes of a space lie in, and of the tables that its walks read, tested (R420). -/
def testVa (s : State) (root va n : Nat) : State :=
  if s.checks.isEmpty || n == 0 then s
  else (upFrom (va / 64) ((va + n - 1) / 64 + 1 - va / 64)).foldl (fun s sec =>
    let s := testWalk s root (64 * sec)
    match walk s root true (64 * sec) with
    | .page pa level _ dev => if isRemote s dev then s else testSec s ((pa + 64 * sec % pageBytes level) / 64)
    | _ => s) s

/-- Several findings together: all of them, or everything that is still to be read. -/
def allGot {α : Type} (l : List (Got α)) : Got (List α) :=
  l.foldr (fun x r => match x, r with
    | .got b, .got bs => .got (b :: bs)
    | .ask a, .ask b => .ask (a ++ b)
    | .ask a, _ => .ask a
    | _, .ask b => .ask b
    | .mig, _ => .mig
    | _, .mig => .mig) (.got [])

/-- `n` bytes of a space. -/
def vaBytes (s : State) (root va n : Nat) : Got (List Byte) := allGot ((upFrom va n).map (vaByte s root))

/-- Where the sector at a VA of a space may be written: the device and the sector, or nowhere. -/
def vaPlace (s : State) (root sec : Nat) : Got (Option (Nat × Nat)) :=
  match walk s root true (64 * sec) with
  | .page pa level leaf dev => .got (if leaf.testBit 3 then some (dev, (pa + 64 * sec % pageBytes level) / 64) else none)
  | .wait dev sec => .ask [(dev, sec)]
  | .mig => .mig
  | .bad _ => .got none

/-- The places of the sectors that bytes at a VA take. -/
def vaPlaces (s : State) (root va : Nat) (bs : List Byte) : Got (List (Option (Nat × Nat))) :=
  allGot ((sectorWrites va bs).map (fun w => vaPlace s root w.1))

/-- Bytes written in a space, at the places of their sectors. -/
def vaStore (s : State) (va : Nat) (bs : List Byte) (places : List (Option (Nat × Nat))) : State :=
  ((sectorWrites va bs).zip places).foldl (fun s w => match w.2 with
    | some (dev, sec) => writeBack s dev sec w.1.2.1 w.1.2.2 0
    | none => s) s

/-- A part of a byte string. -/
def cut (bs : List Byte) (o n : Nat) : List Byte := (bs.drop o).take n

/-- All `n` bytes at an offset are zero. -/
def zeroBytes (bs : List Byte) (o n : Nat) : Bool := (cut bs o n).all (fun b => b == 0)

/-! The container (R200 to R202). -/

/-- A section: TYPE, OFFSET, SIZE. -/
structure Sect where
  ty : Nat
  off : Nat
  size : Nat
deriving DecidableEq, Repr

/-- LENGTH and NSECT. -/
def contLen (bs : List Byte) : Nat := numAt bs 8 8
def contNum (bs : List Byte) : Nat := numAt bs 0x10 4

/-- The entry of the section table at index `i`. -/
def sectAt (bs : List Byte) (i : Nat) : Sect :=
  { ty := numAt bs (0x80 + 24 * i) 2, off := numAt bs (0x88 + 24 * i) 8, size := numAt bs (0x90 + 24 * i) 8 }

/-- The sections. -/
def sects (bs : List Byte) : List Sect := (upFrom 0 (contNum bs)).map (sectAt bs)

/-- The section of a type: where it lies and its bytes, empty when there is none. -/
def sectOf (bs : List Byte) (ty : Nat) : List Byte :=
  match (sects bs).find? (fun x => x.ty == ty) with
  | some x => cut bs x.off x.size
  | none => []

/-- Two ranges have a byte in common. -/
def meet (a n b m : Nat) : Bool := decide (a < b + m) && decide (b < a + n) && n != 0 && m != 0

/-- The first index at which a check fails. -/
def firstIx {α : Type} (f : Nat → α → Bool) (l : List α) : Option Nat :=
  ((upFrom 0 l.length).zip l).findSome? (fun x => if f x.1 x.2 then some x.1 else none)

/-- A failed check: STATUS and DETAIL. -/
abbrev Refused := Option (Nat × Nat)

/-- STATUS with DETAIL the index of the first element that fails. -/
def refuseAt {α : Type} (st : Nat) (f : Nat → α → Bool) (l : List α) : Refused := (firstIx f l).map (fun i => (st, i))

/-- STATUS when a condition holds. -/
def refuseIf (st : Nat) (c : Bool) : Refused := if c then some (st, 0) else none

/-- Check 1 of R207. -/
def headBad (bs : List Byte) : Bool :=
  numAt bs 0 4 != 0x4E474C52 || numAt bs 4 2 != 1 || !zeroBytes bs 6 2 || !zeroBytes bs 0x14 12

/-- Check 2 of R207; `n` bytes of input are there. -/
def tableBad (bs : List Byte) (n : Nat) : Refused :=
  let len := contLen bs
  let k := contNum bs
  if decide (len < 0x80) || decide (2 ^ 36 < len) || decide (n < len) || k == 0 || decide (256 < k) ||
     decide (len < 0x80 + 24 * k) then some (2, 0)
  else
    let ss := sects bs
    refuseAt 2 (fun i x =>
      !zeroBytes bs (0x82 + 24 * i) 6 || x.off % 64 != 0 || decide (len < x.off + x.size) || meet x.off x.size 0x80 (24 * k) ||
      (ss.take i).any (fun y => y.ty == x.ty || meet x.off x.size y.off y.size)) ss

/-- D (R200). -/
def contDigest (bs : List Byte) : List Byte := sha512 (cut bs 0x80 (contLen bs - 0x80))

/-- The key is one of the device's trusted container signers (R391, R426). -/
def trusted (s : State) (key : List Byte) : Bool := s.keys.any (fun k => k.2.kind == 2 && k.2.key == key)

/-- Check 3 of R207. -/
def signBad (s : State) (bs : List Byte) : Bool :=
  !trusted s (cut bs 0x20 32) || !edVerify (cut bs 0x20 32) (contDigest bs) (cut bs 0x40 64)

/-- Check 4 of R207 (R201). -/
def sectUnknown (x : Sect) : Bool :=
  decide (0x8000 ≤ x.ty) && !([0x8001, 0x8002, 0x8003, 0x8004, 0x8006, 0x8007].contains x.ty)

/-- The records of a notes section: TYPE and payload (R202); `n` bounds their number. -/
def noteRecs : Nat → List Byte → List (Nat × List Byte)
  | 0, _ => []
  | n + 1, bs =>
    if decide (bs.length < 4) then []
    else
      let size := numAt bs 2 2
      (numAt bs 0 2, cut bs 4 size) :: noteRecs n (bs.drop (4 + roundUp size 4))

/-- A container's note records. -/
def notesOf (bs : List Byte) : List (Nat × List Byte) := let x := sectOf bs 5
  noteRecs x.length x

/-- Check 5 of R207: bit 15 is the mandatory flag, the rest of TYPE the kind of the record. -/
def noteUnknown (x : Nat × List Byte) : Bool := decide (0x8000 ≤ x.1) && x.1 != 0x8001 && x.1 != 0x8002

/-! The manifest (R203 to R206). -/

/-- NKERN, NTENS and CONSTVA. -/
def nKern (mf : List Byte) : Nat := numAt mf 0 4
def nTens (mf : List Byte) : Nat := numAt mf 4 4
def constVa (mf : List Byte) : Nat := numAt mf 8 8

/-- A kernel entry's bytes, and a tensor entry's. -/
def kernEnt (mf : List Byte) (i : Nat) : List Byte := cut mf (32 + 64 * i) 64
def tensEnt (mf : List Byte) (i : Nat) : List Byte := cut mf (32 + 64 * nKern mf + 64 * i) 64

/-- The code section of a kernel's KIND. -/
def codeSect (bs e : List Byte) : List Byte :=
  let k := numAt e 0 2
  sectOf bs (if k = 0 then 0x8002 else if k = 1 then 0x8007 else 0x8006)

/-- A kernel's code: CODELEN bytes from ENTRY. -/
def kernCode (bs e : List Byte) : List Byte := cut (codeSect bs e) (numAt e 0x10 8) (numAt e 0x18 8)

/-- Ring records (slot bytes, slots), and plane records (bytes, rule), of a kernel entry. -/
def ringRecs (mf e : List Byte) : List (Nat × Nat) :=
  (upFrom 0 (numAt e 6 1)).map (fun i => let o := numAt e 0x20 8 + 8 * i
    (numAt mf o 4, numAt mf (o + 4) 2))
def planeRecs (mf e : List Byte) : List (Nat × Nat) :=
  (upFrom 0 (numAt e 7 1)).map (fun i => let o := numAt e 0x28 8 + 8 * i
    (numAt mf o 4, numAt mf (o + 4) 1))

/-- A kernel entry breaks R204. -/
def kernBad (bs mf e : List Byte) : Bool :=
  let kind := numAt e 0 2
  let codeOut := decide ((codeSect bs e).length < numAt e 0x10 8 + numAt e 0x18 8)
  let nr := numAt e 6 1
  let np := numAt e 7 1
  let ro := numAt e 0x20 8
  let po := numAt e 0x28 8
  if decide (2 < kind) || decide (6 < numAt e 4 1) || codeOut || !zeroBytes e 0xC 4 || !zeroBytes e 0x30 16 then true
  else if kind = 2 then !zeroBytes e 2 2 || !zeroBytes e 5 7 || !zeroBytes e 0x20 16
  else
    let fl := numAt e 3 1
    numAt e 2 1 == 0 || decide (4 < numAt e 2 1) || decide (32 ≤ fl) || decide (5 < fl / 4) || decide (8 < numAt e 5 1) ||
    decide (8 < nr) || decide (16 < np) || (nr != 0 && decide (mf.length < ro + 8 * nr)) || (np != 0 && decide (mf.length < po + 8 * np)) ||
    (upFrom 0 nr).any (fun i => !zeroBytes mf (ro + 8 * i + 6) 2) ||
    (upFrom 0 np).any (fun i => decide (3 < numAt mf (po + 8 * i + 4) 1) || !zeroBytes mf (po + 8 * i + 5) 3)

/-- DIMS of a tensor entry, the first RANK. -/
def tensDims (e : List Byte) : List Nat := (upFrom 0 (min (numAt e 8 1) 6)).map (fun i => numAt e (0x10 + 4 * i) 4)

/-- A product. -/
def prodOf (l : List Nat) : Nat := l.foldl (fun n d => n * d) 1

/-- Kdim and Ndim (R205). -/
def tensKdim (e : List Byte) : Nat := prodOf ((tensDims e).take (numAt e 9 1))
def tensNdim (e : List Byte) : Nat := prodOf ((tensDims e).drop (numAt e 9 1))

/-- Bytes of a portable type. -/
def ptypeBytes (c : Nat) : Nat := fmtBits c 0 / 8

/-- A tensor entry breaks R205. -/
def tensBad (bs mf e : List Byte) (i : Nat) : Bool :=
  let pt := numAt e 4 1
  let priv := numAt e 5 1
  let bw := numAt e 6 1
  let rank := numAt e 8 1
  !([0, 1, 2, 3, 4, 7, 8].contains pt) || decide (12 < priv) ||
  (if priv = 6 then decide (bw < 2) || decide (8 < bw) else bw != 0) || decide (1 < numAt e 7 1) ||
  rank == 0 || decide (6 < rank) || numAt e 9 1 == 0 || decide (rank < numAt e 9 1) || !zeroBytes e 0xA 6 || !zeroBytes e 0x38 8 ||
  (upFrom 0 6).any (fun j => let d := numAt e (0x10 + 4 * j) 4
    if j < rank then d == 0 || decide (2 ^ 31 < d) else d != 0) ||
  numAt e 0x30 8 != tensKdim e * tensNdim e * ptypeBytes pt ||
  decide ((sectOf bs 0x8003).length < numAt e 0x28 8 + numAt e 0x30 8) ||
  (upFrom 0 i).any (fun j => numAt (tensEnt mf j) 0 4 == numAt e 0 4)

/-- Check 6 of R207. That CONSTVA with the constants' length must not pass 2^52 is the model's choice: R207 names no check for it
(log entry 47). -/
def manifestBad (bs : List Byte) : Refused :=
  let mf := sectOf bs 0x8001
  let cs := sectOf bs 0x8004
  if decide (mf.length < 32) || decide (mf.length < 32 + 64 * (nKern mf + nTens mf)) || !zeroBytes mf 16 16 ||
     (!cs.isEmpty && decide (2 ^ 52 < constVa mf + cs.length)) then some (6, 0)
  else refuseAt 6 (fun _ i => kernBad bs mf (kernEnt mf i)) (upFrom 0 (nKern mf)) <|>
    refuseAt 6 (fun _ i => tensBad bs mf (tensEnt mf i) i) (upFrom 0 (nTens mf))

/-- A private encoding is lossless for a portable type (R206). -/
def lossless (pt priv : Nat) : Bool :=
  if pt = 3 || pt = 4 then priv == pt || priv == 1 || priv == 2
  else if pt = 0 then false
  else priv == pt

/-- A private encoding is lossy for a portable type, and allowed (R206). -/
def lossyOk (pt priv : Nat) : Bool :=
  if pt = 0 then [1, 2, 3, 4, 5, 6].contains priv
  else if pt = 1 then [2, 3, 4, 5, 6].contains priv
  else if pt = 2 then [1, 3, 4, 5, 6].contains priv
  else if pt = 3 then [4, 5, 6].contains priv
  else if pt = 4 then [3, 5, 6].contains priv
  else false

/-- Check 8 of R207. -/
def privBad (e : List Byte) : Bool :=
  let pt := numAt e 4 1
  let priv := numAt e 5 1
  !(lossless pt priv || (lossyOk pt priv && !(numAt e 7 1).testBit 0))

/-! Code (R293 to R300, R398). -/

/-- An OP is assigned in the slot at mask bit `k` (R276 step 3). -/
def opAssigned (k w : Nat) : Bool :=
  let op := w >>> 5
  match k with
  | 0 => decide (op % 32 < 19)
  | 1 => decide (op % 64 < 52)
  | 2 => decide (op % 64 < 52)
  | 3 => let o := op % 128
    decide (o < 5) || (decide (8 ≤ o) && decide (o < 19)) || (decide (24 ≤ o) && decide (o < 30)) ||
    (decide (32 ≤ o) && decide (o < 37)) || (decide (40 ≤ o) && decide (o < 44)) || (decide (48 ≤ o) && decide (o < 51)) || o == 56 ||
    (decide (96 ≤ o) && decide (o < 111))
  | 4 => let o := op % 64
    decide (o < 5) || o == 8 || o == 9 || o == 16 || o == 24
  | 5 => decide (op % 64 < 9)
  | 6 => decide (op % 16 < 10)
  | _ => let o := (w >>> 6) % 64
    op % 2 == 1 || decide (o < 7) || (decide (8 ≤ o) && decide (o < 14)) || (decide (16 ≤ o) && decide (o < 25))

/-- An OP of Lamesque-B is assigned (R400). -/
def ballastOp (w : Nat) : Bool :=
  let o := (w >>> 26) % 64
  decide (o < 11) || (decide (16 ≤ o) && decide (o < 22)) || (decide (24 ≤ o) && decide (o < 31)) || (decide (32 ≤ o) && decide (o < 38)) ||
  (decide (40 ≤ o) && decide (o < 51)) || (decide (56 ≤ o) && decide (o < 59))

/-- Every slot of a bundle has an assigned OP. -/
def slotsAssigned (mask : Nat) : List Nat → List Byte → Bool
  | [], _ => true
  | k :: ks, bs =>
    if mask.testBit k then opAssigned k (leNat (bs.take (slotBytes k))) && slotsAssigned mask ks (bs.drop (slotBytes k))
    else slotsAssigned mask ks bs

/-- The starts of the bundles of native code, with an OP check; `none` if the last does not end at the end (R296). -/
def bundleStarts : Nat → Nat → List Byte → Option (List Nat)
  | 0, _, _ => none
  | n + 1, o, bs =>
    if bs.isEmpty then some []
    else
      let mask := numAt bs 0 2 % 2 ^ 15
      let len := bundleLen mask
      if decide (bs.length < len) || decide (bs.length < 4) || !slotsAssigned mask (upFrom 0 15) (bs.drop 4) then none
      else (bundleStarts n (o + len) (bs.drop len)).map (fun l => o :: l)

/-- A bitmap of bundle starts (R294). -/
def startMap (words : Nat) (starts : List Nat) : List Byte :=
  (upFrom 0 ((words + 7) / 8)).map (fun i =>
    BitVec.ofNat 8 ((upFrom 0 8).foldl (fun n j => if starts.contains (4 * (8 * i + j)) then n + 2 ^ j else n) 0))

/-- No latency field of a table is 0 (R18). -/
def latGood (w : Nat) : Bool := (upFrom 0 8).all (fun i => (w >>> (4 * i)) % 16 != 0)

/-- A native segment is refused (R296). -/
def segBad (g : List Byte) : Bool :=
  let co := numAt g 0x10 8
  let cl := numAt g 0x18 8
  let mo := numAt g 0x20 8
  let ml := (cl + 31) / 32
  let eo := numAt g 0x28 8
  let el := numAt g 0x30 8
  let part := fun (o n : Nat) => decide (o < 64) || decide (g.length < o + n)
  if decide (g.length < 64) || numAt g 0 4 != 0x4753514C || numAt g 4 2 != 1 || !zeroBytes g 6 2 || !zeroBytes g 0x38 8 ||
     co % 64 != 0 || cl % 4 != 0 || cl == 0 || decide (2 ^ 32 < cl) || mo % 8 != 0 || eo % 8 != 0 || el % 8 != 0 || decide (2 ^ 32 < el) ||
     part co cl || part mo ml || part eo el || meet co cl mo ml || meet co cl eo el || meet mo ml eo el || !latGood (numAt g 8 4) then true
  else match bundleStarts (cl + 1) 0 (cut g co cl) with
    | none => true
    | some st => !st.contains (numAt g 0xC 4) || cut g mo ml != startMap (cl / 4) st

/-- A slot of a portable bundle as read (R298): the slot letter (0 X, 1 M, 2 V, 3 T), its instruction, TENSOR and TILE. -/
structure PSlot where
  slot : Nat
  ins : Instr
  tref : Bool
  tensor : Nat
  tile : Nat
deriving DecidableEq, Repr

/-- A portable bundle as read (R297). -/
structure PBundle where
  off : Nat
  mark : Bool
  sync : Nat
  slots : List PSlot
deriving DecidableEq, Repr

/-- The native mask bit whose format a KIND names, if it is allowed in the slot. -/
def kindMask (slot kind : Nat) : Option Nat :=
  match slot, kind with
  | 0, 0 => some 0
  | 0, 1 => some 1
  | 1, 2 => some 3
  | 1, 3 => some 4
  | 2, 4 => some 7
  | 2, 5 => some 6
  | 3, 6 => some 5
  | _, _ => none

/-- An instruction that portable code may not hold (R299), or whose cluster field is not zero. -/
def notPortable (i : Instr) : Bool :=
  match i with
  | .vxc .. => true
  | .wload .. => true
  | .wswap .. => true
  | _ => privileged i

/-- One portable slot of 16 bytes: `none` if it is refused. -/
def portableSlot (slot : Nat) (b : List Byte) : Option PSlot :=
  let pre := numAt b 0 4
  match kindMask slot (pre % 16) with
  | none => none
  | some k =>
    let tref := pre.testBit 4
    let tn := numAt b 4 4
    let body := if slotBytes k = 8 then numAt b 8 8 else numAt b 8 4
    if bitsOf pre 7 5 != 0 || (!tref && (tn != 0 || pre / 256 != 0)) || (slotBytes k == 4 && !zeroBytes b 12 4) ||
       (k == 6 && !(body >>> 9).testBit 0 && bitsOf body 12 10 != 0) then none
    else match decodeSlot false k body with
      | .ok i => if notPortable i then none else some { slot := slot, ins := i, tref := tref, tensor := tn, tile := pre / 256 }
      | _ => none

/-- The slots that PRES names. -/
def portableSlots (pres : Nat) : List Nat → List Byte → Option (List PSlot)
  | [], _ => some []
  | k :: ks, b =>
    if pres.testBit k then
      match portableSlot k (b.take 16), portableSlots pres ks (b.drop 16) with
      | some x, some l => some (x :: l)
      | _, _ => none
    else portableSlots pres ks b

/-- Portable code read bundle by bundle (R297); `none` if a bundle is refused or the last does not end at the end. -/
def portableCode : Nat → Nat → List Byte → Option (List PBundle)
  | 0, _, _ => none
  | n + 1, o, bs =>
    if bs.isEmpty then some []
    else
      let w := numAt bs 0 4
      let pres := w % 16
      let len := 4 + 16 * ((upFrom 0 4).filter (fun k => pres.testBit k)).length
      if decide (bs.length < len) || bitsOf w 31 20 != 0 || (bitsOf w 6 5 == 0 && bitsOf w 19 7 != 0) then none
      else match portableSlots pres (upFrom 0 4) (bs.drop 4), portableCode n (o + len) (bs.drop len) with
        | some sl, some r => some ({ off := o, mark := w.testBit 4, sync := bitsOf w 6 5, slots := sl } :: r)
        | _, _ => none

/-- The word offset of a branch (R299). -/
def branchOff (i : Instr) : Option Int :=
  match i with
  | .br off _ => some off.toInt
  | .brp _ _ off _ => some off.toInt
  | .call _ off _ => some off.toInt
  | _ => none

/-- A WTILE's tile reference holds (R299). -/
def tileRefOk (mf : List Byte) (x : PSlot) : Bool :=
  match x.ins with
  | .wtile _ row _ =>
    x.tref && row == 0 &&
    (match ((upFrom 0 (nTens mf)).map (tensEnt mf)).find? (fun e => numAt e 0 4 == x.tensor) with
     | none => false
     | some e => match tileShape (numAt e 5 1) (numAt e 6 1) with
       | some (k, _, _) => decide (x.tile < ((tensKdim e + k - 1) / k) * ((tensNdim e + 511) / 512))
       | none => true)
  | _ => !x.tref

/-- A portable kernel is refused (R297 to R299). That one without any bundle is refused too is the model's choice (log entry 47): the
spec says nothing of empty portable code. -/
def portableBad (mf code : List Byte) : Bool :=
  match portableCode (code.length + 1) 0 code with
  | none => true
  | some l => l.isEmpty || l.any (fun b =>
      (b.sync == 2 && !b.mark) ||
      b.slots.any (fun x =>
        !tileRefOk mf x || (markOnly x.ins && !b.mark) ||
        (match branchOff x.ins with
         | some o => let t : Int := (b.off : Int) + 4 * o
           !l.any (fun c => decide ((c.off : Int) = t))
         | none => false)))

/-- A ballast kernel has a word with an unassigned OP (R398). -/
def ballastCodeBad : List Byte → Nat → Bool
  | _, 0 => false
  | bs, n + 1 => if bs.isEmpty then false else !ballastOp (numAt bs 0 4) || ballastCodeBad (bs.drop 4) n

/-- Check 7 of R207 for a kernel entry. -/
def codeBad (bs mf e : List Byte) : Bool :=
  let code := kernCode bs e
  let kind := numAt e 0 2
  if kind = 0 then portableBad mf code
  else if kind = 1 then segBad code
  else ballastCodeBad code code.length

/-! The private form (R214 to R216). -/

/-- The pattern of a tensor entry, its private image at VA `va` and PA `pa`. -/
def patternFor (e : List Byte) (va pa : Nat) : Tensor :=
  let priv := numAt e 5 1
  let bw := numAt e 6 1
  let sh := (tileShape priv bw).getD (1, 0, 0)
  { id := numAt e 0 4, ptype := numAt e 4 1, priv := priv, bw := bw, kdim := tensKdim e,
    ndim := tensNdim e, kt := (tensKdim e + sh.1 - 1) / sh.1, e := sh.2.1, sc := sh.2.2, va := va, pa := pa, off := numAt e 0x28 8,
    reenc := [] }

/-- The rows of a tensor's private image. -/
def tensRows (p : Tensor) : Nat := p.kt * ((p.ndim + 511) / 512) * (p.e + p.sc)

/-- The portable value at a linear index, from the portable weights. -/
def portVal (p : Tensor) (ws : List Byte) (i : Nat) : Fv :=
  let n := ptypeBytes p.ptype
  match elemVal p.ptype 0 (numAt ws (p.off + n * i) n) with
  | some x => x
  | none => .nan

/-- A block of 32 values along K of column `n` that begins at row `k`, encoded with its scale. -/
def encodeBlock (s : State) (p : Tensor) (ws : List Byte) (k n : Nat) : State :=
  let (t, c, k0) := coordOf p (k * p.ndim + n)
  let vals := (upFrom k 32).map (fun j => if j < p.kdim then portVal p ws (j * p.ndim + n) else .fin false 0 0)
  let (sc, codes) := if p.priv = 6 then bfpEnc 0 p.bw vals else e2m1Enc 0 vals
  let s1 := ((upFrom 0 32).zip codes).foldl (fun s y => setColBits s p t c 0 ((k0 + y.1) * tensorB p) (tensorB p) y.2) s
  setColBits s1 p t c p.e (8 * (k0 / 32)) 8 sc

/-- A tensor encoded privately into its cleared rows (R206, R214, R215). -/
def encodeTensor (s : State) (p : Tensor) (ws : List Byte) : State :=
  if p.sc = 0 then
    (upFrom 0 (p.kdim * p.ndim)).foldl (fun s i =>
      let (t, c, k) := coordOf p i
      setColBits s p t c 0 (k * tensorB p) (tensorB p) (plainCode p (portVal p ws i))) s
  else
    (upFrom 0 ((p.kdim + 31) / 32)).foldl (fun s q =>
      (upFrom 0 p.ndim).foldl (fun s n => encodeBlock s p ws (32 * q) n) s) s

/-! Device memory and pages. -/

/-- The state with the memory taken so far. -/
abbrev Taking := State × List (Nat × Nat)

/-- The bytes at a place are free: memory is behind them, nothing is stored there, no window and no image has them. -/
def freeAt (s : State) (areas : List (Nat × Nat)) (p n : Nat) : Bool :=
  rangeOk s 600 p n && s.mem.all (fun c => decide (c.1 < p) || decide (p + n ≤ c.1)) &&
  (areas ++ s.lowered ++ s.images.flatMap (fun i => i.area)).all (fun a => !meet p n a.1 a.2)

/-- Memory taken: one of the free places of 64 KiB pages; `none` when device memory is exhausted. -/
def takeMem (a : Taking) (n : Nat) : Option (Taking × Nat) :=
  let (s, areas) := a
  let m := roundUp (max n 1) 65536
  let free := ((upFrom 0 (2 ^ 32)).map (fun i => 65536 * i)).filter (fun p => freeAt s areas p m)
  match free.drop (Config.place s.freeCtr % free.length) with
  | [] => none
  | p :: _ => some ((clearRange (tick s) p m, areas ++ [(p, m)]), p)

/-- A node of the image's own at the entry at `ea` of level `level`: the one there if it is, else a copy of what the entry
maps, or an empty one. -/
def ownNode (a : Taking) (ea level : Nat) : Option (Taking × Nat) :=
  let e := memNat a.1 ea 8
  let adr := bitsOf e 47 15 * 2 ^ 15
  if e.testBit 0 && !e.testBit 1 && a.2.any (fun x => meet adr 1 x.1 x.2) then some (a, adr)
  else match takeMem a 32768 with
    | none => none
    | some ((s, ar), p) =>
      let body : List Byte :=
        if !e.testBit 0 then []
        else if e.testBit 1 then (upFrom 0 4096).flatMap (fun i => leBytes (e + i * pageBytes (level + 1)) 8)
        else memBytes s adr 32768
      some ((homeStore (homeStore s p body) ea (leBytes (p + 1) 8), ar), p)

/-- A 64 KiB page mapped in a space, readable and not writable (R214). -/
def mapPage (root : Nat) (a : Taking) (va pa : Nat) : Option Taking :=
  let e1 := root + 8 * walkIndex va 1
  let a0 : Taking := if a.1.regs.inset then (homeStore a.1 (root + 0x8000 + 2 * walkIndex va 1) (leBytes 0 2), a.2) else a
  match ownNode a0 e1 1 with
  | none => none
  | some (a1, n2) => match ownNode a1 (n2 + 8 * walkIndex va 2) 2 with
    | none => none
    | some (a2, n3) => some (homeStore a2.1 (n3 + 8 * walkIndex va 3) (leBytes (pa + 7) 8), a2.2)

/-- The pages of a range mapped. -/
def mapRange (root va pa : Nat) : Nat → Taking → Option Taking
  | 0, a => some a
  | n + 1, a => match mapPage root a va pa with
    | none => none
    | some a' => mapRange root (va + 65536) (pa + 65536) n a'

/-- A range of VA that the space does not map: one of them, `none` when there is none. -/
def takeVa (s : State) (root n : Nat) : Option (State × Nat) :=
  let pages := (n + 65535) / 65536
  let isFree := fun (v : Nat) => (upFrom v pages).all (fun x => decide (x < 2 ^ 36) && (match walk s root true (65536 * x) with
    | .bad .pageAbsent => true
    | _ => false))
  let free := (upFrom 1 (2 ^ 36 - 1)).filter isFree
  match free.drop (Config.place s.freeCtr % free.length) with
  | [] => none
  | v :: _ => some (tick s, 65536 * v)

/-! Installing. -/

/-- A container of firmware: its signer is the root key. The spec says only that a firmware image's code handle carries the system bit
(R384, the program of R412 and R413), not how an install knows one: the test is the model's (log entry 88). -/
def firmware (s : State) (bs : List Byte) : Bool := cut bs 0x20 32 == s.fuses.root

/-- A segment as its header in memory at `pa` gives it (R293). -/
def segOf (g : List Byte) (pa : Nat) (portable sys : Bool) : Seg :=
  { base := pa, code := pa + numAt g 0x10 8, len := numAt g 0x18 8,
    lat := if portable then 0xC8436431 else BitVec.ofNat 32 (numAt g 8 4), entry := numAt g 0xC 4, map := pa + numAt g 0x20 8,
    md := pa + numAt g 0x28 8, mdLen := numAt g 0x30 8, sys := sys, portable := portable }

/-- The declaration of a kernel entry (R44, R204), without its code. -/
def declOf (mf e : List Byte) : Kernel :=
  let fl := numAt e 3 1
  { Kernel.none with
    kind := numAt e 0 2, threads := numAt e 2 1, lenient := fl.testBit 0, bank := fl.testBit 1, level := fl / 4 % 8, prio := numAt e 4 1,
    fronts := numAt e 5 1, scratch := numAt e 8 4, rings := ringRecs mf e, planes := planeRecs mf e }

/-- The bundles of a segment, with their offsets; `none` if one does not decode. -/
def segBundles (g : List Byte) : Option (List (Nat × Bundle)) :=
  let code := cut g (numAt g 0x10 8) (numAt g 0x18 8)
  match bundleStarts (code.length + 1) 0 code with
  | none => none
  | some l => l.foldr (fun o r => match decodeBundle false true (code.drop o), r with
    | .ok b, some bs => some ((o, b) :: bs)
    | _, _ => none) (some [])

/-- Instructions that store or hold stores in the window they stand in (R21, R212, R213). -/
def storing : Instr → Bool
  | .st .. => true
  | .stWalk .. => true
  | .tst .. => true
  | .vst .. => true
  | .vstx .. => true
  | .vstt .. => true
  | .pfspl .. => true
  | .cpyo .. => true
  | .wcwr .. => true
  | _ => false

/-- Vector operations that each cluster performs on its own sixteen lanes, one memory slot or one move apiece (R212). -/
def laneWise : Instr → Bool
  | .vld .. => true
  | .vst .. => true
  | .vldx .. => true
  | .vstx .. => true
  | .vldt .. => true
  | .vstt .. => true
  | .vmov .. => true
  | _ => false

/-- Native bundles `run` that stand for the slot of a portable bundle: they have its operation; a lane-wise one in each of the eight
clusters, logical lane l being lane l mod 16 of cluster l div 16 (R212). A branch may be turned round, and is not looked for. -/
def slotKept (run : List Bundle) (x : PSlot) : Bool :=
  let has := fun (p : Nat → Bool) => run.any (fun b => b.slots.any (fun y => p y.1 && y.2.ctorIdx == x.ins.ctorIdx))
  (branchOff x.ins).isSome ||
  (if laneWise x.ins then (upFrom 7 8).all (fun k => has (fun j => j == k)) else has (fun _ => true))

/-- A TST or CPYO stands in a window of its own (R212): the native bundle before those of its portable bundle is a mark, and so is the
last of these. `before` and `run` are those bundles. -/
def ownWindow (before run : List Bundle) : Bool :=
  (match before.getLast? with
   | some b => b.isMark
   | none => true) &&
  (match run.getLast? with
   | some b => b.isMark
   | none => false)

/-- How many slots at mask bit 5 (MX) bundles have. -/
def mxSlots (l : List Bundle) : Nat := (l.flatMap (fun b => b.slots.filter (fun y => y.1 == 5))).length

/-- What R211, R212, R299 and R300 say of a translation that can be told from its form: a native segment that passes R296 and declares
the part's own latencies; the map takes every native bundle to a portable one; every portable mark is a native mark; every portable
operation has native ones; TST and CPYO have windows of their own; tiles come through WLOAD; where the translation adds no MX slot, its
metadata words come from the constants section. That it gives equal results is not checked (log entry 45). -/
def translationOk (bs mf : List Byte) (i : Nat) : Bool :=
  let g := Config.translated bs i
  let code := kernCode bs (kernEnt mf i)
  let portOf := fun (o : Nat) => ((Config.translatedMap bs i).find? (fun x => x.1 == o)).map (fun x => x.2)
  let cs := sectOf bs 0x8004
  let words := (upFrom 0 cs.length).map (fun o => cut cs o 8)
  !segBad g && numAt g 8 4 == 0xC8436431 &&
  (match segBundles g, portableCode (code.length + 1) 0 code with
   | some ns, some ps =>
     let run := fun (p : PBundle) => (ns.filter (fun n => portOf n.1 == some p.off)).map (fun n => n.2)
     let before := fun (p : PBundle) => (ns.takeWhile (fun n => portOf n.1 != some p.off)).map (fun n => n.2)
     ns.all (fun n => ps.any (fun p => portOf n.1 == some p.off)) &&
     ps.all (fun p => !p.mark || (run p).any (fun b => b.isMark)) &&
     ps.all (fun p => p.slots.all (slotKept (run p))) &&
     ps.all (fun p => !p.slots.any (fun x => match x.ins with
       | .tst .. => true
       | .cpyo .. => true
       | _ => false) || ownWindow (before p) (run p)) &&
     (!ps.any (fun p => p.slots.any (fun x => x.tref)) || ns.any (fun n => n.2.slots.any (fun y => match y.2 with
       | .wload .. => true
       | _ => false))) &&
     (decide ((ps.flatMap (fun p => p.slots.filter (fun x => x.slot == 3))).length < mxSlots (ns.map (fun n => n.2))) ||
       (chunk 8 (numAt g 0x30 8) (cut g (numAt g 0x28 8) (numAt g 0x30 8))).all (fun w => words.contains w))
   | _, _ => false)

/-- The windows of code in order: SYNC, FLAG and COUNT of the mark that closes each, and the operations that store in it. -/
def codeWindows : List (Nat × Bundle) → List Nat → List ((Nat × Nat × Nat) × List Nat)
  | [], _ => []
  | b :: r, st =>
    let st := st ++ (b.2.slots.filter (fun y => storing y.2)).map (fun y => y.2.ctorIdx)
    if b.2.isMark then ((b.2.sync, b.2.flag, b.2.count), st) :: codeWindows r [] else codeWindows r st

/-- What R213 says of a retimed segment that can be told from its form: it passes R296, declares the latencies asked for, and has the
old one's marks with the same stores in each window. That it gives equal results is not checked (log entry 45). -/
def retimeOk (old g : List Byte) (lat : Nat) : Bool :=
  !segBad g && numAt g 8 4 == lat &&
  (match segBundles old, segBundles g with
   | some a, some b =>
     let x := codeWindows a []
     let y := codeWindows b []
     x.map (fun w => w.1) == y.map (fun w => w.1) && (x.zip y).all (fun w => w.1.2.isPerm w.2.2)
   | _, _ => false)

/-- One kernel installed: its segment placed in memory, or its ballast code kept. A translation that does not have the form that
R211 and R212 give it is not taken (log entry 45). -/
def placeKernel (bs mf : List Byte) (i : Nat) (a : Taking) : Option (Taking × Kernel) :=
  let e := kernEnt mf i
  let k := declOf mf e
  if k.kind = 2 then some (a, { k with bcode := kernCode bs e })
  else if k.kind = 0 && !translationOk bs mf i then none
  else
    let g := if k.kind = 0 then Config.translated bs i else kernCode bs e
    match takeMem a g.length with
    | none => none
    | some ((s, ar), pa) =>
      some ((homeStore s pa g, ar),
        { k with seg := segOf g pa (k.kind == 0) (firmware a.1 bs), pmap := if k.kind = 0 then Config.translatedMap bs i else [] })

/-- The kernels in order. -/
def placeKernels (bs mf : List Byte) : List Nat → Taking → Option (Taking × List Kernel)
  | [], a => some (a, [])
  | i :: r, a => match placeKernel bs mf i a with
    | none => none
    | some (a', k) => (placeKernels bs mf r a').map (fun x => (x.1, k :: x.2))

/-- One tensor placed, encoded and mapped. -/
def placeTensor (bs mf : List Byte) (root i : Nat) (a : Taking) : Option (Taking × Tensor) :=
  let e := tensEnt mf i
  let n := 2048 * tensRows (patternFor e 0 0)
  match takeMem a n with
  | none => none
  | some ((s, ar), pa) => match takeVa s root n with
    | none => none
    | some (s', va) =>
      let p := patternFor e va pa
      (mapRange root va pa ((n + 65535) / 65536) (encodeTensor s' p (sectOf bs 0x8003), ar)).map (fun a' => (a', p))

/-- The tensors in order. -/
def placeTensors (bs mf : List Byte) (root : Nat) : List Nat → Taking → Option (Taking × List Tensor)
  | [], a => some (a, [])
  | i :: r, a => match placeTensor bs mf root i a with
    | none => none
    | some (a', p) => (placeTensors bs mf root r a').map (fun x => (x.1, p :: x.2))

/-- The image's own space: a copy of the level-1 node, and of the device table, of the space that the mailbox is bound to,
with the constants mapped read-only at CONSTVA (R201, R254). -/
def placeSpace (bs mf : List Byte) (bound : Nat) (a : Taking) : Option (Taking × Nat) :=
  let n := if a.1.regs.inset then 0xA000 else 0x8000
  let cs := sectOf bs 0x8004
  let va := constVa mf
  match takeMem a n with
  | none => none
  | some ((s, ar), root) =>
    let a1 : Taking := (homeStore s root (memBytes s bound n), ar)
    if cs.isEmpty then some (a1, root)
    else match takeMem a1 (cs.length + va % 65536) with
      | none => none
      | some ((s2, ar2), pa) =>
        let s3 := homeStore s2 (pa + va % 65536) cs
        (mapRange root (va / 65536 * 65536) pa ((cs.length + va % 65536 + 65535) / 65536) (s3, ar2)).map (fun a' => (a', root))

/-- Everything placed: the state, the image without its number. -/
def placeImage (s : State) (bs : List Byte) (bound : Nat) : Option (State × Image) :=
  let mf := sectOf bs 0x8001
  match placeSpace bs mf bound (s, []) with
  | none => none
  | some (a1, root) => match placeKernels bs mf (upFrom 0 (nKern mf)) a1 with
    | none => none
    | some (a2, ks) => match placeTensors bs mf root (upFrom 0 (nTens mf)) a2 with
      | none => none
      | some ((s3, ar), ts) => some (tick s3,
          { num := 0, root := root, sys := firmware s bs, kernels := ks, tensors := ts, cont := bs.take (contLen bs),
            hold := false, everywhere := Config.freeBit s3.freeCtr, area := ar })

/-- The lowest image number that is free. -/
def freeImage (s : State) : Option Nat := (upFrom 0 256).find? (fun n => (imageOf s n).isNone)

/-- The limits of R188 and R207 check 9 that the manifest alone decides. -/
def capacityBad (mf : List Byte) : Refused :=
  let ks := (upFrom 0 (nKern mf)).map (kernEnt mf)
  let bal := fun (e : List Byte) => if numAt e 0 2 = 2 then numAt e 0x18 8 else 0
  refuseAt 9 (fun _ e => decide (65536 < bal e)) ks <|>
  refuseIf 9 (decide (262144 < ks.foldl (fun n e => n + bal e) 0)) <|>
  refuseAt 9 (fun _ i => decide (2 ^ 24 < tensRows (patternFor (tensEnt mf i) 0 0))) (upFrom 0 (nTens mf))

/-! Jobs (R208 to R210). -/

/-- What a job answers: STATUS, DETAIL, the image assigned, its output, the blocks re-encoded. -/
structure JobRes where
  status : Nat
  detail : Nat
  image : Nat
  out : List Byte
  reenc : Nat
deriving DecidableEq, Repr

/-- A refused job. It has no output: that a refused install writes no log is the model's choice, of which R209 says nothing (log
entry 47). -/
def jobBad (x : Nat × Nat) : JobRes := { status := x.1, detail := x.2, image := 0, out := [], reenc := 0 }

/-- A job that is done. -/
def jobOk : JobRes := { status := 0, detail := 0, image := 0, out := [], reenc := 0 }

/-- The space bound to a mailbox. -/
def boundRoot (s : State) (mb : Nat) : Nat := (tget Mbox.init s.mbox mb).space

/-- A job's output does not fit OUTCAP (R208, R209). -/
def outBad (j : Job) (out : List Byte) : Bool := decide (j.outCap < 64 + out.length)

/-- The bytes are UTF-8: `n` bytes of a character are still to come, the next from `lo` to `hi`. -/
def utf8Ok : Nat → Nat → Nat → List Byte → Bool
  | n, _, _, [] => n == 0
  | 0, _, _, b :: r =>
    let x := b.toNat
    if x < 0x80 then utf8Ok 0 0 0 r
    else if 0xC2 ≤ x && x < 0xE0 then utf8Ok 1 0x80 0xBF r
    else if 0xE0 ≤ x && x < 0xF0 then utf8Ok 2 (if x = 0xE0 then 0xA0 else 0x80) (if x = 0xED then 0x9F else 0xBF) r
    else if 0xF0 ≤ x && x < 0xF5 then utf8Ok 3 (if x = 0xF0 then 0x90 else 0x80) (if x = 0xF4 then 0x8F else 0xBF) r
    else false
  | n + 1, lo, hi, b :: r => decide (lo ≤ b.toNat) && decide (b.toNat ≤ hi) && utf8Ok n 0x80 0xBF r

/-- A 16-bit number as four hexadecimal digits. -/
def hex4 (n : Nat) : List Byte :=
  [n / 4096, n / 256, n / 16, n].map (fun d => BitVec.ofNat 8 (if d % 16 < 10 then 48 + d % 16 else 55 + d % 16))

/-- A line of the install log: a letter (S a section, N a note record), the type. -/
def logLine (c ty : Nat) : List Byte := [BitVec.ofNat 8 c] ++ hex4 ty ++ [10]

/-- An install log (R201, R202, R209): free UTF-8 text, then the unknown sections and note records that were skipped, named by
their types in lines of the model's own form (log entry 75). -/
def installLog (bs : List Byte) : List Byte :=
  let txt := Config.installLog bs
  (if utf8Ok 0 0 0 txt then txt else txt.map (fun b => b &&& 0x7F)) ++
  ((sects bs).filter (fun x => decide (x.ty < 0x8000) && x.ty != 5)).flatMap (fun x => logLine 83 x.ty) ++
  ((notesOf bs).filter (fun x => decide (x.1 < 0x8000) && x.1 != 1 && x.1 != 2)).flatMap (fun x => logLine 78 x.1)

/-- INSTALL (R207) of a container's bytes: the state and the answer. -/
def installJob (s : State) (j : Job) (bs : List Byte) : State × JobRes :=
  let first := refuseIf 1 (headBad bs) <|> tableBad bs j.srcLen <|> refuseIf 3 (signBad s bs)
  match first with
  | some x => (s, jobBad x)
  | none =>
    let s1 := measExtend s 3 (contDigest bs)
    let mf := sectOf bs 0x8001
    let ks := (upFrom 0 (nKern mf)).map (kernEnt mf)
    let ts := (upFrom 0 (nTens mf)).map (tensEnt mf)
    let bad := refuseAt 4 (fun _ x => sectUnknown x) (sects bs) <|> refuseAt 5 (fun _ x => noteUnknown x) (notesOf bs) <|>
      manifestBad bs <|> refuseAt 7 (fun _ e => codeBad bs mf e) ks <|> refuseAt 8 (fun _ e => privBad e) ts <|>
      capacityBad mf
    match bad with
    | some x => (s1, jobBad x)
    | none => match placeImage s1 bs (boundRoot s j.mbox) with
      | none => (s1, jobBad (9, 0))
      | some (s2, im) => match freeImage s1 with
        | none => (s1, jobBad (10, 0))
        | some n =>
          let log := installLog bs
          if outBad j log then (s1, jobBad (12, 0))
          else ({ s2 with images := s2.images ++ [{ im with num := n }] }, { jobOk with image := n, out := log })

/-- The image a job names. -/
def jobImage (s : State) (j : Job) : Option Image := imageOf s j.timg

/-- The entries of an update block: TENSOR, FIRST, N, VOFF. -/
def updEnt (b : List Byte) (i : Nat) : Nat × Nat × Nat × Nat :=
  let o := 8 + 32 * i
  (numAt b o 4, numAt b (o + 8) 8, numAt b (o + 16) 8, numAt b (o + 24) 8)

/-- The checks of an update block (R221). -/
def updateBad (im : Image) (b : List Byte) : Refused :=
  let n := numAt b 0 4
  if decide (b.length < 8) || !zeroBytes b 4 4 || decide (b.length < 8 + 32 * n) then some (13, 0)
  else refuseAt 13 (fun _ i => !zeroBytes b (12 + 32 * i) 4) (upFrom 0 n) <|>
    (upFrom 0 n).findSome? (fun i =>
      let (t, first, cnt, vo) := updEnt b i
      match im.tensors.find? (fun p => p.id == t) with
      | none => some (14, i)
      | some p =>
        if decide (b.length < vo + cnt * ptypeBytes p.ptype) then some (13, i)
        else if decide (p.kdim * p.ndim < first + cnt) then some (14, i)
        else none)

/-- What a job that needs no more input gives: the state and the answer, or what it must read first. -/
abbrev JobGot := Got (State × JobRes)

/-- Where a word of a tensor lies now (R255, R262). One on a fenced device, or behind an entry that still migrates after 64 more walks
(`late`), stays where the Fitter put it (log entry 47). -/
def jobWord (s : State) (image : Nat) (p : Tensor) (late : Bool) (a : Nat) : Got WcWord :=
  let here : WcWord := { at_ := a, dev := ownRank s, pa := a }
  match wcPlaces s image p [a] with
  | .ok l => .got ((l.head?).getD here)
  | .ask d sec => .ask [(d, sec)]
  | .mig => if late then .got here else .mig
  | .fenced _ => .got here

/-- The words of the blocks of a tensor's elements, each where it lies now; those on other devices have been read. -/
def jobWords (s : State) (image : Nat) (p : Tensor) (late : Bool) (idx : List Nat) : Got (List WcWord) :=
  match allGot (((idx.flatMap (fun i => blockWords p i true)).foldl (fun l a => insNat a l) []).map (jobWord s image p late)) with
  | .got l =>
    let need := (l.filter (fun x => (homeData s x.dev (x.pa / 64)).isNone)).map (fun x => (x.dev, x.pa / 64))
    if need.isEmpty then .got l else .ask need
  | q => q

/-- PARTIAL_UPDATE (R221) by an update block, at the places that the tensor's pages have now (R262). A poisoned sector of a block is
written as any other, the model's choice: R219's POISON has no thread here (log entry 47). -/
def updateJob (s : State) (j : Job) (im : Image) (b : List Byte) : JobGot :=
  match updateBad im b with
  | some x => .got (s, jobBad x)
  | none =>
    let ents := (upFrom 0 (numAt b 0 4)).filterMap (fun i =>
      (im.tensors.find? (fun p => p.id == (updEnt b i).1)).map (fun p => (p, (updEnt b i).2)))
    match allGot (ents.map (fun x => jobWords s im.num x.1 (decide (64 ≤ j.tries)) (upFrom x.2.1 x.2.2.1))) with
    | .ask l => .ask l
    | .mig => .mig
    | .got ls =>
      let l := ls.flatten
      let s1 := wcTested (measExtend s 3 (sha512 b)) l
      let v := wcView s1 l
      let entry := fun (r : State × Nat) (x : Tensor × Nat × Nat × Nat) =>
        (upFrom 0 x.2.2.1).foldl (fun (r : State × Nat) q =>
          let (v', st) := tensorWrite r.1 im.num x.1 (x.2.1 + q) (portVal { x.1 with off := x.2.2.2 } b q)
          (v', if st = 3 then r.2 + 1 else r.2)) r
      let (v', n) := ents.foldl entry (v, 0)
      .got (wcPut s1 v v' l 0, { jobOk with reenc := n })

/-- A tensor's exported bytes (R222), of a view in which its words stand in the pattern's own layout: each value converted to PTYPE with saturation, also an infinity that a lossless E5M2 tensor has
in FP16 or BF16 (log entry 66). -/
def exportVals (s : State) (p : Tensor) : List Byte :=
  (upFrom 0 (p.kdim * p.ndim)).flatMap (fun i =>
    leBytes ((elemEnc p.ptype 0 0 true (tensorVal s p i)).getD 0) (ptypeBytes p.ptype))

/-- The first indices of a tensor's blocks that an export lists (R222). -/
def exportBlocks (s : State) (p : Tensor) : List Nat :=
  let differs := fun (i : Nat) => match elemVal p.ptype 0 ((elemEnc p.ptype 0 0 true (tensorVal s p i)).getD 0) with
    | some v => !sameVal v (tensorVal s p i)
    | none => true
  let diff := if lossless p.ptype p.priv then [] else (upFrom 0 (p.kdim * p.ndim)).filter differs
  diff.foldl (fun l i => insNat (blockFirst p i) l) p.reenc

/-- Bytes at an offset of a byte string replaced. -/
def patch (bs : List Byte) (o : Nat) (new : List Byte) : List Byte := bs.take o ++ new ++ bs.drop (o + new.length)

/-- A note record's bytes (R202). -/
def noteBytes (x : Nat × List Byte) : List Byte :=
  leBytes x.1 2 ++ leBytes x.2.length 2 ++ padTo (roundUp x.2.length 4) x.2

/-- The exported container (R222): the same sections with the values as they are now, and a notes section with the
re-encoding list where a block is listed (R407); signed with the identity key. `vs` are the tensors, each with its view. -/
def exportCont (im : Image) (vs : List (Tensor × State)) : List Byte :=
  let old := im.cont
  let ws := vs.foldl (fun w x => patch w x.1.off (exportVals x.2 x.1)) (sectOf old 0x8003)
  let ents := vs.flatMap (fun x => (exportBlocks x.2 x.1).map (fun b => leBytes x.1.id 4 ++ leBytes b 8))
  let lists := chunk 5400 (ents.length + 1) ents
  let notes := ((notesOf old).filter (fun x => x.1 % 2 ^ 15 != 2)).flatMap noteBytes ++
    lists.flatMap (fun l => noteBytes (0x8002, l.flatten))
  let secs : List (Nat × List Byte) :=
    ((sects old).filter (fun x => x.ty != 5)).map (fun x => (x.ty, if x.ty = 0x8003 then ws else cut old x.off x.size)) ++ [(5, notes)]
  let body := secs.foldl (fun (r : List Byte × List Byte) x =>
    let o := roundUp (0x80 + 24 * secs.length + r.2.length) 64
    let pad := o - (0x80 + 24 * secs.length + r.2.length)
    (r.1 ++ leBytes x.1 2 ++ zeros 6 ++ leBytes o 8 ++ leBytes x.2.length 8, r.2 ++ zeros pad ++ x.2)) ([], [])
  let rest := body.1 ++ body.2
  let d := sha512 rest
  leBytes 0x4E474C52 4 ++ leBytes 1 2 ++ zeros 2 ++ leBytes (0x80 + rest.length) 8 ++ leBytes secs.length 4 ++ zeros 12 ++
    idPublic ++ edSign idSeed d ++ rest

/-- EXPORT (R222): the values where the tensors' pages lie now (R262). -/
def exportOf (s : State) (j : Job) (im : Image) (_ : List Byte) : JobGot :=
  match allGot (im.tensors.map (fun p => jobWords s im.num p (decide (64 ≤ j.tries)) (upFrom 0 (p.kdim * p.ndim)))) with
  | .ask l => .ask l
  | .mig => .mig
  | .got ls =>
    let s1 := wcTested s ls.flatten
    let out := exportCont im ((im.tensors.zip ls).map (fun x => (x.1, wcView s1 x.2)))
    .got (if outBad j out then (s1, jobBad (12, 0)) else (s1, { jobOk with out := out }))

/-- RETIME (R213). -/
def retimeKernel (s : State) (j : Job) (im : Image) : State × JobRes :=
  let k := nth Kernel.none im.kernels j.tkern
  let lat := if j.aux = 0 then 0xC8436431 else j.aux
  if decide (im.kernels.length ≤ j.tkern) || k.kind == 2 then (s, jobBad (11, 0))
  else if !latGood lat then (s, jobBad (13, 0))
  else
    let old := memBytes s k.seg.base (k.seg.md + k.seg.mdLen - k.seg.base)
    let g := Config.retimed old (BitVec.ofNat 32 lat)
    if !retimeOk old g lat then (s, jobBad (9, 0)) else match takeMem (s, []) g.length with
    | none => (s, jobBad (9, 0))
    | some ((s1, ar), pa) =>
      let seg : Seg := { segOf g pa k.seg.portable k.seg.sys with lat := BitVec.ofNat 32 lat }
      let im' : Image := { im with kernels := setNth im.kernels j.tkern { k with seg := seg }, area := im.area ++ ar }
      ({ homeStore s1 pa g with images := s.images.map (fun x => if x.num == im.num then im' else x) }, jobOk)

/-- The job that does so. -/
def retimeJob (s : State) (j : Job) (im : Image) (_ : List Byte) : JobGot := .got (retimeKernel s j im)

/-- UNINSTALL (R210): its memory is cleared and free again; queued launches are discarded with code 1. -/
def uninstallJob (s : State) (_ : Job) (im : Image) (_ : List Byte) : JobGot :=
  let s1 := im.area.foldl (fun s a => clearRange s a.1 a.2) { s with images := s.images.filter (fun x => x.num != im.num) }
  let gone := s1.launches.filter (fun l => l.image == im.num)
  let s2 := gone.foldl (fun s l => if l.mbox < 64 then refuse s l.mbox 1 else s) s1
  .got ({ s2 with launches := s2.launches.filter (fun l => l.image != im.num) }, jobOk)

/-- A launch of an image has groups or a window on the device (R210 step 2). -/
def imageBusy (s : State) (n : Nat) : Bool :=
  let mine := fun (e : Staged) => match launchOf s e.launch with
    | some l => l.image == n
    | none => false
  (allGroups s).any (fun g => g.image == n) || s.returned.any mine || s.boxes.any (fun b => b.2.recv.any mine) ||
  s.cores.any (fun c => c.2.plat.any mine) || s.launches.any (fun l => l.image == n && l.ballast && l.took)

/-- A job's message as the Fitter keeps it (R208). -/
def jobOfMsg (mb : Nat) (m : BitVec 512) : Job :=
  { mbox := mb, job := msgField m 0 2, outCap := msgField m 4 4, evt := (msgField m 8 1).testBit 3, src := msgField m 0x10 8,
    srcLen := msgField m 0x18 8, done := msgField m 0x20 8, doneInc := msgField m 0x28 8, timg := msgField m 0x30 2,
    tkern := msgField m 0x32 2, aux := msgField m 0x34 4, out := msgField m 0x38 8,
    tries := 0, begun := false, phase := 0, result := none, waits := [] }

/-- The checks of a job message (R208). -/
def jobCode (s : State) (mb : Nat) (m : BitVec 512) (tries : Nat) : MsgRes :=
  let ev := msgField m 8 1
  lowCode [(4, known (ev != 8 * (ev / 8 % 2) || msgField m 9 7 != 0)), (5, counterCheck s (boundRoot s mb) true (msgField m 0x20 8) tries),
    (7, known (decide (32 ≤ mboxDepth s mb))), (10, known (msgField m 0 2 == 0 || decide (5 < msgField m 0 2))),
    (11, known (decide (msgField m 4 4 < 64)))]

/-! Messages (R57, R58, R189, R208). -/

/-- The checks of a message. -/
def msgCode (s : State) (p : PendMsg) : MsgRes :=
  if isJob p.msg then jobCode s p.mbox p.msg p.tries else launchCode s p.mbox p.station p.msg p.tries

/-- A message accepted. -/
def msgAccept (s : State) (p : PendMsg) : State :=
  if isJob p.msg then { s with jobs := s.jobs ++ [jobOfMsg p.mbox p.msg], nextId := s.nextId + 1 }
  else launchAccept s (launchOfMsg s p.mbox p.station p.msg)

/-- A message checked, and accepted or refused; one whose checks must wait stands ahead of those that have come since. -/
def takeMessage (s : State) (p : PendMsg) : State :=
  let s := asReader s [7]
  match msgCode s p with
  | .ok => readDone (msgAccept s p) [7]
  | .code c => refuse (readDone s [7]) p.mbox c
  | .wait d sec => { askSector s d sec 0 with pend := p :: s.pend }
  | .mig => { spent s with pend := { p with tries := p.tries + 1 } :: s.pend }

/-- A message arrives; while one waits, later ones wait behind it. -/
def messageIn (s : State) (p : PendMsg) : State := if s.pend.isEmpty then takeMessage s p else { s with pend := s.pend ++ [p] }

/-- The checks of the oldest waiting message can go on. -/
def pendReady (s : State) : Bool :=
  match s.pend with
  | [] => false
  | p :: _ => match msgCode (asReader s [7]) p with
    | .wait d sec => !asking (asReader s [7]) d sec
    | _ => true

/-- The oldest waiting message checked again. -/
def pendGo (s : State) : State :=
  match s.pend with
  | [] => s
  | p :: r => takeMessage { s with pend := r } p

/-- A result record (R209). -/
def resultBytes (r : JobRes) : List Byte :=
  leBytes r.status 4 ++ leBytes r.detail 4 ++ leBytes r.image 2 ++ zeros 6 ++ leBytes r.out.length 8 ++ leBytes r.reenc 8 ++ zeros 32

/-- The oldest job changed. -/
def setJob (s : State) (f : Job → Job) : State :=
  match s.jobs with
  | [] => s
  | j :: r => { s with jobs := f j :: r }

/-- A job waits: sectors of other devices are asked for, or a migrating entry will be walked again. -/
def jobAsk (s : State) (l : List (Nat × Nat)) : State := l.foldl (fun s x => askSector s x.1 x.2 0) s
def jobAgain (s : State) : State := setJob (spent s) (fun j => { j with tries := j.tries + 1 })

/-- A job comes to a phase, with no walks of it made. -/
def phaseJob (n : Nat) (j : Job) : Job := if j.phase < n then { j with phase := n, tries := 0 } else j

/-- A job whose counter has been added to leaves the list: event last (R209). -/
def jobOver (s : State) (j : Job) : State :=
  let (status, image) := j.result.getD (0, 0)
  let s1 : State := { s with jobs := s.jobs.drop 1 }
  if j.evt then postEvent s1 { plainEvent 5 j.mbox (if j.job = 1 then image else j.timg) j.tkern with ref := status } else s1

/-- Every write of the job's record and output has been performed: none is still on its way to another device. -/
def jobLanded (s : State) (j : Job) : Bool := j.waits.all (fun w => !s.wacks.contains w)

/-- The oldest job's record and output are written: its counter, then its event (R209). -/
def jobCount (s : State) : State :=
  match s.jobs with
  | [] => s
  | j :: _ =>
    if !jobLanded s j then s
    else withAdd s [6] (boundRoot s j.mbox) j.done
      (wrapNat (((if (j.result.getD (0, 0)).1 = 0 then 0 else 2 ^ 63) + j.doneInc : Nat) : Int) 64) j.tries
      (fun s => setJob s (fun j => { j with tries := j.tries + 1 })) (fun s => jobOver s j)

/-- The end of a job that has run (R209): record and output are written, then the counter, the event. `s` is the state before the run,
in which it waits where a walk still needs a table of another device or meets a migrating entry: it then runs again. -/
def jobEnd (s : State) (x : State × JobRes) (j : Job) : State :=
  let j := phaseJob 2 j
  let s := setJob s (fun _ => j)
  let (s1, r) := x
  let root := boundRoot s j.mbox
  let out := resultBytes r ++ r.out
  let places : Got (List (Option (Nat × Nat))) := match vaPlaces s1 root j.out out with
    | .mig => if 64 ≤ j.tries then .got ((sectorWrites j.out out).map (fun w => match vaPlace s1 root w.1 with
        | .got p => p
        | _ => none)) else .mig
    | p => p
  match places with
  | .ask l => jobAsk s l
  | .mig => jobAgain s
  | .got ps =>
    let waits := (ps.filterMap id).filter (fun x => isRemote s1 x.1 && !isFenced s1 x.1)
    let ended : Job := { j with tries := 0, result := some (r.status, r.image), waits := waits }
    jobCount (setJob (readDone (vaStore s1 j.out out ps) [6]) (fun _ => ended))

/-- A job that needs its input runs on it, or waits for it; an entry that still migrates after 64 more walks maps nothing (R129). -/
def withInput (s : State) (j : Job) (run : State → Job → List Byte → JobGot) (fin : State → State) : State :=
  let s := asReader s [6]
  let root := boundRoot s j.mbox
  let go := fun (bs : List Byte) =>
    let j := phaseJob 1 j
    let s := testVa (setJob s (phaseJob 1)) root j.src j.srcLen
    match run s j bs with
    | .ask l => jobAsk s l
    | .mig => jobAgain s
    | .got x => jobEnd s (fin x.1, x.2) j
  match vaBytes s root j.src j.srcLen with
  | .ask l => jobAsk s l
  | .mig =>
    if 64 ≤ j.tries && j.phase == 0 then
      go ((upFrom j.src j.srcLen).map (fun va => match vaByte s root va with
        | .got b => b
        | _ => 0))
    else jobAgain s
  | .got bs => go bs

/-- The exclusive hold of an image set or lifted (R210). -/
def setHold (s : State) (n : Nat) (b : Bool) : State :=
  { s with images := s.images.map (fun x => if x.num == n then { x with hold := b } else x) }

/-- The Fitter can go on with a job of the given number: it is the oldest, an image that it holds is idle (R210), and what it waits
for has come or is still to be asked for. -/
def jobReady (s : State) (n : Nat) : Bool :=
  match s.jobs with
  | [] => false
  | j :: _ => j.job == n && !s.readWait.any (fun x => x.2.2.2 == [6]) &&
    (if j.result.isSome then jobLanded s j
     else match jobImage s j with
      | none => true
      | some im => n == 1 || !im.hold || !imageBusy s im.num)

/-- The oldest job goes on, if it is of the given number: it starts, or its counter is added to. -/
def runJob (s : State) (n : Nat) (f : State → Job → State) : State :=
  if !jobReady s n then s
  else match s.jobs with
    | [] => s
    | j :: _ => if j.result.isSome then jobCount s else f (setJob s (fun j => { j with begun := true })) { j with begun := true }

/-- Jobs 2 to 5 (R210): step 1 holds the image; once it is idle the job runs and dispatch resumes. -/
def heldJob (input : Bool) (run : State → Job → Image → List Byte → JobGot) (s : State) (j : Job) : State :=
  match jobImage s j with
  | none => jobEnd (asReader s [6]) (asReader s [6], jobBad (11, 0)) j
  | some im =>
    if !im.hold then setHold s im.num true
    else if imageBusy s im.num then s
    else withInput s (if input then j else { j with srcLen := 0 }) (fun s j bs => run s j im bs) (fun s => setHold s im.num false)

/-- The five jobs, each when it is the oldest. -/
def runInstall (s : State) : State := runJob s 1 (fun s j => withInput s j (fun s j bs => .got (installJob s j bs)) id)
def runUpdate (s : State) : State := runJob s 2 (heldJob true updateJob)
def runExport (s : State) : State := runJob s 3 (heldJob false exportOf)
def runRetime (s : State) : State := runJob s 4 (heldJob false retimeJob)
def runUninstall (s : State) : State := runJob s 5 (heldJob false uninstallJob)

end Sys2Proof.Machine
end

