-- ==== Sys2Proof/Machine/Coupler.lean ====
section
/-!
DEFINITION. The coupler (R255 to R257, R260), enclaves (R265 to R273) and the SPDM responder (R263, R264). Everything here
is bare. The payloads of flits are the model's own layout, where the spec gives none.
-/
namespace Sys2Proof.Machine
open Sys2Proof

/-! Flits (R257). -/

/-- Inside an enclave a flit comes under a link key that this device still has (R268): the sender's, if that is a neighbour, else
that of one of the neighbours, which has passed it on. Collective flits come under participant keys, SPDM in the clear. -/
def linkOk (s : State) (f : Flit) : Bool :=
  !s.regs.encl || f.kind == 7 || f.kind == 8 ||
  s.keys.any (fun k => k.2.kind == 1 && (k.2.bind % 1024 == f.src || !Config.neighbour (ownRank s) f.src))

/-- A flit that reaches this device: it is addressed here, comes from another member of the set that is not fenced. -/
def flitOk (s : State) (f : Flit) (kind : Nat) : Bool :=
  s.regs.inset && f.dst == ownRank s && f.src != ownRank s && decide (f.src ≤ s.regs.ndev) && f.kind == kind &&
  f.len == f.data.length && decide (f.len ≤ 256) && decide (f.cls < 32) && !isFenced s f.src && !s.regs.cut && linkOk s f

/-! Compressed payloads (R116, R252, R257). -/

/-- The signed difference `x − y` of `w` bits fits `k` bits. -/
def deltaFits (w k x y : Nat) : Bool :=
  let d := (x + 2 ^ w - y % 2 ^ w) % 2 ^ w
  decide (d < 2 ^ (k - 1)) || decide (2 ^ w - 2 ^ (k - 1) ≤ d)

/-- A sector's granule under the first encoding that fits, with a marker word. -/
def compressSector (mark : BitVec 32) (bs : List Byte) : Option (List Byte) :=
  let w := fun (i : Nat) => numAt bs (4 * i) 4
  let d := fun (i : Nat) => numAt bs (8 * i) 8
  let b := w 0
  let sb := if b < 2 ^ 31 then b else b + 2 ^ 64 - 2 ^ 32
  let body : Option (List Byte) :=
    if bs.all (fun x => x == 0) then some [1]
    else if (upFrom 1 15).all (fun i => w i == b) then some ([2] ++ leBytes b 4)
    else if (upFrom 1 15).all (fun i => deltaFits 32 8 (w i) b) then
      some ([3] ++ leBytes b 4 ++ (upFrom 1 15).flatMap (fun i => leBytes ((w i + 2 ^ 32 - b) % 2 ^ 8) 1))
    else if d 0 == sb && (upFrom 1 7).all (fun i => deltaFits 64 16 (d i) sb) then
      some ([4] ++ leBytes b 4 ++ (upFrom 1 7).flatMap (fun i => leBytes ((d i + 2 ^ 64 - sb) % 2 ^ 16) 2))
    else none
  body.map (fun l => padTo 28 l ++ leBytes mark.toNat 4)

/-- The sector that a granule stands for. -/
def expandSector (g : List Byte) : List Byte :=
  let b := numAt g 1 4
  match numAt g 0 1 with
  | 1 => leBytes 0 64
  | 2 => (upFrom 0 16).flatMap (fun _ => leBytes b 4)
  | 3 => (upFrom 0 16).flatMap (fun i => leBytes (wrapNat ((b : Int) + if i = 0 then 0 else sextNat (numAt g (4 + i) 1) 8) 32) 4)
  | _ => (upFrom 0 8).flatMap (fun i => leBytes (wrapNat (sextNat b 32 + if i = 0 then 0 else sextNat (numAt g (3 + 2 * i) 2) 16) 64) 8)

/-- A sector of this device as another device reads it: one byte where no memory is behind it (R119), none when it is poisoned
(R420). -/
def serveSector (s : State) (sec : Nat) : List Byte :=
  if saddleOut s (64 * sec) || !inMap s (64 * sec) then [0] else if s.poisoned.contains sec then [] else memBytes s (64 * sec) 64

/-- READ_REQUEST_FLIT: the sector's check is tested (R420); its bytes may travel compressed. -/
def readRequest (s : State) (f : Flit) : State :=
  let sec := f.addr / 64
  let s1 := tick (testSec s sec)
  let bs := serveSector s1 sec
  match if bs.length = 64 && Config.freeBit s.freeCtr then compressSector (Config.marker (sec / 4)) bs else none with
  | some g => sendFlit s1 f.src 1 (f.cls % 16 + 16) (64 * sec) g
  | none => sendFlit s1 f.src 1 (f.cls % 16) (64 * sec) bs

/-- The list without its first element that satisfies `p`. -/
def dropFirst {α : Type} (p : α → Bool) : List α → List α
  | [] => []
  | x :: r => if p x then r else x :: dropFirst p r

/-- A sector that has come goes to the oldest request for it; a later read that still has older bytes of it takes these. A sector of
no bytes is known to be poisoned (R420). -/
def giveSector (s : State) (dev sec : Nat) (bs : List Byte) : State :=
  let hit := fun (x : Nat × Nat × Nat × List Nat) => x.1 == dev && x.2.1 == sec
  match s.readWait.find? hit with
  | none => s
  | some w =>
    let tag := w.2.2.2
    let old := (s.rdata.filter (fun x => !(x.1 == dev && x.2.1 == sec && x.2.2.1 == tag))).map
      (fun x => if x.1 == dev && x.2.1 == sec then (dev, sec, x.2.2.1, bs) else x)
    { s with readWait := dropFirst hit s.readWait,
             rdata := if tag.isEmpty then old else old ++ [(dev, sec, tag, bs)],
             farPoison := let r := s.farPoison.filter (fun x => x != (dev, sec))
               if bs.isEmpty then r ++ [(dev, sec)] else r }

/-- The answer to a WCRD: status and value go to the oldest request for that word. -/
def giveWcrd (s : State) (dev pa : Nat) (bs : List Byte) : State :=
  let hit := fun (x : Nat × Nat × Nat × List Nat) => x.1 == dev && x.2.1 == wcKey pa
  match s.readWait.find? hit with
  | none => s
  | some w => { s with readWait := dropFirst hit s.readWait,
                       rdata := if w.2.2.2.isEmpty then s.rdata else s.rdata ++ [(dev, wcKey pa, w.2.2.2, bs)] }

/-- READ_DATA_FLIT: a sector that was asked for, or the answer to an operation (requester, status, value): a thread's at its mark, a
WCRD's (0x4000), or a shunt's counter add (0x8000 + 4 × core + queue). -/
def readData (s : State) (f : Flit) : State :=
  if f.data.length = 11 then
    let who := leNat (f.data.take 2)
    let st := leNat ((f.data.drop 2).take 1)
    let r : Except FaultCode Nat :=
      if st = 0 then .ok (leNat (f.data.drop 3)) else .error (if st = 1 then .poison else .scratchUnmapped)
    if 0x8000 ≤ who then onCore s ((who - 0x8000) / 4) (fun s => shuntAdded s (who % 4))
    else if 0x4000 ≤ who then giveWcrd s f.src f.addr (f.data.drop 2)
    else onTh s (who / 4) (who % 4) (fun s =>
      let mine := match s.th.heldOp with
        | some o => o.h.dev == f.src && o.pa == f.addr
        | none => false
      if s.th.run == .heldWait && s.th.marking == 3 && mine then atomicReply s r else s)
  else giveSector s f.src (f.addr / 64) (if f.cls.testBit 4 then expandSector f.data else f.data)

/-- WRITE_FLIT: byte mask and sector; with no bytes the sector becomes poisoned (R420). The write is acknowledged. -/
def writeFlit (s : State) (f : Flit) : State :=
  let sec := f.addr / 64
  let s1 := if saddleOut s (64 * sec) || !inMap s (64 * sec) then s
    else if f.data.isEmpty then poisonSec s sec
    else homeWrite s sec (BitVec.ofNat 64 (leNat (f.data.take 8))) (BitVec.ofNat 512 (leNat (f.data.drop 8)))
  sendFlit s1 f.src 3 f.cls (64 * sec) []

/-- WRITE_ACKNOWLEDGE_FLIT: once no write of a line, or of a sector of a shunt, is outstanding, its FIFO entries and the
shunt's wait for it end (R141, R157). -/
def writeAck (s : State) (f : Flit) : State :=
  let sec := f.addr / 64
  let acks := dropFirst (fun x => x == (f.src, sec)) s.wacks
  let lineOpen := fun (d ln : Nat) => acks.any (fun x => x.1 == d && x.2 / 4 == ln)
  let fifo := fun (q : List FifoEnt) => q.filter (fun e => match e with
    | .line d ln _ ack => !(ack && d == f.src && ln == sec / 4 && !lineOpen d ln)
    | .marker .. => true)
  let qu := fun (l : List (Nat × ShuntCmd)) => l.map (fun x =>
    (x.1, { x.2 with wait := x.2.wait.filter (fun w => w != (f.src, sec) || acks.contains w) }))
  let core := fun (c : Core) => { c with fifo := fifo c.fifo, grp := c.grp.map (fun g => { g with qu := qu g.qu }) }
  shootActed { s with wacks := acks, cores := s.cores.map (fun c => (c.1, core c.2)) }

/-- The read-modify-write of a number (the model's own numbering, as rmwNum gives it). -/
def rmwIns (n : Nat) : Instr :=
  match n with
  | 0 => .aadd 0 0 0 0 0 0 0 0
  | 1 => .aand 0 0 0 0 0 0 0 0
  | 2 => .aor 0 0 0 0 0 0 0 0
  | 3 => .axor 0 0 0 0 0 0 0 0
  | 4 => .amin 0 0 0 0 0 0 0 0
  | 5 => .amax 0 0 0 0 0 0 0 0
  | 6 => .aminu 0 0 0 0 0 0 0 0
  | 7 => .amaxu 0 0 0 0 0 0 0 0
  | 8 => .axchg 0 0 0 0 0 0 0 0
  | 9 => .acas 0 0 0 0 0 0 0 0 0
  | _ => .afadd 0 0 0 0 0 0 0

/-- ATOMIC_OR_NMR_FLIT (R148, R255): operation, width, two operands, the requester where an answer is wanted. Operation 16 is a WCWR
and 17 a WCRD, with what their home needs; both are one access (R218, R219). -/
def atomicFlit (s : State) (f : Flit) : State :=
  let at_ := fun (o n : Nat) => leNat ((f.data.drop o).take n)
  let op := at_ 0 1
  let n := at_ 1 1
  let w := 8 * n
  let who := (f.data.drop 18).take 2
  let more := f.data.drop 20
  let pa := f.addr
  let answer := fun (s : State) (st v : Nat) =>
    if who.isEmpty then s else sendFlit s f.src 1 f.cls pa (who ++ leBytes st 1 ++ leBytes v 8)
  if op = 16 then
    let s := wcTested s (wcListed s (at_ 10 8) true more)
    match wcwrHome s (BitVec.ofNat 64 (at_ 2 8)) (at_ 10 8) more with
    | .ok (s', v) => answer s' 0 v
    | .error _ => answer s 1 0
  else if op = 17 then
    let s := wcTested s (wcListed s (at_ 10 8) false more)
    match wcrdHome s (at_ 10 8) more with
    | .ok v => answer s 0 v.toNat
    | .error i => answer s 1 i
  else
    let s := testSec s (pa / 64)
    if saddleOut s pa || !inMap s pa then answer s 2 0
    else if isPoisoned s pa then answer s 1 0
    else
      let old := memNat s pa n
      let new := rmw (rmwIns op) w old (at_ 2 8 % 2 ^ w) (at_ 10 8 % 2 ^ w)
      answer (noticeCounter (homeStore s pa (leBytes new n)) (pa / 8 * 8)) 0 old

/-- FLAG_ADDITION_FLIT (R171): flag, count, launch, group index; one for a group that is no more is discarded. -/
def flagFlit (s : State) (f : Flit) : State :=
  match ofKey s (leNat ((f.data.drop 2).take 8)) with
  | some id => addFlagTo s id (leNat ((f.data.drop 10).take 4)) (leNat (f.data.take 1) % 32) (leNat ((f.data.drop 1).take 1))
  | none => s

/-- A participant key of a rank at the present epoch is in some slot (R268, R391). -/
def partKey (s : State) (rank : Nat) : Bool :=
  s.keys.any (fun k => k.2.kind == 0 && k.2.bind % 1024 == rank && k.2.bind / 2 ^ 32 == s.encl.epoch)

/-- COLLECTIVE_FLIT (R172, R268): a piece of a participant's part joins its collective; one under a key that has been
dropped, or of another epoch, is discarded. -/
def collFlit (s : State) (f : Flit) : State :=
  let at_ := fun (o n : Nat) => leNat ((f.data.drop o).take n)
  match ofKey s (at_ 0 8) with
  | none => s
  | some id =>
    if s.regs.encl && !(partKey s f.src && f.ek == s.encl.epoch) then s
    else
      let level := at_ 12 1
      let n := at_ 13 8
      let words := wordsOf (f.data.drop 46)
      let p : CollPart :=
        { rank := at_ 21 4, kind := at_ 25 1, ty := at_ 26 1, blocks := at_ 27 4, root := at_ 31 4, total := at_ 35 4, src := words,
          po := (upFrom 0 words.length).map (fun i => (at_ 39 7).testBit i) }
      let s1 := collJoin s id (at_ 8 4) level n p
      match s1.colls.find? (fun c => collIs c id (at_ 8 4) level n) with
      | some c => if s1.regs.encl && collMissing c (domGroups s1 5) == 0 then sendReceipt s1 c else s1
      | none => s1

/-- FLIT_DROP. -/
def flitDrop (s : State) (f : Flit) : State := if 12 ≤ f.kind then { s with dropped := s.dropped + 1 } else s

/-! Health of links (R257, R421, R422). -/

/-- The event of a unit (R422): class, unit, and the lanes that remain of a port or an edge. -/
def healthEvent (s : State) (cls unit lanes : Nat) : State :=
  postHealth { s with regs := { s.regs with replace := true } } (unit % 4096 + cls * 2 ^ 12 + lanes * 2 ^ 16)

/-- The lanes that a port has after `k` steps down. -/
def lanesAt (k : Nat) : Nat := if k = 0 then 8 else if k = 1 then 4 else if k = 2 then 2 else 0

/-- A coupler port steps down (R421). -/
def portDown (s : State) (port : Nat) : State :=
  let k := min (tget 0 s.lanes port + 1) 3
  if tget 0 s.lanes port = 3 then s
  else healthEvent { s with lanes := tset 0 s.lanes port k } 3 port (lanesAt k)

/-- FLIT_RETRANSMIT: the flit in hand at a port fails again, or, as a free bit may have it, another one fails for the first time; the
eighth failure of one takes the port out of service (R257). -/
def flitRetransmit (s : State) (port : Nat) : State :=
  if 12 ≤ port then s
  else
    let n := (if Config.freeBit s.freeCtr then tget 0 s.linkFails port else 0) + 1
    let s := tick s
    if n < 8 then { s with linkFails := tset 0 s.linkFails port n }
    else portDown { s with linkFails := tset 0 s.linkFails port 0 } port

/-! Sets (R253, R260). -/

/-- The text "izgal ", then a word. -/
def izgal (w : List Byte) : List Byte := [0x69, 0x7A, 0x67, 0x61, 0x6C, 0x20] ++ w

/-- The participant key of a rank (R267). -/
def partKeyOf (secret : List Byte) (rank epoch : Nat) : List Byte :=
  hkdfExpand secret (izgal [0x70, 0x61, 0x72, 0x74] ++ leBytes rank 2 ++ leBytes epoch 4) 32

/-- The link key between neighbours (R267). -/
def linkKeyOf (secret : List Byte) (a b : Nat) : List Byte :=
  hkdfExpand secret (izgal [0x6C, 0x69, 0x6E, 0x6B] ++ leBytes (min a b) 2 ++ leBytes (max a b) 2) 32

/-- The lowest empty key slot. -/
def freeSlot (s : State) : Nat := ((upFrom 0 2048).find? (fun a => (tfind s.keys a).isNone)).getD 2047

/-- A key put into the lowest empty slot. -/
def putKey (s : State) (k : KeySlot) : State := { s with keys := tput s.keys (freeSlot s) k }

/-- The link keys with the neighbours, made as an enclave's set forms (R253, R267). -/
def linkKeys (s : State) : State :=
  let me := s.regs.rank
  ((upFrom 0 (s.regs.ndev + 1)).filter (fun r => r != me && Config.neighbour me r)).foldl (fun s r =>
    putKey s { kind := 1, key := linkKeyOf (Config.linkSecret (min me r) (max me r) s.freeCtr) me r, bind := r }) (tick s)

/-- Rank 0's own participant key. R267 gives it no admission session: its secret is free (log entry 20). -/
def ownKey (s : State) : State :=
  let sec := Config.spdmBytes s.freeCtr 0
  { putKey (tick s) { kind := 0, key := partKeyOf sec 0 0, bind := 0 } with encl := { s.encl with secrets := [(0, sec)] } }

/-- SET_FORMATION: `ndev` devices; SETCFG is loaded and no rank is fenced. -/
def setFormation (s : State) (rank ndev : Nat) (encl : Bool) : State :=
  if decide (ndev < 2) || decide (1024 < ndev) || decide (ndev ≤ rank) then s
  else
    let s1 : State :=
      { s with regs := { s.regs with rank := rank, ndev := ndev - 1, inset := true, encl := encl, cut := false, fences := [] },
               encl := { s.encl with members := if encl && rank == 0 then [0] else [], epoch := 0, oseq := none, coord := 0, conf := [],
                                     secrets := [], pending := none, heard := [], opens := [] } }
    if !encl then s1 else if rank = 0 then ownKey (linkKeys s1) else linkKeys s1

/-- A launch's kernel is of set level. -/
def setLevel (s : State) (l : Launch) : Bool := !l.ballast && (kernelOf s l.image l.kidx).level == 5

/-- A launch killed with a KIND 0 record of a fault; a ballast launch ends as its dispatcher ends it (R197, R198). -/
def killFor (s : State) (c : FaultCode) (l : Launch) : State :=
  let r : Report :=
    { launch := l.id, core := none, code := faultNum c, kind := 0, thr := 0, image := l.image, kernel := l.kidx, mbox := l.mbox,
      group := 0, noff := 0, poff := 2 ^ 64 - 1, addr := 0, info := 0, sys := false }
  if l.ballast then recordKill (ballastKill s l.id) { r with kind := 2 } else if l.killed then s else killLaunch s r

/-- Every set-level launch killed with a KIND 0 record (R260). -/
def killSet (s : State) : State := (s.launches.filter (setLevel s)).foldl (fun s l => killFor s .deviceFenced l) s

/-- DEVICE_CUT (R260). -/
def deviceCut (s : State) : State := if s.regs.inset then killSet (cutAll s) else s

/-! Enclaves. -/

/-- A policy record is well-formed (R265). -/
def policyOk (r : List Byte) : Bool :=
  let maxdev := numAt r 6 2
  let k := numAt r 8 1
  let n := numAt r 9 1
  let na := numAt r 0xA 2
  numAt r 0 4 == 0x4C4F5045 && numAt r 4 2 == 1 && decide (2 ≤ maxdev) && decide (maxdev ≤ 1024) && decide (1 ≤ n) && decide (n ≤ 16) &&
  decide (1 ≤ k) && decide (k ≤ n) && decide (na ≤ 256) && zeroBytes r 0xC 4 && r.length == 0x10 + 32 * n + 68 * na &&
  (upFrom 0 na).all (fun i => let o := 0x10 + 32 * n + 68 * i
    decide (numAt r o 1 ≤ 3) && zeroBytes r (o + 1) 3)

/-- ENCLAVE_POLICY (R265). -/
def enclavePolicy (s : State) (r : List Byte) : State :=
  if policyOk r then
    let d := sha512 r
    measExtend { s with encl := { s.encl with policy := r, poldig := d } } 4 d
  else s

/-- ALLOW entries: register and value. -/
def policyAllow (r : List Byte) : List (Nat × List Byte) :=
  (upFrom 0 (numAt r 0xA 2)).map (fun i => let o := 0x10 + 32 * numAt r 9 1 + 68 * i
    (numAt r o 1, cut r (o + 4) 64))

/-- The other device's measurements hold (R266): `meas` are its registers 0 to 4. -/
def admits (s : State) (meas : List (List Byte)) : Bool :=
  nth [] meas 4 == measBytes s 4 &&
  (upFrom 0 4).all (fun j =>
    let vs := (policyAllow s.encl.policy).filter (fun x => x.1 == j)
    vs.isEmpty || vs.any (fun x => x.2 == nth [] meas j))

/-- The key of a participant sent to a member: KIND 10, first byte 5, rank, epoch, key. R267 has it go over the member's session; the
model gives such a message the form of an enclave control flit (log entry 20). -/
def sendKey (s : State) (dst rank : Nat) (key : List Byte) : State :=
  if dst = s.regs.rank then s else sendFlit s dst 10 0 0 ([BitVec.ofNat 8 5] ++ leBytes rank 2 ++ leBytes s.encl.epoch 4 ++ key)

/-- The participant keys of the present epoch that this device knows how to make. -/
def knownKeys (s : State) : List (Nat × List Byte) := s.encl.secrets.map (fun x => (x.1, partKeyOf x.2 x.1 s.encl.epoch))

/-- The coordinator gives a new member every participant key, and every earlier member the new one's (R267). -/
def shareKeys (s : State) (rank : Nat) : State :=
  (knownKeys s).foldl (fun s x =>
    let s1 := sendKey s rank x.1 x.2
    if x.1 = rank then (s1.encl.members.filter (fun m => m != rank)).foldl (fun s m => sendKey s m rank x.2) s1 else s1) s

/-- ENCLAVE_ADMISSION (R266): both sessions between the coordinator and a candidate have ended, and this device, which is one of the
two, has the other's measurements. The coordinator admits the candidate and shares keys; the candidate notes its membership. -/
def enclaveAdmission (s : State) (rank : Nat) (meas : List (List Byte)) (secret : List Byte) : State :=
  if !s.regs.encl || rank == s.regs.rank || decide (s.regs.ndev < rank) || isFenced s rank || !admits s meas then s
  else if s.encl.coord = s.regs.rank then
    if s.encl.members.contains rank || decide (numAt s.encl.policy 6 2 ≤ s.encl.members.length) then s
    else
      let s1 : State := { s with encl := { s.encl with members := insNat rank s.encl.members, secrets := s.encl.secrets ++ [(rank, secret)] } }
      shareKeys (putKey s1 { kind := 0, key := partKeyOf secret rank s.encl.epoch, bind := rank + s.encl.epoch * 2 ^ 32 }) rank
  else if rank = s.encl.coord && !s.encl.members.contains s.regs.rank then
    { s with encl := { s.encl with members := insNat s.regs.rank (insNat rank s.encl.members),
                                   secrets := [(s.regs.rank, secret)] } }
  else s

/-- An order is valid for this enclave (R270). -/
def orderOk (s : State) (o : List Byte) : Bool :=
  let n := numAt o 0x4A 1
  let r := s.encl.policy
  let signed := (upFrom 0 n).filterMap (fun i =>
    let e := cut o (0x50 + 72 * i) 72
    let ix := numAt e 0 1
    if zeroBytes e 1 7 && decide (ix < numAt r 9 1) && edVerify (cut r (0x10 + 32 * ix) 32) (o.take 0x50) (e.drop 8) then some ix else none)
  numAt o 0 4 == 0x4B564552 && decide (1 ≤ n) && decide (n ≤ 16) && zeroBytes o 0x4B 5 && o.length == 0x50 + 72 * n &&
  !r.isEmpty && cut o 8 64 == s.encl.poldig &&
  (match s.encl.oseq with
   | some k => decide (k < numAt o 4 4)
   | none => true) &&
  decide (numAt r 8 1 ≤ (signed.foldl (fun l i => insNat i l) []).length)

/-- A participant key installed in the place of the rank's older one. -/
def installKey (s : State) (rank epoch : Nat) (key : List Byte) : State :=
  putKey { s with keys := s.keys.filter (fun k => !(k.2.kind == 0 && k.2.bind % 1024 == rank)) }
    { kind := 0, key := key, bind := rank + epoch * 2 ^ 32 }

/-- The keys after a revocation (R271 step 3): those of `rank` dropped; the participants' keys of the next epoch are installed as they
are known: this device's own, at the coordinator all. A coordinator that has taken over knows no secrets but its own (R267): the keys
that it makes for the others are free (log entry 20). -/
def rollKeys (s : State) (rank : Nat) : State :=
  let e := s.encl.epoch + 1
  let s1 : State :=
    { s with keys := s.keys.filter (fun k => !((k.2.kind == 0 || k.2.kind == 1) && k.2.bind % 1024 == rank)),
             encl := { s.encl with epoch := e, members := s.encl.members.filter (fun m => m != rank),
                                   secrets := s.encl.secrets.filter (fun x => x.1 != rank) } }
  let all := s1.encl.members.map (fun m => (m, match s1.encl.secrets.find? (fun x => x.1 == m) with
    | some x => x.2
    | none => Config.spdmBytes s1.freeCtr m))
  let s2 : State := if s1.encl.coord = s1.regs.rank then tick { s1 with encl := { s1.encl with secrets := all } } else s1
  (knownKeys s2).foldl (fun s x => installKey s x.1 e x.2) s2

/-- A survivor applies a cut (R271): unconfirmed collectives of the set from S upwards that include the rank end, keys roll, the rank
is fenced, meas5 is extended, the order's number noted (R270). A collective that had begun before the rank was fenced includes it; one
that begins later does not (R53, R273). `ss` holds S for each launch of the set, 0 where it has none: only the set's level reaches
another device, and its numbers begin with each launch. -/
def applyCut (s : State) (rank oseq : Nat) (ss : Tab Nat) (dig : List Byte) : State :=
  let hit := fun (c : Coll) => c.level == 5 && !c.confirmed && !c.out.contains rank && decide (tget 0 ss (setKey s c.launch) ≤ c.n)
  let s1 : State := { s with colls := s.colls.map (fun c => if hit c then { c with cut := true } else c),
                             encl := { s.encl with oseq := some oseq, opens := [] } }
  measExtend (fenceRank (rollKeys s1 rank) rank) 5 dig

/-- For each launch of the set that is here, by its name, the lowest sequence number that the coordinator has not confirmed (R271
step 1). -/
def lowestOpen (s : State) : Tab Nat :=
  (s.launches.filter (setLevel s)).map (fun l =>
    (setKey s l.id, (s.colls.filter (fun c => c.level == 5 && c.launch == l.id && !c.confirmed)).foldl (fun m c => min m c.n)
      (tget 0 s.encl.conf (setKey s l.id))))

/-- The coordinator's cut sent to every survivor: S of each launch (operation 6), then the rank, the next epoch, the order's number, its
digest; then the survivors' new keys. -/
def sendCut (s : State) (rank oseq : Nat) (ss : Tab Nat) (dig : List Byte) : State :=
  let live := (otherRanks s).filter (fun r => r != rank)
  let cut := [BitVec.ofNat 8 2] ++ leBytes rank 2 ++ leBytes (s.encl.epoch + 1) 4 ++ leBytes oseq 4 ++ dig
  let opens := ss.map (fun x => [BitVec.ofNat 8 6] ++ leBytes x.1 8 ++ leBytes x.2 8)
  let s1 := applyCut (live.foldl (fun s r => (opens ++ [cut]).foldl (fun s d => sendFlit s r 10 0 0 d) s) s) rank oseq ss dig
  (knownKeys s1).foldl (fun s x => live.foldl (fun s r => sendKey s r x.1 x.2) s) s1

/-- The survivors' highest CONFIRMs are all there: the new coordinator confirms what lies below S, of which every survivor holds the
inputs (R269), and cuts (R271). -/
def takeOver (s : State) : State :=
  match s.encl.pending with
  | none => s
  | some (rank, dig) =>
    let live := (otherRanks s).filter (fun r => r != rank)
    if !live.all (fun r => s.encl.heard.contains r) then s
    else
      let ss : Tab Nat := (s.launches.filter (setLevel s)).map (fun l => (setKey s l.id, tget 0 s.encl.conf (setKey s l.id)))
      let low := s.colls.filter (fun c => c.level == 5 && decide (c.n < tget 0 s.encl.conf (setKey s c.launch)) &&
        collMissing c (domGroups s 5) == 0)
      let s1 := low.foldl (fun s c => live.foldl (fun s r => sendFlit s r 10 0 0 ([BitVec.ofNat 8 1] ++ collName s c))
        (setColl s c (fun x => { x with confirmed := true }))) s
      sendCut { s1 with encl := { s1.encl with pending := none, heard := [] } } rank ((s.encl.oseq).getD 0) ss dig

/-- The member that becomes coordinator when the present one is revoked: the lowest survivor (R271). -/
def heirOf (s : State) : Nat := ((upFrom 0 (s.regs.ndev + 1)).find? (fun r => r != s.encl.coord && !isFenced s r)).getD 0

/-- An order applied by a survivor, at the coordinator or where a new one takes over (R271). -/
def applyOrder (s : State) (o : List Byte) : State :=
  let rank := numAt o 0x48 2
  let dig := sha512 o
  let s1 : State := { s with encl := { s.encl with oseq := some (numAt o 4 4) } }
  if rank = s.encl.coord then
    let next := heirOf s
    let s2 : State := { s1 with encl := { s1.encl with coord := next } }
    if next = s.regs.rank then
      let live := (otherRanks s2).filter (fun r => r != rank)
      takeOver (live.foldl (fun s r => sendFlit s r 10 0 0 [BitVec.ofNat 8 3])
        { s2 with encl := { s2.encl with pending := some (rank, dig), heard := [] } })
    else s2
  else if s.encl.coord = s.regs.rank then sendCut s1 rank (numAt o 4 4) (lowestOpen s) dig
  else s1

/-- The page of this device that the tables still name for a VA below a migrating entry. -/
def migPage (s : State) (va node level : Nat) : Nat → Option (Nat × Nat)
  | 0 => none
  | n + 1 =>
    let e := memNat s (node + 8 * walkIndex va level) 8
    let adr := bitsOf e 47 15 * 2 ^ 15
    let d := memNat s (node + 0x8000 + 2 * walkIndex va 1) 2
    if !e.testBit 0 || (level == 1 && s.regs.inset && d.testBit 15 && bitsOf d 9 0 != ownRank s) then none
    else if e.testBit 1 then some (adr, pageBytes level)
    else migPage s va adr (level + 1) n

/-- The pages of this device that a space maps: address and length; a page that migrates is mapped too, at the address that its
entry still names (R262). -/
def pagesOf (s : State) (root : Nat) : List (Nat × Nat) :=
  (upFrom 0 (2 ^ 36)).filterMap (fun i => match walk s root true (65536 * i) with
    | .page pa level _ dev => if isRemote s dev then none else some (pa, pageBytes level)
    | .mig => migPage s (65536 * i) root 1 3
    | _ => none)

/-- An image of the enclave: one with a kernel of set level. -/
def enclImage (i : Image) : Bool := i.kernels.any (fun k => k.level == 5)

/-- Every launch of the enclave's images killed (R272), its ballast launches too. -/
def killEnclave (s : State) : State :=
  (s.launches.filter (fun l => match imageOf s l.image with
    | some i => enclImage i
    | none => false)).foldl (fun s l => killFor s .revoked l) s

/-- A device that an order names (R272). -/
def selfRevoked (s : State) (o : List Byte) : State :=
  let s1 := killEnclave (killSet (cutAll s))
  let s2 := (s.images.filter enclImage).foldl (fun t i =>
    (pagesOf s i.root).foldl (fun t p => clearRange t p.1 p.2) t) s1
  let s3 := (upFrom 0 512).foldl (fun t p => clearRange t (spBase p 0) (2 ^ 20 * spCur s p)) s2
  measExtend (keyDrop s3 (2 ^ 64 - 1)) 5 (sha512 o)

/-- One order: discarded if it is not valid (R270), else applied. -/
def oneOrder (s : State) (o : List Byte) : State :=
  if !s.regs.encl || !s.regs.inset || s.regs.cut || !orderOk s o then s
  else if numAt o 0x48 2 = s.regs.rank then selfRevoked s o
  else applyOrder s o

/-- The orders that arrive together with the present one: those next in the agenda. -/
def nextOrders : Agenda → List (List Byte)
  | .revocationOrder o :: r => o :: nextOrders r
  | _ => []

/-- An order put among others by ascending OSEQ. -/
def insOrder (o : List Byte) : List (List Byte) → List (List Byte)
  | [] => [o]
  | p :: r => if numAt o 4 4 ≤ numAt p 4 4 then o :: p :: r else p :: insOrder o r

/-- REVOCATION_ORDER (R270 to R273): valid orders of lower number that arrive with it are applied first; its own arrival finds such an
order applied already. -/
def revocation (s : State) (o : List Byte) : State :=
  let first := (nextOrders s.agenda).filter (fun p => decide (numAt p 4 4 < numAt o 4 4))
  oneOrder ((first.foldl (fun l p => insOrder p l) []).foldl oneOrder s) o

/-- The collective that a control flit names. -/
def collNamed (s : State) (d : List Byte) : Option Coll :=
  let at_ := fun (o n : Nat) => leNat ((d.drop o).take n)
  match ofKey s (at_ 10 8) with
  | none => none
  | some id => s.colls.find? (fun c => collIs c id (at_ 18 4) (at_ 1 1) (at_ 2 8))

/-- ENCLAVE_CONTROL_FLIT: 0 a receipt, 1 CONFIRM, 2 CUT, 3 a new coordinator's question, 4 the end of its answer, 5 a participant key,
6 S of a launch ahead of a CUT, 7 one above the highest CONFIRM of a launch ahead of an answer's end. -/
def enclaveFlit (s : State) (f : Flit) : State :=
  let at_ := fun (o n : Nat) => leNat ((f.data.drop o).take n)
  match at_ 0 1 with
  | 0 => match collNamed s f.data with
    | some c => collConfirm (setColl s c (fun c => { c with receipts := insNat f.src c.receipts }))
    | none => s
  | 1 =>
    let s1 := match collNamed s f.data with
      | some c => setColl s c (fun c => { c with confirmed := true })
      | none => s
    { s1 with encl := { s1.encl with conf := tmod 0 s1.encl.conf (at_ 10 8) (fun n => max n (at_ 2 8 + 1)) } }
  | 2 => if (f.src == s.encl.coord || (at_ 1 2 == s.encl.coord && f.src == heirOf s)) && at_ 3 4 == s.encl.epoch + 1 then
      applyCut { s with encl := { s.encl with coord := f.src } } (at_ 1 2) (at_ 7 4) s.encl.opens (f.data.drop 11)
    else s
  | 3 => sendFlit (s.encl.conf.foldl (fun s x => sendFlit s f.src 10 0 0 ([BitVec.ofNat 8 7] ++ leBytes x.1 8 ++ leBytes x.2 8)) s)
      f.src 10 0 0 [BitVec.ofNat 8 4]
  | 4 => takeOver { s with encl := { s.encl with heard := insNat f.src s.encl.heard } }
  | 6 => { s with encl := { s.encl with opens := tset 0 s.encl.opens (at_ 1 8) (at_ 9 8) } }
  | 7 => { s with encl := { s.encl with conf := tmod 0 s.encl.conf (at_ 1 8) (fun n => max n (at_ 9 8)) } }
  | 5 => if f.src = s.encl.coord && at_ 3 4 == s.encl.epoch then
      installKey { s with encl := { s.encl with members := insNat (at_ 1 2) s.encl.members } } (at_ 1 2) (at_ 3 4) (f.data.drop 7)
    else s
  | _ => s

/-! SPDM 1.2 (R263, R264). The message formats are the standard's (log entry 20). -/

/-- An answer sent on a channel: 0 is DOE, 1 + r the coupler link to rank r (KIND 8). -/
def spdmOut (s : State) (chan : Nat) (rsp : List Byte) : State :=
  if chan = 0 then { s with out := s.out ++ [.spdm chan rsp] }
  else (chunk 256 (rsp.length + 1) rsp).foldl (fun s b => sendFlit s (chan - 1) 8 0 0 b) s

/-- ERROR with a code: 1 InvalidRequest, 3 Busy, 4 UnexpectedRequest, 6 DecryptError, 7 UnsupportedRequest, 10
SessionLimitExceeded. -/
def spdmError (s : State) (chan code : Nat) : State := spdmOut s chan ([0x12, 0x7F] ++ leBytes code 1 ++ [0])

/-- How far a channel has come. -/
def chanOf (s : State) (chan : Nat) : SpdmChan :=
  (s.chans.find? (fun c => c.chan == chan)).getD { chan := chan, stage := 0, log := [] }

/-- A channel's progress and transcript changed. -/
def setChan (s : State) (c : SpdmChan) : State :=
  { s with chans := s.chans.filter (fun x => x.chan != c.chan) ++ [c] }

/-- A request handled: before the device is ready Busy, after a failed boot nothing; out of order UnexpectedRequest. -/
def spdmReq (s : State) (chan : Nat) (req : List Byte) (code : Nat) (inOrder : SpdmChan → Bool) (k : SpdmChan → State) : State :=
  if s.power = .bootStopped || numAt req 1 1 != code then s
  else if !sysentV s then spdmError s chan 3
  else if !inOrder (chanOf s chan) then spdmError s chan 4
  else k (chanOf s chan)

/-- An answer that joins the channel's transcript. -/
def spdmAnswer (s : State) (c : SpdmChan) (stage : Nat) (req rsp : List Byte) : State :=
  setChan (spdmOut s c.chan rsp) { c with stage := stage, log := c.log ++ req ++ rsp }

/-- Free bytes of an answer: a nonce, a key share. -/
def spdmFree (s : State) (n : Nat) : List Byte := fitTo n (Config.spdmBytes s.freeCtr n)

/-- The certificate chain in slot 0, and its digest. -/
def certChain : List Byte := Config.spdmBytes 0 0
def certDigest : List Byte := sha512 certChain

/-- A signature by the identity key over a transcript, in a context (SPDM 1.2). -/
def spdmSign (context transcript : List Byte) : List Byte :=
  let pre : List Byte := [0x64, 0x6D, 0x74, 0x66, 0x2D, 0x73, 0x70, 0x64, 0x6D, 0x2D, 0x76, 0x31, 0x2E, 0x32, 0x2E, 0x2A]
  edSign idSeed (pre ++ pre ++ pre ++ pre ++ zeros (36 - context.length) ++ context ++ sha512 transcript)

/-- The contexts' texts. -/
def ctxText (n : Nat) : List Byte := leBytes n 1 ++ [0x73, 0x69, 0x67, 0x6E]

/-- GET_VERSION: version 1.2. -/
def getVersion (s : State) (chan : Nat) (req : List Byte) : State :=
  spdmReq s chan req 0x84 (fun _ => true) (fun c =>
    spdmAnswer s { c with log := [] } 1 req ([0x10, 0x04, 0, 0, 0, 1] ++ leBytes 0x1200 2))

/-- GET_CAPABILITIES: CERT, CHAL, MEAS with signature, ENCRYPT, MAC, KEY_EX. -/
def getCapabilities (s : State) (chan : Nat) (req : List Byte) : State :=
  spdmReq s chan req 0xE1 (fun c => c.stage == 1) (fun c =>
    spdmAnswer (tick s) c 2 req ([0x12, 0x61, 0, 0, 0] ++ spdmFree s 1 ++ [0, 0] ++ leBytes 0x2D6 4 ++ spdmFree s 8))

/-- NEGOTIATE_ALGORITHMS. -/
def negotiate (s : State) (chan : Nat) (req : List Byte) : State :=
  spdmReq s chan req 0xE3 (fun c => c.stage == 2) (fun c =>
    if !(numAt req 8 4).testBit 10 || !(numAt req 12 4).testBit 2 then spdmError s chan 1
    else
      let alg := fun (t v : Nat) => leBytes t 1 ++ [0x20] ++ leBytes v 2
      let body := [1, 0] ++ leBytes 8 4 ++ leBytes 0x400 4 ++ leBytes 4 4 ++ zeros 12 ++ zeros 4 ++ alg 2 16 ++ alg 3 2 ++ alg 5 1
      spdmAnswer s c 3 req ([0x12, 0x63, 3, 0] ++ leBytes (body.length + 6) 2 ++ body))

/-- A request after the algorithms. -/
def afterAlg (c : SpdmChan) : Bool := c.stage == 3

/-- GET_DIGESTS: slot 0 only. -/
def getDigests (s : State) (chan : Nat) (req : List Byte) : State :=
  spdmReq s chan req 0x81 afterAlg (fun c => spdmAnswer s c 3 req ([0x12, 0x01, 0, 1] ++ certDigest))

/-- GET_CERTIFICATE: a portion of the chain. -/
def getCertificate (s : State) (chan : Nat) (req : List Byte) : State :=
  spdmReq s chan req 0x82 afterAlg (fun c =>
    let off := numAt req 4 2
    let part := cut certChain off (numAt req 6 2)
    if numAt req 2 1 % 16 != 0 || decide (certChain.length < off) then spdmError s chan 1
    else spdmAnswer s c 3 req ([0x12, 0x02, 0, 0] ++ leBytes part.length 2 ++ leBytes (certChain.length - off - part.length) 2 ++ part))

/-- The measurement summary that a challenge or a key exchange asks for: over all registers. -/
def measSummary (s : State) (ask : Nat) : List Byte :=
  if ask = 0 then [] else sha512 ((upFrom 0 8).flatMap (measBytes s))

/-- CHALLENGE. -/
def challenge (s : State) (chan : Nat) (req : List Byte) : State :=
  spdmReq s chan req 0x83 afterAlg (fun c =>
    if numAt req 2 1 != 0 then spdmError s chan 1
    else
      let rsp := [0x12, 0x03, 0, 1] ++ certDigest ++ spdmFree s 32 ++ measSummary s (numAt req 3 1) ++ [0, 0]
      spdmAnswer (tick s) c 3 req (rsp ++ spdmSign (ctxText 0) (c.log ++ req ++ rsp)))

/-- The DMTF value type of a measurement register (R264). -/
def measType (j : Nat) : Nat := if j < 3 then j else if j < 6 then 3 else 4

/-- A measurement block. -/
def measBlock (s : State) (j : Nat) : List Byte :=
  leBytes (j + 1) 1 ++ [1] ++ leBytes 67 2 ++ leBytes (measType j) 1 ++ leBytes 64 2 ++ measBytes s j

/-- GET_MEASUREMENTS: index j + 1 is measj, 0xFF all eight, 0 their number. -/
def getMeasurements (s : State) (chan : Nat) (req : List Byte) : State :=
  spdmReq s chan req 0xE0 afterAlg (fun c =>
    let ix := numAt req 3 1
    let signed := (numAt req 2 1).testBit 0
    if (ix != 0 && decide (8 < ix) && ix != 0xFF) || (signed && numAt req 36 1 % 16 != 0) then spdmError s chan 1
    else
      let blocks := if ix = 0 then [] else if ix = 0xFF then upFrom 0 8 else [ix - 1]
      let rec_ := blocks.flatMap (measBlock s)
      let rsp := [0x12, 0x60] ++ leBytes (if ix = 0 then 8 else 0) 1 ++ [0] ++ leBytes blocks.length 1 ++ leBytes rec_.length 3 ++ rec_ ++
        spdmFree s 32 ++ [0, 0]
      spdmAnswer (tick s) c 3 req (if signed then rsp ++ spdmSign (ctxText 1) (c.log ++ req ++ rsp) else rsp))

/-- KEY_EXCHANGE: the key shares and the verify data are free. -/
def keyExchange (s : State) (chan : Nat) (req : List Byte) : State :=
  spdmReq s chan req 0xE4 afterAlg (fun c =>
    if numAt req 3 1 != 0 then spdmError s chan 1
    else if decide (32 ≤ s.sess.length) then spdmError s chan 10
    else
      let id := leNat (spdmFree s 2)
      let rsp := [0x12, 0x64, 0, 0] ++ leBytes id 2 ++ [0, 0] ++ spdmFree s 32 ++ spdmFree s 96 ++ measSummary s (numAt req 2 1) ++ [0, 0]
      let all := rsp ++ spdmSign (ctxText 2) (c.log ++ req ++ rsp) ++ spdmFree s 64
      let s1 := spdmAnswer (tick s) c 3 req all
      { s1 with sess := s1.sess ++ [{ chan := chan, id := id + numAt req 4 2 * 2 ^ 16, done := false }] })

/-- FINISH: completes the channel's open session; whether its verify data hold is a free bit. -/
def finish (s : State) (chan : Nat) (req : List Byte) : State :=
  let mine := fun (x : SpdmSess) => x.chan == chan && !x.done
  spdmReq s chan req 0xE5 (fun c => afterAlg c && s.sess.any mine) (fun c =>
    if Config.freeBit s.freeCtr then
      let s1 := spdmAnswer (tick s) c 3 req [0x12, 0x65, 0, 0]
      { s1 with sess := s1.sess.map (fun x => if mine x then { x with done := true } else x) }
    else
      let s1 := spdmError (tick s) chan 6
      { s1 with sess := s1.sess.filter (fun x => !mine x) })

/-- END_SESSION: closes the channel's latest session. -/
def endSession (s : State) (chan : Nat) (req : List Byte) : State :=
  let mine := fun (x : SpdmSess) => x.chan == chan && x.done
  spdmReq s chan req 0xEC (fun _ => s.sess.any mine) (fun c =>
    let s1 := spdmAnswer s c c.stage req [0x12, 0x6C, 0, 0]
    { s1 with sess := (dropFirst mine s1.sess.reverse).reverse })

/-- The codes of the requests above. -/
def spdmKnown (code : Nat) : Bool := [0x84, 0xE1, 0xE3, 0x81, 0x82, 0x83, 0xE0, 0xE4, 0xE5, 0xEC].contains code

/-- SPDM_UNSUPPORTED_REQUEST. -/
def spdmOther (s : State) (chan : Nat) (req : List Byte) : State :=
  if s.power = .bootStopped || spdmKnown (numAt req 1 1) then s
  else if !sysentV s then spdmError s chan 3
  else spdmError s chan 7

end Sys2Proof.Machine
end

