-- ==== Sys2Proof/Machine/Power.lean ====
section
/-!
DEFINITION. The host link, health, power and the measured boot (R414 to R430). Everything here is bare.
-/
namespace Sys2Proof.Machine
open Sys2Proof

/-! Power (R425 to R430). -/

/-- A request of the host, or a flit, wakes an idle device (R428). -/
def wake (s : State) : State := if s.power = .idle then { s with power := .on } else s

/-- The device takes requests: it is on, or wakes. -/
def awake (s : State) : Bool := s.power == .on || s.power == .idle

/-- The state after a reset (R425): what has left the device stays sent, what is still to come comes, the fuses stay as they are. -/
def afterReset (s : State) : State :=
  { State.reset with out := s.out, agenda := s.agenda, hostReads := s.hostReads, freeCtr := s.freeCtr, fuses := s.fuses }

/-- Power is lost: nothing is held (R428, R430). -/
def powerDown (s : State) : State := { afterReset s with power := .off }

/-- Step 5 of the boot: the signers that verify, loaded into key slots from slot `a` (R391, R425, R426). -/
def bootSigners (img : BootImage) : Nat → List (List Byte × List Byte) → Tab KeySlot
  | _, [] => []
  | a, (key, sig) :: r =>
    if edVerify img.signerKey key sig then (a, { kind := 2, key := key, bind := 0 }) :: bootSigners img (a + 1) r
    else bootSigners img a r

/-- The boot's five steps (R425, R426), of a device that has been reset: what the host has done meanwhile has been counted. -/
def bootRun (s : State) (img : BootImage) : State :=
  let s0 : State := { s with boot := none }
  if !edVerify s.fuses.root img.stage1 img.sig1 then { s0 with power := .bootStopped }
  else
    let s1 := measExtend s0 0 (sha512 img.stage1)
    if !edVerify img.key2 img.stage2 img.sig2 then { s1 with power := .bootStopped }
    else
      let s2 := pkgWrite (measExtend s1 1 (sha512 img.stage2)) 0x11 0 img.ipool
      let s3 := measExtend s2 2 (sha512 (s.fuses.hwconf ++ leBytes (pkgRead s2 0x11 0) 4))
      let s4 : State := { s3 with keys := bootSigners img 0 img.signers }
      let s5 := pkgWrite (homeStore s4 (img.sysAddr / 64 * 64) img.sysSegment) 0x10 0 (img.sysAddr / 64 * 64 + 1)
      { s5 with power := .on }

/-- POWER_ON_RESET (R425, R426): every register takes its reset value and the boot begins; a device that stands at its reset goes
through it at once. -/
def powerOn (s : State) (img : BootImage) : State :=
  if s.power == .booting && s.boot.isNone then bootRun s img else { afterReset s with boot := some img }

/-- No work is on the device (R428). -/
def noWork (s : State) : Bool :=
  s.cores.all (fun c => c.2.grp.isNone && c.2.plat.isEmpty) && s.boxes.all (fun b => b.2.recv.isEmpty) && s.returned.isEmpty &&
  s.launches.all (fun l => l.finished) && s.pend.isEmpty && s.bcores.isEmpty && s.bwait.isEmpty && s.jobs.isEmpty && s.farArr.isEmpty

/-- IDLE_ENTRY, IDLE_WAKE. -/
def idleEntry (s : State) : State := if s.power == .on && noWork s then { s with power := .idle } else s

/-- THERMAL_THROTTLE: the clock, in MHz, falls, never below 1300. -/
def throttle (s : State) : State :=
  { tick s with clock := 1300 + (Config.random s.freeCtr).toNat % max 1 (s.clock - 1300) }

/-- THERMAL_WARNING: the clock has fallen to 1.3 GHz and the junction stays hot. -/
def thermalWarning (s : State) : State :=
  if s.clock = 1300 then postEvent s { plainEvent 4 0xFF 0 0 with ref := 15 * 2 ^ 12 } else s

/-- THERMAL_TRIP: the host sees the link go down. -/
def thermalTrip (s : State) : State := let s1 := powerDown s
  { s1 with out := s1.out ++ [.linkDown] }

/-! The host link (R414 to R416, R419). -/

/-- HOST_UNPROTECTED_REQUEST. -/
def unprotected (s : State) : State := if s.ide then badWrite s else s

/-- HOST_MEMORY_WRITE: each byte that has memory behind it is performed at home. -/
def hostMemory (s : State) (pa : Nat) (bs : List Byte) : State :=
  (sectorWrites pa bs).foldl (fun s w => if inMap s (64 * w.1) && !saddleOut s (64 * w.1) then homeWrite s w.1 w.2.1 w.2.2 else s) s

/-- The host reads memory of the device (R420): every sector's check is tested, and a poisoned one comes back with EP set. Where no
memory is, zeros come back (log entry 91). -/
def hostRead (s : State) (pa n : Nat) : State :=
  let s1 := testRange (wake s) pa n
  { s1 with out := s1.out ++ [.completion pa (memBytes s1 pa n) (anyPoison s1 pa n)] }

/-- The oldest read that the host makes. -/
def hostReadNext (s : State) : State :=
  match s.hostReads with
  | [] => s
  | x :: r => hostRead { s with hostReads := r } x.1 x.2

/-- A host's message at a launch port: dropped and counted until the device is ready (R426). -/
def hostMessage (s : State) (mb : Nat) (st : Bool) (k : State → State) : State :=
  let s1 := wake s
  if s.power == .booting then badWrite s
  else if !awake s || decide (64 ≤ mb) then s
  else if portOpen s1 mb st then k s1 else badWrite s1

/-! Health (R421, R422). -/

/-- The range of a class's threshold. -/
def healthRange (cls : Nat) : Nat × Nat :=
  if cls < 2 then (16, 4096) else if cls = 2 then (64, 65536) else (256, 65536)

/-- How many units a class has. -/
def healthUnits (cls : Nat) : Nat :=
  match cls with
  | 0 => 64
  | 1 => 128
  | 2 => 512
  | 3 => 12
  | 4 => 4
  | _ => 0

/-- A list in ascending order. -/
def sortNat (l : List Nat) : List Nat :=
  let rec put (x : Nat) : List Nat → List Nat
    | [] => [x]
    | y :: r => if x ≤ y then x :: y :: r else y :: put x r
  l.foldr put []

/-- Twice the median of a list. -/
def median2 (l : List Nat) : Nat :=
  let s := sortNat l
  let n := s.length
  if n % 2 = 1 then 2 * nth 0 s (n / 2) else nth 0 s (n / 2 - 1) + nth 0 s (n / 2)

/-- A unit's threshold: four times the median of its last 64 counts, clamped. -/
def healthT (cls : Nat) (hist : List Nat) : Nat :=
  let (lo, hi) := healthRange cls
  if hist.isEmpty then lo else min hi (max lo (2 * median2 (hist.take 64)))

/-- The group of a core out of service is to be pre-empted (R421) and may be now: the save area has room for its gang (R238). -/
def leaveDue (s : State) (co : Nat) : Bool :=
  (coreAt s co).oos && (match groupAt s co with
    | some g => !g.saving && saveRoom s ((s.cores.filterMap (fun c => c.2.grp)).filter (fun x => sameGang x g && !x.saving))
    | none => false)

/-- A core leaves its box's pool: its group is pre-empted, its staged groups return to the box. Without room for the images the
pre-emption waits (R238). -/
def coreOut (s : State) (co : Nat) : State :=
  let c := coreAt s co
  let s1 := setBox s (co / 16) (fun b => { b with recv := b.recv ++ c.plat.map (fun e => { e with same := false }) })
  let s2 := setCore s1 co { c with oos := true, plat := [] }
  if leaveDue s2 co then requestPreempt s2 co else s2

/-- A partition passes through: its scratch is gone. -/
def partOut (s : State) (p : Nat) : State :=
  let s1 := clearRange s (spBase p 0) (2 ^ 20 * spCur s p)
  let w := tget Spway.init s.spway p
  { s1 with spway := tset Spway.init s1.spway p { w with cur := 0, busy := false, pass := true }, pass := insNat p s1.pass }

/-- A unit is out of service, or an edge at half width, already. -/
def unitOut (s : State) (cls unit : Nat) : Bool :=
  match cls with
  | 0 => (coreAt s unit).oos
  | 1 => s.boos.contains unit
  | 2 => s.pass.contains unit
  | 3 => tget 0 s.lanes unit == 3
  | _ => s.edges.contains unit

/-- A unit leaves service or steps down; the event says so. -/
def unitDown (s : State) (cls unit : Nat) : State :=
  match cls with
  | 0 => healthEvent (coreOut s unit) 0 unit 0
  | 1 => healthEvent (ballastOut s unit) 1 unit 0
  | 2 => healthEvent (partOut s unit) 2 unit 0
  | 3 => portDown s unit
  | _ => healthEvent (tick { s with edges := insNat unit s.edges }) 4 unit ((Config.random s.freeCtr).toNat % 16)

/-- HEALTH_INTERVAL: unit `unit` of class `cls` counted `n` corrected errors. -/
def healthInterval (s : State) (cls unit n : Nat) : State :=
  if healthUnits cls ≤ unit then s
  else
    let key := 4096 * cls + unit
    let u := (tfind s.units key).getD { hist := [], streak := 0 }
    let streak := if healthT cls u.hist < n then u.streak + 1 else 0
    let s1 := fun (k : Nat) => ({ s with units := tput s.units key { hist := n :: u.hist, streak := k } } : State)
    if streak < 3 || unitOut s cls unit then s1 streak else unitDown (s1 0) cls unit

end Sys2Proof.Machine
end

