-- ==== Sys2Proof/Machine/Sf.lean ====
section
/-!
DEFINITION. The SF slot (R357 to R359). RCP and SQRT are exact; for every other function the bits are a free value of
the configuration inside the bound of R358, which is checked against a fixed-point reference of 256 fractional bits.
-/
namespace Sys2Proof.Machine
open Sys2Proof

/-! Fixed-point references. A real r stands as the integer nearest below r × 2^`fxP`. -/

/-- Fractional bits of a reference. -/
def fxP : Nat := 256
/-- One. -/
def fxOne : Int := (2 ^ fxP : Nat)
/-- The product of two references. -/
def fxMul (a b : Int) : Int := a * b / fxOne
/-- The quotient of two references. -/
def fxDiv (a b : Int) : Int := a * fxOne / b

/-- Σ over k ≥ 1 of 2^-k / k: the natural logarithm of 2. -/
def ln2From (k : Nat) : Nat → Int
  | 0 => 0
  | n + 1 => fxOne / (k * 2 ^ k : Nat) + ln2From (k + 1) n
def fxLn2 : Int := ln2From 1 260

/-- e^y for 0 ≤ y < 1, by its series: `t` is the running term. -/
def expFrom (y t : Int) (k : Nat) : Nat → Int
  | 0 => 0
  | n + 1 => t + expFrom y (fxMul t y / (k : Int)) (k + 1) n
/-- 2^y for a reference y. -/
def fxExp2 (y : Int) : Int :=
  let i := y / fxOne
  let m := expFrom (fxMul (y - i * fxOne) fxLn2) fxOne 1 80
  if 0 ≤ i then m * (2 ^ i.toNat : Nat) else m / (2 ^ (-i).toNat : Nat)
/-- e^y. -/
def fxExp (y : Int) : Int := fxExp2 (fxDiv y fxLn2)

/-- Σ z^(2k+1) / (2k+1): the inverse hyperbolic tangent. -/
def atanhFrom (z2 t : Int) (k : Nat) : Nat → Int
  | 0 => 0
  | n + 1 => t / (k : Int) + atanhFrom z2 (fxMul t z2) (k + 2) n
/-- ln m for 1 ≤ m < 2. -/
def fxLn (m : Int) : Int :=
  let z := fxDiv (m - fxOne) (m + fxOne)
  2 * atanhFrom (fxMul z z) z 1 90

/-- atan(1/q) × 2^640, by its series. -/
def atanFrom (q t : Int) (k : Nat) (sg : Int) : Nat → Int
  | 0 => 0
  | n + 1 => sg * (t / (k : Int)) + atanFrom q (t / (q * q)) (k + 2) (-sg) n
/-- π × 2^640. -/
def piWide : Int :=
  let one : Int := (2 ^ 640 : Nat)
  16 * atanFrom 5 (one / 5) 1 1 140 - 4 * atanFrom 239 (one / 239) 1 1 50

/-- The alternating series of sine (from k = 1, t = y) and cosine (from k = 0, t = 1). -/
def trigFrom (y2 t : Int) (k : Nat) : Nat → Int
  | 0 => 0
  | n + 1 => t - trigFrom y2 (fxMul t y2 / ((k + 1) * (k + 2) : Nat)) (k + 2) n

/-- Σ (-1)^n x^(2n+1) / (n! (2n+1)). -/
def erfFrom (x2 t : Int) (k : Nat) : Nat → Int
  | 0 => 0
  | n + 1 => t / ((2 * k + 1 : Nat) : Int) - erfFrom x2 (fxMul t x2 / ((k + 1 : Nat) : Int)) (k + 1) n

/-- A finite value × 2^p as an integer (exact for every FP32 value when p ≥ 149). -/
def fxOf (p : Nat) (x : Fv) : Int :=
  match x with
  | .fin g n e =>
    let m : Int := if 0 ≤ e + p then ((n * 2 ^ (e + p).toNat : Nat) : Int) else ((n / 2 ^ (-(e + p)).toNat : Nat) : Int)
    if g then -m else m
  | _ => 0

/-- x reduced modulo 2π, as a reference (R358: the reduction is exact). -/
def fxReduce (x : Fv) : Int := (fxOf 640 x % (2 * piWide)) / (2 ^ (640 - fxP) : Nat)

/-- The reference of a function of R358 at a finite x that R359 does not name. -/
def sfRef (op : Nat) (x : Fv) : Int :=
  let y := fxOf fxP x
  match op with
  | 1 => ((isqrt (2 ^ (3 * fxP) / y.toNat) : Nat) : Int)
  | 3 => fxExp2 y
  | 4 => let k := bitLen y.toNat
    ((k : Int) - 1 - fxP) * fxOne + fxDiv (fxLn (if fxP + 1 ≤ k then y / (2 ^ (k - 1 - fxP) : Nat) else y * (2 ^ (fxP + 1 - k) : Nat))) fxLn2
  | 5 => trigFrom (fxMul (fxReduce x) (fxReduce x)) (fxReduce x) 1 120
  | 6 => trigFrom (fxMul (fxReduce x) (fxReduce x)) fxOne 0 120
  | 7 =>
    let a := min (y.natAbs : Int) (64 * fxOne)
    let e := fxExp (2 * a)
    let r := fxDiv (e - fxOne) (e + fxOne)
    if y < 0 then -r else r
  | 8 => fxDiv fxOne (fxOne + fxExp (clampInt (-y) (-256 * fxOne) (256 * fxOne)))
  | _ =>
    let a := (y.natAbs : Int)
    let sqrtPi := ((isqrt (piWide.toNat / 2 ^ (640 - 2 * fxP)) : Nat) : Int)
    let r := if 6 * fxOne ≤ a then fxOne else fxDiv (2 * erfFrom (fxMul a a) a 0 300) sqrtPi
    if y < 0 then -r else r

/-- The ulp of a reference (R358): that of its binade, 2^−149 for a subnormal. -/
def fxUlp (r : Int) : Int := ((2 ^ (max (bitLen r.natAbs - 24) (fxP - 149)) : Nat) : Int)

/-- The bound of a function at x, whose reference is r (R358). -/
def sfBound (op : Nat) (x : Fv) (r : Int) : Int :=
  let y := fxOf fxP x
  match op with
  | 1 => fxUlp r
  | 3 => fxUlp r
  | 4 => if fxOne ≤ 2 * y && y ≤ 2 * fxOne then ((2 ^ (fxP - 22) : Nat) : Int) else fxUlp r
  | 5 => ((2 ^ (fxP - 22) : Nat) : Int)
  | 6 => ((2 ^ (fxP - 22) : Nat) : Int)
  -- TANH, SIGM and ERF are below 1 in magnitude at every finite x, where the reference may have reached 1
  | _ => 2 * fxUlp (min (r.natAbs : Int) (fxOne - 1))

/-- What is known of the exact value where the reference may have been rounded to 1, to x or to 0, which the bound must not pass: |tanh x|
lies below 1 and below |x|, an error function's magnitude below 1, a sigmoid between 0 and 1. -/
def sfEdge (op : Nat) (x : Fv) (c b : Int) : Bool :=
  let a := (c.natAbs : Int)
  if op < 7 then true
  else decide (a < fxOne + b) && (op != 7 || decide (a < ((fxOf fxP x).natAbs : Int) + b)) && (op != 8 || decide (0 < c + b))

/-- The value c keeps the bound of a function at x (R358), within the reference's own error. -/
def sfWithin (op : Nat) (x c : Fv) : Bool :=
  let r := sfRef op x
  let b := sfBound op x r
  decide (((fxOf fxP c - r).natAbs : Int) ≤ b + (2 ^ 32 : Nat)) && sfEdge op x (fxOf fxP c) b

/-- The configuration's bits where they keep the bound, else the reference rounded. -/
def sfFree (op : Nat) (x : BitVec 32) : BitVec 32 :=
  let r := sfRef op (f32 x)
  let c := Config.special op x
  match f32 c with
  | .fin g n e =>
    if sfWithin op (f32 x) (.fin g n e) then c
    else r32 0 (.fin (decide (r < 0)) r.natAbs (-(fxP : Int)))
  | _ => r32 0 (.fin (decide (r < 0)) r.natAbs (-(fxP : Int)))

/-! Exact functions. -/

/-- n / d rounded as if exact: 64 quotient bits beyond the binary point and a sticky bit. -/
def ratFv (g : Bool) (n d : Nat) (e : Int) : Fv :=
  let k := bitLen d + 64
  let q := n * 2 ^ k / d
  .fin g (2 * q + (if q * d = n * 2 ^ k then 0 else 1)) (e - k - 1)
/-- The square root of n × 2^e, with a sticky bit. -/
def sqrtFv (n : Nat) (e : Int) : Fv :=
  let n1 := if e % 2 = 0 then n else 2 * n
  let e1 := if e % 2 = 0 then e else e - 1
  let q := isqrt (n1 * 2 ^ 128)
  .fin false (2 * q + (if q * q = n1 * 2 ^ 128 then 0 else 1)) (e1 / 2 - 65)

/-- The value is an integer power of two, and its exponent. -/
def pow2Of (n : Nat) (e : Int) : Option Int :=
  if n ≠ 0 ∧ 2 ^ (bitLen n - 1) = n then some (e + ((bitLen n - 1 : Nat) : Int)) else none
/-- A finite value that is an integer. -/
def asInt (n : Nat) (e : Int) : Option Nat :=
  if 0 ≤ e then some (n * 2 ^ e.toNat) else if n % 2 ^ (-e).toNat = 0 then some (n / 2 ^ (-e).toNat) else none

def inf32 (neg : Bool) : BitVec 32 := if neg then 0xFF800000 else 0x7F800000
def one32 (neg : Bool) : BitVec 32 := if neg then 0xBF800000 else 0x3F800000
def zero32 (neg : Bool) : BitVec 32 := if neg then 0x80000000 else 0

/-- A function of the SF slot on one FP32 pattern (R358, R359). -/
def sfFn (op : Nat) (x : BitVec 32) : BitVec 32 :=
  match f32 x with
  | .nan => nan32
  | .inf g => match op with
    | 0 => zero32 g
    | 1 => if g then nan32 else 0
    | 2 => if g then nan32 else inf32 false
    | 3 => if g then 0 else inf32 false
    | 4 => if g then nan32 else inf32 false
    | 5 => nan32
    | 6 => nan32
    | 7 => one32 g
    | 8 => if g then 0 else one32 false
    | _ => one32 g
  | .fin g n e =>
    if n = 0 then match op with
      | 0 => inf32 g
      | 1 => inf32 g
      | 2 => zero32 g
      | 3 => one32 false
      | 4 => inf32 true
      | 5 => zero32 g
      | 6 => one32 false
      | 7 => zero32 g
      | 8 => 0x3F000000
      | _ => zero32 g
    else match op with
      | 0 => r32 0 (ratFv g 1 n (-e))
      | 1 => if g then nan32 else sfFree 1 x
      | 2 => if g then nan32 else r32 0 (sqrtFv n e)
      | 3 =>
        if !g && !flt (f32 x) (.fin false 128 0) then inf32 false
        else if flt (f32 x) (.fin true 150 0) then 0
        else match asInt n e with
          | some i => if g && i = 150 then sfFree 3 x else r32 0 (.fin false 1 (if g then -(i : Int) else i))
          | none => sfFree 3 x
      | 4 => if g then nan32 else match pow2Of n e with
          | some k => r32 0 (.fin (decide (k < 0)) k.natAbs 0)
          | none => sfFree 4 x
      | k => sfFree k x

/-! The two forms (R357). -/

def sfVec (op : Nat) (cl : BitVec 3) (vd va p : BitVec 5) (s : State) : Out :=
  vSlot s p [vNum cl vd, vNum cl va] fun s =>
    .next (putV s cl.toNat vd.toNat (mkV (fun l => sfFn op (vLane s cl va l))) clsSf)
def sfScal (op : Nat) (d a : BitVec 6) (p : BitVec 5) (s : State) : Out :=
  .next (if predOk s.th p then putS s d.toNat ((sfFn op ((sReg s.th a.toNat).setWidth 32)).setWidth 64) clsSf else s)

def execRcpVector (cl : BitVec 3) (vd va p : BitVec 5) (s : State) : Out := sfVec 0 cl vd va p s
def execRcpScalar (d a : BitVec 6) (p : BitVec 5) (s : State) : Out := sfScal 0 d a p s
def execRsqVector (cl : BitVec 3) (vd va p : BitVec 5) (s : State) : Out := sfVec 1 cl vd va p s
def execRsqScalar (d a : BitVec 6) (p : BitVec 5) (s : State) : Out := sfScal 1 d a p s
def execSqrtVector (cl : BitVec 3) (vd va p : BitVec 5) (s : State) : Out := sfVec 2 cl vd va p s
def execSqrtScalar (d a : BitVec 6) (p : BitVec 5) (s : State) : Out := sfScal 2 d a p s
def execExp2Vector (cl : BitVec 3) (vd va p : BitVec 5) (s : State) : Out := sfVec 3 cl vd va p s
def execExp2Scalar (d a : BitVec 6) (p : BitVec 5) (s : State) : Out := sfScal 3 d a p s
def execLog2Vector (cl : BitVec 3) (vd va p : BitVec 5) (s : State) : Out := sfVec 4 cl vd va p s
def execLog2Scalar (d a : BitVec 6) (p : BitVec 5) (s : State) : Out := sfScal 4 d a p s
def execSinVector (cl : BitVec 3) (vd va p : BitVec 5) (s : State) : Out := sfVec 5 cl vd va p s
def execSinScalar (d a : BitVec 6) (p : BitVec 5) (s : State) : Out := sfScal 5 d a p s
def execCosVector (cl : BitVec 3) (vd va p : BitVec 5) (s : State) : Out := sfVec 6 cl vd va p s
def execCosScalar (d a : BitVec 6) (p : BitVec 5) (s : State) : Out := sfScal 6 d a p s
def execTanhVector (cl : BitVec 3) (vd va p : BitVec 5) (s : State) : Out := sfVec 7 cl vd va p s
def execTanhScalar (d a : BitVec 6) (p : BitVec 5) (s : State) : Out := sfScal 7 d a p s
def execSigmVector (cl : BitVec 3) (vd va p : BitVec 5) (s : State) : Out := sfVec 8 cl vd va p s
def execSigmScalar (d a : BitVec 6) (p : BitVec 5) (s : State) : Out := sfScal 8 d a p s
def execErfVector (cl : BitVec 3) (vd va p : BitVec 5) (s : State) : Out := sfVec 9 cl vd va p s
def execErfScalar (d a : BitVec 6) (p : BitVec 5) (s : State) : Out := sfScal 9 d a p s

end Sys2Proof.Machine
end

