-- ==== Sys2Proof/Machine/Events.lean ====
section
/-!
DEFINITION. The events of the opcode table: what reaches the machine from outside (messages, register writes, flits, power) and
what its units do in their own time. Each acts with nothing focused; one that its conditions do not allow changes nothing.
-/
namespace Sys2Proof.Machine
open Sys2Proof

/-- An event of the device's own: in idle its clocks are gated (R428). -/
def inner (s : State) (f : State → State) : Out := .next (if s.cur == .none && s.power == .on then f s else s)

/-- An event of what idle leaves running: the links, and the watch over counts and heat (R421, R428, R430). -/
def linked (s : State) (f : State → State) : Out := .next (if s.cur == .none && awake s then f s else s)

/-- An event that a host's request or a flit brings: it wakes the device (R428). -/
def outer (s : State) (f : State → State) : Out := .next (if s.cur == .none && awake s then f (wake s) else s)

/-- An event on a thread under a condition. -/
def thEvent (s : State) (co cx : Nat) (ok : State → Bool) (f : State → State) : Out :=
  inner s (fun s => onTh s co cx (fun s => if ok s then f s else s))

/-- An event on a core with a group under a condition. -/
def coEvent (s : State) (co : Nat) (ok : State → Bool) (f : State → State) : Out :=
  inner s (fun s => onCore s co (fun s => if ok s then f s else s))

/-! Threads. -/

def execLoadValueArrival (co cx ix : Nat) (s : State) : Out := thEvent s co cx (fun s => loadReady s cx ix) (fun s => loadArrive s ix)
def execTldLanding (co cx ix : Nat) (s : State) : Out := thEvent s co cx (fun s => tldReady s cx ix) (fun s => tldLand s ix)
def execFrontBusyEnd (co cx fr : Nat) (s : State) : Out := thEvent s co cx (fun s => s.th.fbusy.getLsbD fr) (fun s => frontEnd s fr)
def execWindowRollback (co cx : Nat) (s : State) : Out := thEvent s co cx (fun s => rollbackReady s cx) windowRollback
def execInterruptDistanceRollback (co cx : Nat) (s : State) : Out :=
  thEvent s co cx (fun s => distanceReady s cx) distanceRollback
def execBlockedInterruptRollback (co cx : Nat) (s : State) : Out :=
  thEvent s co cx (fun s => blockedReady s cx) blockedRollback
/-- RUNAWAY_KILL: KIND 4, no fault number (R230, R237). -/
def runawayKill (s : State) (co cx : Nat) : State :=
  let s1 := focusTh s co cx
  if threadIs s co cx && runawayReady s1.th then
    let f : FaultInfo := { code := .illegalBundle, pos := s1.th.pos, slot := 0, addr := 0, gate := 0, fq := 0, bpc := s1.th.bpc }
    tellKills s (killLaunch s { reportOf s1 f with code := 0, kind := 4 })
  else s
def execRunawayKill (co cx : Nat) (s : State) : Out := inner s (fun s => runawayKill s co cx)
def execRelCompletion (co cx : Nat) (s : State) : Out := thEvent s co cx (fun s => s.th.run == .relWait) relComplete
def execWalkRetry (co cx : Nat) (s : State) : Out :=
  thEvent s co cx (fun s => !heldBack s.th) walkRetry
def execWaitgeReread (co cx : Nat) (s : State) : Out := thEvent s co cx (fun s => !heldBack s.th) waitgeReread
def execParkExpiry (co cx : Nat) (s : State) : Out := thEvent s co cx (fun s => !heldBack s.th) parkExpiry

/-! Cores and engines. -/

def execGroupSave (co : Nat) (s : State) : Out :=
  inner s (fun s => match groupAt s co with
    | some g => if g.saving && !g.halted && saveReady (coreAt s co) && shootsActed s then groupSave s co else s
    | none => s)
def execCopyCompletion (co ch : Nat) (s : State) : Out :=
  coEvent s co (fun s => match tfind s.grp.ch ch with
    | some c => copyReady s ch c
    | none => false) (fun s => copyDone s ch)
def execShuntCompletion (co qu : Nat) (s : State) : Out := coEvent s co (fun s => shuntReady s qu) (fun s => shuntDone s qu)
def execMxOperationStart (co : Nat) (s : State) : Out := coEvent s co mxReady mxStart
def execMxOperationRetire (co : Nat) (s : State) : Out := coEvent s co (fun _ => true) mxRetire
def execCoreArrayWriteback (co ln : Nat) (s : State) : Out :=
  inner s (fun s => onArray s co (fun s => if (dirtyLines s.core).contains ln then lineBack s ln else s))
def execGroupStart (co : Nat) (s : State) : Out := inner s (fun s => groupStart s co)
def execGroupEnd (co : Nat) (s : State) : Out := inner s (fun s => groupEnd s co)

/-! Mailboxes and the Yard. -/

/-- A message reaches a launch port. -/
def portMessage (s : State) (mb : Nat) (st : Bool) (msg : BitVec 512) : State :=
  hostMessage s mb st (fun s => messageIn s { mbox := mb, station := st, msg := msg, tries := 0 })

def execLaunchMessage (mb : Nat) (st : Bool) (msg : BitVec 512) (s : State) : Out :=
  .next (if s.cur == .none && !isJob msg && !namesBallast s msg then portMessage s mb st msg else s)
def execBallastLaunchMessage (mb : Nat) (st : Bool) (msg : BitVec 512) (s : State) : Out :=
  .next (if s.cur == .none && !isJob msg && namesBallast s msg then portMessage s mb st msg else s)
def execFitterJobMessage (mb : Nat) (msg : BitVec 512) (s : State) : Out :=
  .next (if s.cur == .none && isJob msg then portMessage s mb false msg else s)
def execLaunchAgeing (id : Nat) (s : State) : Out := inner s (fun s => launchAge s id)
def execYardBatchDispatch (s : State) : Out := inner s (fun s => (yardStep s).getD s)
def execGroupStaging (die : Nat) (s : State) : Out := inner s (fun s => (stageStep s die).getD s)
def execDispatchThresholdAdapt (col nend mean : Nat) (s : State) : Out := inner s (fun s => thrAdapt s col nend mean)

/-! The stationmaster. -/

def execStationmasterFaultHandling (s : State) : Out := inner s (fun s => tellKills s (tellPreempt (stationHandle s)))
def execFaultRecordDeferredWrite (s : State) : Out := inner s deferredWrite
/-- FQRESP with the ACT of the event's name. -/
def execFqrespResume (w : BitVec 64) (s : State) : Out := outer s (fun s => if bitsOf w.toNat 33 32 = 1 then fqresp s w.toNat else s)
def execFqrespKill (w : BitVec 64) (s : State) : Out :=
  outer s (fun s => if bitsOf w.toNat 33 32 = 2 then tellKills s (fqresp s w.toNat) else s)
def execMbstatErrClear (mb : Nat) (w : BitVec 32) (s : State) : Out := outer s (fun s => if mb < 64 then mbstatWrite s mb w.toNat else s)
def execSpwayReqWrite (part : Nat) (w : BitVec 64) (s : State) : Out := inner s (fun s => if part < 512 then spwayWrite s part w.toNat else s)
def execSpwayWayComplete (part : Nat) (s : State) : Out := inner s (fun s => spwayWay s part)
def execSpwayChangeComplete (part : Nat) (s : State) : Out := inner s (fun s => spwayDone s part)
/-- A write to BAR0; until the device is ready one at a launch port is dropped and counted (R426). -/
def execRegisterWrite (off size : Nat) (w : BitVec 64) (s : State) : Out :=
  if s.cur == .none && s.power == .booting then .next (if off < 0x1000 then badWrite s else s)
  else outer s (fun s => tellKills s (hostWrite s off size w.toNat))

/-! The coupler. -/

/-- A flit of a kind that reaches the device; one that is not addressed to it does not wake it (R428). -/
def flitEvent (s : State) (f : Flit) (kind : Nat) (k : State → State) : Out :=
  if f.dst == ownRank s then outer s (fun s => if flitOk s f kind then k s else s) else .next s

def execShootDownFlit (f : Flit) (s : State) : Out := flitEvent s f 5 (fun s => shootFlit s f)
def execShootDownAcknowledgeFlit (f : Flit) (s : State) : Out := flitEvent s f 6 (fun s => shootAck s f)
def execReadRequestFlit (f : Flit) (s : State) : Out := flitEvent s f 0 (fun s => readRequest s f)
def execReadDataFlit (f : Flit) (s : State) : Out := flitEvent s f 1 (fun s => readData s f)
def execWriteFlit (f : Flit) (s : State) : Out := flitEvent s f 2 (fun s => writeFlit s f)
def execWriteAcknowledgeFlit (f : Flit) (s : State) : Out := flitEvent s f 3 (fun s => writeAck s f)
def execAtomicOrNmrFlit (f : Flit) (s : State) : Out := flitEvent s f 4 (fun s => atomicFlit s f)
def execCollectiveFlit (f : Flit) (s : State) : Out := flitEvent s f 7 (fun s => collFlit s f)
def execFlagAdditionFlit (f : Flit) (s : State) : Out := flitEvent s f 9 (fun s => flagFlit s f)
def execEnclaveControlFlit (f : Flit) (s : State) : Out := flitEvent s f 10 (fun s => if s.regs.encl then enclaveFlit s f else s)
def execSetLaunchControlFlit (f : Flit) (s : State) : Out := flitEvent s f 11 (fun s => setFlit s f)
def execFlitDrop (f : Flit) (s : State) : Out := linked s (fun s => flitDrop (if f.dst == ownRank s then wake s else s) f)
def execFlitRetransmit (port : Nat) (s : State) : Out := linked s (fun s => flitRetransmit s port)
def execShootDownSubtreeTimeout (id : Nat) (s : State) : Out := linked s (fun s => shootLate s id)
def execShootDownFenceTimeout (id : Nat) (s : State) : Out := linked s (fun s => shootTimeout s id)
def execDeviceCut (s : State) : Out := linked s deviceCut
def execSetFormation (rank ndev : Nat) (encl : Bool) (s : State) : Out := outer s (fun s => setFormation s rank ndev encl)
def execEnclavePolicy (rec : List Byte) (s : State) : Out := outer s (fun s => enclavePolicy s rec)
def execEnclaveAdmission (rank : Nat) (meas : List (List Byte)) (secret : List Byte) (s : State) : Out :=
  outer s (fun s => enclaveAdmission s rank meas secret)
def execRevocationOrder (ord : List Byte) (s : State) : Out := outer s (fun s => revocation s ord)

/-! The ballast level. -/

def execBallastLaunchEnqueue (id : Nat) (s : State) : Out := inner s (fun s => ballastEnqueue s id)
def execBallastInstanceStart (st : Nat) (s : State) : Out := inner s (fun s => ballastStart s st)
def execBallastAgeing (st id inst : Nat) (s : State) : Out := inner s (fun s => ballastAge s st id inst)
def execBallastLaunchCompletion (id : Nat) (s : State) : Out := inner s (fun s => ballastComplete s id)

/-! The Fitter. -/

def execInstall (s : State) : Out := inner s runInstall
def execPartialUpdate (s : State) : Out := inner s runUpdate
def execExportJob (s : State) : Out := inner s runExport
def execRetime (s : State) : Out := inner s runRetime
def execUninstall (s : State) : Out := inner s runUninstall

/-! SPDM. -/

/-- A request of an SPDM peer: until the boot is over it is answered too (R426). -/
def spdm (s : State) (f : State → State) : Out :=
  .next (if s.cur == .none && (awake s || s.power == .booting) then f (wake s) else s)


def execGetVersion (chan : Nat) (req : List Byte) (s : State) : Out := spdm s (fun s => getVersion s chan req)
def execGetCapabilities (chan : Nat) (req : List Byte) (s : State) : Out := spdm s (fun s => getCapabilities s chan req)
def execNegotiateAlgorithms (chan : Nat) (req : List Byte) (s : State) : Out := spdm s (fun s => negotiate s chan req)
def execGetDigests (chan : Nat) (req : List Byte) (s : State) : Out := spdm s (fun s => getDigests s chan req)
def execGetCertificate (chan : Nat) (req : List Byte) (s : State) : Out := spdm s (fun s => getCertificate s chan req)
def execChallenge (chan : Nat) (req : List Byte) (s : State) : Out := spdm s (fun s => challenge s chan req)
def execGetMeasurements (chan : Nat) (req : List Byte) (s : State) : Out := spdm s (fun s => getMeasurements s chan req)
def execKeyExchange (chan : Nat) (req : List Byte) (s : State) : Out := spdm s (fun s => keyExchange s chan req)
def execFinish (chan : Nat) (req : List Byte) (s : State) : Out := spdm s (fun s => finish s chan req)
def execEndSession (chan : Nat) (req : List Byte) (s : State) : Out := spdm s (fun s => endSession s chan req)
def execSpdmUnsupportedRequest (chan : Nat) (req : List Byte) (s : State) : Out := spdm s (fun s => spdmOther s chan req)

/-! The host link, health and power. -/

def execHostUnprotectedRequest (s : State) : Out := outer s unprotected
def execIdeEstablishment (s : State) : Out := outer s (fun s => { s with ide := true })
def execHostMemoryWrite (pa : Nat) (bs : List Byte) (s : State) : Out := outer s (fun s => hostMemory s pa bs)
def execHealthInterval (cls unit n : Nat) (s : State) : Out := linked s (fun s => tellPreempt (healthInterval s cls unit n))
def execThermalThrottle (s : State) : Out := linked s throttle
def execThermalWarning (s : State) : Out := linked s thermalWarning
/-- The hardware trips in any state that has power (R430). -/
def execThermalTrip (s : State) : Out := .next (if s.cur == .none && s.power != .off then thermalTrip s else s)
/-- The host may remove power in any state but off. -/
def execPowerOff (s : State) : Out := .next (powerDown s)
def execPowerOnReset (img : BootImage) (s : State) : Out := .next (powerOn s img)
def execIdleEntry (s : State) : Out := inner s idleEntry
def execIdleWake (s : State) : Out := linked s wake

end Sys2Proof.Machine
end

