-- ==== Sys2Proof/Machine/Dispatch.lean ====
section
/-!
DEFINITION. One arm per row of the opcode table: the row's meaning.
-/
namespace Sys2Proof.Machine
open Sys2Proof

def exec (i : Instr) (s : State) : Host.Outcome State Fault Refusal :=
  match i with
  | .restartMark c f y k => Sys2Proof.Machine.execRestartMark c f y k s
  | .idle => Sys2Proof.Machine.execIdle s
  | .wait c f mk k => Sys2Proof.Machine.execWait c f mk k s
  | .take c f mk k => Sys2Proof.Machine.execTake c f mk k s
  | .post c f mk k => Sys2Proof.Machine.execPost c f mk k s
  | .br off p => Sys2Proof.Machine.execBr off p s
  | .brp q n off p => Sys2Proof.Machine.execBrp q n off p s
  | .call d off p => Sys2Proof.Machine.execCall d off p s
  | .ret a p => Sys2Proof.Machine.execRet a p s
  | .jmpr a off p => Sys2Proof.Machine.execJmpr a off p s
  | .loop ln body cnt p => Sys2Proof.Machine.execLoop ln body cnt p s
  | .loopx ln a body p => Sys2Proof.Machine.execLoopx ln a body p s
  | .yield p => Sys2Proof.Machine.execYield p s
  | .exit p => Sys2Proof.Machine.execExit p s
  | .trap imm p => Sys2Proof.Machine.execTrap imm p s
  | .svc imm p => Sys2Proof.Machine.execSvc imm p s
  | .eret p => Sys2Proof.Machine.execEret p s
  | .setfmt a p => Sys2Proof.Machine.execSetfmt a p s
  | .fmtrd d p => Sys2Proof.Machine.execFmtrd d p s
  | .mdpc a off p => Sys2Proof.Machine.execMdpc a off p s
  | .step lvl p => Sys2Proof.Machine.execStep lvl p s
  | .barr lvl p => Sys2Proof.Machine.execBarr lvl p s
  | .mwait tag p => Sys2Proof.Machine.execMwait tag p s
  | .park imm p => Sys2Proof.Machine.execPark imm p s
  | .add d a b p => Sys2Proof.Machine.execAdd d a b p s
  | .addi d a imm p => Sys2Proof.Machine.execAddi d a imm p s
  | .sub d a b p => Sys2Proof.Machine.execSub d a b p s
  | .mul d a b p => Sys2Proof.Machine.execMul d a b p s
  | .mulh d a b p => Sys2Proof.Machine.execMulh d a b p s
  | .mulhu d a b p => Sys2Proof.Machine.execMulhu d a b p s
  | .div d a b p => Sys2Proof.Machine.execDiv d a b p s
  | .divu d a b p => Sys2Proof.Machine.execDivu d a b p s
  | .rem d a b p => Sys2Proof.Machine.execRem d a b p s
  | .remu d a b p => Sys2Proof.Machine.execRemu d a b p s
  | .and d a b p => Sys2Proof.Machine.execAnd d a b p s
  | .andi d a imm p => Sys2Proof.Machine.execAndi d a imm p s
  | .or d a b p => Sys2Proof.Machine.execOr d a b p s
  | .ori d a imm p => Sys2Proof.Machine.execOri d a imm p s
  | .xor d a b p => Sys2Proof.Machine.execXor d a b p s
  | .xori d a imm p => Sys2Proof.Machine.execXori d a imm p s
  | .andn d a b p => Sys2Proof.Machine.execAndn d a b p s
  | .shl d a b p => Sys2Proof.Machine.execShl d a b p s
  | .shr d a b p => Sys2Proof.Machine.execShr d a b p s
  | .sar d a b p => Sys2Proof.Machine.execSar d a b p s
  | .rot d a b p => Sys2Proof.Machine.execRot d a b p s
  | .clz d a p => Sys2Proof.Machine.execClz d a p s
  | .ctz d a p => Sys2Proof.Machine.execCtz d a p s
  | .popc d a p => Sys2Proof.Machine.execPopc d a p s
  | .brev d a p => Sys2Proof.Machine.execBrev d a p s
  | .bswap d a p => Sys2Proof.Machine.execBswap d a p s
  | .min d a b p => Sys2Proof.Machine.execMin d a b p s
  | .max d a b p => Sys2Proof.Machine.execMax d a b p s
  | .minu d a b p => Sys2Proof.Machine.execMinu d a b p s
  | .maxu d a b p => Sys2Proof.Machine.execMaxu d a b p s
  | .abs d a p => Sys2Proof.Machine.execAbs d a p s
  | .ext d a wd sg p => Sys2Proof.Machine.execExt d a wd sg p s
  | .bfx d a b p => Sys2Proof.Machine.execBfx d a b p s
  | .bfi d a b p => Sys2Proof.Machine.execBfi d a b p s
  | .mov d a p => Sys2Proof.Machine.execMov d a p s
  | .movi d imm p => Sys2Proof.Machine.execMovi d imm p s
  | .movhi d imm p => Sys2Proof.Machine.execMovhi d imm p s
  | .sel d ps a b p => Sys2Proof.Machine.execSel d ps a b p s
  | .cmp pd a b cond p => Sys2Proof.Machine.execCmp pd a b cond p s
  | .cmpi pd a imm cond p => Sys2Proof.Machine.execCmpi pd a imm cond p s
  | .pset pd pa pb tt p => Sys2Proof.Machine.execPset pd pa pb tt p s
  | .pmovRd d p => Sys2Proof.Machine.execPmovRd d p s
  | .pmovWr a p => Sys2Proof.Machine.execPmovWr a p s
  | .fadd d a b p => Sys2Proof.Machine.execFadd d a b p s
  | .fsub d a b p => Sys2Proof.Machine.execFsub d a b p s
  | .fmul d a b p => Sys2Proof.Machine.execFmul d a b p s
  | .ffma d a b p => Sys2Proof.Machine.execFfma d a b p s
  | .fmin d a b p => Sys2Proof.Machine.execFmin d a b p s
  | .fmax d a b p => Sys2Proof.Machine.execFmax d a b p s
  | .fsgnCp d a b p => Sys2Proof.Machine.execFsgnCp d a b p s
  | .fsgnNeg d a b p => Sys2Proof.Machine.execFsgnNeg d a b p s
  | .fsgnXor d a b p => Sys2Proof.Machine.execFsgnXor d a b p s
  | .fcmp pd a b cond p => Sys2Proof.Machine.execFcmp pd a b cond p s
  | .fcvtI32F32 d a p => Sys2Proof.Machine.execFcvtI32F32 d a p s
  | .fcvtF32I32 d a p => Sys2Proof.Machine.execFcvtF32I32 d a p s
  | .fcvtU32F32 d a p => Sys2Proof.Machine.execFcvtU32F32 d a p s
  | .fcvtF32U32 d a p => Sys2Proof.Machine.execFcvtF32U32 d a p s
  | .fcvtF16F32 d a p => Sys2Proof.Machine.execFcvtF16F32 d a p s
  | .fcvtF32F16 d a p => Sys2Proof.Machine.execFcvtF32F16 d a p s
  | .fcvtBf16F32 d a p => Sys2Proof.Machine.execFcvtBf16F32 d a p s
  | .fcvtF32Bf16 d a p => Sys2Proof.Machine.execFcvtF32Bf16 d a p s
  | .fclass d a p => Sys2Proof.Machine.execFclass d a p s
  | .ld d h x imm sz sx cls p => Sys2Proof.Machine.execLd d h x imm sz sx cls p s
  | .st d h x imm sz cls p => Sys2Proof.Machine.execSt d h x imm sz cls p s
  | .ldWalk w h x imm cls p => Sys2Proof.Machine.execLdWalk w h x imm cls p s
  | .stWalk w h x imm cls p => Sys2Proof.Machine.execStWalk w h x imm cls p s
  | .xlate hd a p => Sys2Proof.Machine.execXlate hd a p s
  | .xlateScratch hd p => Sys2Proof.Machine.execXlateScratch hd p s
  | .xlatePlane hd pidx p => Sys2Proof.Machine.execXlatePlane hd pidx p s
  | .hfree hd p => Sys2Proof.Machine.execHfree hd p s
  | .htest d hd p => Sys2Proof.Machine.execHtest d hd p s
  | .aadd d h x imm a dw cls p => Sys2Proof.Machine.execAadd d h x imm a dw cls p s
  | .aand d h x imm a dw cls p => Sys2Proof.Machine.execAand d h x imm a dw cls p s
  | .aor d h x imm a dw cls p => Sys2Proof.Machine.execAor d h x imm a dw cls p s
  | .axor d h x imm a dw cls p => Sys2Proof.Machine.execAxor d h x imm a dw cls p s
  | .amin d h x imm a dw cls p => Sys2Proof.Machine.execAmin d h x imm a dw cls p s
  | .amax d h x imm a dw cls p => Sys2Proof.Machine.execAmax d h x imm a dw cls p s
  | .aminu d h x imm a dw cls p => Sys2Proof.Machine.execAminu d h x imm a dw cls p s
  | .amaxu d h x imm a dw cls p => Sys2Proof.Machine.execAmaxu d h x imm a dw cls p s
  | .axchg d h x imm a dw cls p => Sys2Proof.Machine.execAxchg d h x imm a dw cls p s
  | .acas d h x imm a b dw cls p => Sys2Proof.Machine.execAcas d h x imm a b dw cls p s
  | .afadd d h x imm a cls p => Sys2Proof.Machine.execAfadd d h x imm a cls p s
  | .nmrAdd h x imm a dw cls p => Sys2Proof.Machine.execNmrAdd h x imm a dw cls p s
  | .nmrFadd h x imm a cls p => Sys2Proof.Machine.execNmrFadd h x imm a cls p s
  | .nmrMin h x imm a dw cls p => Sys2Proof.Machine.execNmrMin h x imm a dw cls p s
  | .nmrMax h x imm a dw cls p => Sys2Proof.Machine.execNmrMax h x imm a dw cls p s
  | .nmrMinu h x imm a dw cls p => Sys2Proof.Machine.execNmrMinu h x imm a dw cls p s
  | .nmrMaxu h x imm a dw cls p => Sys2Proof.Machine.execNmrMaxu h x imm a dw cls p s
  | .nmrAnd h x imm a dw cls p => Sys2Proof.Machine.execNmrAnd h x imm a dw cls p s
  | .nmrOr h x imm a dw cls p => Sys2Proof.Machine.execNmrOr h x imm a dw cls p s
  | .nmrXor h x imm a dw cls p => Sys2Proof.Machine.execNmrXor h x imm a dw cls p s
  | .fence mask p => Sys2Proof.Machine.execFence mask p s
  | .rel mask scope p => Sys2Proof.Machine.execRel mask scope p s
  | .acq mask scope p => Sys2Proof.Machine.execAcq mask scope p s
  | .waitge h x imm a cls p => Sys2Proof.Machine.execWaitge h x imm a cls p s
  | .ctradd h x imm a cls p => Sys2Proof.Machine.execCtradd h x imm a cls p s
  | .pin d a b p => Sys2Proof.Machine.execPin d a b p s
  | .unpin a b p => Sys2Proof.Machine.execUnpin a b p s
  | .pref h x imm cls p => Sys2Proof.Machine.execPref h x imm cls p s
  | .clean h x imm p => Sys2Proof.Machine.execClean h x imm p s
  | .inval h x imm p => Sys2Proof.Machine.execInval h x imm p s
  | .tld h x wm tk q ht xt wt cls p => Sys2Proof.Machine.execTld h x wm tk q ht xt wt cls p s
  | .tst h x wm tk q ht xt wt cls p => Sys2Proof.Machine.execTst h x wm tk q ht xt wt cls p s
  | .lower d h x imm a cls p => Sys2Proof.Machine.execLower d h x imm a cls p s
  | .raise h x imm a cls p => Sys2Proof.Machine.execRaise h x imm a cls p s
  | .wcloc d a b sel p => Sys2Proof.Machine.execWcloc d a b sel p s
  | .wcrd d a b cls p => Sys2Proof.Machine.execWcrd d a b cls p s
  | .wcwr d a b c cls p => Sys2Proof.Machine.execWcwr d a b c cls p s
  | .blaunch d h imm cls p => Sys2Proof.Machine.execBlaunch d h imm cls p s
  | .rdsys d a imm p => Sys2Proof.Machine.execRdsys d a imm p s
  | .wrsys a b imm p => Sys2Proof.Machine.execWrsys a b imm p s
  | .shootPkg d a b c p => Sys2Proof.Machine.execShootPkg d a b c p s
  | .shootSet d a b c p => Sys2Proof.Machine.execShootSet d a b c p s
  | .ctxsv d a b c cls p => Sys2Proof.Machine.execCtxsv d a b c cls p s
  | .ctxrs d a b cls p => Sys2Proof.Machine.execCtxrs d a b cls p s
  | .haltcStop d a p => Sys2Proof.Machine.execHaltcStop d a p s
  | .haltcGo d a p => Sys2Proof.Machine.execHaltcGo d a p s
  | .keyldPart d a b c cls p => Sys2Proof.Machine.execKeyldPart d a b c cls p s
  | .keyldLink d a b c cls p => Sys2Proof.Machine.execKeyldLink d a b c cls p s
  | .keyldSign d a b c cls p => Sys2Proof.Machine.execKeyldSign d a b c cls p s
  | .keydrop a p => Sys2Proof.Machine.execKeydrop a p s
  | .hsinit cx p => Sys2Proof.Machine.execHsinit cx p s
  | .hsupd cx a b cls p => Sys2Proof.Machine.execHsupd cx a b cls p s
  | .hsfin d cx a cls p => Sys2Proof.Machine.execHsfin d cx a cls p s
  | .edsign d a b c cls p => Sys2Proof.Machine.execEdsign d a b c cls p s
  | .edver d a b c cls p => Sys2Proof.Machine.execEdver d a b c cls p s
  | .edverSlots d a b c cls p => Sys2Proof.Machine.execEdverSlots d a b c cls p s
  | .mext d a b cls p => Sys2Proof.Machine.execMext d a b cls p s
  | .rand d p => Sys2Proof.Machine.execRand d p s
  | .cpy ch hm xm wm tk q ht xt wt pst k cnt cls p => Sys2Proof.Machine.execCpy ch hm xm wm tk q ht xt wt pst k cnt cls p s
  | .cpyo ch hm xm wm tk q ht xt wt pst k cnt cls p => Sys2Proof.Machine.execCpyo ch hm xm wm tk q ht xt wt pst k cnt cls p s
  | .unfold ch hm xm wm tk q ht xt wt pst k cnt cls p => Sys2Proof.Machine.execUnfold ch hm xm wm tk q ht xt wt pst k cnt cls p s
  | .fill ch ht xt wt val pst k p => Sys2Proof.Machine.execFill ch ht xt wt val pst k p s
  | .xpose ch hm xm wm tk q ht xt wt pst k cnt cls p => Sys2Proof.Machine.execXpose ch hm xm wm tk q ht xt wt pst k cnt cls p s
  | .shunt qu hd xd wd hs xs ws ce fe rc hc cls p => Sys2Proof.Machine.execShunt qu hd xd wd hs xs ws ce fe rc hc cls p s
  | .shuntcAllreduce qu lvl ty hd xd hs xs rb ce fe rc hc cls p => Sys2Proof.Machine.execShuntcAllreduce qu lvl ty hd xd hs xs rb ce fe rc hc cls p s
  | .shuntcAllgather qu lvl ty hd xd hs xs rb ce fe rc hc cls p => Sys2Proof.Machine.execShuntcAllgather qu lvl ty hd xd hs xs rb ce fe rc hc cls p s
  | .shuntcReducescatter qu lvl ty hd xd hs xs rb ce fe rc hc cls p => Sys2Proof.Machine.execShuntcReducescatter qu lvl ty hd xd hs xs rb ce fe rc hc cls p s
  | .shuntcBroadcast qu lvl ty hd xd hs xs rb ce fe rc hc cls p => Sys2Proof.Machine.execShuntcBroadcast qu lvl ty hd xd hs xs rb ce fe rc hc cls p s
  | .wload ch row pb hs xs ws pst k cnt cls p => Sys2Proof.Machine.execWload ch row pb hs xs ws pst k cnt cls p s
  | .qstat d u p => Sys2Proof.Machine.execQstat d u p s
  | .mma acc q ws m0 m k0 dep p => Sys2Proof.Machine.execMma acc q ws m0 m k0 dep p s
  | .mmas acc q ws m0 m k0 dep p => Sys2Proof.Machine.execMmas acc q ws m0 m k0 dep p s
  | .wtile ws row p => Sys2Proof.Machine.execWtile ws row p s
  | .wswap p => Sys2Proof.Machine.execWswap p s
  | .mcommit tag p => Sys2Proof.Machine.execMcommit tag p s
  | .accz acc m0 m p => Sys2Proof.Machine.execAccz acc m0 m p s
  | .accrd acc q dk m0 m cv ht xt rs vb p => Sys2Proof.Machine.execAccrd acc q dk m0 m cv ht xt rs vb p s
  | .accwr acc q m0 m p => Sys2Proof.Machine.execAccwr acc q m0 m p s
  | .rpop q p => Sys2Proof.Machine.execRpop q p s
  | .vx cl vd va vb vc ve opa opb opc tya tyb tyc mda mdb mdc p => Sys2Proof.Machine.execVx cl vd va vb vc ve opa opb opc tya tyb tyc mda mdb mdc p s
  | .vdot cl vd va vb vc form dest p => Sys2Proof.Machine.execVdot cl vd va vb vc form dest p s
  | .vred cl sr v op ty p => Sys2Proof.Machine.execVred cl sr v op ty p s
  | .vperm cl vd va vb vc p => Sys2Proof.Machine.execVperm cl vd va vb vc p s
  | .vbcast cl v sr md p => Sys2Proof.Machine.execVbcast cl v sr md p s
  | .vxc cl vd cs va p => Sys2Proof.Machine.execVxc cl vd cs va p s
  | .vmov cl vd va p => Sys2Proof.Machine.execVmov cl vd va p s
  | .viota cl vd md p => Sys2Proof.Machine.execViota cl vd md p s
  | .vld cl v h x imm cls p => Sys2Proof.Machine.execVld cl v h x imm cls p s
  | .vst cl v h x imm cls p => Sys2Proof.Machine.execVst cl v h x imm cls p s
  | .vldx cl v h x imm vi cls p => Sys2Proof.Machine.execVldx cl v h x imm vi cls p s
  | .vstx cl v h x imm vi cls p => Sys2Proof.Machine.execVstx cl v h x imm vi cls p s
  | .vldt cl v h x imm cls p => Sys2Proof.Machine.execVldt cl v h x imm cls p s
  | .vstt cl v h x imm cls p => Sys2Proof.Machine.execVstt cl v h x imm cls p s
  | .pfcfg cl fr sr p => Sys2Proof.Machine.execPfcfg cl fr sr p s
  | .pfins cl fr vb sr p => Sys2Proof.Machine.execPfins cl fr vb sr p s
  | .pftst cl vd fr vb sr p => Sys2Proof.Machine.execPftst cl vd fr vb sr p s
  | .pfmrg cl fr fs p => Sys2Proof.Machine.execPfmrg cl fr fs p s
  | .pfrd cl vb fr sr p => Sys2Proof.Machine.execPfrd cl vb fr sr p s
  | .pfcnt cl sr fr sel p => Sys2Proof.Machine.execPfcnt cl sr fr sel p s
  | .pfclr cl fr p => Sys2Proof.Machine.execPfclr cl fr p s
  | .pfspl cl f h x imm cls p => Sys2Proof.Machine.execPfspl cl f h x imm cls p s
  | .pffil cl f h x imm cls p => Sys2Proof.Machine.execPffil cl f h x imm cls p s
  | .rcpVector cl vd va p => Sys2Proof.Machine.execRcpVector cl vd va p s
  | .rcpScalar d a p => Sys2Proof.Machine.execRcpScalar d a p s
  | .rsqVector cl vd va p => Sys2Proof.Machine.execRsqVector cl vd va p s
  | .rsqScalar d a p => Sys2Proof.Machine.execRsqScalar d a p s
  | .sqrtVector cl vd va p => Sys2Proof.Machine.execSqrtVector cl vd va p s
  | .sqrtScalar d a p => Sys2Proof.Machine.execSqrtScalar d a p s
  | .exp2Vector cl vd va p => Sys2Proof.Machine.execExp2Vector cl vd va p s
  | .exp2Scalar d a p => Sys2Proof.Machine.execExp2Scalar d a p s
  | .log2Vector cl vd va p => Sys2Proof.Machine.execLog2Vector cl vd va p s
  | .log2Scalar d a p => Sys2Proof.Machine.execLog2Scalar d a p s
  | .sinVector cl vd va p => Sys2Proof.Machine.execSinVector cl vd va p s
  | .sinScalar d a p => Sys2Proof.Machine.execSinScalar d a p s
  | .cosVector cl vd va p => Sys2Proof.Machine.execCosVector cl vd va p s
  | .cosScalar d a p => Sys2Proof.Machine.execCosScalar d a p s
  | .tanhVector cl vd va p => Sys2Proof.Machine.execTanhVector cl vd va p s
  | .tanhScalar d a p => Sys2Proof.Machine.execTanhScalar d a p s
  | .sigmVector cl vd va p => Sys2Proof.Machine.execSigmVector cl vd va p s
  | .sigmScalar d a p => Sys2Proof.Machine.execSigmScalar d a p s
  | .erfVector cl vd va p => Sys2Proof.Machine.execErfVector cl vd va p s
  | .erfScalar d a p => Sys2Proof.Machine.execErfScalar d a p s
  | .bAdd d a b => Sys2Proof.Machine.execBAdd d a b s
  | .bSub d a b => Sys2Proof.Machine.execBSub d a b s
  | .bMul d a b => Sys2Proof.Machine.execBMul d a b s
  | .bAnd d a b => Sys2Proof.Machine.execBAnd d a b s
  | .bOr d a b => Sys2Proof.Machine.execBOr d a b s
  | .bXor d a b => Sys2Proof.Machine.execBXor d a b s
  | .bShl d a b => Sys2Proof.Machine.execBShl d a b s
  | .bShr d a b => Sys2Proof.Machine.execBShr d a b s
  | .bSar d a b => Sys2Proof.Machine.execBSar d a b s
  | .bMin d a b => Sys2Proof.Machine.execBMin d a b s
  | .bMax d a b => Sys2Proof.Machine.execBMax d a b s
  | .bAddi d a imm => Sys2Proof.Machine.execBAddi d a imm s
  | .bAndi d a imm => Sys2Proof.Machine.execBAndi d a imm s
  | .bOri d a imm => Sys2Proof.Machine.execBOri d a imm s
  | .bXori d a imm => Sys2Proof.Machine.execBXori d a imm s
  | .bLui d imm => Sys2Proof.Machine.execBLui d imm s
  | .bShli d a imm => Sys2Proof.Machine.execBShli d a imm s
  | .bBeq a b off => Sys2Proof.Machine.execBBeq a b off s
  | .bBne a b off => Sys2Proof.Machine.execBBne a b off s
  | .bBlt a b off => Sys2Proof.Machine.execBBlt a b off s
  | .bBge a b off => Sys2Proof.Machine.execBBge a b off s
  | .bBltu a b off => Sys2Proof.Machine.execBBltu a b off s
  | .bBgeu a b off => Sys2Proof.Machine.execBBgeu a b off s
  | .bJ off => Sys2Proof.Machine.execBJ off s
  | .ropen y a imm => Sys2Proof.Machine.execRopen y a imm s
  | .ldy d y a imm sz => Sys2Proof.Machine.execLdy d y a imm sz s
  | .sty d y a imm sz => Sys2Proof.Machine.execSty d y a imm sz s
  | .vldy z y a imm => Sys2Proof.Machine.execVldy z y a imm s
  | .vsty z y a imm => Sys2Proof.Machine.execVsty z y a imm s
  | .rred y z op ty => Sys2Proof.Machine.execRred y z op ty s
  | .bVadd d a b ty => Sys2Proof.Machine.execBVadd d a b ty s
  | .bVsub d a b ty => Sys2Proof.Machine.execBVsub d a b ty s
  | .bVmul d a b ty => Sys2Proof.Machine.execBVmul d a b ty s
  | .bVmin d a b ty => Sys2Proof.Machine.execBVmin d a b ty s
  | .bVmax d a b ty => Sys2Proof.Machine.execBVmax d a b ty s
  | .bVand d a b => Sys2Proof.Machine.execBVand d a b s
  | .bVor d a b => Sys2Proof.Machine.execBVor d a b s
  | .bVxor d a b => Sys2Proof.Machine.execBVxor d a b s
  | .vbc d a => Sys2Proof.Machine.execVbc d a s
  | .bVred d a op ty => Sys2Proof.Machine.execBVred d a op ty s
  | .bViota d => Sys2Proof.Machine.execBViota d s
  | .kpost k c => Sys2Proof.Machine.execKpost k c s
  | .yieldb => Sys2Proof.Machine.execYieldb s
  | .endb => Sys2Proof.Machine.execEndb s
  | .loadValueArrival co cx ix => Sys2Proof.Machine.execLoadValueArrival co cx ix s
  | .windowRollback co cx => Sys2Proof.Machine.execWindowRollback co cx s
  | .interruptDistanceRollback co cx => Sys2Proof.Machine.execInterruptDistanceRollback co cx s
  | .runawayKill co cx => Sys2Proof.Machine.execRunawayKill co cx s
  | .blockedInterruptRollback co cx => Sys2Proof.Machine.execBlockedInterruptRollback co cx s
  | .groupSave co => Sys2Proof.Machine.execGroupSave co s
  | .copyCompletion co ch => Sys2Proof.Machine.execCopyCompletion co ch s
  | .shuntCompletion co qu => Sys2Proof.Machine.execShuntCompletion co qu s
  | .mxOperationStart co => Sys2Proof.Machine.execMxOperationStart co s
  | .mxOperationRetire co => Sys2Proof.Machine.execMxOperationRetire co s
  | .relCompletion co cx => Sys2Proof.Machine.execRelCompletion co cx s
  | .coreArrayWriteback co ln => Sys2Proof.Machine.execCoreArrayWriteback co ln s
  | .launchMessage mb st msg => Sys2Proof.Machine.execLaunchMessage mb st msg s
  | .launchAgeing id => Sys2Proof.Machine.execLaunchAgeing id s
  | .yardBatchDispatch => Sys2Proof.Machine.execYardBatchDispatch s
  | .groupStaging die => Sys2Proof.Machine.execGroupStaging die s
  | .groupStart co => Sys2Proof.Machine.execGroupStart co s
  | .groupEnd co => Sys2Proof.Machine.execGroupEnd co s
  | .dispatchThresholdAdapt col nend mean => Sys2Proof.Machine.execDispatchThresholdAdapt col nend mean s
  | .stationmasterFaultHandling => Sys2Proof.Machine.execStationmasterFaultHandling s
  | .faultRecordDeferredWrite => Sys2Proof.Machine.execFaultRecordDeferredWrite s
  | .fqrespResume w => Sys2Proof.Machine.execFqrespResume w s
  | .fqrespKill w => Sys2Proof.Machine.execFqrespKill w s
  | .mbstatErrClear mb w => Sys2Proof.Machine.execMbstatErrClear mb w s
  | .spwayReqWrite part w => Sys2Proof.Machine.execSpwayReqWrite part w s
  | .spwayWayComplete part => Sys2Proof.Machine.execSpwayWayComplete part s
  | .spwayChangeComplete part => Sys2Proof.Machine.execSpwayChangeComplete part s
  | .registerWrite off size w => Sys2Proof.Machine.execRegisterWrite off size w s
  | .walkRetry co cx => Sys2Proof.Machine.execWalkRetry co cx s
  | .waitgeReread co cx => Sys2Proof.Machine.execWaitgeReread co cx s
  | .parkExpiry co cx => Sys2Proof.Machine.execParkExpiry co cx s
  | .shootDownFlit f => Sys2Proof.Machine.execShootDownFlit f s
  | .shootDownAcknowledgeFlit f => Sys2Proof.Machine.execShootDownAcknowledgeFlit f s
  | .shootDownSubtreeTimeout id => Sys2Proof.Machine.execShootDownSubtreeTimeout id s
  | .shootDownFenceTimeout id => Sys2Proof.Machine.execShootDownFenceTimeout id s
  | .deviceCut => Sys2Proof.Machine.execDeviceCut s
  | .ballastLaunchMessage mb st msg => Sys2Proof.Machine.execBallastLaunchMessage mb st msg s
  | .ballastLaunchEnqueue id => Sys2Proof.Machine.execBallastLaunchEnqueue id s
  | .ballastInstanceStart st => Sys2Proof.Machine.execBallastInstanceStart st s
  | .ballastAgeing st id inst => Sys2Proof.Machine.execBallastAgeing st id inst s
  | .ballastLaunchCompletion id => Sys2Proof.Machine.execBallastLaunchCompletion id s
  | .fitterJobMessage mb msg => Sys2Proof.Machine.execFitterJobMessage mb msg s
  | .install => Sys2Proof.Machine.execInstall s
  | .partialUpdate => Sys2Proof.Machine.execPartialUpdate s
  | .exportJob => Sys2Proof.Machine.execExportJob s
  | .retime => Sys2Proof.Machine.execRetime s
  | .uninstall => Sys2Proof.Machine.execUninstall s
  | .readRequestFlit f => Sys2Proof.Machine.execReadRequestFlit f s
  | .readDataFlit f => Sys2Proof.Machine.execReadDataFlit f s
  | .writeFlit f => Sys2Proof.Machine.execWriteFlit f s
  | .writeAcknowledgeFlit f => Sys2Proof.Machine.execWriteAcknowledgeFlit f s
  | .atomicOrNmrFlit f => Sys2Proof.Machine.execAtomicOrNmrFlit f s
  | .collectiveFlit f => Sys2Proof.Machine.execCollectiveFlit f s
  | .flagAdditionFlit f => Sys2Proof.Machine.execFlagAdditionFlit f s
  | .enclaveControlFlit f => Sys2Proof.Machine.execEnclaveControlFlit f s
  | .setLaunchControlFlit f => Sys2Proof.Machine.execSetLaunchControlFlit f s
  | .flitDrop f => Sys2Proof.Machine.execFlitDrop f s
  | .getVersion chan req => Sys2Proof.Machine.execGetVersion chan req s
  | .getCapabilities chan req => Sys2Proof.Machine.execGetCapabilities chan req s
  | .negotiateAlgorithms chan req => Sys2Proof.Machine.execNegotiateAlgorithms chan req s
  | .getDigests chan req => Sys2Proof.Machine.execGetDigests chan req s
  | .getCertificate chan req => Sys2Proof.Machine.execGetCertificate chan req s
  | .challenge chan req => Sys2Proof.Machine.execChallenge chan req s
  | .getMeasurements chan req => Sys2Proof.Machine.execGetMeasurements chan req s
  | .keyExchange chan req => Sys2Proof.Machine.execKeyExchange chan req s
  | .finish chan req => Sys2Proof.Machine.execFinish chan req s
  | .endSession chan req => Sys2Proof.Machine.execEndSession chan req s
  | .spdmUnsupportedRequest chan req => Sys2Proof.Machine.execSpdmUnsupportedRequest chan req s
  | .setFormation rank ndev encl => Sys2Proof.Machine.execSetFormation rank ndev encl s
  | .enclavePolicy rec => Sys2Proof.Machine.execEnclavePolicy rec s
  | .enclaveAdmission rank meas secret => Sys2Proof.Machine.execEnclaveAdmission rank meas secret s
  | .revocationOrder ord => Sys2Proof.Machine.execRevocationOrder ord s
  | .hostUnprotectedRequest => Sys2Proof.Machine.execHostUnprotectedRequest s
  | .healthInterval cls unit n => Sys2Proof.Machine.execHealthInterval cls unit n s
  | .thermalThrottle => Sys2Proof.Machine.execThermalThrottle s
  | .thermalWarning => Sys2Proof.Machine.execThermalWarning s
  | .thermalTrip => Sys2Proof.Machine.execThermalTrip s
  | .powerOnReset img => Sys2Proof.Machine.execPowerOnReset img s
  | .powerOff => Sys2Proof.Machine.execPowerOff s
  | .idleEntry => Sys2Proof.Machine.execIdleEntry s
  | .idleWake => Sys2Proof.Machine.execIdleWake s
  | .tldLanding co cx ix => Sys2Proof.Machine.execTldLanding co cx ix s
  | .frontBusyEnd co cx fr => Sys2Proof.Machine.execFrontBusyEnd co cx fr s
  | .flitRetransmit port => Sys2Proof.Machine.execFlitRetransmit port s
  | .hostMemoryWrite pa bs => Sys2Proof.Machine.execHostMemoryWrite pa bs s
  | .ideEstablishment => Sys2Proof.Machine.execIdeEstablishment s

end Sys2Proof.Machine
end

