-- ==== Sys2Proof/Machine/Reads.lean ====
section
/-!
DEFINITION. The registers an instruction reads whose values may still be on their way: scalar, vector and walk registers,
which loads write (R14, R16), and handles, whose walks may outlast their latency (R129, R329). s0 is never on its way (R8).
-/
namespace Sys2Proof.Machine
open Sys2Proof

/-- A scalar register, a walk descriptor, a vector register as the name of a result. -/
def sr (a : BitVec 6) : RegName := .s a.toNat
def wr (w : BitVec 3) : RegName := .w w.toNat
def vr (cl : BitVec 3) (r : BitVec 5) : RegName := .v (vNum cl r)

/-- The registers of CE and FE (R373). -/
def rcReads (ce fe : BitVec 1) (rc : BitVec 6) : List RegName :=
  (if ce = 1 then [.s rc.toNat, .s (rc.toNat + 1)] else []) ++ (if fe = 1 then [.s (rc.toNat + 2)] else [])

/-- The registers of a cascade: the first unit's two, and one for each later unit that takes a register (R290). -/
def vxReads (cl : BitVec 3) (va vb vc ve opa opb opc : BitVec 5) : List RegName := (vxRegs cl va vb vc ve opa opb opc).map .v

/-- The registers of a front's block (R360). -/
def blockReads (t : Thread) (cl fr : BitVec 3) (vb : BitVec 5) : List RegName :=
  (upFrom (vNum cl vb) (frKeys (fReg t fr.toNat).cfg + 1)).map .v

/-- The registers that an instruction reads for a thread. -/
def reads (t : Thread) : Instr → List RegName
  | .ret a _ | .jmpr a _ _ | .loopx _ a _ _ | .setfmt a _ | .mdpc a _ _ | .addi _ a _ _ | .andi _ a _ _ |
    .ori _ a _ _ | .xori _ a _ _ | .clz _ a _ | .ctz _ a _ | .popc _ a _ | .brev _ a _ | .bswap _ a _ |
    .abs _ a _ | .ext _ a _ _ _ | .mov _ a _ | .cmpi _ a _ _ _ | .pmovWr a _ | .fcvtI32F32 _ a _ |
    .fcvtF32I32 _ a _ | .fcvtU32F32 _ a _ | .fcvtF32U32 _ a _ | .fcvtF16F32 _ a _ | .fcvtF32F16 _ a _ |
    .fcvtBf16F32 _ a _ | .fcvtF32Bf16 _ a _ | .fclass _ a _ | .xlate _ a _ | .rdsys _ a _ _ | .haltcStop _ a _ |
    .haltcGo _ a _ | .keydrop a _ | .hsfin _ _ a _ _ | .rcpScalar _ a _ | .rsqScalar _ a _ | .sqrtScalar _ a _ |
    .exp2Scalar _ a _ | .log2Scalar _ a _ | .sinScalar _ a _ | .cosScalar _ a _ | .tanhScalar _ a _ |
    .sigmScalar _ a _ | .erfScalar _ a _ => [sr a]
  | .add _ a b _ | .sub _ a b _ | .mul _ a b _ | .mulh _ a b _ | .mulhu _ a b _ | .div _ a b _ |
    .divu _ a b _ | .rem _ a b _ | .remu _ a b _ | .and _ a b _ | .or _ a b _ | .xor _ a b _ | .andn _ a b _ |
    .shl _ a b _ | .shr _ a b _ | .sar _ a b _ | .rot _ a b _ | .min _ a b _ | .max _ a b _ | .minu _ a b _ |
    .maxu _ a b _ | .bfx _ a b _ | .sel _ _ a b _ | .cmp _ a b _ _ | .fadd _ a b _ | .fsub _ a b _ |
    .fmul _ a b _ | .fmin _ a b _ | .fmax _ a b _ | .fsgnCp _ a b _ | .fsgnNeg _ a b _ | .fsgnXor _ a b _ |
    .fcmp _ a b _ _ | .pin _ a b _ | .unpin a b _ | .wcloc _ a b _ _ | .wcrd _ a b _ _ | .wrsys a b _ _ |
    .ctxrs _ a b _ _ | .hsupd _ a b _ _ | .mext _ a b _ _ => [sr a, sr b]
  | .bfi d a b _ | .ffma d a b _ => [sr d, sr a, sr b]
  | .movhi d _ _ => [sr d]
  | .ld _ _ x _ _ _ _ _ | .ldWalk _ _ x _ _ _ | .pref _ x _ _ _ | .clean _ x _ _ | .inval _ x _ _ |
    .vld _ _ _ x _ _ _ | .vldt _ _ _ x _ _ _ | .pfspl _ _ _ x _ _ _ | .pffil _ _ _ x _ _ _ => [sr x]
  | .st d _ x _ _ _ _ => [sr d, sr x]
  | .stWalk w _ x _ _ _ => [wr w, sr x]
  | .aadd _ _ x _ a _ _ _ | .aand _ _ x _ a _ _ _ | .aor _ _ x _ a _ _ _ | .axor _ _ x _ a _ _ _ |
    .amin _ _ x _ a _ _ _ | .amax _ _ x _ a _ _ _ | .aminu _ _ x _ a _ _ _ | .amaxu _ _ x _ a _ _ _ |
    .axchg _ _ x _ a _ _ _ | .afadd _ _ x _ a _ _ | .nmrAdd _ x _ a _ _ _ | .nmrFadd _ x _ a _ _ |
    .nmrMin _ x _ a _ _ _ | .nmrMax _ x _ a _ _ _ | .nmrMinu _ x _ a _ _ _ | .nmrMaxu _ x _ a _ _ _ |
    .nmrAnd _ x _ a _ _ _ | .nmrOr _ x _ a _ _ _ | .nmrXor _ x _ a _ _ _ | .waitge _ x _ a _ _ |
    .ctradd _ x _ a _ _ | .lower _ _ x _ a _ _ | .raise _ x _ a _ _ => [sr x, sr a]
  | .acas _ _ x _ a b _ _ _ => [sr x, sr a, sr b]
  | .tld _ x wm _ _ _ xt wt _ _ | .tst _ x wm _ _ _ xt wt _ _ => [sr x, wr wm, sr xt, wr wt]
  | .wcwr _ a b c _ _ | .shootPkg _ a b c _ | .shootSet _ a b c _ | .ctxsv _ a b c _ _ | .keyldPart _ a b c _ _ |
    .keyldLink _ a b c _ _ | .keyldSign _ a b c _ _ | .edsign _ a b c _ _ | .edver _ a b c _ _ |
    .edverSlots _ a b c _ _ => [sr a, sr b, sr c]
  | .cpy _ _ xm wm _ _ _ xt wt _ _ _ _ _ | .cpyo _ _ xm wm _ _ _ xt wt _ _ _ _ _ | .unfold _ _ xm wm _ _ _ xt wt _ _ _ _ _ => [sr xm, wr wm, sr xt, wr wt]
  | .fill _ _ xt wt _ _ _ _ => [sr xt, wr wt]
  | .xpose _ _ xm wm _ _ _ xt _ _ _ _ _ _ => [sr xm, wr wm, sr xt]
  | .shunt _ _ xd wd _ xs ws ce fe rc _ _ _ => [sr xd, wr wd, sr xs, wr ws] ++ rcReads ce fe rc
  | .shuntcAllreduce _ _ _ _ xd _ xs rb ce fe rc _ _ _ | .shuntcAllgather _ _ _ _ xd _ xs rb ce fe rc _ _ _ |
    .shuntcReducescatter _ _ _ _ xd _ xs rb ce fe rc _ _ _ | .shuntcBroadcast _ _ _ _ xd _ xs rb ce fe rc _ _ _ => [sr xd, sr xs, sr rb] ++ rcReads ce fe rc
  | .wload _ _ _ _ xs ws _ _ _ _ _ => [sr xs, wr ws]
  | .accrd _ _ _ _ _ _ _ xt rs _ _ => [sr xt, sr rs]
  | .vx cl _ va vb vc ve opa opb opc _ _ _ _ _ _ _ => vxReads cl va vb vc ve opa opb opc
  | .vdot cl _ va vb vc _ _ _ | .vperm cl _ va vb vc _ => [vr cl va, vr cl vb, vr cl vc]
  | .vred cl _ v _ _ _ => [vr cl v]
  | .vbcast _ _ s _ _ | .pfcfg _ _ s _ | .pfrd _ _ _ s _ => [sr s]
  | .vxc _ _ cs va _ => [vr cs va]
  | .vmov cl _ va _ | .rcpVector cl _ va _ | .rsqVector cl _ va _ | .sqrtVector cl _ va _ | .exp2Vector cl _ va _ |
    .log2Vector cl _ va _ | .sinVector cl _ va _ | .cosVector cl _ va _ | .tanhVector cl _ va _ |
    .sigmVector cl _ va _ | .erfVector cl _ va _ => [vr cl va]
  | .vst cl v _ x _ _ _ | .vstt cl v _ x _ _ _ => [sr x, vr cl v]
  | .vldx cl _ _ x _ vi _ _ => [sr x, vr cl vi]
  | .vstx cl v _ x _ vi _ _ => [sr x, vr cl v, vr cl vi]
  | .pfins cl fr vb s _ | .pftst cl _ fr vb s _ => sr s :: blockReads t cl fr vb
  | _ => []

/-- A handle register as the name of a result, and one that a bit selects. -/
def hr (h : BitVec 4) : RegName := .h h.toNat
def hrIf (b : BitVec 1) (h : BitVec 4) : List RegName := if b = 1 then [hr h] else []

/-- The handle registers that an instruction reads. -/
def hReads : Instr → List RegName
  | .ld _ h _ _ _ _ _ _ | .st _ h _ _ _ _ _ | .ldWalk _ h _ _ _ _ | .stWalk _ h _ _ _ _ | .aadd _ h _ _ _ _ _ _ |
    .aand _ h _ _ _ _ _ _ | .aor _ h _ _ _ _ _ _ | .axor _ h _ _ _ _ _ _ | .amin _ h _ _ _ _ _ _ |
    .amax _ h _ _ _ _ _ _ | .aminu _ h _ _ _ _ _ _ | .amaxu _ h _ _ _ _ _ _ | .axchg _ h _ _ _ _ _ _ |
    .acas _ h _ _ _ _ _ _ _ | .afadd _ h _ _ _ _ _ | .nmrAdd h _ _ _ _ _ _ | .nmrFadd h _ _ _ _ _ |
    .nmrMin h _ _ _ _ _ _ | .nmrMax h _ _ _ _ _ _ | .nmrMinu h _ _ _ _ _ _ | .nmrMaxu h _ _ _ _ _ _ |
    .nmrAnd h _ _ _ _ _ _ | .nmrOr h _ _ _ _ _ _ | .nmrXor h _ _ _ _ _ _ | .waitge h _ _ _ _ _ |
    .ctradd h _ _ _ _ _ | .pref h _ _ _ _ | .clean h _ _ _ | .inval h _ _ _ | .lower _ h _ _ _ _ _ |
    .raise h _ _ _ _ _ | .blaunch _ h _ _ _ | .vld _ _ h _ _ _ _ | .vst _ _ h _ _ _ _ | .vldx _ _ h _ _ _ _ _ |
    .vstx _ _ h _ _ _ _ _ | .vldt _ _ h _ _ _ _ | .vstt _ _ h _ _ _ _ | .pfspl _ _ h _ _ _ _ | .pffil _ _ h _ _ _ _ => [hr h]
  | .htest _ hd _ => [hr hd]
  | .tld h _ _ tk _ ht _ _ _ _ | .tst h _ _ tk _ ht _ _ _ _ => [hr h] ++ hrIf tk ht
  | .cpy _ hm _ _ tk _ ht _ _ _ _ _ _ _ | .cpyo _ hm _ _ tk _ ht _ _ _ _ _ _ _ | .unfold _ hm _ _ tk _ ht _ _ _ _ _ _ _ |
    .xpose _ hm _ _ tk _ ht _ _ _ _ _ _ _ => [hr hm] ++ hrIf tk ht
  | .fill _ ht _ _ _ _ _ _ => [hr ht]
  | .shunt _ hd _ _ hs _ _ ce _ _ hc _ _ | .shuntcAllreduce _ _ _ hd _ hs _ _ ce _ _ hc _ _ | .shuntcAllgather _ _ _ hd _ hs _ _ ce _ _ hc _ _ |
    .shuntcReducescatter _ _ _ hd _ hs _ _ ce _ _ hc _ _ | .shuntcBroadcast _ _ _ hd _ hs _ _ ce _ _ hc _ _ => [hr hd, hr hs] ++ hrIf ce hc
  | .wload _ _ _ hs _ _ _ _ _ _ _ => [hr hs]
  | .accrd _ _ dk _ _ _ ht _ _ _ _ => (if dk = 1 then [hr ht] else [])
  | _ => []

/-- The predicate of a slot (R277); an instruction without one always has its effect. -/
def predOf : Instr → BitVec 5
  | .br _ p | .brp _ _ _ p | .call _ _ p | .ret _ p | .jmpr _ _ p | .loop _ _ _ p | .loopx _ _ _ p | .yield p |
    .exit p | .trap _ p | .svc _ p | .eret p | .setfmt _ p | .fmtrd _ p | .mdpc _ _ p | .step _ p | .barr _ p |
    .mwait _ p | .park _ p | .add _ _ _ p | .addi _ _ _ p | .sub _ _ _ p | .mul _ _ _ p | .mulh _ _ _ p |
    .mulhu _ _ _ p | .div _ _ _ p | .divu _ _ _ p | .rem _ _ _ p | .remu _ _ _ p | .and _ _ _ p | .andi _ _ _ p |
    .or _ _ _ p | .ori _ _ _ p | .xor _ _ _ p | .xori _ _ _ p | .andn _ _ _ p | .shl _ _ _ p | .shr _ _ _ p |
    .sar _ _ _ p | .rot _ _ _ p | .clz _ _ p | .ctz _ _ p | .popc _ _ p | .brev _ _ p | .bswap _ _ p |
    .min _ _ _ p | .max _ _ _ p | .minu _ _ _ p | .maxu _ _ _ p | .abs _ _ p | .ext _ _ _ _ p | .bfx _ _ _ p |
    .bfi _ _ _ p | .mov _ _ p | .movi _ _ p | .movhi _ _ p | .sel _ _ _ _ p | .cmp _ _ _ _ p | .cmpi _ _ _ _ p |
    .pset _ _ _ _ p | .pmovRd _ p | .pmovWr _ p | .fadd _ _ _ p | .fsub _ _ _ p | .fmul _ _ _ p | .ffma _ _ _ p |
    .fmin _ _ _ p | .fmax _ _ _ p | .fsgnCp _ _ _ p | .fsgnNeg _ _ _ p | .fsgnXor _ _ _ p | .fcmp _ _ _ _ p |
    .fcvtI32F32 _ _ p | .fcvtF32I32 _ _ p | .fcvtU32F32 _ _ p | .fcvtF32U32 _ _ p | .fcvtF16F32 _ _ p |
    .fcvtF32F16 _ _ p | .fcvtBf16F32 _ _ p | .fcvtF32Bf16 _ _ p | .fclass _ _ p | .ld _ _ _ _ _ _ _ p |
    .st _ _ _ _ _ _ p | .ldWalk _ _ _ _ _ p | .stWalk _ _ _ _ _ p | .xlate _ _ p | .xlateScratch _ p |
    .xlatePlane _ _ p | .hfree _ p | .htest _ _ p | .aadd _ _ _ _ _ _ _ p | .aand _ _ _ _ _ _ _ p | .aor _ _ _ _ _ _ _ p |
    .axor _ _ _ _ _ _ _ p | .amin _ _ _ _ _ _ _ p | .amax _ _ _ _ _ _ _ p | .aminu _ _ _ _ _ _ _ p | .amaxu _ _ _ _ _ _ _ p |
    .axchg _ _ _ _ _ _ _ p | .acas _ _ _ _ _ _ _ _ p | .afadd _ _ _ _ _ _ p | .nmrAdd _ _ _ _ _ _ p |
    .nmrFadd _ _ _ _ _ p | .nmrMin _ _ _ _ _ _ p | .nmrMax _ _ _ _ _ _ p | .nmrMinu _ _ _ _ _ _ p | .nmrMaxu _ _ _ _ _ _ p |
    .nmrAnd _ _ _ _ _ _ p | .nmrOr _ _ _ _ _ _ p | .nmrXor _ _ _ _ _ _ p | .fence _ p | .rel _ _ p | .acq _ _ p |
    .waitge _ _ _ _ _ p | .ctradd _ _ _ _ _ p | .pin _ _ _ p | .unpin _ _ p | .pref _ _ _ _ p | .clean _ _ _ p |
    .inval _ _ _ p | .tld _ _ _ _ _ _ _ _ _ p | .tst _ _ _ _ _ _ _ _ _ p | .lower _ _ _ _ _ _ p | .raise _ _ _ _ _ p |
    .wcloc _ _ _ _ p | .wcrd _ _ _ _ p | .wcwr _ _ _ _ _ p | .blaunch _ _ _ _ p | .rdsys _ _ _ p | .wrsys _ _ _ p |
    .shootPkg _ _ _ _ p | .shootSet _ _ _ _ p | .ctxsv _ _ _ _ _ p | .ctxrs _ _ _ _ p | .haltcStop _ _ p |
    .haltcGo _ _ p | .keyldPart _ _ _ _ _ p | .keyldLink _ _ _ _ _ p | .keyldSign _ _ _ _ _ p | .keydrop _ p |
    .hsinit _ p | .hsupd _ _ _ _ p | .hsfin _ _ _ _ p | .edsign _ _ _ _ _ p | .edver _ _ _ _ _ p | .edverSlots _ _ _ _ _ p |
    .mext _ _ _ _ p | .rand _ p | .cpy _ _ _ _ _ _ _ _ _ _ _ _ _ p | .cpyo _ _ _ _ _ _ _ _ _ _ _ _ _ p |
    .unfold _ _ _ _ _ _ _ _ _ _ _ _ _ p | .fill _ _ _ _ _ _ _ p | .xpose _ _ _ _ _ _ _ _ _ _ _ _ _ p |
    .shunt _ _ _ _ _ _ _ _ _ _ _ _ p | .shuntcAllreduce _ _ _ _ _ _ _ _ _ _ _ _ _ p | .shuntcAllgather _ _ _ _ _ _ _ _ _ _ _ _ _ p |
    .shuntcReducescatter _ _ _ _ _ _ _ _ _ _ _ _ _ p | .shuntcBroadcast _ _ _ _ _ _ _ _ _ _ _ _ _ p |
    .wload _ _ _ _ _ _ _ _ _ _ p | .qstat _ _ p | .mma _ _ _ _ _ _ _ p | .mmas _ _ _ _ _ _ _ p | .wtile _ _ p |
    .wswap p | .mcommit _ p | .accz _ _ _ p | .accrd _ _ _ _ _ _ _ _ _ _ p | .accwr _ _ _ _ p | .rpop _ p |
    .vx _ _ _ _ _ _ _ _ _ _ _ _ _ _ _ p | .vdot _ _ _ _ _ _ _ p | .vred _ _ _ _ _ p | .vperm _ _ _ _ _ p |
    .vbcast _ _ _ _ p | .vxc _ _ _ _ p | .vmov _ _ _ p | .viota _ _ _ p | .vld _ _ _ _ _ _ p | .vst _ _ _ _ _ _ p |
    .vldx _ _ _ _ _ _ _ p | .vstx _ _ _ _ _ _ _ p | .vldt _ _ _ _ _ _ p | .vstt _ _ _ _ _ _ p | .pfcfg _ _ _ p |
    .pfins _ _ _ _ p | .pftst _ _ _ _ _ p | .pfmrg _ _ _ p | .pfrd _ _ _ _ p | .pfcnt _ _ _ _ p | .pfclr _ _ p |
    .pfspl _ _ _ _ _ _ p | .pffil _ _ _ _ _ _ p | .rcpVector _ _ _ p | .rcpScalar _ _ p | .rsqVector _ _ _ p |
    .rsqScalar _ _ p | .sqrtVector _ _ _ p | .sqrtScalar _ _ p | .exp2Vector _ _ _ p | .exp2Scalar _ _ p |
    .log2Vector _ _ _ p | .log2Scalar _ _ p | .sinVector _ _ _ p | .sinScalar _ _ p | .cosVector _ _ _ p |
    .cosScalar _ _ p | .tanhVector _ _ _ p | .tanhScalar _ _ p | .sigmVector _ _ _ p | .sigmScalar _ _ p |
    .erfVector _ _ _ p | .erfScalar _ _ p => p
  | _ => 0

/-- A slot waits for a result whose landing position has come and whose value has not (R16). One whose predicate is false
reads nothing. -/
def slotStalls (t : Thread) (i : Instr) : Bool :=
  predOk t (predOf i) && (reads t i ++ hReads i).any (fun r => r != .s 0 && t.pend.any (fun e => e.reg == r && decide (e.land ≤ t.pos) && e.load.isSome))

end Sys2Proof.Machine
end

