-- ==== Sys2Proof/Machine/Bundle.lean ====
section
/-!
DEFINITION. One bundle of a thread (R9 to R13, R34, R276), the selection of a context by its core (R33, R35), a mark that
goes on, and one instruction of a ballast core (R184, R197). A bundle that blocks has not issued: it leaves its thread
blocked, in a retry, or waiting, and is tried again.
-/
namespace Sys2Proof.Machine
open Sys2Proof

/-- What follows an outcome's next state. -/
def andThen (o : Out) (f : State → Out) : Out :=
  match o with
  | .next s => f s
  | .fault r => .fault r
  | .refused r => .refused r

/-- A run state in which a bundle has not issued (R34, R129, R334). -/
def isBlock : RunState → Bool
  | .blocked => true
  | .waitge => true
  | .walking n => n % 3 != 1
  | _ => false

/-! Fetching. -/

/-- Every class of the segment declares a latency (R18, R276 step 1). -/
def latOk (g : Seg) : Bool := (upFrom 0 8).all (fun c => latOf g c != 0)

/-- The bundle at an offset within the code of a segment, decoded from home memory (R13, R275, R276). -/
def fetch (s : State) (g : Seg) (pc : Nat) : BundleRes :=
  decodeBundle g.sys (latOk g) (memBytes s (g.code + pc) (min 108 (g.len - pc)))

/-- The fault of a refused encoding (R276). -/
def encFault : DecRes → FaultCode
  | .privOpcode => .privOpcode
  | .illegalOpcode => .illegalOpcode
  | _ => .illegalBundle

/-- The mask of a bundle's slots. -/
def maskOf (b : Bundle) : Nat := b.slots.foldl (fun n x => n + 2 ^ x.1) 0

/-- The row that a bundle's header shows (R39, R275). -/
def headRow (b : Bundle) : Instr :=
  let c := BitVec.ofNat 8 b.count
  let f := BitVec.ofNat 5 b.flag
  let k := BitVec.ofNat 15 (maskOf b)
  if b.m then .restartMark c f (BitVec.ofNat 2 b.sync) k
  else match b.sync with
    | 1 => .wait c f 0 k
    | 2 => .post c f 0 k
    | 3 => .take c f 0 k
    | _ => .idle

/-! The slots. -/

/-- The focused thread at its next bundle: what is due has landed (R14), and the bundle's own address is noted. -/
def readyTh (s : State) : State :=
  let t := landDue s.th
  let run : RunState := match t.run with
    | .walking n => .walking (if n % 3 = 2 then n - 4 else n)
    | _ => .ready
  { s with th := { t with run := run, marking := 0, bpc := t.pc.toNat, slot := 0 } }

/-- One slot's instruction, in the slot of mask bit `k`. -/
def slotAt (k : Nat) (i : Instr) (s : State) : Out := exec i { s with th := { s.th with slot := k } }

/-- What a try that blocks leaves of its thread (R34): the bundle has not issued, and none of its slots has acted. That it waits,
the stalls it has counted, and the translations that it has made (R128) stay. -/
def triedTh (t t' : Thread) : Thread :=
  { t with run := t'.run, marking := t'.marking, stalls := t'.stalls, used := t'.used, h := t'.h }

/-- What the first slot that blocks leaves, each slot tried on the state before the bundle (R9, R34). -/
def firstBlock (s : State) : List (Nat × Instr) → Option State
  | [] => none
  | x :: r =>
    if slotStalls s.th x.2 then some (block s)
    else match slotAt x.1 x.2 s with
      | .next s' => if isBlock s'.th.run then some { s' with th := triedTh s.th s'.th } else firstBlock s r
      | _ => firstBlock s r

/-- The slots in mask order. Their results are in flight, so that each reads registers as they stood before (R9). -/
def runSlots (s : State) : List (Nat × Instr) → Out
  | [] => .next s
  | x :: r => andThen (slotAt x.1 x.2 s) (fun s' => runSlots s' r)

/-- An interrupt's distance counted (R235, R237). -/
def countInt (t : Thread) : Thread :=
  if !t.intr then t
  else if t.defer || t.insys then { t with deferN := t.deferN + 1 }
  else { t with idist := t.idist + 1 }

/-- The end of a bundle's own effects: fronts (R101), MPC (R314), loops (R305), counts; what its walks have read is used up. A
mark's position moves when it retires. -/
def bundleEnd (s : State) (mark : Bool) : State :=
  let t := s.th
  let run : RunState := match t.run with
    | .walking _ => .ready
    | r => r
  let t1 : Thread :=
    { t with fr := t.heldFr.foldl (fun f x => tset Front.init f x.1 x.2) t.fr, fbusy := t.fbusy ||| t.heldBusy, heldFr := [],
             heldBusy := 0, mpc := t.heldMpc.getD t.mpc, heldMpc := none, stalls := [], run := run,
             pos := if mark then t.pos else t.pos + 1 }
  let mine := [0, coOf s, cxOf s]
  { (if s.regs.inset then forget s (fun x => x == mine) else s) with th := countInt (loopStep t1 t1.bpc 6) }

/-- A try has blocked although each of its slots could act alone: it has not issued, but what it has asked other devices for is on its
way. -/
def keepAsks (s t : State) : State :=
  (t.readWait.filter (fun x => !s.readWait.contains x && decide (x.2.1 < 2 ^ 42))).foldl
    (fun u x => { askSector { u with rtag := x.2.2.2 } x.1 x.2.1 x.2.2.1 with rtag := u.rtag }) (block s)

/-- Header and slots together; `k` goes on when nothing blocks. -/
def issueAll (s : State) (head : State → Out) (sl : List (Nat × Instr)) (k : State → Out) : Out :=
  match firstBlock s sl with
  | some s' => .next s'
  | none => andThen (head s) (fun s1 => andThen (runSlots s1 sl) (fun s2 =>
      if isBlock s2.th.run then .next (keepAsks s s2) else k s2))

/-- A decoded bundle of the focused thread: it issues, or it blocks. -/
def runBundle (s : State) (b : Bundle) : Out :=
  let s := { s with th := { s.th with pc := s.th.pc + BitVec.ofNat 64 b.len } }
  let unmet := (b.sync == 1 || b.sync == 3) && !syncMet s.grp b.flag b.count
  let row := headRow b
  if b.isMark && !markDrained s then .next { block s with th := { (block s).th with marking := 1 } }
  else if unmet then .next (block s)
  else if b.m then issueAll s (fun s => .next s) b.slots (fun s => exec row (bundleEnd s true))
  else if b.isMark then issueAll s (exec row) b.slots (fun s => exec (.restartMark 0 0 0 0) (bundleEnd s true))
  else issueAll s (exec row) b.slots (fun s => .next (bundleEnd s false))

/-- A bundle that has not issued leaves the PC where it was. -/
def tryBundle (s : State) : Out :=
  let s := readyTh s
  match fetch s s.th.seg s.th.pc.toNat with
  | .pastEnd => .next (raise s .illegalTarget 0)
  | .bad k _ r => .next (raise { s with th := { s.th with slot := k } } (encFault r) 0)
  | .ok b => andThen (runBundle s b) (fun s' =>
      .next (if isBlock s'.th.run then { s' with th := { s'.th with pc := s.th.pc } } else s'))

/-! The core. -/

/-- The contexts of the focused core in the order of R33. -/
def claimOrder (s : State) : List Nat :=
  ((upFrom 0 4).map (fun i => (s.core.claim + i) % 4)).filter (fun cx => decide (cx < s.grp.kern.threads))

/-- The thread has a bundle to try. -/
def mayTry (t : Thread) : Bool :=
  t.fault.isNone && !heldBack t && (match t.run with
    | .ready => true
    | .blocked => true
    | .walking n => n % 3 != 0
    | _ => false)

/-- The core's selection among contexts (R33), and whether anything has changed. -/
def issueFrom (s : State) (moved : Bool) : List Nat → Out × Bool
  | [] => (.next s, moved)
  | cx :: r =>
    let t := thAt s.grp cx
    if !mayTry t || shotHold s s.grp.image t then issueFrom s moved r
    else match tryBundle (focusCx s cx) with
      | .next s1 =>
        if isBlock s1.th.run then issueFrom (unfocusCx s1) (moved || s1.th != t || s1.readWait != s.readWait) r
        else
          let s2 := unfocusCx s1
          (.next (match s2.cur with
            | .core _ => { s2 with core := { s2.core with claim := cx } }
            | _ => s2), true)
      | o => (o, true)

/-- The contexts that have yielded. -/
def yielded (g : Group) : List Nat := (upFrom 0 g.kern.threads).filter (fun cx => (thAt g cx).run == .yielded)

/-- One cycle of core `co` (R33, R35): a context that has yielded is passed over once. -/
def issueCore (s : State) (co : Nat) : Out × Bool :=
  let s1 := focusCore s co
  if s1.cur == .none then (.next s, false)
  else
    let ys := yielded s1.grp
    let g := ys.foldl (fun g cx => { g with ths := tmod Thread.init g.ths cx (fun t => { t with run := .ready }) }) s1.grp
    match (claimOrder s1).filter (fun cx => !ys.contains cx) with
    | cs => match issueFrom { s1 with grp := g } (!ys.isEmpty) cs with
      | (o, m) => (andThen o (fun s2 => .next (unfocus s2)), m)

/-- The steps at which a mark waits for nothing but its own next try (Mark): its own operations, step 1, data of other devices, its
privileged instructions. -/
def markTries (t : Thread) : Bool := t.run == .heldWait && t.fault.isNone && !runawayReady t && [2, 5, 8, 9, 10].contains t.marking

/-- A mark that waits goes on, and whether that changes anything. -/
def markGo (s : State) (co cx : Nat) : Out × Bool :=
  let s1 := focusTh s co cx
  if s1.cur == .none || !(threadIs s co cx && markTries s1.th) || shotHold s1 s1.grp.image s1.th then (.next s, false)
  else match exec (.restartMark 0 0 0 0) s1 with
    | .next s2 => (.next (unfocus s2), s2.cur != s1.cur || s2.th != s1.th || s2.readWait != s1.readWait || s2.core != s1.core)
    | o => (o, true)

/-! The ballast level. -/

/-- One instruction of the instance on ballast core `bc`; a word that is none, or lies beyond the code, is refused (R197). -/
noncomputable def ballastStep (s : State) (bc : Nat) : Out :=
  let s1 := focusBallast s bc
  let bs := (s1.bi.code.drop s1.bi.pc.toNat).take 4
  match decodeBallast (leNat bs) with
  | .ok i =>
    if bs.length < 4 then .next (unfocus (ballastFault s1 .illegalOpcode 0))
    else andThen (exec i s1) (fun s2 => .next (unfocus s2))
  | _ => .next (unfocus (ballastFault s1 .illegalOpcode 0))

end Sys2Proof.Machine
end

