-- ==== Sys2Proof/Machine/Drive.lean ====
section
/-!
DEFINITION. What may happen next. Every agent of the machine acts on its own; the spec leaves their order open. From a state
this file lists the actions that are enabled: a bundle of a core, a waiting mark, an instruction of a ballast core, an event
of a unit, the oldest input.
-/
namespace Sys2Proof.Machine
open Sys2Proof

/-- What the machine does for no event of the opcode table: it acts on shoot-downs as far as it can (R159, R258), starts a gang that
every member of the set has staged (R256), completes a launch whose completion has had to wait (R72), has a dependency counter
watched at its home (R62), checks the oldest message that waits (R58, R189, R208), tells the launching device of a part of a set gang
that stands staged (R256), pre-empts a part of one, or the group of a core out of service, once the save area has room (R238, R421),
boots after a reset (R425), answers a host's read (R420). -/
inductive Chore where
  | shoot
  | startSet (id dom : Nat)
  | complete (id : Nat)
  | watch (id : Nat)
  | message
  | staged (id dom : Nat)
  | preempt (id dom : Nat)
  | leave (co : Nat)
  | boot
  | hostRead
deriving DecidableEq, Repr

/-- A chore done. -/
def doChore (s : State) : Chore → State
  | .shoot => shootActed s
  | .startSet id dom => startSet s id dom
  | .complete id => launchEnd s id
  | .watch id => watchDep s id
  | .message => pendGo s
  | .staged id dom => tellStaged s id dom
  | .preempt id dom => preemptPart s id dom
  | .leave co => tellPreempt (requestPreempt s co)
  | .boot => (match s.boot with
    | some img => bootRun s img
    | none => s)
  | .hostRead => hostReadNext s

/-- The chores that would change something. -/
def chores (s : State) : List Chore :=
  (if !s.shoots.isEmpty && shootActed s != s then [.shoot] else []) ++
  s.launches.flatMap (fun l =>
    ((l.reports.map (fun x => x.2.1)).filter (setDue s l)).map (Chore.startSet l.id) ++
    ((l.reports.filter (fun x => x.1 == 4 && partRoom s l.id x.2.1)).map (fun x => Chore.preempt l.id x.2.1)) ++
    (if endGoes s l then [.complete l.id] else []) ++ (if watchReady s l then [.watch l.id] else [])) ++
  (if pendReady s then [.message] else []) ++ (stagedParts s).map (fun x => .staged x.1 x.2) ++
  ((s.cores.map (fun c => c.1)).filter (leaveDue s)).map .leave

/-- An action: a core's cycle, a mark that goes on, a ballast instruction, a chore, an event of the device's own, the oldest
input. -/
inductive Act where
  | issue (co : Nat)
  | mark (co cx : Nat)
  | ballast (bc : Nat)
  | chore (c : Chore)
  | ev (i : Instr)
  | input
deriving DecidableEq, Repr

/-- An action taken. -/
noncomputable def act (a : Act) (s : State) : Out :=
  match a with
  | .issue co => (issueCore s co).1
  | .mark co cx => (markGo s co cx).1
  | .ballast bc => ballastStep s bc
  | .chore c => .next (doChore s c)
  | .ev i => exec i s
  | .input => match s.agenda with
    | [] => .next s
    | i :: r => exec i { s with agenda := r }

/-- One event if it is enabled. -/
def evIf (c : Bool) (i : Instr) : List Act := if c then [.ev i] else []

/-- The actions of one thread; `s` has its core focused. -/
noncomputable def threadActs (s : State) (co cx : Nat) : List Act :=
  let t := thAt s.grp cx
  let walks : Bool := match t.run with
    | .walking n => n % 3 == 0
    | _ => false
  ((upFrom 0 t.pend.length).filter (loadReady s cx)).map (fun ix => Act.ev (.loadValueArrival co cx ix)) ++
  ((upFrom 0 s.grp.tld.length).filter (tldReady s cx)).map (fun ix => Act.ev (.tldLanding co cx ix)) ++
  ((upFrom 0 8).filter (fun f => t.fbusy.getLsbD f)).map (fun f => Act.ev (.frontBusyEnd co cx f)) ++
  evIf (rollbackReady s cx) (.windowRollback co cx) ++
  evIf (distanceReady s cx) (.interruptDistanceRollback co cx) ++
  evIf (blockedReady s cx) (.blockedInterruptRollback co cx) ++
  evIf (runawayReady t) (.runawayKill co cx) ++
  evIf (t.run == .relWait && relReady s s.core.fifo cx) (.relCompletion co cx) ++
  evIf (walks && !heldBack t) (.walkRetry co cx) ++
  evIf (t.run == .waitge && !heldBack t) (.waitgeReread co cx) ++
  evIf (t.run == .parked && !heldBack t) (.parkExpiry co cx)

/-- The actions of a core's group; `s` has the core focused. -/
noncomputable def groupActs (s : State) (co : Nat) : List Act :=
  let g := s.grp
  (upFrom 0 g.kern.threads).flatMap (threadActs s co) ++
  (g.ch.filter (fun c => copyReady s c.1 c.2)).map (fun c => Act.ev (.copyCompletion co c.1)) ++
  ((upFrom 0 4).filter (shuntReady s)).map (fun q => Act.ev (.shuntCompletion co q)) ++
  evIf (mxReady s) (.mxOperationStart co) ++
  evIf (match g.mx with
    | (_, o) :: _ => o.started
    | [] => false) (.mxOperationRetire co)

/-- The actions of a core. -/
noncomputable def coreActs (s : State) (co : Nat) : List Act :=
  let c := coreAt s co
  let save : Bool := match c.grp with
    | some g => g.saving && !g.halted && saveReady c && fifoMoves c.fifo && shootsActed s
    | none => false
  (dirtyLines c).map (fun ln => Act.ev (.coreArrayWriteback co ln)) ++
  (if c.grp.isSome then groupActs (focusCore s co) co else []) ++
  (if (issueCore s co).2 then [.issue co] else []) ++
  ((upFrom 0 4).filter (fun cx => (markGo s co cx).2)).map (fun cx => Act.mark co cx) ++
  evIf save (.groupSave co) ++ evIf (endReady c) (.groupEnd co) ++ evIf (startReady s co) (.groupStart co)

/-- The actions of the ballast level. -/
noncomputable def ballastActs (s : State) : List Act :=
  s.bcores.map (fun b => Act.ballast b.1) ++
  ((upFrom 0 8).filter (ballastStartReady s)).map (fun st => Act.ev (.ballastInstanceStart st)) ++
  (s.launches.filter (enqueueReady s)).map (fun l => Act.ev (.ballastLaunchEnqueue l.id)) ++
  (s.launches.filter (fun l => ballastOver l && addGoes s l)).map (fun l => Act.ev (.ballastLaunchCompletion l.id))

/-- The actions of the package's other units: Yard, signal boxes, stationmaster, partitions, Fitter. -/
noncomputable def unitActs (s : State) : List Act :=
  evIf (yardStep s).isSome .yardBatchDispatch ++
  ((upFrom 0 4).filter (fun d => (stageStep s d).isSome)).map (fun d => Act.ev (.groupStaging d)) ++
  evIf (!s.reports.isEmpty) .stationmasterFaultHandling ++
  evIf (!s.awaitQ.isEmpty && !fqFull s.regs) .faultRecordDeferredWrite ++
  (s.spway.filter (fun p => p.2.busy && decide (p.2.cur < p.2.req))).map (fun p => Act.ev (.spwayWayComplete p.1)) ++
  (s.spway.filter (fun p => p.2.busy && p.2.cur == p.2.req)).map (fun p => Act.ev (.spwayChangeComplete p.1)) ++
  evIf (jobReady s 1) .install ++ evIf (jobReady s 2) .partialUpdate ++ evIf (jobReady s 3) .exportJob ++
  evIf (jobReady s 4) .retime ++ evIf (jobReady s 5) .uninstall

/-- What the device itself may do next. -/
noncomputable def ownActs (s : State) : List Act :=
  if s.power == .on then (s.cores.map (fun c => c.1)).flatMap (coreActs s) ++ ballastActs s ++ unitActs s ++
    (chores s).map .chore else []

/-- What may happen next: what the device may do, the boot that a reset has begun, a read of the host, and the oldest input. -/
noncomputable def enabled (s : State) : List Act :=
  ownActs s ++ (if s.power == .booting && s.boot.isSome then [.chore .boot] else []) ++
  (if awake s && !s.hostReads.isEmpty then [.chore .hostRead] else []) ++ (if s.agenda.isEmpty then [] else [.input])

/-- A moment passes in which a bit of home memory may fail, beyond what ECC mends: a free bit says whether one does, free choices which
sector's and which of its 512 data and 32 check bits (R419, R420). The check word that was stored stays stored; a read that tests it
finds the failure. -/
def upset (s : State) : State :=
  let sec := Config.choice (s.freeCtr + 1) (2 ^ 42) % 2 ^ 42
  let k := Config.choice (s.freeCtr + 2) 544 % 544
  let s1 : State := { s with freeCtr := s.freeCtr + 3 }
  if !(Config.freeBit s.freeCtr && inMap s (64 * sec)) then s1
  else if k < 512 then
    let a := 64 * sec + k / 8
    { s1 with mem := tset 0 s.mem a (memRead s a ^^^ BitVec.ofNat 8 (2 ^ (k % 8))), checks := tput s.checks sec (storedCheck s sec) }
  else { s1 with checks := tput s.checks sec (storedCheck s sec ^^^ 2 ^ (k - 512)) }

/-- Which of several actions happens next: a free choice. -/
def pickAct (l : List Act) (c : Nat) : Act := nth .input l (Config.choice c l.length % l.length)

end Sys2Proof.Machine
end

