-- ==== Sys2Proof/Machine/Place.lean ====
section
/-!
DEFINITION. A machine in which one instruction is the next to run: what State.withFetchWord sets. It stands for what brings
a program to run (boot, install, launch message, dispatch), which takes many steps from reset.
-/
namespace Sys2Proof.Machine
open Sys2Proof

/-- The machine powered, with nothing running, waiting, reported or still to come. -/
def quiet (s : State) : State :=
  { s with cur := .none, th := Thread.init, grp := Group.init, core := Core.init, bi := BInst.none, cores := [], bcores := [],
           launches := [], boxes := [], returned := [], saved := [], reports := [], awaiting := [], awaitQ := [], bwait := [],
           jobs := [], kills := [], pend := [], watches := [], boot := none, hostReads := [], spway := s.spway.map (fun p => (p.1, { p.2 with busy := false })), shoots := [],
           power := .on, agenda := [] }

/-- Where the code is put. -/
def placeAt : Nat := 0x10000

/-- A segment of code that lies at `placeAt`. -/
def placeSeg (len : Nat) (sys : Bool) : Seg := { Seg.none with code := placeAt, len := len, sys := sys }

/-- A group of one thread on core 0 whose next bundle has the given bytes. -/
def placeBundle (s : State) (bs : List Byte) (sys : Bool) : State :=
  let g := placeSeg bs.length sys
  let t : Thread := { Thread.init with seg := g }
  let k : Kernel := { Kernel.none with seg := g }
  { homeStore (quiet s) placeAt bs with
      cores := [(0, { Core.init with grp := some { Group.init with kern := k, ths := [(0, t)] } })] }

/-- A ballast instance on ballast core 0 whose code is one word. -/
def placeBallast (s : State) (w : Nat) : State :=
  { quiet s with bcores := [(0, { BInst.none with seq := 1, wlen := 65536, code := leBytes w 4 })] }

/-- The bundle of one slot: its header names the slot alone, and is a mark where the instruction must stand in one. -/
def oneSlot (k : Nat) (i : Instr) (w : Nat) : List Byte :=
  leBytes (2 ^ k + (if markOnly i then 2 ^ 15 else 0)) 4 ++ leBytes w (slotBytes k)

/-- A header and, as zeros, the slots that its mask names. -/
def headOnly (w : Nat) : List Byte := leBytes w 4 ++ List.replicate (bundleLen (w % 2 ^ 15) - 4) 0

/-- An instruction placed where it runs next. -/
def placeInstr (s : State) (i : Instr) (w : Nat) : State :=
  match slotOf i with
  | some k =>
    if k < 15 then placeBundle s (oneSlot k i w) (privileged i)
    else if k = 15 then placeBundle s (headOnly w) false
    else placeBallast s w
  | none => { quiet s with agenda := [i] }

/-- The instruction of a table word placed; a word that is none is left to be refused. -/
noncomputable def placeWord (s : State) (nbits w : Nat) : State :=
  match decodeTableWord nbits w with
  | some i => placeInstr s i w
  | none => placeBundle s (headOnly w) false

end Sys2Proof.Machine
end

