-- ==== Sys2Proof/Machine/Step.lean ====
section
/-!
DEFINITION. One step of the whole machine, and a state in which a given instruction is the next to run.
-/
namespace Sys2Proof.Machine
open Sys2Proof

/-- One step: the one enabled action; a free choice among several, before which bits may fail; with none the machine waits, and a machine without power
or with a stopped boot has nothing to wait for (R426, R428). -/
noncomputable def step (s : State) : Host.Outcome State Fault Refusal :=
  match enabled s with
  | [] => if s.power == .off || s.power == .bootStopped then .fault .poweredOff else .next s
  | [a] => act a s
  | a :: b :: r => act (pickAct (a :: b :: r) s.freeCtr) (upset (tick s))

/-- `s` with the instruction of a table word (`decodeTableWord`) where the next step runs it. -/
noncomputable def State.withFetchWord (s : State) (nbits w : Nat) : State := placeWord s nbits w

end Sys2Proof.Machine
end

