-- ==== Sys2Proof/Safety.lean ====
section
/-!
DEFINITION. The terms that statements use: what an instruction answers, what a safe run is, what stays as it was.
-/
namespace Sys2Proof.Machine
open Sys2Proof

/-- Executing `i` in `s` answers the next state `t`. -/
def Gives (i : Instr) (s t : State) : Prop := exec i s = .next t

/-- `i` in `s` puts the value `x`, of latency class `c`, in flight for scalar register `d`, and does nothing else. -/
def GivesS (i : Instr) (s : State) (d : BitVec 6) (c : Nat) (x : Word) : Prop := Gives i s (putS s d.toNat x c)

/-- The same for predicate register `d`. -/
def GivesP (i : Instr) (s : State) (d : BitVec 4) (c : Nat) (x : Bool) : Prop := Gives i s (putP s d.toNat x c)

/-- The same for vector register `d` of cluster `cl`. -/
def GivesV (i : Instr) (s : State) (cl : BitVec 3) (d : BitVec 5) (c : Nat) (x : VReg) : Prop :=
  Gives i s (putV s cl.toNat d.toNat x c)

/-- `i` in `s` changes the running ballast instance by `f`, goes on with its next word, and does nothing else. -/
def GivesB (i : Instr) (s : State) (f : BInst → BInst) : Prop :=
  Gives i s { s with bi := { f s.bi with pc := s.bi.pc + 4 } }

/-- `i` in `s` writes ballast register `d` and goes on with the next word. -/
def GivesE (i : Instr) (s : State) (d : BitVec 5) (x : Word) : Prop := GivesB i s (setE d.toNat x)

/-- `i` in `s` writes ballast vector register `d`, lane by lane, and goes on with the next word. -/
def GivesZ (i : Instr) (s : State) (d : BitVec 4) (x : Nat → BitVec 32) : Prop := GivesB i s (setZ d.toNat (mkZ x))

/-- `i` in `s` takes the fault `c`, reporting the address `a`, and does nothing else. -/
def Faults (i : Instr) (s : State) (c : FaultCode) (a : Nat) : Prop := Gives i s (raise s c a)

/-- The magnitude bits of an FP32 pattern, whether it is a NaN, and its place in numeric order, −0 being +0 (R77, R78). -/
def fpMag (x : BitVec 32) : Nat := x.toNat % 2 ^ 31
def fpNan (x : BitVec 32) : Bool := decide (0x7F800000 < fpMag x)
def fpKey (x : BitVec 32) : Int := if x.msb then -(fpMag x : Int) else fpMag x

/-- FP32 pattern `x` is below `y` in FMIN's order, in which −0 is below +0 (R322). -/
def fpBelow (x y : BitVec 32) : Bool := decide (fpKey x < fpKey y) || (fpKey x == fpKey y && x.msb && !y.msb)

/-- The FP32 magnitude of code `c`, in units of the least subnormal, 2^−149 (R77); 0x7F800000 stands for 2^128. -/
def fpUnits (c : Nat) : Nat := if c < 2 ^ 23 then c else (2 ^ 23 + c % 2 ^ 23) * 2 ^ (c / 2 ^ 23 - 1)

/-- Register `r` reads as `x` (R8). -/
def HoldsReg (t : Thread) (r : RegName) (x : RegVal) : Prop :=
  match r, x with
  | .s i, .s y => sReg t i = y
  | .p i, .p y => i < 16 ∧ pReg t i = y
  | .h i, .h y => hReg t i = y
  | .v i, .v y => vReg t (i / 32) (i % 32) = y
  | .w i, .v y => wReg t i = y
  | .fmt, .s y => t.fmt = y
  | _, _ => False

/-- A write of `x` to `r` is one that the register takes: s0 and p0 discard theirs (R8). -/
def takesWrite (r : RegName) (x : RegVal) : Prop :=
  match r, x with
  | .s i, .s _ => 0 < i
  | .p i, .p _ => 0 < i ∧ i < 16
  | .h _, .h _ | .v _, .v _ | .w _, .v _ | .fmt, .s _ => True
  | _, _ => False

/-- `i` in `s` puts an FP32 result in flight for scalar register `d`: the pattern in bits 31:0, zeros above (R301). -/
def GivesF (i : Instr) (s : State) (d : BitVec 6) (x : BitVec 32) : Prop := GivesS i s d clsFp (x.setWidth 64)

/-- A bundle of the segment starts at `a`, an offset from its first bundle (R13, R294, R302). -/
def startsAt (s : State) (g : Seg) (a : Nat) : Prop :=
  a % 4 = 0 ∧ a < g.len ∧ (memRead s (g.map + a / 32)).getLsbD (a / 4 % 8) = true

/-- `i` in `s` takes control to `a`, from `s0` (`s` with the instruction's own result in flight): every active loop ends, its
COUNT kept (R307), and PC is `a`; a target at which no bundle starts is ILLEGAL_TARGET. -/
def TakesTo (i : Instr) (s s0 : State) (a : Word) : Prop :=
  (startsAt s s.th.seg a.toNat → ∃ n, Gives i s { s0 with th := { s0.th with pc := a, n := n } } ∧
    ∀ k, k < 6 → tget LoopCtr.init n k = { tget LoopCtr.init s.th.n k with act := false }) ∧
  (¬ startsAt s s.th.seg a.toNat → Gives i s (raise s0 .illegalTarget 0))

/-- The checks of R127, R128 and R326 pass: the operand [h + off] of `n` bytes, aligned to `al`, with permission `need`, reaches
location `l` at address `va` through handle value `hh`; `t` is `s` with a stale handle translated again. -/
def Reaches (s : State) (h : BitVec 4) (off : Int) (n al : Nat) (need : Need) (t : State) (hh : Handle) (l : Loc) (va : Nat) : Prop :=
  useHandle s h.toNat = .ok t hh ∧ locate t hh off n al need = .ok (l, va)

/-- The signed offset of [h + x + imm] (R325): the register plus the immediate, wrapped to 64 bits, read signed. -/
def offset (s : State) (x : BitVec 6) (imm : Int) : Int := (sReg s.th x.toNat + BitVec.ofInt 64 imm).toInt

/-- The handle and its checks do not hold the bundle up, and `c` is the fault they raise. -/
def Refuses (t : State) (hh : Handle) (off : Int) (n al : Nat) (need : Need) (c : FaultCode) : Prop :=
  ∃ a, locate t hh off n al need = .error (c, a)

/-- `i` in `s` is held for the mark with its operands `x`, `y`, `z` as captured, and does nothing else (R384). -/
def Holds (i : Instr) (s : State) (x y z : Word) : Prop :=
  Gives i s { s with th := { s.th with heldPriv := s.th.heldPriv ++
    [{ ins := i, a := x, b := y, c := z, h := Handle.init, va := 0, pa := 0, addr := 0, lines := [], tries := 0, tries2 := 0 }] } }

/-- `i` in `s` is held if no check fails; `bad` is the first that does: its fault and the address it reports. -/
def HoldsIf (i : Instr) (s : State) (bad : Option (FaultCode × Nat)) (x y z : Word) : Prop :=
  (bad = none → Holds i s x y z) ∧ (∀ c a, bad = some (c, a) → Faults i s c a)

/-- The thread has nothing to commit, to perform or to tell at its mark. -/
def holdsNothing (t : Thread) : Prop :=
  t.gate = [] ∧ t.heldCpyo = [] ∧ t.heldOp = none ∧ t.heldRel = none ∧ t.heldPriv = [] ∧ t.heldPost = none ∧
  t.heldSync = none ∧ t.heldCtl = none ∧ t.after = []

/-- A copy past its sides' checks (R165, R181): channel `ch` occupied is a stall and then the fault or a wait, a busy tile blocks the
bundle, else command `x` takes the channel. It reads tiles `rd` and writes tiles `wr`. -/
def Copies (i : Instr) (s u : State) (ch : Nat) (rd wr : List Tile) (x : CopyCmd) : Prop :=
  (chanBusy u.grp ch = true → Gives i s (stallOn u (8 + ch) .queueFull)) ∧
  (chanBusy u.grp ch = false → busy u rd wr = true → Gives i s (block u)) ∧
  (chanBusy u.grp ch = false → busy u rd wr = false → Gives i s (copyStart u ch x))

/-- The same of a push of `n` bytes into ring `q` (R114, R367): the slot must be large enough and free; `f` gives the destination
addresses from the slot's first. -/
def CopiesToRing (i : Instr) (s u : State) (ch q n : Nat) (x : CopyCmd) (f : Nat → List Nat) : Prop :=
  ∀ r, r = ringOf u.grp q →
    (ringDeclared u.grp q = false ∨ r.bytes < n → Gives i s (raise u .formatInvalid 0)) ∧
    (ringDeclared u.grp q = true → n ≤ r.bytes →
      (chanBusy u.grp ch = true → Gives i s (stallOn u (8 + ch) .queueFull)) ∧
      (chanBusy u.grp ch = false → r.slots ≤ r.filled → Gives i s (stallOn u q .ringFull)) ∧
      (chanBusy u.grp ch = false → r.filled < r.slots → busy u [] [.slot q r.tail] = true → Gives i s (block u)) ∧
      (chanBusy u.grp ch = false → r.filled < r.slots → busy u [] [.slot q r.tail] = false →
        Gives i s (copyStart (ringPush u q).1 ch { x with dst := f (r.base + r.tail * r.bytes), ring := some (q, r.tail) })))

/-- An MX instruction that reads ring `q` (R375): an undeclared ring, or one with no filled slot left for it, is refused; else operation
`o` enters the engine with that slot. `u` is `s` past its metadata word. -/
def ReadsRing (i : Instr) (s u : State) (q : Nat) (o : MxOp) : Prop :=
  ∀ r, r = ringOf s.grp q →
    (ringDeclared s.grp q = false → Gives i s (raise u .formatInvalid 0)) ∧
    (r.filled ≤ r.taken → Gives i s (raise u .formatInvalid 0)) ∧
    (ringDeclared s.grp q = true → r.taken < r.filled →
      Gives i s (mxIssue { u with grp := { u.grp with rings := tset Ring.none u.grp.rings q { r with taken := r.taken + 1 } } }
        { o with slot := (r.head + r.taken) % r.slots }))

/-- A vector instruction on registers `rs` of its thread (R381): an ACCRD in flight on one of them blocks it; otherwise `q` holds. -/
def OnVectors (i : Instr) (s : State) (rs : List Nat) (q : Prop) : Prop :=
  (vBusy s rs = true → Gives i s (block s)) ∧ (vBusy s rs = false → q)

/-- `i` in `s` puts a vector in flight for register `d` of cluster `cl`, lane l holding `f l`. -/
def GivesLanes (i : Instr) (s : State) (cl : BitVec 3) (d : BitVec 5) (c : Nat) (f : Nat → BitVec 32) : Prop :=
  ∃ v, GivesV i s cl d c v ∧ ∀ l, l < 16 → laneOf v l = f l

/-- `i` in `s` finds front `fr` busy, or undeclared (R94, R101); with both fronts of `is` declared and free `q` holds of the state that
has them claimed. -/
def OnFronts (i : Instr) (s : State) (is : List Nat) (q : State → Prop) : Prop :=
  ((∃ f ∈ is, s.grp.kern.fronts ≤ f) → Gives i s (raise s .formatInvalid 0)) ∧
  ((∀ f ∈ is, f < s.grp.kern.fronts) → (∃ f ∈ is, s.th.fbusy.getLsbD f = true) → Gives i s (block s)) ∧
  ((∀ f ∈ is, f < s.grp.kern.fronts) → (∀ f ∈ is, s.th.fbusy.getLsbD f = false) →
    q { s with th := { s.th with heldBusy := is.foldl (fun b f => b ||| BitVec.ofNat 8 (2 ^ f)) s.th.heldBusy } })

/-- Front `fr` is written at the end of the bundle (R101). -/
def GivesFront (i : Instr) (s u : State) (fr : Nat) (g : Front) : Prop :=
  Gives i s { u with th := { u.th with heldFr := u.th.heldFr ++ [(fr, g)] } }

/-- No held tuple of a front dominates or equals another, and there are no more than its capacity (R92, R96). -/
def FrontOk (f : Front) : Prop :=
  f.tup.length ≤ frCap f.cfg ∧
  f.tup.Pairwise (fun t u => frDom f.cfg t u = false ∧ frDom f.cfg u t = false ∧ frEq f.cfg t u = false)

/-- Home memory reads alike in both states, at every address. -/
def SameMem (s t : State) : Prop := ∀ a, memRead t a = memRead s a

/-- Home memory and every register of the package are alike: what an instruction of a thread leaves to its mark. A read that meets a
sector whose check fails has it poisoned and counted, and posts an event (R420, R422), but it read as bad before; where every stored
check is the one computed last, poison and those counts are alike too. -/
def SameOutside (s t : State) : Prop :=
  t.mem = s.mem ∧ (∀ sec, secBad t sec = secBad s sec) ∧
  t.regs = { s.regs with npoison := t.regs.npoison, evProd := t.regs.evProd, evlost := t.regs.evlost } ∧
  (s.checks = [] → t.checks = [] ∧ t.poisoned = s.poisoned ∧ t.regs = s.regs) ∧
  t.lowered = s.lowered ∧ t.meas = s.meas ∧ t.keys = s.keys ∧ t.images = s.images ∧ t.launches = s.launches

/-- A safe run: whatever state it reaches has the property. -/
def Always (P : State → Prop) (s : State) : Prop := ∀ n t, Sys2Proof.core.run n s = .next t → P t

/-- The header row is one that a decoder shows: WAIT, TAKE and POST with M clear (with M set the row is the mark's). -/
def unmarked : Instr → Bool
  | .wait _ _ mk _ => mk == 0
  | .take _ _ mk _ => mk == 0
  | .post _ _ mk _ => mk == 0
  | _ => true

end Sys2Proof.Machine
end

