-- ==== Sys2Proof/Certificates/Slice0/Obligations.lean ====
section
/-!
DEFINITION. The statements for the provers. Each says which rules of the spec it formalises.
-/
open Sys2Proof Sys2Proof.Machine

/-! Encoding. -/

/-- Words that the spec works out from its formats (chapters 13 to 17), and two of Lamesque-B, decode to what they stand for. -/
def Obligations.DecodeWords : Prop :=
  decodeAt 0 0x000C40A0 = .ok (.loop 0 2 6 0) ∧
  decodeAt 0 0xFFFEC821 = .ok (.brp 2 1 (-3) 1) ∧
  decodeAt 1 0x000C38E0 = .ok (.divu 7 6 0 0) ∧
  decodeAt 2 0x14110CE0 = .ok (.cmpi 1 4 20 2 0) ∧
  decodeAt 3 0x00200B2801220220 = .ok (.acas 8 1 0 8 10 11 0 0 0) ∧
  decodeAt 4 0x0000001A00010200 = .ok (.wload 2 0 0 3 0 2 0 0 0 0 0) ∧
  decodeAt 5 0x0002000040000000 = .ok (.mma 0 0 0 0 64 0 256 0) ∧
  decodeAt 6 0x00088C00 = .ok (.rcpVector 3 4 2 0) ∧
  decodeAt 9 0x000000045082A000 = .ok (.vdot 2 10 1 2 10 0 1 0) ∧
  decodeAt 15 0x0000820A = .ok (.restartMark 0 0 0 0x20A) ∧
  decodeAt 16 0x40220005 = .ok (.bAddi 1 2 5) ∧
  decodeAt 16 0xE8000000 = .ok .endb

/-- R279 to R282: every control or scalar instruction is read back from its word, every operand at every value. R275, R398 to R400: the same of header words and of the words of Lamesque-B. -/
def Obligations.RoundTripScalarHeaderBallast : Prop :=
  (∀ (i : Instr) (k n w : Nat), slotOf i = some k → k ≤ 2 → WellFormed i = true → encode i = some (n, w) →
    n = 8 * slotBytes k ∧ decodeAt k w = .ok i ∧ (k = 1 → decodeAt 2 w = .ok i)) ∧
  (∀ (i : Instr) (k n w : Nat), slotOf i = some k → 15 ≤ k → unmarked i = true → WellFormed i = true →
    encode i = some (n, w) → n = 32 ∧ decodeAt k w = .ok i)

/-- R283 to R291: the same of memory, copy, matrix, special-function, vector and front instructions. -/
def Obligations.RoundTripEngines : Prop :=
  ∀ (i : Instr) (k n w : Nat), slotOf i = some k → 3 ≤ k → k ≤ 14 → WellFormed i = true → encode i = some (n, w) →
    n = 8 * slotBytes k ∧ decodeAt k w = .ok i

/-! Stepping. -/

/-- R9, R12, R36 and the model's own step: where a core's cycle is the one thing that may happen, its claiming context may
try, and the bytes at its PC decode to an unmarked bundle of one slot whose instruction does not block, the step is `exec` of
that instruction on the thread's state (results due landed, PC past the bundle, the slot noted), followed by the end of the
bundle (its count, fronts, MPC, loops) and the context's claim to the core. -/
def Obligations.StepRunsSlot : Prop :=
  ∀ (s s1 s2 t : State) (co cx k : Nat) (r : List Nat) (i : Instr) (b : Bundle),
    enabled s = [.issue co] →
    s1 = focusCore s co → s1.cur = .core co → yielded s1.grp = [] → claimOrder s1 = cx :: r →
    mayTry (thAt s1.grp cx) = true → shotHold s1 s1.grp.image (thAt s1.grp cx) = false →
    s2 = readyTh (focusCx s1 cx) →
    fetch s2 s2.th.seg s2.th.pc.toNat = .ok b → b.m = false → b.sync = 0 → b.slots = [(k, i)] → b.isMark = false →
    slotStalls s2.th i = false →
    exec i { s2 with th := { s2.th with pc := s2.th.pc + BitVec.ofNat 64 b.len, slot := k } } = .next t →
    isBlock t.th.run = false → isBlock (bundleEnd t false).th.run = false → t.cur = .thread co cx →
    step s = .next (unfocus (let u := unfocusCx (bundleEnd t false); { u with core := { u.core with claim := cx } }))

/-- R197, R398 and the model's own step: where a ballast core's next instruction is the one thing that may happen and the four
bytes at its instance's PC are a word of Lamesque-B, the step is `exec` of that instruction on the focused core; where they are
no word, it is the fault ILLEGAL_OPCODE of the instance. -/
def Obligations.StepRunsBallast : Prop :=
  ∀ (s s1 : State) (bc : Nat), enabled s = [.ballast bc] → s1 = focusBallast s bc →
    (s1.bi.code.drop s1.bi.pc.toNat).length ≥ 4 →
    (∀ i t, decodeBallast (leNat ((s1.bi.code.drop s1.bi.pc.toNat).take 4)) = .ok i → exec i s1 = .next t →
      step s = .next (unfocus t)) ∧
    (decodeBallast (leNat ((s1.bi.code.drop s1.bi.pc.toNat).take 4)) = .illegalOpcode →
      step s = .next (unfocus (ballastFault s1 .illegalOpcode 0)))

/-- R426, R428 and the model's own step: a step never ends in a refusal, and it ends in a fault only without power or with a
stopped boot, when no input is to come. The model's own: no instruction of the table is refused and none faults the machine, in any state; every row answers a next
state (an exception of the spec is taken in it). -/
def Obligations.StepStops : Prop :=
  (∀ s, (∃ t, step s = .next t) ∨ (step s = .fault .poweredOff ∧ (s.power = .off ∨ s.power = .bootStopped) ∧ s.agenda = [])) ∧
  (∀ (i : Instr) (s : State), ∃ t, exec i s = .next t)

/-- R13, R276: a bundle that runs past the segment is ILLEGAL_TARGET, and a bundle that an encoding check refuses raises that
check's fault; neither issues. R276 steps 3 and 4, R280, R282: a CTL or scalar OP that no row has is ILLEGAL_OPCODE, whatever else the word holds; a
privileged OP (ERET; LS 0x60 to 0x6E) without the segment's system bit is PRIV_OPCODE. -/
def Obligations.FetchFaults : Prop :=
  (∀ s s1, s1 = readyTh s →
    (fetch s1 s1.th.seg s1.th.pc.toNat = .pastEnd → tryBundle s = .next (raise s1 .illegalTarget 0)) ∧
    (∀ k w, fetch s1 s1.th.seg s1.th.pc.toNat = .bad k w .privOpcode →
      tryBundle s = .next (raise { s1 with th := { s1.th with slot := k } } .privOpcode 0)) ∧
    (∀ k w, fetch s1 s1.th.seg s1.th.pc.toNat = .bad k w .illegalOpcode →
      tryBundle s = .next (raise { s1 with th := { s1.th with slot := k } } .illegalOpcode 0)) ∧
    (∀ k w, fetch s1 s1.th.seg s1.th.pc.toNat = .bad k w .illegalBundle →
      tryBundle s = .next (raise { s1 with th := { s1.th with slot := k } } .illegalBundle 0))) ∧
  ((∀ w sys, 0x13 ≤ (w >>> 5) % 32 → decodeSlot sys 0 w = .illegalOpcode) ∧
  (∀ w sys k, k = 1 ∨ k = 2 → 0x34 ≤ (w >>> 5) % 64 → decodeSlot sys k w = .illegalOpcode) ∧
  (∀ w, (w >>> 5) % 32 = 0x0B → decodeSlot false 0 w = .privOpcode) ∧
  (∀ w, 0x60 ≤ (w >>> 5) % 128 → (w >>> 5) % 128 ≤ 0x6E → decodeSlot false 3 w = .privOpcode))

/-! Registers and results. -/

/-- R8: s0 reads as zero and p0 as 1, and a write to either is discarded; a write to any other scalar, predicate, handle,
vector or walk register, or to FMT, is what that register reads as afterwards. -/
def Obligations.RegisterFile : Prop :=
  ∀ (t : Thread),
    sReg t 0 = 0 ∧ pReg t 0 = true ∧
    (∀ x, writeReg t (.s 0) (.s x) = t) ∧ (∀ x, (writeReg t (.p 0) (.p x)).p = t.p) ∧
    (∀ i j x, 0 < i → sReg (writeReg t (.s i) (.s x)) j = if j = i then x else sReg t j) ∧
    (∀ i j x, 0 < i → i < 16 → j < 16 → pReg (writeReg t (.p i) (.p x)) j = if j = i then x else pReg t j) ∧
    (∀ i j x, hReg (writeReg t (.h i) (.h x)) j = if j = i then x else hReg t j) ∧
    (∀ c d i j x, i < 32 → j < 32 →
      vReg (writeReg t (.v (32 * c + i)) (.v x)) d j = if d = c ∧ j = i then x else vReg t d j) ∧
    (∀ i j x, wReg (writeReg t (.w i) (.v x)) j = if j = i then x else wReg t j) ∧
    (∀ x, (writeReg t .fmt (.s x)).fmt = x)

/-- R14, R15: when a bundle is ready to issue, scalar register i ≥ 1 holds the value of the latest-landing arrived result for it
among those whose landing position has come (of those with one landing position, the later-issued), and what it held before
if there is none. R14, R17: a result lands at its landing position: what has not landed changes no register;
once a mark closes the shadows before position m, no result issued before m is in flight but those whose value has not
arrived, each register holds the latest-landing of them that was for it (of those with one landing position, the later-issued),
and one that none was for holds what it held. -/
def Obligations.Landing : Prop :=
  (∀ (t : Thread) (i : Nat), 0 < i →
    (∀ e x, e ∈ t.pend → e.reg = .s i → e.val = .s x → e.load = none → e.land ≤ t.pos →
      (∀ e' ∈ t.pend, e'.reg = .s i → e'.load = none → e'.land ≤ t.pos → e' = e ∨ landsBefore e' e = true) →
      sReg (landDue t) i = x) ∧
    ((∀ e ∈ t.pend, e.reg = .s i → e.load = none → t.pos < e.land) → sReg (landDue t) i = sReg t i)) ∧
  ((∀ t : Thread, (∀ e ∈ t.pend, t.pos < e.land) → landDue t = t) ∧
  (∀ (t : Thread) (m : Nat), (∀ e ∈ (landMark m t).pend, e.pos < m → e.load ≠ none) ∧
    (∀ e ∈ t.pend, e.load = none → e.pos < m → takesWrite e.reg e.val →
      (∀ e' ∈ t.pend, e'.reg = e.reg → e'.load = none → e'.pos < m → e' = e ∨ landsBefore e' e = true) →
      HoldsReg (landMark m t) e.reg e.val) ∧
    (∀ r x, (∀ e ∈ t.pend, e.reg = r → e.load = none → m ≤ e.pos) → HoldsReg t r x → HoldsReg (landMark m t) r x)))

/-- R11: with a false predicate an instruction of a slot has no effect at all, but an MX slot's consumes its metadata word: MPC
advances by 8. -/
def Obligations.PredicateFalse : Prop :=
  ∀ (i : Instr) (k : Nat) (s : State), slotOf i = some k → k ≤ 14 → predOk s.th (predOf i) = false →
    Gives i s (if k = 5 then { s with th := { s.th with mpc := s.th.mpc + 8 } } else s)

/-- R9, R14 and R301: what an instruction of SA or SB does. Its next state differs from the state before in nothing but results put in
flight, issued at the thread's position, for the scalar or predicate registers that its encoding names as destinations: every
other register, flag, front, handle and byte of memory stays. -/
def Obligations.ScalarFrame : Prop :=
  ∀ (i : Instr) (s t : State), slotOf i = some 1 → exec i s = .next t →
    ∃ es : List Pend, t = { s with th := { s.th with pend := es ++ s.th.pend } } ∧
      ∀ e ∈ es, e.pos = s.th.pos ∧ e.load = none ∧
        ((∃ d, e.reg = .s d ∧ (0, d) ∈ dests i) ∨ (∃ d, e.reg = .p d ∧ (1, d) ∈ dests i))

/-- R20, R23: an instruction of any slot, CLEAN, INVAL, PREF and PIN apart (R110, R112, R338: they may write dirty lines back; so may a
PFFIL that has a load or tile load of its own bundle perform), changes nothing outside its thread's core when it issues:
home memory and its poison, the package's registers, lowered windows, measurements, keys, images and launches are as before.
What a store or a held command does outside is done by its mark. -/
def Obligations.NoOutsideAtIssue : Prop :=
  ∀ (i : Instr) (k : Nat) (s t : State), slotOf i = some k → k ≤ 14 →
    (∀ h x imm p, i ≠ .clean h x imm p) → (∀ h x imm p, i ≠ .inval h x imm p) → (∀ h x imm cls p, i ≠ .pref h x imm cls p) →
    (∀ d a b p, i ≠ .pin d a b p) →
    ((∀ cl f h x imm cls p, i ≠ .pffil cl f h x imm cls p) ∨
      ((∀ e ∈ s.th.pend, e.pos = s.th.pos → e.load = none) ∧ ∀ c ∈ s.grp.tld, c.pos ≠ s.th.pos)) →
    exec i s = .next t → SameOutside s t

/-! Scalar instructions. The operands are the registers as they stand before the bundle, and the slot's predicate holds. -/

/-- R316: integer arithmetic, each result exact and then wrapped to 64 bits, in its latency class. R317: division truncates and never faults; quotient q and remainder r are characterised by the dividend and divisor. -/
def Obligations.IntegerArithmetic : Prop :=
  (∀ (s : State) (d a b : BitVec 6) (imm : BitVec 9) (p : BitVec 5) (x y : Word),
    predOk s.th p = true → x = sReg s.th a.toNat → y = sReg s.th b.toNat →
    GivesS (.add d a b p) s d clsAlu (BitVec.ofInt 64 (x.toInt + y.toInt)) ∧
    GivesS (.addi d a imm p) s d clsAlu (BitVec.ofInt 64 (x.toInt + imm.toInt)) ∧
    GivesS (.sub d a b p) s d clsAlu (BitVec.ofInt 64 (x.toInt - y.toInt)) ∧
    GivesS (.mul d a b p) s d clsMul (BitVec.ofInt 64 (x.toInt * y.toInt)) ∧
    GivesS (.mulh d a b p) s d clsMul ((x.signExtend 128 * y.signExtend 128).extractLsb' 64 64) ∧
    GivesS (.mulhu d a b p) s d clsMul ((x.setWidth 128 * y.setWidth 128).extractLsb' 64 64) ∧
    GivesS (.min d a b p) s d clsAlu (BitVec.ofInt 64 (min x.toInt y.toInt)) ∧
    GivesS (.max d a b p) s d clsAlu (BitVec.ofInt 64 (max x.toInt y.toInt)) ∧
    GivesS (.minu d a b p) s d clsAlu (BitVec.ofNat 64 (min x.toNat y.toNat)) ∧
    GivesS (.maxu d a b p) s d clsAlu (BitVec.ofNat 64 (max x.toNat y.toNat)) ∧
    GivesS (.abs d a p) s d clsAlu (BitVec.ofNat 64 x.toInt.natAbs)) ∧
  (∀ (s : State) (d a b : BitVec 6) (p : BitVec 5) (x y : Word),
    predOk s.th p = true → x = sReg s.th a.toNat → y = sReg s.th b.toNat →
    (∃ q r : Word, GivesS (.div d a b p) s d clsMul q ∧ GivesS (.rem d a b p) s d clsMul r ∧
      (y = 0 → q = 0xFFFFFFFFFFFFFFFF ∧ r = x) ∧
      (x = 0x8000000000000000 → y = 0xFFFFFFFFFFFFFFFF → q = x ∧ r = 0) ∧
      (y ≠ 0 → (x ≠ 0x8000000000000000 ∨ y ≠ 0xFFFFFFFFFFFFFFFF) →
        x.toInt = q.toInt * y.toInt + r.toInt ∧ r.toInt.natAbs < y.toInt.natAbs ∧
        (0 ≤ x.toInt → 0 ≤ r.toInt) ∧ (x.toInt ≤ 0 → r.toInt ≤ 0))) ∧
    (∃ q r : Word, GivesS (.divu d a b p) s d clsMul q ∧ GivesS (.remu d a b p) s d clsMul r ∧
      (y = 0 → q = 0xFFFFFFFFFFFFFFFF ∧ r = x) ∧
      (y ≠ 0 → x.toNat = q.toNat * y.toNat + r.toNat ∧ r.toNat < y.toNat)))

/-- R318: logic, shifts and bit operations, bit by bit or as numbers, all in the scalar ALU class. -/
def Obligations.LogicShiftBits : Prop :=
  ∀ (s : State) (d a b : BitVec 6) (imm : BitVec 9) (p : BitVec 5) (x y : Word) (n : Nat),
    predOk s.th p = true → x = sReg s.th a.toNat → y = sReg s.th b.toNat → n = y.toNat % 64 →
    (∃ v, GivesS (.and d a b p) s d clsAlu v ∧ ∀ j, v.getLsbD j = (x.getLsbD j && y.getLsbD j)) ∧
    (∃ v, GivesS (.or d a b p) s d clsAlu v ∧ ∀ j, v.getLsbD j = (x.getLsbD j || y.getLsbD j)) ∧
    (∃ v, GivesS (.xor d a b p) s d clsAlu v ∧ ∀ j, v.getLsbD j = (x.getLsbD j != y.getLsbD j)) ∧
    (∃ v, GivesS (.andn d a b p) s d clsAlu v ∧ ∀ j, v.getLsbD j = (x.getLsbD j && !y.getLsbD j)) ∧
    GivesS (.andi d a imm p) s d clsAlu (x &&& BitVec.ofInt 64 imm.toInt) ∧
    GivesS (.ori d a imm p) s d clsAlu (x ||| BitVec.ofInt 64 imm.toInt) ∧
    GivesS (.xori d a imm p) s d clsAlu (x ^^^ BitVec.ofInt 64 imm.toInt) ∧
    GivesS (.shl d a b p) s d clsAlu (BitVec.ofNat 64 (x.toNat * 2 ^ n)) ∧
    GivesS (.shr d a b p) s d clsAlu (BitVec.ofNat 64 (x.toNat / 2 ^ n)) ∧
    GivesS (.sar d a b p) s d clsAlu (BitVec.ofInt 64 (x.toInt / 2 ^ n)) ∧
    (∃ v, GivesS (.rot d a b p) s d clsAlu v ∧ ∀ j, j < 64 → v.getLsbD ((j + n) % 64) = x.getLsbD j) ∧
    (∃ z : Nat, GivesS (.clz d a p) s d clsAlu (BitVec.ofNat 64 z) ∧ z ≤ 64 ∧ x.toNat < 2 ^ (64 - z) ∧
      (z < 64 → x.getLsbD (63 - z) = true)) ∧
    (∃ z : Nat, GivesS (.ctz d a p) s d clsAlu (BitVec.ofNat 64 z) ∧ z ≤ 64 ∧ (∀ j, j < z → x.getLsbD j = false) ∧
      (z < 64 → x.getLsbD z = true)) ∧
    GivesS (.popc d a p) s d clsAlu (BitVec.ofNat 64 ((List.range 64).countP (fun j => x.getLsbD j))) ∧
    (∃ v, GivesS (.brev d a p) s d clsAlu v ∧ ∀ j, j < 64 → v.getLsbD (63 - j) = x.getLsbD j) ∧
    (∃ v, GivesS (.bswap d a p) s d clsAlu v ∧ ∀ j, j < 8 → v.extractLsb' (8 * (7 - j)) 8 = x.extractLsb' (8 * j) 8)

/-- R319, R320: extension and fields bit by bit, and moves. EXT of width 3 is refused as an encoding. -/
def Obligations.FieldsAndMoves : Prop :=
  ∀ (s : State) (d a b : BitVec 6) (wd : BitVec 2) (sg : BitVec 1) (ps : BitVec 3) (imm : BitVec 15) (p : BitVec 5)
    (x y o : Word) (pos len w : Nat),
    predOk s.th p = true → x = sReg s.th a.toNat → y = sReg s.th b.toNat → o = sReg s.th d.toNat →
    pos = y.toNat % 64 → len = y.toNat / 64 % 64 + 1 → w = 8 * 2 ^ wd.toNat →
    (wd ≠ 3 → ∃ v, GivesS (.ext d a wd sg p) s d clsAlu v ∧
      ∀ j, j < 64 → v.getLsbD j = if j < w then x.getLsbD j else sg == 1 && x.getLsbD (w - 1)) ∧
    (∃ v, GivesS (.bfx d a b p) s d clsAlu v ∧ ∀ j, v.getLsbD j = (decide (j < len) && x.getLsbD (pos + j))) ∧
    (∃ v, GivesS (.bfi d a b p) s d clsAlu v ∧
      ∀ j, j < 64 → v.getLsbD j = if pos ≤ j ∧ j < pos + len then x.getLsbD (j - pos) else o.getLsbD j) ∧
    GivesS (.mov d a p) s d clsAlu x ∧
    GivesS (.movi d imm p) s d clsAlu (BitVec.ofInt 64 imm.toInt) ∧
    GivesS (.movhi d imm p) s d clsAlu (BitVec.ofNat 64 (o.toNat * 2 ^ 15 + imm.toNat)) ∧
    GivesS (.sel d ps a b p) s d clsAlu (if pReg s.th ps.toNat then x else y) ∧
    (∀ sys k n, k = 1 ∨ k = 2 → encode (.ext d a 3 sg p) = some (32, n) → decodeSlot sys k n = .illegalBundle)

/-- R321: compares, PSET and PMOV; relations other than the six of COND are the encoding's to refuse. -/
def Obligations.ComparesAndPredicates : Prop :=
  ∀ (s : State) (pd pa pb tt : BitVec 4) (d a b : BitVec 6) (imm : BitVec 8) (cond : BitVec 3) (p : BitVec 5) (x y z : Word)
    (rel : Word → Bool),
    predOk s.th p = true → x = sReg s.th a.toNat → y = sReg s.th b.toNat → z = BitVec.ofInt 64 imm.toInt →
    (cond = 0 → ∀ u, rel u = decide (x.toNat = u.toNat)) → (cond = 1 → ∀ u, rel u = decide (x.toNat ≠ u.toNat)) →
    (cond = 2 → ∀ u, rel u = decide (x.toInt < u.toInt)) → (cond = 3 → ∀ u, rel u = decide (u.toInt ≤ x.toInt)) →
    (cond = 4 → ∀ u, rel u = decide (x.toNat < u.toNat)) → (cond = 5 → ∀ u, rel u = decide (u.toNat ≤ x.toNat)) →
    (cond.toNat ≤ 5 → GivesP (.cmp pd a b cond p) s pd clsAlu (rel y) ∧ GivesP (.cmpi pd a imm cond p) s pd clsAlu (rel z)) ∧
    GivesP (.pset pd pa pb tt p) s pd clsAlu
      (tt.getLsbD (2 * (pReg s.th pa.toNat).toNat + (pReg s.th pb.toNat).toNat)) ∧
    (∃ v : Word, GivesS (.pmovRd d p) s d clsAlu v ∧ ∀ j, v.getLsbD j = (decide (j < 16) && pReg s.th j)) ∧
    (∃ t es, Gives (.pmovWr a p) s t ∧ t = { s with th := { s.th with pend := es ++ s.th.pend } } ∧
      es = (List.range 15).map (fun j =>
        ⟨.p (15 - j), .p (x.getLsbD (15 - j)), s.th.pos + latOf s.th.seg clsAlu, s.th.pos, none⟩))

/-- R323: FCMP and FCLASS on FP32 patterns. -/
def Obligations.FpCompareAndClass : Prop :=
  ∀ (s : State) (pd : BitVec 4) (d a b : BitVec 6) (cond : BitVec 3) (p : BitVec 5) (x y : BitVec 32),
    predOk s.th p = true → x = (sReg s.th a.toNat).setWidth 32 → y = (sReg s.th b.toNat).setWidth 32 →
    (cond = 0 → GivesP (.fcmp pd a b cond p) s pd clsFp (!fpNan x && !fpNan y && fpKey x == fpKey y)) ∧
    (cond = 1 → GivesP (.fcmp pd a b cond p) s pd clsFp (!fpNan x && !fpNan y && decide (fpKey x < fpKey y))) ∧
    (cond = 2 → GivesP (.fcmp pd a b cond p) s pd clsFp (!fpNan x && !fpNan y && decide (fpKey x ≤ fpKey y))) ∧
    (cond = 3 → GivesP (.fcmp pd a b cond p) s pd clsFp (fpNan x || fpNan y)) ∧
    (∃ k : Nat, GivesS (.fclass d a p) s d clsFp (BitVec.ofNat 64 (2 ^ k)) ∧
      (k = 0 ↔ x = 0xFF800000) ∧ (k = 1 ↔ x.msb = true ∧ 0x800000 ≤ fpMag x ∧ fpMag x < 0x7F800000) ∧
      (k = 2 ↔ x.msb = true ∧ 0 < fpMag x ∧ fpMag x < 0x800000) ∧ (k = 3 ↔ x = 0x80000000) ∧ (k = 4 ↔ x = 0) ∧
      (k = 5 ↔ x.msb = false ∧ 0 < fpMag x ∧ fpMag x < 0x800000) ∧
      (k = 6 ↔ x.msb = false ∧ 0x800000 ≤ fpMag x ∧ fpMag x < 0x7F800000) ∧ (k = 7 ↔ x = 0x7F800000) ∧
      (k = 8 ↔ fpNan x = true) ∧ k ≤ 8)

/-- R322: FMIN, FMAX and FSGN on patterns; FADD, FSUB, FMUL and FFMA round the exact value once (`fadd`, `fmul`: exact values;
`r32`: rounding under FMT.RM, R85). -/
def Obligations.FpArithmetic : Prop :=
  ∀ (s : State) (d a b : BitVec 6) (p : BitVec 5) (x y z : BitVec 32) (rm : Nat),
    predOk s.th p = true → x = (sReg s.th a.toNat).setWidth 32 → y = (sReg s.th b.toNat).setWidth 32 →
    z = (sReg s.th d.toNat).setWidth 32 → rm = fmtRM s.th.fmt →
    GivesF (.fadd d a b p) s d (r32 rm (fadd rm (f32 x) (f32 y))) ∧
    GivesF (.fsub d a b p) s d (r32 rm (fadd rm (f32 x) (fneg (f32 y)))) ∧
    GivesF (.fmul d a b p) s d (r32 rm (fmul (f32 x) (f32 y))) ∧
    GivesF (.ffma d a b p) s d (r32 rm (fadd rm (fmul (f32 x) (f32 y)) (f32 z))) ∧
    GivesF (.fmin d a b p) s d
      (if fpNan x && fpNan y then 0x7FC00000 else if fpNan x then y else if fpNan y then x
       else if fpBelow y x then y else x) ∧
    GivesF (.fmax d a b p) s d
      (if fpNan x && fpNan y then 0x7FC00000 else if fpNan x then y else if fpNan y then x
       else if fpBelow x y then y else x) ∧
    (∃ v, GivesF (.fsgnCp d a b p) s d v ∧
      if fpNan x then v = 0x7FC00000 else fpMag v = fpMag x ∧ v.msb = y.msb) ∧
    (∃ v, GivesF (.fsgnNeg d a b p) s d v ∧
      if fpNan x then v = 0x7FC00000 else fpMag v = fpMag x ∧ v.msb = !y.msb) ∧
    (∃ v, GivesF (.fsgnXor d a b p) s d v ∧
      if fpNan x then v = 0x7FC00000 else fpMag v = fpMag x ∧ v.msb = (x.msb != y.msb)) ∧
    (fpNan x = true ∨ fpNan y = true → r32 rm (fadd rm (f32 x) (f32 y)) = 0x7FC00000 ∧
      r32 rm (fmul (f32 x) (f32 y)) = 0x7FC00000) ∧
    (fpMag x = 0x7F800000 → fpMag y = 0 → r32 rm (fadd rm (fmul (f32 x) (f32 y)) (f32 z)) = 0x7FC00000)

/-- R324, R87: FCVT. Integers saturate and a NaN gives 0; widening is exact: reading the result back gives the source's value. -/
def Obligations.FpConversions : Prop :=
  ∀ (s : State) (d a : BitVec 6) (p : BitVec 5) (x : BitVec 32) (rm : Nat),
    predOk s.th p = true → x = (sReg s.th a.toNat).setWidth 32 → rm = fmtRM s.th.fmt →
    (∃ n : Int, GivesS (.fcvtI32F32 d a p) s d clsFp (BitVec.ofInt 64 n) ∧ -2147483648 ≤ n ∧ n ≤ 2147483647 ∧
      (fpNan x = true → n = 0) ∧ (x = 0x7F800000 → n = 2147483647) ∧ (x = 0xFF800000 → n = -2147483648) ∧
      n = fToInt rm (-2147483648) 2147483647 (f32 x)) ∧
    (∃ n : Nat, GivesS (.fcvtU32F32 d a p) s d clsFp (BitVec.ofNat 64 n) ∧ n ≤ 4294967295 ∧
      (fpNan x = true → n = 0) ∧ (x = 0x7F800000 → n = 4294967295) ∧ (x = 0xFF800000 → n = 0) ∧
      (n : Int) = fToInt rm 0 4294967295 (f32 x)) ∧
    GivesF (.fcvtF32I32 d a p) s d (r32 rm (.fin x.msb x.toInt.natAbs 0)) ∧
    GivesF (.fcvtF32U32 d a p) s d (r32 rm (.fin false x.toNat 0)) ∧
    GivesS (.fcvtF16F32 d a p) s d clsFp (BitVec.ofNat 64 (fenc fp16 rm false (f32 x))) ∧
    GivesS (.fcvtBf16F32 d a p) s d clsFp (BitVec.ofNat 64 (fenc bf16 rm false (f32 x))) ∧
    (∃ v, GivesF (.fcvtF32F16 d a p) s d v ∧ (if isNan (fdec fp16 (x.toNat % 65536)) then v = 0x7FC00000
      else feq (f32 v) (fdec fp16 (x.toNat % 65536)) = true ∧ v.msb = x.getLsbD 15)) ∧
    (∃ v, GivesF (.fcvtF32Bf16 d a p) s d v ∧ (if isNan (fdec bf16 (x.toNat % 65536)) then v = 0x7FC00000
      else v = BitVec.ofNat 32 (x.toNat % 65536 * 65536)))

/-- R85: a magnitude n / 2^k rounded to an integer under each mode; 0 RNE (ties to even), 1 RTZ, 2 RUP, 3 RDN. R85, R86: a finite value
±n × 2^e rounded to FP32 keeps its sign and, X and V being its magnitude and those of the codes in one unit, its code c is the nearest
below, the nearest above, or (RNE) the nearest, of two at one distance the even; from 2^128 on it is the infinity or the largest finite
value, as the mode directs. R78: rounding a
value that is an FP32 value, in any mode, gives that value's pattern. R86: the spec's worked conversions from FP32 to FP8 under RNE, and its FCVT examples of R324. -/
def Obligations.Rounding : Prop :=
  ((∀ (neg : Bool) (n k q : Nat),
    (q = roundMag 0 neg n k → 2 * (q * 2 ^ k) ≤ 2 * n + 2 ^ k ∧ 2 * n ≤ 2 * (q * 2 ^ k) + 2 ^ k ∧
      (2 * n = 2 * (q * 2 ^ k) + 2 ^ k ∨ 2 * (q * 2 ^ k) = 2 * n + 2 ^ k → q % 2 = 0)) ∧
    (q = roundMag 1 neg n k → q * 2 ^ k ≤ n ∧ n < (q + 1) * 2 ^ k) ∧
    (q = roundMag 2 neg n k → if neg then q * 2 ^ k ≤ n ∧ n < (q + 1) * 2 ^ k else n ≤ q * 2 ^ k ∧ q * 2 ^ k < n + 2 ^ k) ∧
    (q = roundMag 3 neg n k → if neg then n ≤ q * 2 ^ k ∧ q * 2 ^ k < n + 2 ^ k else q * 2 ^ k ≤ n ∧ n < (q + 1) * 2 ^ k)) ∧
  (∀ (neg : Bool) (n : Nat) (e : Int) (rm X c : Nat) (V : Nat → Nat), X = n * 2 ^ (e + 149).toNat →
    (∀ d, V d = fpUnits d * 2 ^ (-149 - e).toNat) → c = fpMag (r32 rm (.fin neg n e)) → rm ≤ 3 →
    (r32 rm (.fin neg n e)).msb = neg ∧
    (X < V 0x7F800000 → c ≤ 0x7F800000 ∧
      (rm = 1 ∨ rm = 2 ∧ neg = true ∨ rm = 3 ∧ neg = false → V c ≤ X ∧ X < V (c + 1)) ∧
      (rm = 2 ∧ neg = false ∨ rm = 3 ∧ neg = true → X ≤ V c ∧ (0 < c → V (c - 1) < X)) ∧
      (rm = 0 → (0 < c → V (c - 1) + V c ≤ 2 * X) ∧ 2 * X ≤ V c + V (c + 1) ∧
        (0 < c ∧ 2 * X = V (c - 1) + V c ∨ 2 * X = V c + V (c + 1) → c % 2 = 0))) ∧
    (V 0x7F800000 ≤ X → c = if rm = 0 ∨ rm = 2 ∧ neg = false ∨ rm = 3 ∧ neg = true then 0x7F800000 else 0x7F7FFFFF)) ∧
  (∀ (x : BitVec 32) (rm : Nat), fpNan x = false → r32 rm (f32 x) = x)) ∧
  ((fenc fpE4m3 0 true (.fin false 300 0) = 0x79 ∧ fenc fpE4m3 0 false (.fin false 300 0) = 0x79 ∧
   fenc fpE5m2 0 true (.fin false 300 0) = 0x5D ∧ fenc fpE4m3 0 true (.fin false 500 0) = 0x7E ∧
   fenc fpE4m3 0 false (.fin false 500 0) = 0x7F ∧ fenc fpE5m2 0 true (.fin false 500 0) = 0x60 ∧
   fenc fpE4m3 0 true (f32 0xBA83126F) = 0x81 ∧ fenc fpE5m2 0 true (f32 0xBA83126F) = 0x94 ∧
   fenc fpE4m3 0 true (.inf false) = 0x7E ∧ fenc fpE4m3 0 false (.inf false) = 0x7F ∧
   fenc fpE5m2 0 true (.inf false) = 0x7B) ∧
  (fToInt 0 (-2147483648) 2147483647 (f32 0x40200000) = 2 ∧ fToInt 2 (-2147483648) 2147483647 (f32 0x40200000) = 3 ∧
   fToInt 1 (-2147483648) 2147483647 (f32 0x40200000) = 2 ∧ fToInt 3 (-2147483648) 2147483647 (f32 0x40200000) = 2 ∧
   fToInt 0 (-2147483648) 2147483647 (f32 0x4F32D05E) = 0x7FFFFFFF))

/-! Control. While a bundle issues, `bpc` is the offset of its header within the code and `pc` that of the next sequential bundle. -/

/-- R303, R304 (with R302, R307): branches, calls, returns and jumps; a branch that is not taken does nothing. -/
def Obligations.Transfers : Prop :=
  ∀ (s : State) (q : BitVec 4) (n : BitVec 1) (d a : BitVec 6) (o22 : BitVec 22) (o17 : BitVec 17) (o16 : BitVec 16)
    (p : BitVec 5) (own : Word),
    predOk s.th p = true → own = BitVec.ofNat 64 s.th.bpc →
    TakesTo (.br o22 p) s s (own + BitVec.ofInt 64 (4 * o22.toInt)) ∧
    ((pReg s.th q.toNat).toNat ≠ n.toNat → TakesTo (.brp q n o17 p) s s (own + BitVec.ofInt 64 (4 * o17.toInt))) ∧
    ((pReg s.th q.toNat).toNat = n.toNat → Gives (.brp q n o17 p) s s) ∧
    TakesTo (.call d o16 p) s (putS s d.toNat s.th.pc clsAlu) (own + BitVec.ofInt 64 (4 * o16.toInt)) ∧
    TakesTo (.ret a p) s s (sReg s.th a.toNat) ∧
    TakesTo (.jmpr a o16 p) s s (sReg s.th a.toNat + BitVec.ofInt 64 (4 * o16.toInt))

/-- R305, R307: LOOP and LOOPX. `skipBundles s seg n a 0` is (address after n bundles from a, address of the last of them), or
none where they leave the segment. R305: a LOOPX count above 65,535 is FORMAT_INVALID. R305, R307: what the loop buffer does after a bundle at `bpc`. Where no active loop of the segment has its body end there, nothing. Where one
does, its COUNT falls by 1: above 0 the body's first bundle is next, at 0 the loop ends. Where two end there the inner
(the deeper) decides first, and the outer only when the inner has finished. The model's choices, not the rules': a counter that has
finished keeps its BODY, with COUNT 0 (log entry 15), and a loop belongs to the segment it was set up in, the kernel's or the system's,
whose bundles alone end it (log entry 83): the clauses on `insys` and on a finished counter rest on these. -/
def Obligations.LoopSetup : Prop :=
  ((∀ (s : State) (ln : BitVec 3) (a : BitVec 6) (body : BitVec 4) (cnt : BitVec 15) (p : BitVec 5) (i : Instr) (k : Nat),
    predOk s.th p = true →
    (i = .loop ln body cnt p ∧ k = cnt.toNat ∨
      i = .loopx ln a body p ∧ k = (sReg s.th a.toNat).toNat ∧ (sReg s.th a.toNat).toNat ≤ 65535) →
    (skipBundles s s.th.seg (body.toNat + 1) s.th.pc.toNat 0 = none → (tget LoopCtr.init s.th.n ln.toNat).act = false →
      Gives i s (raise s .illegalTarget 0)) ∧
    ((tget LoopCtr.init s.th.n ln.toNat).act = true → Gives i s (raise s .illegalBundle 0)) ∧
    (∀ e l, skipBundles s s.th.seg (body.toNat + 1) s.th.pc.toNat 0 = some (e, l) →
      (∃ j, j < 6 ∧ (tget LoopCtr.init s.th.n j).act = true ∧ (tget LoopCtr.init s.th.n j).sys = s.th.insys ∧
        (tget LoopCtr.init s.th.n j).last < l) → Gives i s (raise s .illegalBundle 0)) ∧
    (∀ e l, skipBundles s s.th.seg (body.toNat + 1) s.th.pc.toNat 0 = some (e, l) →
      (tget LoopCtr.init s.th.n ln.toNat).act = false →
      (∀ j, j < 6 → (tget LoopCtr.init s.th.n j).act = true → (tget LoopCtr.init s.th.n j).sys = s.th.insys →
        l ≤ (tget LoopCtr.init s.th.n j).last) →
      ∃ c n, Gives i s { s with th := { s.th with n := n, pc := if k = 0 then BitVec.ofNat 64 e else s.th.pc } } ∧
        n = tset LoopCtr.init s.th.n ln.toNat c ∧ c.count.toNat = k ∧ (c.act = true ↔ 0 < k) ∧ c.body = body ∧
        c.first = s.th.pc.toNat ∧ c.last = l ∧ c.sys = s.th.insys)) ∧
  (∀ (s : State) (ln : BitVec 3) (a : BitVec 6) (body : BitVec 4) (p : BitVec 5), predOk s.th p = true →
    65535 < (sReg s.th a.toNat).toNat → Faults (.loopx ln a body p) s .formatInvalid 0)) ∧
  (∀ (t : Thread) (bpc : Nat) (c : Nat → LoopCtr) (ends : Nat → Prop), (∀ j, c j = tget LoopCtr.init t.n j) →
    (∀ j, ends j ↔ (c j).act = true ∧ (c j).sys = t.insys ∧ (c j).last = bpc) →
    ((∀ j, j < 6 → ¬ ends j) → loopStep t bpc 6 = t) ∧
    (∀ i, i < 6 → ends i → (∀ j, j < 6 → j ≠ i → ends j → (c j).depth < (c i).depth) →
      ((c i).count ≠ 1 → loopStep t bpc 6 =
        { t with n := tset LoopCtr.init t.n i { c i with count := (c i).count - 1 }, pc := BitVec.ofNat 64 (c i).first }) ∧
      ((c i).count = 1 → (∀ j, j < 6 → j ≠ i → ¬ ends j) → loopStep t bpc 6 =
        { t with n := tset LoopCtr.init t.n i { c i with count := 0, act := false } }) ∧
      (∀ o, (c i).count = 1 → o < 6 → o ≠ i → ends o → (c o).count ≠ 1 →
        (∀ j, j < 6 → j ≠ i → j ≠ o → ¬ ends j) → loopStep t bpc 6 =
        { t with n := tset LoopCtr.init (tset LoopCtr.init t.n i { c i with count := 0, act := false }) o
                        { c o with count := (c o).count - 1 },
                 pc := BitVec.ofNat 64 (c o).first })))

/-- R35, R180, R308, R311, R313, R314, R315: thread control, system entry as it is noted for the mark that the bundle is, FMT, MPC
and arrivals. R52, R132: at its mark a STEP or BARR arrives at its point and waits; a point that some member has not reached changes
nothing. One that all have reached completes: each member's mark retires, and where every arrival is a STEP of the domain's own level the
domain's plane regions swap; a mixture is DOMAIN_MISMATCH after the mark. R132: at its swap a region's word becomes what the last
contribution of each rank settles to, in ascending rank: PRIORITY the highest rank's, SUM_I32 their wrapped sum, SUM_F32 their sum
rounded at each step; a word that nobody stored to stays. -/
def Obligations.ThreadControl : Prop :=
  (∀ (s : State) (d a : BitVec 6) (imm : BitVec 16) (tag lvl : BitVec 3) (p : BitVec 5) (x : Word),
    predOk s.th p = true → x = sReg s.th a.toNat →
    Gives (.yield p) s { s with th := { s.th with run := .yielded } } ∧
    Gives (.park imm p) s (if imm = 0 then s else { s with th := { s.th with run := .parked } }) ∧
    Gives (.exit p) s { s with th := { s.th with heldCtl := some (0, 0) } } ∧
    (sysentV s = true → s.th.seg.sys = false →
      Gives (.svc imm p) s { s with th := { s.th with heldCtl := some (1, imm.toNat) } } ∧
      Gives (.trap imm p) s { s with th := { s.th with heldCtl := some (2, imm.toNat) } }) ∧
    (sysentV s = false ∨ s.th.seg.sys = true →
      Faults (.svc imm p) s .illegalOpcode 0 ∧ Faults (.trap imm p) s .illegalOpcode 0) ∧
    (s.th.seg.sys = true → Gives (.eret p) s { s with th := { s.th with heldCtl := some (3, 0) } }) ∧
    (s.th.seg.sys = false → Faults (.eret p) s .privOpcode 0) ∧
    (x.toNat < 2 ^ 28 → Gives (.setfmt a p) s { s with th := { s.th with
      pend := ⟨.fmt, .s x, s.th.pos + 4, s.th.pos, none⟩ :: s.th.pend } }) ∧
    (2 ^ 28 ≤ x.toNat → Faults (.setfmt a p) s .formatInvalid 0) ∧
    GivesS (.fmtrd d p) s d clsAlu s.th.fmt ∧
    (x.toNat % 8 = 0 → Gives (.mdpc a imm p) s { s with th := { s.th with
      heldMpc := some (x + BitVec.ofInt 64 (8 * imm.toInt)) } }) ∧
    (x.toNat % 8 ≠ 0 → Faults (.mdpc a imm p) s .align 0) ∧
    (lvl.toNat ≤ 5 → lvl.toNat ≤ bitsOf s.th.dom.toNat 22 20 →
      Gives (.step lvl p) s { s with th := { s.th with heldSync := some (lvl.toNat, true) } } ∧
      Gives (.barr lvl p) s { s with th := { s.th with heldSync := some (lvl.toNat, false) } }) ∧
    (5 < lvl.toNat ∨ bitsOf s.th.dom.toNat 22 20 < lvl.toNat →
      Faults (.step lvl p) s .domainMismatch 0 ∧ Faults (.barr lvl p) s .domainMismatch 0) ∧
    ((∀ b ∈ s.th.batches, b.1 = tag.toNat → ∀ q ∈ b.2, ∀ o ∈ s.grp.mx, o.1 ≠ q) →
      Gives (.mwait tag p) s { s with th := { s.th with batches := s.th.batches.filter (fun b => b.1 != tag.toNat) } }) ∧
    ((∃ b ∈ s.th.batches, b.1 = tag.toNat ∧ ∃ q ∈ b.2, ∃ o ∈ s.grp.mx, o.1 = q) → Gives (.mwait tag p) s (block s))) ∧
  (∀ (s : State) (lvl : Nat) (st : Bool), s.th.heldPost = none → s.th.heldSync = some (lvl, st) → (lvl = 5 → spansSet s s.grp = false) →
    markEnd s = (bareAct { s with
      th := { s.th with run := .arrived, marking := 7, arrival := some (lvl, st && lvl == domLevel s.th) } }
      (fun s => (syncAll s, 0))).1) ∧
  (∀ (s : State), (∀ x ∈ allRunning s, ∀ p, pointOf s x.2.2.1 x.2.1 x.2.2.2 = some p → pointFull s p x.2.2.1.kern.threads = false) →
    syncAll s = s) ∧
  (∀ (s t : State) (p : Point) (n : Nat) (ms : List (Nat × Nat × Group × Thread)) (hit : PlaneReg → Bool),
    s.cur = .none → twf Core.init s.cores = true → ms = members s p → t = completePoint s p n →
    pointFull s p n = true → farRanks s p n = [] → s.farQ = [] →
    (∀ x ∈ ms, x.2.2.2.after = [] ∧ x.2.2.2.heldCtl = none ∧ x.2.2.2.intr = false ∧ x.2.2.1.shuntFail = []) →
    (∀ q, hit q = true ↔ q.launch = p.launch ∧ ∃ x ∈ ms, planeDomOf x.2.2.1 x.2.1 = q.dom) →
    ((∃ x ∈ allRunning s, pointOf s x.2.2.1 x.2.1 x.2.2.2 = some p) →
      (∀ x ∈ allRunning s, ∀ q, pointOf s x.2.2.1 x.2.1 x.2.2.2 = some q → q = p ∧ x.2.2.1.kern.threads = n) → syncAll s = t) ∧
    ((∀ x ∈ ms, ∃ l, x.2.2.2.arrival = some (l, true)) → (∀ q ∈ s.planes, collided q = []) →
      t.planes = s.planes.map (fun q => if hit q then swapRegion q else q)) ∧
    ((∀ x ∈ ms, ∃ l, x.2.2.2.arrival = some (l, false)) → t.planes = s.planes) ∧
    ((∀ x ∈ ms, ∃ l, x.2.2.2.arrival = some (l, true)) ∧ (∀ q ∈ s.planes, collided q = []) ∨
        (∀ x ∈ ms, ∃ l, x.2.2.2.arrival = some (l, false)) →
      ∀ x ∈ ms, ∃ g, groupAt t x.1 = some g ∧ (thAt g x.2.1).pos = x.2.2.2.pos + 1 ∧ (thAt g x.2.1).run = .ready ∧
        (thAt g x.2.1).arrival = none ∧ (thAt g x.2.1).pc = x.2.2.2.pc) ∧
    ((∃ x ∈ ms, ∃ l, x.2.2.2.arrival = some (l, true)) → (∃ x ∈ ms, ∃ l, x.2.2.2.arrival = some (l, false)) →
      t.planes = s.planes ∧ ∀ x ∈ ms, ∃ g, groupAt t x.1 = some g ∧ (thAt g x.2.1).run = .station ∧
        ∃ r ∈ t.reports, r.code = faultNum .domainMismatch ∧ r.launch = x.2.2.1.launch ∧ r.group = x.2.2.1.index ∧ r.thr = x.2.1)) ∧
  (∀ (q : PlaneReg) (w : Nat) (l : List (Nat × BitVec 32)), l = lastOf w q.contrib →
    (swapRegion q).contrib = [] ∧
    ((∀ e ∈ q.contrib, e.1 ≠ w) → tbytes (swapRegion q).present (4 * w) 4 = tbytes q.present (4 * w) 4) ∧
    ((∃ e ∈ q.contrib, e.1 = w) → tbytes (swapRegion q).present (4 * w) 4 = leBytes (settle q.rule (l.map (fun e => e.2))).toNat 4) ∧
    l.Pairwise (fun a b => a.1 < b.1) ∧
    (∀ r v, (r, v) ∈ l ↔ ∃ a b, q.contrib = a ++ (w, r, v) :: b ∧ ∀ e ∈ b, ¬ (e.1 = w ∧ e.2.1 = r)) ∧
    (∀ (m : List (BitVec 32)) (x y : BitVec 32), settle 0 (m ++ [x]) = x ∧ settle 1 (x :: m) = m.foldl (fun a b => a + b) x ∧
      settle 2 (x :: m ++ [y]) = r32 0 (fadd 0 (f32 (settle 2 (x :: m))) (f32 y))))

/-- R311, R302, R308: what a mark whose CTL slot is EXIT, SVC, TRAP or ERET does once it has retired. XPC saves the next
sequential bundle, XCAUSE the immediate and which it was, and the system segment at SYSENT.ADDR runs from its entry; ERET goes
on in the kernel's segment at XPC, where a bundle must start. That the mark itself posts TRAP's host event (`trapEvent`) is the model's
choice (log entry 29): R396 gives that event to the system segment. -/
def Obligations.SystemEntryAndReturn : Prop :=
  ∀ (s : State) (imm : Nat) (g : Seg) (e : State), g = segAt s (bitsOf s.regs.sysent.toNat 47 6 * 64) true →
    (∀ trap, e = { s with th := { s.th with
      xpc := s.th.pc, xcause := BitVec.ofNat 64 (if trap then imm + 65536 else imm), seg := g, insys := true,
      pc := BitVec.ofNat 64 g.entry } } → enterSystem s imm trap = e) ∧
    (s.th.heldCtl = some (0, 0) → ctlRetire s = { s with th := { s.th with run := .exited } }) ∧
    (s.th.heldCtl = some (1, imm) → ctlRetire s = enterSystem s imm false) ∧
    (s.th.heldCtl = some (2, imm) → ctlRetire s = enterSystem (trapEvent s imm) imm true) ∧
    (s.th.heldCtl = some (3, 0) → startsAt s s.grp.kern.seg s.th.xpc.toNat →
      ctlRetire s = { s with th := { s.th with seg := s.grp.kern.seg, insys := false, pc := s.th.xpc, hs := [] } }) ∧
    (s.th.heldCtl = some (3, 0) → ¬ startsAt s s.grp.kern.seg s.th.xpc.toNat →
      (ctlRetire s).th.run = .station ∧ ∃ r, (ctlRetire s).reports = s.reports ++ [r] ∧ r.code = faultNum .illegalTarget) ∧
    (s.th.heldCtl = none → ctlRetire s = s)

/-! Memory operands, loads and stores. -/

/-- R127, R111, R131, R326: the checks of an access of n bytes through a handle, in their order, and where it reaches. R128: an access through a handle that is not stale uses it as it is; a stale one walks again from its remembered VA, and the
handle takes what the walk gives, or the access raises the walk's fault. A store's (`st`) saddle-scratch extent is tested at its mark
(R122, R412). -/
def Obligations.AccessChecks : Prop :=
  (∀ (t : State) (hh : Handle) (off : Int) (n al : Nat) (need : Need) (lo hi a : Int),
    need ≠ .none →
    lo = (match hh.space with | .memory => (hh.va - hh.va % handlePage hh : Nat) | .scratch => 0 | .plane => 0) →
    hi = (match hh.space with
      | .memory => lo + handlePage hh | .scratch => 0x800000 | .plane => planeSize t.grp hh.plane) →
    a = (match hh.space with | .memory => (hh.va : Int) + off | .scratch => off | .plane => off) →
    (hh.st = .empty → Refuses t hh off n al need .handlePerm) ∧
    (hh.st ≠ .empty → hh.space = .memory → (a < lo ∨ hi < a + n) → Refuses t hh off n al need .handleBound) ∧
    (hh.st ≠ .empty → (hh.space = .memory → lo ≤ a ∧ a + n ≤ hi) → permits hh need = false →
      Refuses t hh off n al need .handlePerm) ∧
    (hh.st ≠ .empty → (hh.space = .memory → lo ≤ a ∧ a + n ≤ hi) → permits hh need = true → (BitVec.ofInt 64 a).toNat % al ≠ 0 →
      Refuses t hh off n al need .align) ∧
    (hh.st ≠ .empty → permits hh need = true → (BitVec.ofInt 64 a).toNat % al = 0 → (a < lo ∨ hi < a + n) →
      Refuses t hh off n al need .handleBound) ∧
    (hh.st ≠ .empty → lo ≤ a → a + n ≤ hi → permits hh need = true → a.toNat < 2 ^ 64 → a.toNat % al = 0 →
      (hh.space = .plane → planeFenced t = false → locate t hh off n al need = .ok (.pl hh.plane a.toNat, a.toNat)) ∧
      (hh.space = .plane → planeFenced t = true → Refuses t hh off n al need .deviceFenced) ∧
      (hh.space = .scratch → allPinned t.grp a.toNat n = true → locate t hh off n al need = .ok (.scr a.toNat, a.toNat)) ∧
      (hh.space = .scratch → allPinned t.grp a.toNat n = false → Refuses t hh off n al need .scratchUnmapped) ∧
      (hh.space = .memory → isFenced t hh.dev = true → Refuses t hh off n al need .deviceFenced) ∧
      (∀ pa : Nat, hh.space = .memory → isFenced t hh.dev = false → (pa : Int) = hh.pa + off → pa < 2 ^ 64 →
        (isRemote t hh.dev = true ∨ need = .st ∨ saddleOut t pa = false ∧ saddleOut t (pa + n - 1) = false →
          locate t hh off n al need = .ok (.mem hh.dev pa, a.toNat)) ∧
        (isRemote t hh.dev = false → need ≠ .st → (saddleOut t pa = true ∨ saddleOut t (pa + n - 1) = true) →
          Refuses t hh off n al need .scratchUnmapped)))) ∧
  (∀ (s : State) (h : BitVec 4) (hh : Handle), hReg s.th h.toNat = hh →
    (hh.st ≠ .stale → hh.st ≠ .restored → useHandle s h.toNat = .ok (noteAccess s hh) hh) ∧
    ((hh.st = .stale ∨ hh.st = .restored) → ∀ t h', walkFor s hh.va = .ok t h' →
      ∃ u, useHandle s h.toNat = .ok u h' ∧ hReg u.th h.toNat = h') ∧
    ((hh.st = .stale ∨ hh.st = .restored) → ∀ c va, walkFor s hh.va = .bad c va → useHandle s h.toNat = .bad c va))

/-- R327, R328: where the checks pass, LD puts its load in flight and ST gates the low bytes of its register; a byte or halfword
store into a plane region is ALIGN; walk descriptors move as 64 bytes. -/
def Obligations.LoadsAndStores : Prop :=
  ∀ (s t : State) (d x : BitVec 6) (w : BitVec 3) (h cls : BitVec 4) (imm : BitVec 24) (sz : BitVec 2) (sx : BitVec 1) (p : BitVec 5)
    (hh : Handle) (l : Loc) (va n : Nat),
    predOk s.th p = true → n = 2 ^ sz.toNat →
    (Reaches s h (offset s x imm.toInt) n n .r t hh l va →
      Gives (.ld d h x imm sz sx cls p) s (loadAt t (.s d.toNat) l n cls.toNat (.int (sx == 1)) va clsLoad)) ∧
    (Reaches s h (offset s x imm.toInt) n n .st t hh l va →
      (hh.space = .plane ∧ sz.toNat < 2 → Gives (.st d h x imm sz cls p) s (raise t .align va)) ∧
      (hh.space ≠ .plane ∨ 2 ≤ sz.toNat →
        Gives (.st d h x imm sz cls p) s (storeAt t l (leBytes (sReg t.th d.toNat).toNat n) cls.toNat va))) ∧
    (Reaches s h (offset s x imm.toInt) 64 64 .r t hh l va →
      Gives (.ldWalk w h x imm cls p) s (loadAt t (.w w.toNat) l 64 cls.toNat .lanes va clsLoad)) ∧
    (Reaches s h (offset s x imm.toInt) 64 64 .st t hh l va →
      Gives (.stWalk w h x imm cls p) s (storeAt t l (leBytes (wReg t.th w.toNat).toNat 64) cls.toNat va)) ∧
    (∀ c a, useHandle s h.toNat = .bad c a →
      Gives (.ld d h x imm sz sx cls p) s (raise s c a) ∧ Gives (.st d h x imm sz cls p) s (raise s c a)) ∧
    (∀ c a, useHandle s h.toNat = .ok t hh → locate t hh (offset s x imm.toInt) n n .st = .error (c, a) →
      Gives (.st d h x imm sz cls p) s (raise t c a))

/-- R21, R22: a store that finds room in the gate changes nothing but the gate; the gate then holds its bytes at its places, and
at every other place what it held; without room the store is GATE_OVERFLOW. Home memory is as before. R21: one sector's store merges into the youngest entry if that has the sector and the class and no FENCE of the class came
after it, else it takes a new entry; the 129th is refused. R22, R327: a load of bytes that its thread's own gate holds takes them, youngest first, extended as its form says; with no
earlier access of its class outstanding the value is there at once, in the load class. R327, R2: the value that a load's n bytes make: little-endian, extended from 8n bits with or without sign. -/
def Obligations.GateStore : Prop :=
  ((∀ (s : State) (l : Loc) (bs : List Byte) (cls va : Nat),
    (∀ g, gatePuts s.th cls (gateWrites l va bs) = some g →
      storeAt s l bs cls va = { s with th := { s.th with gate := g.gate } } ∧
      (∀ i, i < bs.length → gateAt g (l.plus i) = some (bs.getD i 0)) ∧
      (∀ m : Loc, (∀ i, i < bs.length → m ≠ l.plus i) → gateAt g m = gateAt s.th m)) ∧
    (gatePuts s.th cls (gateWrites l va bs) = none → storeAt s l bs cls va = raise s .gateOverflow va)) ∧
  (∀ (t : Thread) (a : GAddr) (cls va : Nat) (m : BitVec 64) (x : BitVec 512),
    (t.gate = [] → ∃ e, gatePut t a cls m x va = some { t with gate := [e] } ∧ e.at_ = a ∧ e.cls = cls ∧ e.mask = m) ∧
    (∀ e r, t.gate = e :: r → fenceFloor t.fences cls < r.length + 1 →
      (e.at_ = a ∧ e.cls = cls → ∃ y, gatePut t a cls m x va = some { t with gate := y :: r } ∧ y.at_ = a ∧ y.cls = cls ∧
        y.mask = e.mask ||| m) ∧
      (e.at_ ≠ a ∨ e.cls ≠ cls → r.length < 127 → ∃ y, gatePut t a cls m x va = some { t with gate := y :: e :: r } ∧
        y.at_ = a ∧ y.cls = cls ∧ y.mask = m ∧ y.data = x) ∧
      (e.at_ ≠ a ∨ e.cls ≠ cls → 127 ≤ r.length → gatePut t a cls m x va = none)))) ∧
  ((∀ (s : State) (r : RegName) (l : Loc) (n cls va : Nat) (fin : LoadFin) (bs : List Byte),
    (∀ reg o, l ≠ .pl reg o) → bs.length = n → (∀ i, i < n → gateAt s.th (l.plus i) = some (bs.getD i 0)) →
    earlierLoad s.th cls = false → earlierTld s cls = false →
    (∀ c ∈ s.grp.ch, readsBefore s (cxOf s) cls (s.th.pos, s.th.slot) c.2 = false) →
    loadAt s r l n cls fin va clsLoad = { s with th := pushReg s.th r (finVal fin bs) clsLoad }) ∧
  (∀ (bs : List Byte), bs.length ≤ 8 →
    (∃ v : Word, finVal (.int false) bs = .s v ∧ ∀ i, i < 64 → v.getLsbD i = (bs.getD (i / 8) 0).getLsbD (i % 8)) ∧
    (∃ v : Word, finVal (.int true) bs = .s v ∧ ∀ i, i < 64 → 0 < bs.length → v.getLsbD i =
      if i < 8 * bs.length then (bs.getD (i / 8) 0).getLsbD (i % 8) else (bs.getD (bs.length - 1) 0).getLsbD 7)))

/-! Handles. -/

/-- R329, R330, R331: XLATE in its three forms, HFREE and HTEST. A memory handle's base VA is a; what the walk refuses is raised; a walk
that meets a migrating entry or a node of another device leaves its result late (R16, R129). The walk reads what it reads tested (`u`,
R420). -/
def Obligations.HandleInstructions : Prop :=
  ∀ (s u : State) (d a : BitVec 6) (hd idx : BitVec 4) (p : BitVec 5) (h : Handle) (va : Nat) (w : WalkRes),
    predOk s.th p = true → va = (sReg s.th a.toNat).toNat → u = testWalk s (rootOf s s.grp.image) va →
    w = walk (asReader u []) (rootOf u u.grp.image) u.th.seg.sys va →
    (SameOutside s u ∧ u.th = s.th ∧ u.grp = s.grp ∧ u.core = s.core ∧ (s.checks = [] → u = s)) ∧
    (∀ pa lv leaf dev, w = .page pa lv leaf dev →
      Gives (.xlate hd a p) s (putH u hd.toNat (pageHandle u va pa lv leaf dev) clsXlate)) ∧
    (∀ c, w = .bad c → Gives (.xlate hd a p) s (raise u c va)) ∧
    (∀ n, (w = .mig ∧ n = 1 ∨ (∃ dev sec, w = .wait dev sec) ∧ n = 0) → ∃ q : LoadReq, q.fin = .walk va s.th.seg.sys n ∧
      Gives (.xlate hd a p) s { u with th := pushLoad u.th (.h hd.toNat) q clsXlate }) ∧
    (∃ k : Handle, Gives (.xlateScratch hd p) s (putH s hd.toNat k clsXlate) ∧ k.st = .valid ∧ k.space = .scratch ∧
      k.r = true ∧ k.w = true) ∧
    (idx.toNat < s.grp.kern.planes.length → ∃ k : Handle, Gives (.xlatePlane hd idx p) s (putH s hd.toNat k clsXlate) ∧
      k.st = .valid ∧ k.space = .plane ∧ k.plane = idx.toNat ∧ k.r = true ∧ k.w = true) ∧
    (s.grp.kern.planes.length ≤ idx.toNat → Faults (.xlatePlane hd idx p) s .handlePerm 0) ∧
    (∃ k : Handle, Gives (.hfree hd p) s (putH s hd.toNat k clsAlu) ∧ k.st = .empty) ∧
    (∃ v : Word, GivesS (.htest d hd p) s d clsLoad v ∧
      ((hReg s.th hd.toNat).st = .empty → v = 0) ∧
      (hReg s.th hd.toNat = h → h.st ≠ .empty → h.size < 3 → h.plane < 16 → h.dev < 1024 →
        (∀ k, h.stack = some k → k < 8) → (h.space ≠ .plane → h.plane = 0) → s.regs.rank < 1024 →
        bitsOf v.toNat 1 0 = (if h.st = .stale then 2 else 1) ∧
        bitsOf v.toNat 3 2 = (match h.space with | .memory => 0 | .scratch => 1 | .plane => 2) ∧
        bitsOf v.toNat 5 4 = (if h.space = .memory then h.size else 0) ∧
        v.getLsbD 6 = h.r ∧ v.getLsbD 7 = h.w ∧ v.getLsbD 8 = h.sys ∧ v.getLsbD 9 = h.comp ∧ v.getLsbD 10 = h.lowered ∧
        v.getLsbD 11 = h.stack.isSome ∧ bitsOf v.toNat 14 12 = h.stack.getD 0 ∧ bitsOf v.toNat 18 15 = h.plane ∧
        bitsOf v.toNat 63 32 = (if h.space = .memory then bitsOf h.pa 47 16 else 0)))

/-- R129, R329: a walk that a device alone in its package makes, through three entries that are valid, resident and not migrating,
the last a leaf on a page of the map. The handle's base is a itself; what the leaf says becomes its attributes. -/
def Obligations.WalkThreeLevels : Prop :=
  ∀ (s : State) (root va n1 n2 n3 e1 e2 e3 : Nat) (sys : Bool),
    s.regs.inset = false → s.regs.fences = [] → s.poisoned = [] → s.checks = [] → va < 2 ^ 52 →
    n1 = root + 8 * bitsOf va 51 40 → e1 = memNat s n1 8 → n2 = bitsOf e1 47 15 * 2 ^ 15 + 8 * bitsOf va 39 28 →
    e2 = memNat s n2 8 → n3 = bitsOf e2 47 15 * 2 ^ 15 + 8 * bitsOf va 27 16 → e3 = memNat s n3 8 →
    (∀ e, e = e1 ∨ e = e2 → bitsOf e 7 0 % 2 = 1 ∧ e.testBit 1 = false ∧ e.testBit 6 = false ∧ e.testBit 7 = false ∧
      bitsOf e 14 8 = 0 ∧ bitsOf e 63 48 = 0) →
    (e3.testBit 0 = false → walk s root sys va = .bad .pageAbsent) ∧
    (e3.testBit 0 = true → (bitsOf e3 14 8 ≠ 0 ∨ bitsOf e3 63 48 ≠ 0) → walk s root sys va = .bad .walkFault) ∧
    (e3.testBit 0 = true → bitsOf e3 14 8 = 0 → bitsOf e3 63 48 = 0 →
      (e3.testBit 7 = true → walk s root sys va = .mig) ∧
      (e3.testBit 7 = false → e3.testBit 1 = false → walk s root sys va = .bad .walkFault) ∧
      (e3.testBit 7 = false → e3.testBit 1 = true → bitsOf e3 47 15 * 2 ^ 15 % 2 ^ 16 ≠ 0 → walk s root sys va = .bad .walkFault) ∧
      (e3.testBit 7 = false → e3.testBit 1 = true → bitsOf e3 47 15 * 2 ^ 15 % 2 ^ 16 = 0 →
        (inMap s (bitsOf e3 47 15 * 2 ^ 15) = false → walk s root sys va = .bad .walkFault) ∧
        (inMap s (bitsOf e3 47 15 * 2 ^ 15) = true → e3.testBit 4 = true → sys = false →
          walk s root sys va = .bad .handlePerm) ∧
        (inMap s (bitsOf e3 47 15 * 2 ^ 15) = true → (e3.testBit 4 = false ∨ sys = true) →
          walk s root sys va = .page (bitsOf e3 47 15 * 2 ^ 15) 3 e3 0 ∧
          ∃ h, pageHandle s va (bitsOf e3 47 15 * 2 ^ 15) 3 e3 0 = h ∧ h.st = .valid ∧ h.space = .memory ∧ h.va = va ∧
            h.pa = bitsOf e3 47 15 * 2 ^ 15 + va % 2 ^ 16 ∧ handlePage h = 2 ^ 16 ∧
            h.r = e3.testBit 2 ∧ h.w = e3.testBit 3 ∧ h.sys = e3.testBit 4 ∧ h.comp = e3.testBit 5)))

/-! Read-modify-writes. At issue their operand is checked and captured (`holdOp`); their mark performs them at step 2. -/

/-- R332, R333, R335 (with R326): the checks made at issue, with W required; a plane is HANDLE_PERM for an atomic, scratch too for an
NMR or a counter. -/
def Obligations.ReadModifyWriteIssue : Prop :=
  ∀ (s t : State) (d x a b : BitVec 6) (h cls : BitVec 4) (imm : BitVec 14) (dw : BitVec 1) (p : BitVec 5) (hh : Handle)
    (l : Loc) (va n : Nat) (u v : Word),
    predOk s.th p = true → n = (if dw = 1 then 8 else 4) → u = sReg t.th a.toNat → v = sReg t.th b.toNat →
    (Reaches s h (offset s x imm.toInt) n n .w t hh l va → hh.space ≠ .plane →
      (∀ i ∈ [Instr.aadd d h x imm a dw cls p, .aand d h x imm a dw cls p, .aor d h x imm a dw cls p, .axor d h x imm a dw cls p,
          .amin d h x imm a dw cls p, .amax d h x imm a dw cls p, .aminu d h x imm a dw cls p, .amaxu d h x imm a dw cls p,
          .axchg d h x imm a dw cls p], Gives i s (holdOp t i u 0 0 hh l va)) ∧
      Gives (.acas d h x imm a b dw cls p) s (holdOp t (.acas d h x imm a b dw cls p) u v 0 hh l va) ∧
      (dw = 0 → Gives (.afadd d h x imm a cls p) s (holdOp t (.afadd d h x imm a cls p) u 0 0 hh l va))) ∧
    (Reaches s h (offset s x imm.toInt) n n .w t hh l va → hh.space = .memory →
      (∀ i ∈ [Instr.nmrAdd h x imm a dw cls p, .nmrMin h x imm a dw cls p, .nmrMax h x imm a dw cls p,
          .nmrMinu h x imm a dw cls p, .nmrMaxu h x imm a dw cls p, .nmrAnd h x imm a dw cls p, .nmrOr h x imm a dw cls p,
          .nmrXor h x imm a dw cls p], Gives i s (holdOp t i u 0 0 hh l va)) ∧
      (dw = 0 → Gives (.nmrFadd h x imm a cls p) s (holdOp t (.nmrFadd h x imm a cls p) u 0 0 hh l va)) ∧
      (dw = 1 → (hReg s.th h.toNat).space = .memory →
        Gives (.ctradd h x imm a cls p) s (holdOp t (.ctradd h x imm a cls p) u 0 0 hh l va))) ∧
    (Reaches s h (offset s x imm.toInt) n n .w t hh l va → hh.space = .plane →
      (∀ i ∈ [Instr.aadd d h x imm a dw cls p, .aand d h x imm a dw cls p, .aor d h x imm a dw cls p, .axor d h x imm a dw cls p,
          .amin d h x imm a dw cls p, .amax d h x imm a dw cls p, .aminu d h x imm a dw cls p, .amaxu d h x imm a dw cls p,
          .axchg d h x imm a dw cls p, .acas d h x imm a b dw cls p], Gives i s (raise t .handlePerm va)) ∧
      (dw = 0 → Gives (.afadd d h x imm a cls p) s (raise t .handlePerm va))) ∧
    (∀ f : List Instr, f = [.nmrAdd h x imm a dw cls p, .nmrMin h x imm a dw cls p, .nmrMax h x imm a dw cls p,
        .nmrMinu h x imm a dw cls p, .nmrMaxu h x imm a dw cls p, .nmrAnd h x imm a dw cls p, .nmrOr h x imm a dw cls p,
        .nmrXor h x imm a dw cls p] ++ (if dw = 0 then [.nmrFadd h x imm a cls p] else []) →
      (Reaches s h (offset s x imm.toInt) n n .w t hh l va → hh.space ≠ .memory →
        ∀ i ∈ f, Gives i s (raise t .handlePerm va)) ∧
      (useHandle s h.toNat = .ok t hh → hh.space ≠ .memory →
        locate t hh (offset s x imm.toInt) n n .w = .error (.scratchUnmapped, va) →
        ∀ i ∈ f, ∃ b, Gives i s (raise t .handlePerm b))) ∧
    ((hReg s.th h.toNat).st ≠ .empty → (hReg s.th h.toNat).space ≠ .memory →
      Faults (.ctradd h x imm a cls p) s .handlePerm 0 ∧ Faults (.waitge h x imm a cls p) s .handlePerm 0)

/-- R332, R333, R335: the new value of a w-bit cell holding `old`, for operands a and b of w bits. R332, R148: an atomic, NMR or counter add on this device's memory at step 2 of its mark, its sector sound. The n bytes at
its place become the new value and no other byte of home memory changes but the line's own dirty bytes, which are written back
first; the old value, zero-extended, goes to the destination in the load class. The same in scratch; a poisoned
sector is POISON (R160). -/
def Obligations.ReadModifyWriteValue : Prop :=
  (∀ (d x ra rb : BitVec 6) (h cls : BitVec 4) (imm : BitVec 14) (dw : BitVec 1) (p : BitVec 5) (w old a b : Nat) (n : Nat → Int),
    w = 32 ∨ w = 64 → old < 2 ^ w → a < 2 ^ w → b < 2 ^ w →
    (∀ v, n v = if v < 2 ^ (w - 1) then (v : Int) else (v : Int) - 2 ^ w) →
    (∀ i ∈ [Instr.aadd d h x imm ra dw cls p, .nmrAdd h x imm ra dw cls p, .ctradd h x imm ra cls p],
      rmw i w old a b = (old + a) % 2 ^ w) ∧
    (∀ i ∈ [Instr.aand d h x imm ra dw cls p, .nmrAnd h x imm ra dw cls p],
      ∀ j, (rmw i w old a b).testBit j = (old.testBit j && a.testBit j)) ∧
    (∀ i ∈ [Instr.aor d h x imm ra dw cls p, .nmrOr h x imm ra dw cls p],
      ∀ j, (rmw i w old a b).testBit j = (old.testBit j || a.testBit j)) ∧
    (∀ i ∈ [Instr.axor d h x imm ra dw cls p, .nmrXor h x imm ra dw cls p],
      ∀ j, (rmw i w old a b).testBit j = (old.testBit j != a.testBit j)) ∧
    (∀ i ∈ [Instr.amin d h x imm ra dw cls p, .nmrMin h x imm ra dw cls p],
      n (rmw i w old a b) = min (n old) (n a) ∧ (rmw i w old a b = old ∨ rmw i w old a b = a)) ∧
    (∀ i ∈ [Instr.amax d h x imm ra dw cls p, .nmrMax h x imm ra dw cls p],
      n (rmw i w old a b) = max (n old) (n a) ∧ (rmw i w old a b = old ∨ rmw i w old a b = a)) ∧
    (∀ i ∈ [Instr.aminu d h x imm ra dw cls p, .nmrMinu h x imm ra dw cls p], rmw i w old a b = min old a) ∧
    (∀ i ∈ [Instr.amaxu d h x imm ra dw cls p, .nmrMaxu h x imm ra dw cls p], rmw i w old a b = max old a) ∧
    rmw (.axchg d h x imm ra dw cls p) w old a b = a ∧
    rmw (.acas d h x imm ra rb dw cls p) w old a b = (if old = b then a else old) ∧
    (w = 32 → ∀ i ∈ [Instr.afadd d h x imm ra cls p, .nmrFadd h x imm ra cls p],
      rmw i w old a b = (r32 0 (fadd 0 (f32 (BitVec.ofNat 32 old)) (f32 (BitVec.ofNat 32 a)))).toNat)) ∧
  (∀ (s s1 : State) (o : HeldOp) (d : Option Nat) (n old new : Nat),
    n = 4 ∨ n = 8 → o.pa % n = 0 → o.h.space = .memory → o.h.dev = ownRank s →
    s1 = cleanLine s o.h.dev (o.pa / 256) true → isPoisoned s1 o.pa = false → saddleOut s1 o.pa = false →
    old = memNat s1 o.pa n → new = rmw o.ins (8 * n) old (o.a.toNat % 2 ^ (8 * n)) (o.b.toNat % 2 ^ (8 * n)) →
    ∃ t, rmwPerform s o d n = .done t ∧
      memNat t o.pa n = new % 2 ^ (8 * n) ∧
      (∀ a, a < o.pa ∨ o.pa + n ≤ a → memRead t a = memRead s1 a) ∧
      (∀ r, d = some r → t.th = (putS s r (BitVec.ofNat 64 old) clsLoad).th) ∧ (d = none → t.th = s.th)) ∧
  (∀ (s : State) (o : HeldOp) (d : Option Nat) (n old new : Nat),
    (o.h.space = .memory → isPoisoned (cleanLine s o.h.dev (o.pa / 256) true) o.pa = true → rmwPerform s o d n = .bad .poison) ∧
    (o.h.space = .scratch → o.pa / 64 ∈ s.grp.badScr → rmwPerform s o d n = .bad .poison) ∧
    (o.h.space = .scratch → o.pa / 64 ∉ s.grp.badScr → n = 4 ∨ n = 8 → old = leNat (tbytes s.grp.scratch o.pa n) →
      new = rmw o.ins (8 * n) old (o.a.toNat % 2 ^ (8 * n)) (o.b.toNat % 2 ^ (8 * n)) →
      ∃ t, rmwPerform s o d n = .done t ∧ t.mem = s.mem ∧ leNat (tbytes t.grp.scratch o.pa n) = new % 2 ^ (8 * n) ∧
        (∀ a, a < o.pa ∨ o.pa + n ≤ a → tget 0 t.grp.scratch a = tget 0 s.grp.scratch a) ∧
        (∀ r, d = some r → t.th = (putS s r (BitVec.ofNat 64 old) clsLoad).th) ∧ (d = none → t.th = s.th)))

/-! Ordering, scratch and lines, tile loads and stores. -/

/-- R143, R144, R145, R334, R336: FENCE, REL, ACQ and WAITGE, and where they hold their bundle. A WAITGE reads its counter at home, after
the earlier accesses of its class (R150), and a clean copy that the array has of it goes (R151). R145: what an ACQ wider than core does to a sector of the array: where the filling class is in the mask, exactly its dirty
bytes stay valid, with their data; every other sector is as before. -/
def Obligations.OrderingInstructions : Prop :=
  (∀ (s t : State) (mask : BitVec 16) (sc : BitVec 3) (x a : BitVec 6) (h cls : BitVec 4) (imm : BitVec 14) (p : BitVec 5)
    (hh : Handle) (l : Loc) (va : Nat),
    predOk s.th p = true →
    Gives (.fence 0 p) s s ∧
    (mask ≠ 0 → beforeFence s mask = false → Gives (.fence mask p) s { s with th := { s.th with
      fences := (mask.toNat, s.th.gate.length) :: s.th.fences } }) ∧
    (mask ≠ 0 → beforeFence s mask = true → Gives (.fence mask p) s (block s)) ∧
    Gives (.rel mask sc p) s { s with th := { s.th with heldRel := some (mask.toNat, sc.toNat) } } ∧
    Gives (.acq 0 sc p) s s ∧
    (mask ≠ 0 → beforeAcq s mask = true → Gives (.acq mask sc p) s (block s)) ∧
    (mask ≠ 0 → beforeAcq s mask = false → Gives (.acq mask 1 p) s s) ∧
    (mask ≠ 0 → beforeAcq s mask = false → sc ≠ 1 →
      ∃ u, Gives (.acq mask sc p) s u ∧ u = { s with core := acquire s.core mask.toNat, rdata := u.rdata, readWait := u.readWait } ∧
        ∀ e, e ∈ u.rdata ↔ e ∈ s.rdata ∧ coreReader (coOf s) e.2.2.1 = false) ∧
    ((hReg s.th h.toNat).space = .memory → Reaches s h (offset s x imm.toInt) 8 8 .r t hh l va → isRemote t hh.dev = false →
      ∀ r, r = asReader t [0, coOf t, cxOf t] →
      (loadHeld r cls.toNat = true → Gives (.waitge h x imm a cls p) s (block r)) ∧
      (loadHeld r cls.toNat = false →
        (isPoisoned t l.num = true → ∃ u, Gives (.waitge h x imm a cls p) s (raise u .poison va) ∧ u.th = t.th ∧ SameOutside t u) ∧
        (isPoisoned t l.num = false → l.num % 8 = 0 → ∃ u, Gives (.waitge h x imm a cls p) s u ∧ SameOutside t u ∧
          u.grp = { t.grp with ch := u.grp.ch } ∧
          u.th = (if (sReg t.th a.toNat).toNat ≤ memNat t l.num 8 then t.th else { t.th with run := .waitge }) ∧
          (arrGet u.core hh.dev (l.num / 64)).valid = (arrGet t.core hh.dev (l.num / 64)).dirty)))) ∧
  (∀ (c : Core) (mask dev sec : Nat), twf Sector.none c.arr = true →
    (mask.testBit (arrGet c dev sec).cls = false → arrGet (acquire c mask) dev sec = arrGet c dev sec) ∧
    (mask.testBit (arrGet c dev sec).cls = true → (arrGet (acquire c mask) dev sec).valid = (arrGet c dev sec).dirty ∧
      (arrGet (acquire c mask) dev sec).dirty = (arrGet c dev sec).dirty ∧
      ((arrGet c dev sec).dirty ≠ 0 → (arrGet (acquire c mask) dev sec).data = (arrGet c dev sec).data)))

/-- R338: PREF fills a cached line of this device at once, one of another device when its data has come, and ignores what would fault;
CLEAN and INVAL write back the dirty bytes of a line of this
device's memory, INVAL also drops the line; where the operand is scratch, a plane, or not cached, they do nothing. R140, R338: writing back a line of this device's memory: every byte that was dirty is at home, every other byte there is as
before; the line's sectors have no dirty byte left, and `drop` leaves no valid one. R112, R337: PIN pins all of a range's lines or none; UNPIN releases those that are not ring storage, and holds its bundle
while a copy or tile load writes one or an earlier load of its thread has still to read one; its window keeps what it released. R110, R112: the core array has 2,048 sets of 16 ways, which
cache lines and scratch lines share: a line takes a way of its set, and where the set has none left, cache lines make room; a line that
has its way keeps it. The model's choices, not the rules' (log entry 77): a PREF whose walk cannot end at once is ignored, and one of
another device's line is a load without a register. -/
def Obligations.LineOperations : Prop :=
  ((∀ (s t : State) (x : BitVec 6) (h cls : BitVec 4) (imm : BitVec 24) (p : BitVec 5) (hh : Handle) (l : Loc) (va d pa sec : Nat),
    predOk s.th p = true →
    ((∀ c e, useHandle s h.toNat = .bad c e → Gives (.pref h x imm cls p) s s) ∧
      (∀ u, useHandle s h.toNat = .wait u → Gives (.pref h x imm cls p) s s) ∧
      (useHandle s h.toNat = .ok t hh → (∀ e q v, locate t hh (offset s x imm.toInt) 1 1 .r ≠ .ok (.mem e q, v)) →
        Gives (.pref h x imm cls p) s t)) ∧
    (useHandle s h.toNat = .ok t hh → locate t hh (offset s x imm.toInt) 1 1 .r = .ok (.mem d pa, va) →
      (cachedAt t d pa = false → Gives (.pref h x imm cls p) s t) ∧
      (cachedAt t d pa = true → isRemote t d = true → ∃ q : LoadReq, q.fin = .pref cls.toNat ∧ q.srcs.length = 256 ∧
        (∀ e ∈ q.srcs, ∃ b, b / 256 = pa / 256 ∧ e = .home d b) ∧
        Gives (.pref h x imm cls p) s { t with th := pushLoad t.th (.s 0) q clsLoad }) ∧
      (cachedAt t d pa = true → isRemote t d = false → pa < 2 ^ 48 → ∃ u, Gives (.pref h x imm cls p) s u ∧ u.th = t.th ∧ u.grp = t.grp ∧
        (sec / 4 = pa / 256 → secBad t sec = false →
          (arrGet u.core d sec).valid = BitVec.allOnes 64 ∧
          ((arrGet t.core d sec).valid ≠ BitVec.allOnes 64 → (arrGet u.core d sec).cls = cls.toNat ∧
            ∀ i, i < 64 → (arrGet t.core d sec).dirty.getLsbD i = false →
              (arrGet u.core d sec).data.extractLsb' (8 * i) 8 = memRead t (64 * sec + i))))) ∧
    (Reaches s h (offset s x imm.toInt) 1 1 .none t hh l va →
      (l = .mem d pa → cachedAt t d pa = true →
        Gives (.clean h x imm p) s (cleanLine t d (pa / 256) false) ∧ Gives (.inval h x imm p) s (cleanLine t d (pa / 256) true)) ∧
      ((∀ e q, l ≠ .mem e q) ∨ (l = .mem d pa ∧ cachedAt t d pa = false) →
        Gives (.clean h x imm p) s t ∧ Gives (.inval h x imm p) s t))) ∧
  (∀ (s t : State) (ln : Nat) (drop : Bool), t = cleanLine s (ownRank s) ln drop →
    (∀ sec i, sec < 2 ^ 42 → i < 64 → memRead t (64 * sec + i) =
      if sec / 4 = ln ∧ (arrGet s.core (ownRank s) sec).dirty.getLsbD i = true
      then (arrGet s.core (ownRank s) sec).data.extractLsb' (8 * i) 8 else memRead s (64 * sec + i)) ∧
    (∀ sec, sec / 4 = ln → sec < 2 ^ 42 → (arrGet t.core (ownRank s) sec).dirty = 0 ∧
      (drop = true → (arrGet t.core (ownRank s) sec).valid = 0)) ∧
    t.th = s.th ∧ t.grp = s.grp ∧ t.regs = { s.regs with npoison := t.regs.npoison, evProd := t.regs.evProd, evlost := t.regs.evlost })) ∧
  (∀ (s : State) (d a b : BitVec 6) (p : BitVec 5) (x y : Nat) (ls : List Nat),
    predOk s.th p = true → x = (sReg s.th a.toNat).toNat → y = (sReg s.th b.toNat).toNat → ls = lineRange x y →
    (y = 0 → GivesS (.pin d a b p) s d clsLoad 1 ∧ Gives (.unpin a b p) s s) ∧
    (0 < y → 0x800000 < x + y → Faults (.pin d a b p) s .handleBound x ∧ Faults (.unpin a b p) s .handleBound x) ∧
    (0 < y → x + y ≤ 0x800000 →
      (pinLines s ls = none → GivesS (.pin d a b p) s d clsLoad 0) ∧
      (∀ g, pinLines s ls = some g → (∃ t, Gives (.pin d a b p) s t ∧ t.grp = g ∧ t.th = (putS s d.toNat 1 clsLoad).th) ∧
        (∀ n, n ∈ g.pinned ↔ n ∈ s.grp.pinned ∨ n ∈ ls) ∧ g.pinned.length ≤ g.kern.scratch ∧
        (∀ n, n ∈ ls → n ∉ s.grp.pinned → ∀ i, i < 256 → tget 0 g.scratch (256 * n + i) = 0) ∧
        (∀ n, n ∉ ls ∨ n ∈ s.grp.pinned → ∀ i, i < 256 → tget 0 g.scratch (256 * n + i) = tget 0 s.grp.scratch (256 * n + i))) ∧
      ((∃ c ∈ s.grp.ch, c.2.op ≠ 1 ∧ c.2.bank = none ∧ ∃ w ∈ c.2.dst, w / 256 ∈ ls) ∨
          (∃ c ∈ s.grp.tld, ∃ w ∈ c.dst, w / 256 ∈ ls) ∨
          (∃ e ∈ s.th.pend, ∃ q, e.load = some q ∧ ∃ w ∈ srcScr q.srcs, w / 256 ∈ ls) → Gives (.unpin a b p) s (block s)) ∧
      ((∀ c ∈ s.grp.ch, c.2.op ≠ 1 → c.2.bank = none → ∀ w ∈ c.2.dst, w / 256 ∉ ls) →
        (∀ c ∈ s.grp.tld, ∀ w ∈ c.dst, w / 256 ∉ ls) →
        (∀ e ∈ s.th.pend, ∀ q, e.load = some q → ∀ w ∈ srcScr q.srcs, w / 256 ∉ ls) → ∃ t, Gives (.unpin a b p) s t ∧
        (∀ n, n ∈ t.grp.pinned ↔ n ∈ s.grp.pinned ∧ (n ∉ ls ∨ 256 * n < ringBytes s.grp)) ∧
        (∀ n ∈ ls, n ∈ s.grp.pinned → ringBytes s.grp ≤ 256 * n →
          (n, tbytes s.grp.scratch (256 * n) 256, s.grp.badScr.filter (fun x => x / 4 == n)) ∈ t.th.ckpt.unpins) ∧
        t.mem = s.mem ∧ t.core = s.core ∧ t.th.s = s.th.s ∧ t.th.pend = s.th.pend))) ∧
  (∀ (s t : State) (d ln k : Nat), t = wayFor s d ln → k = ln % 2048 →
    ((d, ln) ∈ setLines s.core k → t = s) ∧
    ((d, ln) ∉ setLines s.core k → (setLines s.core k).length ≤ 16 → scrWays s k ≤ 15 →
      (setLines t.core k).length + scrWays t k + 1 ≤ 16 ∧ t.th = s.th ∧ t.grp = s.grp))

/-- R339, R365: tile loads and stores once both sides have passed their checks. That a TST takes its scratch or ring bytes through its
thread's own gate (`srcOf`) is the model's choice (log entry 54). A TST's memory side is checked for saddle scratch at its mark. -/
def Obligations.TileLoadsAndStores : Prop :=
  ∀ (s t u : State) (h ht cls : BitVec 4) (x xt : BitVec 6) (wm wt q : BitVec 3) (p : BitVec 5) (m c : Side) (r : Ring),
    predOk s.th p = true →
    (side s h.toNat x (wReg s.th wm.toNat) memOrPl .r = .ok t m →
      (side t ht.toNat xt (wReg t.th wt.toNat) scrOnly .w = .ok u c →
        (sideTotal m ≠ sideTotal c → Gives (.tld h x wm 1 q ht xt wt cls p) s (raise u .formatInvalid 0)) ∧
        (sideTotal m = sideTotal c → busy u [] (linesOf (sideScr c)) = true → Gives (.tld h x wm 1 q ht xt wt cls p) s (block u)) ∧
        (sideTotal m = sideTotal c → busy u [] (linesOf (sideScr c)) = false →
          Gives (.tld h x wm 1 q ht xt wt cls p) s (tldStart u m (sideScr c) none cls.toNat))) ∧
      (r = ringOf t.grp q.toNat → ringDeclared t.grp q.toNat = true →
        (r.bytes < sideTotal m → Gives (.tld h x wm 0 q ht xt wt cls p) s (raise t .formatInvalid 0)) ∧
        (sideTotal m ≤ r.bytes → r.slots ≤ r.filled → Gives (.tld h x wm 0 q ht xt wt cls p) s (stallOn t q.toNat .ringFull)) ∧
        (sideTotal m ≤ r.bytes → r.filled < r.slots → busy t [] [.slot q.toNat r.tail] = false →
          Gives (.tld h x wm 0 q ht xt wt cls p) s (tldStart (ringPush t q.toNat).1 m
            (upFrom (r.base + r.tail * r.bytes) (sideTotal m)) (some (q.toNat, r.tail)) cls.toNat)))) ∧
    (ringDeclared s.grp q.toNat = false → Faults (.tst h x wm 0 q ht xt wt cls p) s .formatInvalid 0) ∧
    (side s ht.toNat xt (wReg s.th wt.toNat) scrOnly .r = .ok t c →
      side t h.toNat x (wReg t.th wm.toNat) memOrPl.atCommit .w = .ok u m → sideTotal m = sideTotal c →
      busy u (linesOf (sideScr c)) [] = false → ((sideScr c).map (fun a => srcOf u.th (.scr a))).any (srcPoison u) = false →
      Gives (.tst h x wm 1 q ht xt wt cls p) s
        (storeRuns u cls.toNat m.run m.runs ((sideScr c).map (fun a => takeByte u (srcOf u.th (.scr a)))))) ∧
    (side s h.toNat x (wReg s.th wm.toNat) memOrPl.atCommit .w = .ok t m → ringDeclared s.grp q.toNat = true → r = ringOf t.grp q.toNat →
      sideTotal m ≤ r.bytes → 0 < r.filled → busy t [.slot q.toNat r.head] [] = false →
      ((upFrom (r.base + r.head * r.bytes) (sideTotal m)).map (fun a => srcOf t.th (.scr a))).any (srcPoison t) = false →
      Gives (.tst h x wm 0 q ht xt wt cls p) s (storeRuns t cls.toNat m.run m.runs
        ((upFrom (r.base + r.head * r.bytes) (sideTotal m)).map (fun a => takeByte t (srcOf t.th (.scr a))))))

/-- R217: WCLOC's word, from the tensor's pattern P and the element's index, as the rule computes it. -/
def Obligations.WclocWord : Prop :=
  ∀ (s : State) (d a b : BitVec 6) (sel : BitVec 1) (p : BitVec 5) (P : Tensor) (i k n K t c kk w r off width beta : Nat),
    predOk s.th p = true → i = (sReg s.th b.toNat).toNat → K = tensorK P → w = tensorB P →
    (patternOf s (sReg s.th a.toNat) (sReg s.th b.toNat) = none → Faults (.wcloc d a b sel p) s .coordRange i) ∧
    (patternOf s (sReg s.th a.toNat) (sReg s.th b.toNat) = some P →
      k = i / P.ndim → n = i % P.ndim → t = n / 512 * P.kt + k / K → c = n % 512 → kk = k % K → beta = kk / 32 →
      (sel = 0 → r = kk * w / 32 → off = kk * w % 32 → width = w →
        GivesS (.wcloc d a b sel p) s d clsLoad (BitVec.ofNat 64 (t * (P.e + P.sc) + r +
          4 * ((c + 64 * (r % 8)) % 512) * 2 ^ 24 + off * 2 ^ 35 + width * 2 ^ 40))) ∧
      (sel = 1 → P.sc = 0 → GivesS (.wcloc d a b sel p) s d clsLoad 0xFFFFFFFFFFFFFFFF) ∧
      (sel = 1 → P.sc ≠ 0 → r = P.e + beta / 4 → off = 8 * (beta % 4) → width = 8 →
        GivesS (.wcloc d a b sel p) s d clsLoad (BitVec.ofNat 64 (t * (P.e + P.sc) + r +
          4 * ((c + 64 * (r % 8)) % 512) * 2 ^ 24 + off * 2 ^ 35 + width * 2 ^ 40))))

/-- R190, R218, R219, R340: LOWER, RAISE, BLAUNCH, WCRD and WCWR at issue; what their marks perform is captured. WCRD
reads the words where they lie (`wcPlaces`, R255), after the earlier accesses of its class. R136, R137, R199: what LOWER and RAISE do at
step 2: a new window's lines leave the core's array, their dirty bytes written back; a window that a launch holds is not raised. R219: WCWR
of words of this device: held sectors leave the block as it is, a poisoned one is POISON, else the block's words, and nothing else, become
what `tensorWrite` makes of them. R190: BLAUNCH's checks of its descriptor, in order, a full queue, and the launch it makes. -/
def Obligations.WindowsAndCoordinates : Prop :=
  (∀ (s t : State) (d x a b c : BitVec 6) (h cls : BitVec 4) (imm : BitVec 14) (im : BitVec 24) (p : BitVec 5) (hh : Handle) (l : Loc)
    (va ad n pa : Nat) (off v : Int) (P : Tensor),
    predOk s.th p = true →
    (useHandle s h.toNat = .ok t hh → off = offset s x imm.toInt → n = (sReg s.th a.toNat).toNat → v = hh.va + off →
      (hh.st = .empty ∨ hh.w = false ∨ hh.space ≠ .memory ∨ hh.stack = none ∨ isRemote t hh.dev = true →
        Gives (.lower d h x imm a cls p) s (raise t .handlePerm 0) ∧ Gives (.raise h x imm a cls p) s (raise t .handlePerm 0)) ∧
      (hh.st ≠ .empty → hh.w = true → hh.space = .memory → hh.stack ≠ none → isRemote t hh.dev = false → 0 ≤ v → v < 2 ^ 64 →
        v = ad →
        (v % 65536 ≠ 0 ∨ n = 0 ∨ n % 65536 ≠ 0 →
          Gives (.lower d h x imm a cls p) s (raise t .align ad) ∧ Gives (.raise h x imm a cls p) s (raise t .align ad)) ∧
        (v % 65536 = 0 → n ≠ 0 → n % 65536 = 0 →
          (v < (hh.va - hh.va % handlePage hh : Nat) ∨ (hh.va - hh.va % handlePage hh : Nat) + handlePage hh < v + n →
            Gives (.lower d h x imm a cls p) s (raise t .handleBound ad) ∧
            Gives (.raise h x imm a cls p) s (raise t .handleBound ad)) ∧
          ((hh.va - hh.va % handlePage hh : Nat) ≤ v → v + n ≤ (hh.va - hh.va % handlePage hh : Nat) + handlePage hh →
            (pa : Int) = hh.pa + off → pa < 2 ^ 64 →
            Gives (.lower d h x imm a cls p) s
              (holdOp t (.lower d h x imm a cls p) (BitVec.ofNat 64 n) 0 0 hh (.mem hh.dev pa) ad) ∧
            Gives (.raise h x imm a cls p) s
              (holdOp t (.raise h x imm a cls p) (BitVec.ofNat 64 n) 0 0 hh (.mem hh.dev pa) ad))))) ∧
    (Reaches s h im.toInt 32 8 .r t hh l va →
      Gives (.blaunch d h im cls p) s (holdOp t (.blaunch d h im cls p) 0 0 0 hh l va)) ∧
    (patternOf s (sReg s.th a.toNat) (sReg s.th b.toNat) = none →
      Faults (.wcrd d a b cls p) s .coordRange (sReg s.th b.toNat).toNat ∧
      Faults (.wcwr d a b c cls p) s .coordRange (sReg s.th b.toNat).toNat) ∧
    (patternOf s (sReg s.th a.toNat) (sReg s.th b.toNat) = some P →
      (∀ (u : State) (ws : List WcWord), u = asReader s [0, coOf s, cxOf s] →
        (loadHeld u cls.toNat = true → Gives (.wcrd d a b cls p) s (block u)) ∧
        (loadHeld u cls.toNat = false →
          (∀ va, wcPlaces u s.grp.image P (blockWords P (sReg s.th b.toNat).toNat false) = .fenced va →
            Gives (.wcrd d a b cls p) s (raise u .deviceFenced va)) ∧
          (wcPlaces u s.grp.image P (blockWords P (sReg s.th b.toNat).toNat false) = .mig →
            (triesOf s.th < 64 → Gives (.wcrd d a b cls p) s
              { spent u with th := { s.th with run := .walking (3 * triesOf s.th) } }) ∧
            (64 ≤ triesOf s.th → Gives (.wcrd d a b cls p) s (raise u .walkFault P.va))) ∧
          (wcPlaces u s.grp.image P (blockWords P (sReg s.th b.toNat).toNat false) = .ok ws → (∀ w ∈ ws, isRemote u w.dev = false) →
            ((∃ w ∈ ws, secBad u (w.pa / 64) = true) → ∃ v w, w ∈ ws ∧ secBad u (w.pa / 64) = true ∧ v.th = s.th ∧ SameOutside s v ∧
              Gives (.wcrd d a b cls p) s (raise v .poison (P.va + (w.at_ - P.pa)))) ∧
            ((∀ w ∈ ws, secBad u (w.pa / 64) = false) → ∀ v, v = copiesRead u (cxOf u) cls.toNat (s.th.pos, s.th.slot) →
              Gives (.wcrd d a b cls p) s
                (putS (spent v) d.toNat (wcrdWord (wcView v ws) P (sReg s.th b.toNat).toNat) clsLoad))))) ∧
      ∃ o : HeldOp, Gives (.wcwr d a b c cls p) s { s with th := { s.th with heldOp := some o } } ∧
        o.ins = .wcwr d a b c cls p ∧ o.a = sReg s.th a.toNat ∧ o.b = sReg s.th b.toNat ∧ o.c = sReg s.th c.toNat)) ∧
  (∀ (s u : State) (o : HeldOp) (d x a : BitVec 6) (h cls : BitVec 4) (imm : BitVec 14) (p : BitVec 5), s.th.heldOp = some o →
    (heldPerform (markReader s) = .done u → heldStep s = heldOver u) ∧
    (o.ins = .lower d h x imm a cls p →
      heldPerform s = .done (putS (lowerWindow s o.pa o.a.toNat).1 d.toNat (BitVec.ofNat 64 (lowerWindow s o.pa o.a.toNat).2) clsLoad)) ∧
    (o.ins = .raise h x imm a cls p →
      (raiseWindow s o.pa o.a.toNat = none → heldPerform s = .bad .handlePerm) ∧
      (raiseWindow s o.pa o.a.toNat = some u → heldPerform s = .done u))) ∧
  (∀ (s t : State) (pa n st : Nat) (full : Prop), lowerWindow s pa n = (t, st) →
    (full ↔ (∃ w ∈ s.lowered, w.1 < pa + n ∧ pa < w.1 + w.2) ∨
      64 ≤ (s.lowered.filter (fun w => stackOf s w.1 == stackOf s pa)).length) →
    ((pa, n) ∈ s.lowered → t = s ∧ st = 1) ∧
    ((pa, n) ∉ s.lowered → full → t = s ∧ st = 0) ∧
    ((pa, n) ∉ s.lowered → ¬ full → st = 1 ∧ t.lowered = s.lowered ++ [(pa, n)] ∧ t.th = s.th ∧ t.grp = s.grp ∧
      ∀ sec i, 0 < n → sec < 2 ^ 42 → i < 64 →
        (pa / 256 ≤ sec / 4 ∧ sec / 4 ≤ (pa + n - 1) / 256 →
          (arrGet t.core (ownRank s) sec).valid = 0 ∧ (arrGet t.core (ownRank s) sec).dirty = 0) ∧
        memRead t (64 * sec + i) = if pa / 256 ≤ sec / 4 ∧ sec / 4 ≤ (pa + n - 1) / 256 ∧
            (arrGet s.core (ownRank s) sec).dirty.getLsbD i = true
          then (arrGet s.core (ownRank s) sec).data.extractLsb' (8 * i) 8 else memRead s (64 * sec + i))) ∧
  (∀ (s : State) (pa n : Nat),
    (windowHeld s pa n = true → raiseWindow s pa n = none) ∧
    (windowHeld s pa n = false → (pa, n) ∈ s.lowered → ∃ t, raiseWindow s pa n = some t ∧ t.mem = s.mem ∧ t.core = s.core ∧
      t.th = s.th ∧ t.grp = s.grp ∧ ∀ w, w ∈ t.lowered ↔ w ∈ s.lowered ∧ w ≠ (pa, n)) ∧
    (windowHeld s pa n = false → (pa, n) ∉ s.lowered → raiseWindow s pa n = some s)) ∧
  (∀ (s u : State) (d : Nat) (o : HeldOp) (P : Tensor) (ws : List WcWord), patternOf s o.a o.b = some P → wcwrWords s o P = .ok ws →
    (∀ w ∈ ws, w.dev = ownRank s) →
    u = ws.foldl (fun s w => cleanLine s w.dev (w.pa / 256) true) (asReader s [0, coOf s, cxOf s]) →
    ((∃ w ∈ ws, heldSec s w.dev (w.pa / 64) = true) → wcwrPerform s d o = .done (putS s d 0 clsLoad)) ∧
    ((∀ w ∈ ws, heldSec s w.dev (w.pa / 64) = false) →
      ((∃ w ∈ ws, secBad u (w.pa / 64) = true) → wcwrPerform s d o = .bad .poison) ∧
      ((∀ w ∈ ws, secBad u (w.pa / 64) = false) → ws.Pairwise (fun x y => x.pa + 4 ≤ y.pa ∨ y.pa + 4 ≤ x.pa) →
        ∀ r, r = tensorWrite (wcView u ws) s.grp.image P o.b.toNat (wcwrValue P o.c) →
          ∃ t, wcwrPerform s d o = .done t ∧ t.th = (putS s d (BitVec.ofNat 64 r.2) clsLoad).th ∧
            (∀ w ∈ ws, memBytes t w.pa 4 = memBytes r.1 w.at_ 4) ∧
            ∀ a, (∀ w ∈ ws, a < w.pa ∨ w.pa + 4 ≤ a) → memRead t a = memRead u a))) ∧
  (∀ (s u : State) (d : Nat) (bs : List Byte) (f : Nat → Nat → Nat) (root A D : Nat) (k : Kernel) (known ends : Prop),
    (∀ o n, f o n = leNat ((bs.drop o).take n)) → root = rootOf s s.grp.image → A = f 8 8 → D = f 0x18 8 →
    u = testWalk (testWalk s root A) root D → k = kernelOf s s.grp.image (f 0 2) →
    (known ↔ ∃ m, imageOf s s.grp.image = some m ∧ f 0 2 < m.kernels.length ∧ k.kind = 2) →
    (ends ↔ f 3 1 < 8 ∧ f 4 4 = 0 ∧ 0 < f 2 1 ∧ f 2 1 ≤ 16 ∧ (f 3 1 = 7 → s.th.seg.sys = true) ∧ known) →
    SameOutside s u ∧ u.th = s.th ∧ u.grp = s.grp ∧
    (¬ ends → blaunchDesc s d bs = .bad .formatInvalid) ∧
    (ends → ∀ st, windowAt u s.grp.image s.th.seg.sys A = .none st → blaunchDesc s d bs = .bad .handlePerm) ∧
    (ends → ∀ pa n, windowAt u s.grp.image s.th.seg.sys A = .window pa n →
      (D % 8 ≠ 0 → blaunchDesc s d bs = .bad .align) ∧
      (D ≠ 0 → D % 8 = 0 → (∃ c, walk u root s.th.seg.sys D = .bad c) ∨
        (∃ p lv leaf dev, walk u root s.th.seg.sys D = .page p lv leaf dev ∧ leaf.testBit 3 = false) →
        blaunchDesc s d bs = .bad .handlePerm) ∧
      (D = 0 ∨ D % 8 = 0 ∧ (∃ p lv leaf dev, walk u root s.th.seg.sys D = .page p lv leaf dev ∧ leaf.testBit 3 = true) →
        ∀ st, st = (stackOf u pa).getD 0 →
        (64 ≤ queueCount u st → blaunchDesc s d bs = .done (putS u d 0 clsLoad)) ∧
        (queueCount u st < 64 → ∃ (l : Launch) (t : State), blaunchDesc s d bs = .done (putS t d 1 clsLoad) ∧
          t = ballastTake { u with launches := u.launches ++ [l], nextId := u.nextId + 1 } l.id pa n st ∧
          l.id = u.nextId ∧ l.image = s.grp.image ∧ l.kidx = f 0 2 ∧ l.groups = f 2 1 ∧ l.arg1 = f 0x10 8 ∧ l.doneAddr = D ∧
          l.doneInc = 1 ∧ l.prio = (if f 3 1 = 7 then 7 else min (f 3 1) k.prio) ∧ l.ready = true ∧ l.ballast = true ∧
          l.killed = false ∧ l.from_ = some (s.grp.launch, s.grp.index)))))

/-! Header, marks, faults. -/

/-- R20, R23, R39: a mark that finds something outstanding, or its WAIT's or TAKE's flag too low, blocks; one whose own bundle has a load
or a CPYO that has not performed waits for it (R158, R166). One that has nothing to
commit or perform retires at once: its own TAKE or POST changes its flag (a POST saturating) and no other, the thread's position
moves on, the results of earlier positions land, and a window opens whose log holds the registers as they then stand; nothing
outside the core changes. R122: an entry whose target refuses it is the fault, before anything is written. R23, R139, R142: step 1 commits
the window's entries one by one, none before one that goes ahead of it; an entry of a cached address goes into the core's array as dirty
bytes, one of an uncached address of this device into home memory, one into scratch there, one into a plane region as its words'
contributions; every byte outside the entry stays. A mark with one entry has it committed when it retires. R39, R41, R274: IDLE, WAIT, TAKE and POST. A TAKE lowers its flag and no other, and its window remembers what it took; a WAIT or
TAKE whose flag is too low blocks; a POST is kept for its mark. -/
def Obligations.MarkRetires : Prop :=
  (∀ (s : State) (c : BitVec 8) (f : BitVec 5) (y : BitVec 2) (k : BitVec 15) (n : Nat),
    s.th.marking < 2 → s.th.fault = none → n = flagOf s.grp f.toNat →
    (markDrained s = false → Gives (.restartMark c f y k) s { s with th := { s.th with run := .blocked, marking := 1 } }) ∧
    (markDrained s = true → y = 1 ∨ y = 3 → n < c.toNat →
      Gives (.restartMark c f y k) s { s with th := { s.th with run := .blocked, marking := 0 } }) ∧
    (markDrained s = true → (y = 1 ∨ y = 3 → c.toNat ≤ n) → (loadsBefore s.th (s.th.pos + 1) = true ∨
        ∃ ch x, tfind s.grp.ch ch = some x ∧ x.op = 1 ∧ x.th = cxOf s ∧ x.pos ≤ s.th.pos) →
      ∃ t, Gives (.restartMark c f y k) s t ∧ t.th.run = .heldWait ∧ t.th.marking = 8 ∧ SameOutside s t ∧
        flagOf t.grp f.toNat = (if y = 3 then n - c.toNat else n)) ∧
    (markDrained s = true → (y = 1 ∨ y = 3 → c.toNat ≤ n) → ownDone s = true → holdsNothing s.th → s.th.committed = [] →
      s.grp.qu = [] → s.grp.shuntFail = [] → s.th.intr = false → s.th.run = .ready →
      ∃ t u, Gives (.restartMark c f y k) s t ∧ SameOutside s t ∧ u = landMark s.th.pos s.th ∧
        t.th.run = .ready ∧ t.th.pc = s.th.pc ∧ t.th.pos = s.th.pos + 1 ∧ t.th.s = u.s ∧ t.th.p = u.p ∧ t.th.h = u.h ∧ t.th.v = u.v ∧
        t.th.pend = u.pend ∧ holdsNothing t.th ∧
        t.th.ckpt.pc = t.th.pc ∧ t.th.ckpt.pos = t.th.pos ∧ t.th.ckpt.s = t.th.s ∧ t.th.ckpt.p = t.th.p ∧ t.th.ckpt.h = t.th.h ∧
        t.th.ckpt.fr = t.th.fr ∧ t.th.ckpt.n = t.th.n ∧ t.th.ckpt.w = t.th.w ∧ t.th.ckpt.v = t.th.v ∧ t.th.ckpt.fmt = t.th.fmt ∧
        t.th.ckpt.mpc = t.th.mpc ∧ t.th.ckpt.pend = t.th.pend ∧ t.th.ckpt.act = s.grp.active ∧
        flagOf t.grp f.toNat = (if y = 3 then n - c.toNat else if y = 2 then min (n + c.toNat) 0xFFFFFFFF else n) ∧
        (∀ j, j ≠ f.toNat → flagOf t.grp j = flagOf s.grp j))) ∧
  (∀ (s : State) (c : BitVec 8) (f : BitVec 5) (k : BitVec 15) (x : Item), s.th.marking < 2 → s.th.fault = none → s.th.intr = false →
    markDrained s = true → ownDone s = true → s.grp.ch = [] → s.th.heldOp = none → itemAsks s (openItems s.th) = [] →
    (∀ b, (openItems s.th).find? (fun y => (itemBad s y).isSome) = some x → itemBad s x = some b →
      ∃ e : FaultInfo, Gives (.restartMark c f 0 k) s { s with th := { raiseTh s.th e with run := .ready, marking := 0 } } ∧
        e.code = b ∧ e.pos = s.th.pos ∧ e.gate = x.ix ∧ e.addr = x.ent.va + lowByte x.ent.mask) ∧
    (∀ e, s.th.gate = [e] → x = ⟨0, e, 0, none⟩ → itemBad s x = none → fifoCount s.core.fifo < 4096 → s.grp.qu = [] → s.grp.shuntFail = [] →
      s.th.run = .ready → s.th.committed = [] → holdsNothing { s.th with gate := [] } →
      ∃ t u, Gives (.restartMark c f 0 k) s t ∧ u = commitItem s x ∧ t.mem = u.mem ∧ t.core = u.core ∧ t.grp.scratch = u.grp.scratch ∧
        t.planes = u.planes ∧ t.th.run = .ready ∧ t.th.pos = s.th.pos + 1 ∧ holdsNothing t.th)) ∧
  (∀ (s : State) (c : BitVec 8) (f : BitVec 5) (y : BitVec 2) (k : BitVec 15), s.th.marking = 9 → s.th.fault = none → s.th.intr = false →
    openItems s.th ≠ [] → ∃ t, Gives (.restartMark c f y k) s t ∧
      ((∃ x u v, x ∈ openItems s.th ∧ (∀ z ∈ openItems s.th, commitsFirst s.th.fences z x = false) ∧ (u = s ∨ u = tick s) ∧
        v = { commitItem u x with th := { (commitItem u x).th with committed := x.ix :: (commitItem u x).th.committed } } ∧
        (openItems v.th = [] → t = markTwo v) ∧ (openItems v.th ≠ [] → t = markWait v 9 .heldWait)) ∨
      ((∀ x ∈ openItems s.th, (∃ z ∈ openItems s.th, commitsFirst s.th.fences z x = true) ∨ itemFits s x = false) ∧
        t = markWait (fifoDrain s) 9 .heldWait))) ∧
  (∀ (s t : State) (x : Item) (d sec reg : Nat) (m : BitVec 64) (b : Nat → Byte), s.grp.ch = [] → s.grp.qu = [] → t = commitItem s x →
    m = x.ent.mask → (∀ i, b i = x.ent.data.extractLsb' (8 * (i % 64)) 8) →
    (x.ent.at_ = .mem (ownRank s) sec → x.po = 0 → cachedAt s (ownRank s) (64 * sec) = false → saddleOut s (64 * sec) = false →
      (∀ a, memRead t a = if a / 64 = sec ∧ m.getLsbD (a % 64) = true then b a else memRead s a) ∧
      t.core = s.core ∧ t.grp = s.grp ∧ t.planes = s.planes) ∧
    (x.ent.at_ = .mem d sec → x.po = 0 → cachedAt s d (64 * sec) = true → sec < 2 ^ 42 → (d, sec / 4) ∈ setLines s.core (sec / 4 % 2048) →
      fifoCount s.core.fifo < 4096 →
      (arrGet t.core d sec).valid = (arrGet s.core d sec).valid ||| m ∧ (arrGet t.core d sec).dirty = (arrGet s.core d sec).dirty ||| m ∧
      (∀ i, i < 64 → (arrGet t.core d sec).data.extractLsb' (8 * i) 8 =
        if m.getLsbD i then b i else (arrGet s.core d sec).data.extractLsb' (8 * i) 8) ∧
      (∀ e k, k < 2 ^ 42 → (e ≠ d ∨ k ≠ sec) → arrGet t.core e k = arrGet s.core e k) ∧
      .line d (sec / 4) x.ent.cls false ∈ t.core.fifo ∧ t.mem = s.mem ∧ t.grp = s.grp ∧ t.planes = s.planes) ∧
    (x.ent.at_ = .scr sec →
      (∀ a, tget 0 t.grp.scratch a = if a / 64 = sec ∧ m.getLsbD (a % 64) = true then b a else tget 0 s.grp.scratch a) ∧
      (∀ k, k ∈ t.grp.badScr ↔ k ∈ s.grp.badScr ∧ (k ≠ sec ∨ m ≠ BitVec.allOnes 64)) ∧
      t.mem = s.mem ∧ t.core = s.core ∧ t.planes = s.planes) ∧
    (x.ent.at_ = .pl reg sec → spansSet s s.grp = false → t.mem = s.mem ∧ t.core = s.core ∧ t.grp = s.grp ∧
      t.planes = s.planes.map (fun q => if q.launch = s.grp.launch ∧ q.dom = planeDomOf s.grp (cxOf s) ∧ q.idx = reg then
        { q with contrib := q.contrib ++ ((List.range 16).filter (fun w => m.getLsbD (4 * w))).map (fun w =>
          (16 * sec + w, thrRank s s.grp s.grp.kern.level (cxOf s), x.ent.data.extractLsb' (32 * w) 32)) } else q))) ∧
  (∀ (s : State) (c : BitVec 8) (f : BitVec 5) (mk : BitVec 1) (k : BitVec 15) (n : Nat), n = flagOf s.grp f.toNat →
    Gives .idle s s ∧
    (c.toNat ≤ n → Gives (.wait c f mk k) s s ∧
      ∃ t, Gives (.take c f mk k) s t ∧ flagOf t.grp f.toNat = n - c.toNat ∧
        (∀ j, j ≠ f.toNat → flagOf t.grp j = flagOf s.grp j) ∧ t.th.ckpt.takes = bump f.toNat c.toNat s.th.ckpt.takes ∧
        t = { s with grp := { s.grp with flags := t.grp.flags },
                     th := { s.th with ckpt := { s.th.ckpt with takes := t.th.ckpt.takes } } }) ∧
    (n < c.toNat → Gives (.wait c f mk k) s (block s) ∧ Gives (.take c f mk k) s (block s)) ∧
    Gives (.post c f mk k) s { s with th := { s.th with heldPost := some (f.toNat, c.toNat) } })

/-- R224: of the faults recognised in a window the earliest by position, then slot, is kept. R25, R41, R168: a rollback gives back
every register that the window's opening mark logged, discards the gate and all that was held, gives the flags taken back and
changes nothing outside; WINDOW_ROLLBACK reports the fault and leaves the thread to the stationmaster. -/
def Obligations.FaultAndRollback : Prop :=
  ∀ (s : State) (c : FaultCode) (a : Nat) (f : FaultInfo),
    f = { code := c, pos := s.th.pos, slot := s.th.slot, addr := a, gate := 0, fq := 0, bpc := s.th.bpc } →
    (s.th.fault = none → raise s c a = { s with th := { s.th with fault := some f } }) ∧
    (∀ g, s.th.fault = some g → (f.pos < g.pos ∨ f.pos = g.pos ∧ f.slot < g.slot) →
      raise s c a = { s with th := { s.th with fault := some f } }) ∧
    (∀ g, s.th.fault = some g → (g.pos < f.pos ∨ g.pos = f.pos ∧ g.slot ≤ f.slot) → raise s c a = s) ∧
    (∀ t k, t = rollback s → k = s.th.ckpt →
      SameOutside s t ∧ t.th.pc = k.pc ∧ t.th.pos = k.pos ∧ t.th.s = k.s ∧ t.th.p = k.p ∧ t.th.h = k.h ∧ t.th.fr = k.fr ∧
      t.th.n = k.n ∧ t.th.w = k.w ∧ t.th.v = k.v ∧ t.th.fmt = k.fmt ∧ t.th.mpc = k.mpc ∧ t.th.pend = k.pend ∧
      t.th.gate = [] ∧ t.th.heldOp = none ∧ t.th.heldRel = none ∧ t.th.heldPriv = [] ∧ t.th.heldCpyo = [] ∧
      t.th.heldPost = none ∧ t.th.heldSync = none ∧ t.th.heldCtl = none ∧
      (∀ j n, k.takes = [(j, n)] → k.posts = [] →
        ∀ i, flagOf t.grp i = if i = j then min (flagOf s.grp j + n) 0xFFFFFFFF else flagOf s.grp i) ∧
      (k.takes = [] → k.posts = [] → ∀ i, flagOf t.grp i = flagOf s.grp i)) ∧
    (∀ g, s.th.fault = some g → ∃ r, windowRollback s = { rollback s with
        th := { (rollback s).th with fault := none, run := .station }, reports := s.reports ++ [r] } ∧
      r.code = faultNum g.code ∧ r.addr = g.addr ∧ r.launch = s.grp.launch ∧ r.group = s.grp.index ∧ r.thr = cxOf s)

/-! Privileged instructions. -/

/-- R384 to R394: what a privileged instruction checks when it issues, in order, and that it is then held with its operands as they
stood; RDSYS reads and RAND answers at once (its 64 bits are a free value). The model's choices, not the rules' (log entry 30): an HSUPD
of more than 2^32 bytes and a HALTC of a core above 63 are FORMAT_INVALID. -/
def Obligations.PrivilegedAtIssue : Prop :=
  ∀ (s : State) (d a b c : BitVec 6) (imm : BitVec 22) (cx : BitVec 2) (cls : BitVec 4) (p : BitVec 5) (x y z : Word) (no ix : Nat)
    (loc : Word → Nat → Nat → Option (FaultCode × Nat)),
    predOk s.th p = true → x = sReg s.th a.toNat → y = sReg s.th b.toNat → z = sReg s.th c.toNat →
    no = imm.toNat / 4096 → ix = imm.toNat % 4096 + x.toNat →
    (∀ v n al, loc v n al = (localBad s v.toNat n al).map (fun e => (e, v.toNat))) →
    ((∃ k, sysCount no = some k ∧ ix < k) → GivesS (.rdsys d a imm p) s d clsLoad (BitVec.ofNat 64 (sysRead s no ix)) ∧
      Holds (.wrsys a b imm p) s (BitVec.ofNat 64 ix) y 0) ∧
    ((∀ k, sysCount no = some k → k ≤ ix) →
      Faults (.rdsys d a imm p) s .formatInvalid 0 ∧ Faults (.wrsys a b imm p) s .formatInvalid 0) ∧
    (∀ i ∈ [Instr.shootPkg d a b c p, .shootSet d a b c p], HoldsIf i s
      (if x.toNat % 65536 ≠ 0 ∨ y.toNat % 65536 ≠ 0 ∨ y = 0 then some (.align, x.toNat)
       else if 2 ^ 52 < x.toNat + y.toNat then some (.handleBound, x.toNat)
       else if imageOf s z.toNat = none then some (.formatInvalid, 0) else none) x y z) ∧
    HoldsIf (.ctxsv d a b c cls p) s (if 63 < x.toNat then some (.formatInvalid, 0) else loc y z.toNat 256) x y z ∧
    HoldsIf (.ctxrs d a b cls p) s (if 63 < x.toNat then some (.formatInvalid, 0) else loc y 128 256) x y 0 ∧
    (∀ i ∈ [Instr.haltcStop d a p, .haltcGo d a p],
      HoldsIf i s (if 63 < x.toNat ∨ x.toNat = coOf s then some (.formatInvalid, 0) else none) x 0 0) ∧
    (∀ i ∈ [Instr.keyldPart d a b c cls p, .keyldLink d a b c cls p, .keyldSign d a b c cls p],
      HoldsIf i s (if 2048 ≤ x.toNat then some (.formatInvalid, 0) else loc y 32 32) x y z) ∧
    HoldsIf (.keydrop a p) s (if 2048 ≤ x.toNat ∧ x ≠ 0xFFFFFFFFFFFFFFFF then some (.formatInvalid, 0) else none) x 0 0 ∧
    Holds (.hsinit cx p) s 0 0 0 ∧
    HoldsIf (.hsupd cx a b cls p) s (if 2 ^ 32 < y.toNat then some (.formatInvalid, 0) else loc x y.toNat 1) x y 0 ∧
    HoldsIf (.hsfin d cx a cls p) s (loc x 64 8) x 0 0 ∧
    HoldsIf (.edsign d a b c cls p) s (if y = 0 ∨ 65536 < y.toNat then some (.formatInvalid, 0)
      else (loc x y.toNat 1).or (loc z 64 8)) x y z ∧
    HoldsIf (.edver d a b c cls p) s (if y = 0 ∨ 65536 < y.toNat then some (.formatInvalid, 0)
      else (loc x y.toNat 1).or (loc z 96 1)) x y z ∧
    HoldsIf (.edverSlots d a b c cls p) s (if y = 0 ∨ 65536 < y.toNat then some (.formatInvalid, 0)
      else (loc x y.toNat 1).or (loc z 64 1)) x y z ∧
    HoldsIf (.mext d a b cls p) s (if x ≠ 6 ∧ x ≠ 7 then some (.formatInvalid, 0) else loc y 64 8) x y 0 ∧
    (∃ v, Gives (.rand d p) s (putS { s with freeCtr := s.freeCtr + 1 } d.toNat v clsLoad)) ∧
    (∀ n al, x.toNat + n ≤ poolTop s → localBad s x.toNat n al = if x.toNat % al ≠ 0 then some .align else none)

/-- R384, R385, R391 to R395: what the first held privileged instruction of a focused thread does at its mark: the key
slots, a thread's hash contexts, signatures and the measurement registers. It reads and writes memory at home, after what its own core's
array holds of its operands has gone home and the checks of what it reads have been tested (`privHome`), so that it sees its window's
stores. Its result lands in the register file at the next bundle. R387 (R48, R59, R109, R120, R231, R232, R309, R310): what WRSYS leaves in
each register, and that it leaves the others. R388: SHOOT begins a shoot-down and its mark waits; when it is over sD takes the number of
ranks fenced. R389: CTXSV writes the image, takes its length and frees the core, or answers 0 or 1; CTXRS onto a core that holds a group or
is out of service answers 255, for an image that no saved group waits for 19, and otherwise the group restored runs at once. R390: HALTC. -/
def Obligations.PrivilegedPerformed : Prop :=
  (∀ (s t u : State) (o : HeldOp) (r : List HeldOp) (d a b c : BitVec 6) (cx : BitVec 2) (cls : BitVec 4) (p : BitVec 5)
    (ends : State → Word → Prop),
    focused s = true → s.th.heldPriv = o :: r → t = privStep s o → u = privHome s o.ins o.a.toNat o.b.toNat o.c.toNat →
    (∀ w v, ends w v ↔ t = { w with th := { w.th with
      heldPriv := r, pend := insertPend ⟨.s d.toNat, .s v, w.th.pos + 1, w.th.pos, none⟩ w.th.pend } }) →
    (o.ins = .keyldPart d a b c cls p → anyPoison u o.b.toNat 32 = false → ∀ x : KeySlot,
      x = { kind := 0, key := memBytes u o.b.toNat 32, bind := o.c.toNat &&& 0xFFFFFFFF000003FF } →
      ends { u with keys := tput u.keys o.a.toNat x } 1) ∧
    (o.ins = .keyldLink d a b c cls p → anyPoison u o.b.toNat 32 = false → ∀ x : KeySlot,
      x = { kind := 1, key := memBytes u o.b.toNat 32, bind := o.c.toNat % 1024 } →
      ends { u with keys := tput u.keys o.a.toNat x } 1) ∧
    (o.ins = .keyldSign d a b c cls p → anyPoison u o.b.toNat 32 = false → ∀ x : KeySlot,
      x = { kind := 2, key := memBytes u o.b.toNat 32, bind := 0 } →
      ends { u with keys := tput u.keys o.a.toNat x } 1) ∧
    (∀ i ∈ [Instr.keyldPart d a b c cls p, .keyldLink d a b c cls p, .keyldSign d a b c cls p], o.ins = i →
      anyPoison u o.b.toNat 32 = true → ends u 0) ∧
    (o.ins = .keydrop a p → t = { s with th := { s.th with heldPriv := r }, keys := t.keys } ∧
      (o.a = 0xFFFFFFFFFFFFFFFF → t.keys = s.keys.filter (fun k => k.2.kind == 2)) ∧
      (o.a ≠ 0xFFFFFFFFFFFFFFFF → ∀ j, tfind t.keys j = if j = o.a.toNat then none else tfind s.keys j)) ∧
    (o.ins = .hsinit cx p → hashOf t.th cx.toNat = { msg := [], bad := false } ∧ SameOutside s t ∧ t.th.heldPriv = r ∧
      ∀ j, j ≠ cx.toNat → hashOf t.th j = hashOf s.th j) ∧
    (o.ins = .hsupd cx a b cls p → hashOf t.th cx.toNat = ⟨(hashOf s.th cx.toNat).msg ++ memBytes u o.a.toNat o.b.toNat,
        (hashOf s.th cx.toNat).bad || anyPoison u o.a.toNat o.b.toNat⟩ ∧ SameOutside u t ∧ t.th.heldPriv = r ∧
      ∀ j, j ≠ cx.toNat → hashOf t.th j = hashOf s.th j) ∧
    (o.ins = .hsfin d cx a cls p → (hashOf s.th cx.toNat).bad = false →
      memBytes t o.a.toNat 64 = sha512 (hashOf s.th cx.toNat).msg ∧ hashOf t.th cx.toNat = { msg := [], bad := false } ∧
      (∀ i, i < o.a.toNat ∨ o.a.toNat + 64 ≤ i → memRead t i = memRead u i)) ∧
    (o.ins = .mext d a b cls p → anyPoison u o.b.toNat 64 = false → ∀ x : BitVec 512,
      x = BitVec.ofNat 512 (leNat (sha512 (leBytes (tget 0 u.meas o.a.toNat).toNat 64 ++ memBytes u o.b.toNat 64))) →
      ends { u with meas := tset 0 u.meas o.a.toNat x } 1) ∧
    (o.ins = .mext d a b cls p → anyPoison u o.b.toNat 64 = true → ends u 0) ∧
    (o.ins = .edsign d a b c cls p →
      (anyPoison u o.a.toNat o.b.toNat = true → ends u 0) ∧
      (anyPoison u o.a.toNat o.b.toNat = false → ends (homeStore u o.c.toNat (edSign idSeed (memBytes u o.a.toNat o.b.toNat))) 1 ∧
        memBytes t o.c.toNat 64 = edSign idSeed (memBytes u o.a.toNat o.b.toNat) ∧
        ∀ i, i < o.c.toNat ∨ o.c.toNat + 64 ≤ i → memRead t i = memRead u i)) ∧
    (o.ins = .edver d a b c cls p →
      ends u (if anyPoison u o.a.toNat o.b.toNat = false ∧ anyPoison u o.c.toNat 96 = false ∧
        edVerify (memBytes u o.c.toNat 32) (memBytes u o.a.toNat o.b.toNat) (memBytes u (o.c.toNat + 32) 64) = true then 1 else 0)) ∧
    (o.ins = .edverSlots d a b c cls p → ∀ ok : Nat × KeySlot → Bool,
      (∀ k, ok k = (k.2.kind == 2 && edVerify k.2.key (memBytes u o.a.toNat o.b.toNat) (memBytes u o.c.toNat 64))) →
      (anyPoison u o.a.toNat o.b.toNat = true ∨ anyPoison u o.c.toNat 64 = true ∨ (∀ k ∈ u.keys, ok k = false) → ends u 0) ∧
      (anyPoison u o.a.toNat o.b.toNat = false → anyPoison u o.c.toNat 64 = false → ∀ l k m, u.keys = l ++ k :: m →
        (∀ j ∈ l, ok j = false) → ok k = true → ends u (BitVec.ofNat 64 (k.1 + 1))))) ∧
  (∀ (s t : State) (o : HeldOp) (r : List HeldOp) (co cx no i : Nat) (a b : BitVec 6) (imm : BitVec 22) (p : BitVec 5) (v : Nat) (q : Spway),
    s.cur = .thread co cx → cx < s.grp.kern.threads → s.th.heldPriv = o :: r → o.ins = .wrsys a b imm p → t = privStep s o →
    no = imm.toNat / 4096 → i = o.a.toNat → v = o.b.toNat → q = tget Spway.init s.spway i →
    (no ≠ 0x14 → t.cur = s.cur) ∧
    (no = 1 → t.th = { s.th with heldPriv := r, xpc := o.b }) ∧
    (no = 3 → t.th = { s.th with heldPriv := r, dom := o.b &&& 0x0000FFFFFF7FFFFF }) ∧
    (no ≠ 1 → no ≠ 3 → no ≠ 0x14 → t.th = { s.th with heldPriv := r }) ∧
    (no = 0x10 → t.regs = { s.regs with sysent := BitVec.ofNat 64 (v % 2 + v / 64 % 2 ^ 42 * 64) }) ∧
    (no = 0x11 → t.regs = if s.nextId = 0 then { s.regs with ipool := min (v % 64) 48 } else s.regs) ∧
    (no = 0x12 → t.regs = { s.regs with hostpage := v.testBit 0, qbase := v / 2 ^ 14 % 2 ^ 34 * 2 ^ 14 }) ∧
    (no = 0x13 → t.regs = { s.regs with fqCons := v / 2 ^ 32 }) ∧
    (no = 0x14 → v / 2 ^ 34 ≠ 0 ∨ (v / 2 ^ 32 % 4 ≠ 1 ∧ v / 2 ^ 32 % 4 ≠ 2) → t.th = { s.th with heldPriv := r } ∧
      t.launches = s.launches ∧ t.awaiting = s.awaiting) ∧
    (no ≠ 0x10 → no ≠ 0x11 → no ≠ 0x12 → no ≠ 0x13 → no ≠ 0x14 → t.regs = s.regs) ∧
    (no = 0x20 → q.pass = false →
      (v % 16 < q.cur → tget Spway.init t.spway i = { q with req := v % 16, cur := v % 16, busy := true } ∧
        ∀ x, memRead t x = if spBase i (v % 16) ≤ x ∧ x < spBase i (v % 16) + (q.cur - v % 16) * 2 ^ 20 then 0 else memRead s x) ∧
      (q.cur ≤ v % 16 → tget Spway.init t.spway i = { q with req := v % 16, busy := decide (q.cur < v % 16) } ∧ SameMem s t)) ∧
    (no = 0x21 → tget Mbox.init t.mbox i =
      { tget Mbox.init s.mbox i with err := (tget Mbox.init s.mbox i).err && !v.testBit 7 }) ∧
    (no ≠ 0x20 → ∀ j, tget Spway.init t.spway j = tget Spway.init s.spway j) ∧
    (no ≠ 0x20 → no ≠ 0x14 → SameMem s t)) ∧
  (∀ (s u : State) (o : HeldOp) (d a b c : BitVec 6) (cls : BitVec 4) (p : BitVec 5) (co cx sc : Nat),
    s.cur = .thread co cx → u = privHome s o.ins o.a.toNat o.b.toNat o.c.toNat →
    (o.ins = .shootPkg d a b c p ∧ sc = 1 ∨ o.ins = .shootSet d a b c p ∧ sc = 2 → u = s ∧
      privStep s o = (bareAct { s with th := { s.th with marking := 6 } } (fun v =>
        (shootIssue v o.c.toNat o.a.toNat o.b.toNat sc (some (co, cx, d.toNat)), 0))).1) ∧
    (o.ins = .ctxsv d a b c cls p → privStep s o =
      finishPriv (bareAct u (fun v => ctxSave v o.a.toNat o.b.toNat o.c.toNat)).1 (some d)
        (bareAct u (fun v => ctxSave v o.a.toNat o.b.toNat o.c.toNat)).2) ∧
    (o.ins = .haltcStop d a p → privStep s o =
      finishPriv (bareAct s (fun v => haltStop v o.a.toNat)).1 (some d) (bareAct s (fun v => haltStop v o.a.toNat)).2) ∧
    (o.ins = .haltcGo d a p → privStep s o =
      finishPriv (bareAct s (fun v => haltGo v o.a.toNat)).1 (some d) (bareAct s (fun v => haltGo v o.a.toNat)).2) ∧
    (∀ v n, o.ins = .ctxrs d a b cls p → bareAct u (fun v => match ctxRestore v o.a.toNat o.b.toNat with
        | (w, some n) => (w, n)
        | (w, none) => (w, 2 ^ 64)) = (v, n) →
      (n = 2 ^ 64 → privStep s o = v) ∧ (n ≠ 2 ^ 64 → privStep s o = finishPriv v (some d) n))) ∧
  (∀ (s : State) (img lo len sc : Nat) (w : Option (Nat × Nat × Nat)), ∃ (x : Shoot) (v : State),
    shootIssue s img lo len sc w = shootActed v ∧ v.shoots = s.shoots ++ [x] ∧ v.shootN = s.shootN + 1 ∧ x.id = s.shootN ∧
    x.init = ownRank s ∧ x.lo = lo ∧ x.len = len ∧ x.image = img ∧ x.acks = [] ∧ x.acted = false ∧ x.rolled = false ∧ x.fenced = 0 ∧
    x.waiter = w ∧ x.scope = (if s.regs.inset then sc else 1) ∧ SameMem s v ∧
    (x.scope ≠ 2 → v = { s with shoots := v.shoots, shootN := v.shootN })) ∧
  (∀ (s : State) (x : Shoot) (co cx d : Nat) (g : Group), s.cur = .none → x.waiter = some (co, cx, d) → groupAt s co = some g →
    cx < g.kern.threads → ∃ h, groupAt (shootEnd s x) co = some h ∧ thAt h cx = { thAt g cx with
      pend := insertPend ⟨.s d, .s (BitVec.ofNat 64 x.fenced), (thAt g cx).pos + 1, (thAt g cx).pos, none⟩ (thAt g cx).pend,
      heldPriv := (thAt g cx).heldPriv.drop 1, marking := 5 }) ∧
  (∀ (s : State) (co addr cap : Nat),
    (groupAt s co = none → ctxSave s co addr cap = (s, 0) ∧ haltStop s co = (s, 0) ∧ haltGo s co = (s, 0)) ∧
    ((coreAt s co).grp.isSome = true ∨ (coreAt s co).oos = true → ctxRestore s co addr = (s, some 255)) ∧
    (∀ g bs, groupAt s co = some g → bs = imageOfGroup g [] →
      (saveReady (coreAt s co) = false ∨ (coreAt s co).fifo ≠ [] → ctxSave s co addr cap = (s, 0)) ∧
      (saveReady (coreAt s co) = true → (coreAt s co).fifo = [] →
        (cap < bs.length → ctxSave s co addr cap = (s, 1)) ∧
        (bs.length ≤ cap → ∃ t, ctxSave s co addr cap = (t, bs.length) ∧ groupAt t co = none ∧ memBytes t addr bs.length = bs ∧
          (∀ a, a < addr ∨ addr + bs.length ≤ a → memRead t a = memRead s a) ∧
          ∃ x, t.saved = s.saved ++ [x] ∧ x.host = true ∧ x.grp.image = g.image ∧ x.grp.kidx = g.kidx ∧ x.grp.index = g.index)) ∧
      (∃ t h, haltStop s co = (t, 1) ∧ groupAt t co = some h ∧ h.halted = true ∧ h.saving = g.saving ∧
        (∀ i, i < g.kern.threads → thAt h i = if (thAt g i).run = .exited ∨ (thAt g i).run = .stopped then thAt g i
          else { thAt g i with intr := true })) ∧
      (g.halted = true → ∃ t h, haltGo s co = (t, 1) ∧ groupAt t co = some h ∧ h.halted = false ∧
        (∀ i, i < g.kern.threads → g.saving = false → (thAt g i).pfault = 0 → (thAt g i).run = .stopped → (thAt h i).run = .ready ∧
          (thAt h i).intr = false))) ∧
    (groupAt s co = none → (coreAt s co).oos = false → ∀ bs, anyPoison s addr 128 = false →
      bs = memBytes s addr (if rangeOk s 600 addr (memNat s (addr + 0x20) 8) = true ∧ memNat s (addr + 0x20) 8 ≤ 2 ^ 26
        then memNat s (addr + 0x20) 8 else 128) →
      (savedFor s bs = none → ctxRestore s co addr = (s, some 19)) ∧
      (∀ x r u g, savedFor s bs = some x → anyPoison s addr bs.length = false → x.gang = false → imageOk x.grp.kern bs = true →
        r = groupOfImage s x.grp bs → u = asReader s [5, x.grp.launch] → reviveGroup u r.1 (mergeAdds r.2 x.adds) = .ok g →
        ctxRestore s co addr = (syncAll (seatGroup { readDone u [5, x.grp.launch] with
          saved := s.saved.filter (fun y => y != x) } co g), some 0))))

/-! Engines. -/

/-- R165 to R169, R365 to R370: what each kind of copy issues once its sides have passed their checks, to scratch and to a ring. R167: a completed copy into scratch, of which no element had landed early, leaves byte i of what it read at its i-th destination and
every other scratch byte as before, adds its count to its flag, and frees its channel. FILL has no class (16 here: ordered with none), and
its destination is checked by steps 1 to 5 of R365 only; where CPYO stores is checked as it commits, not at issue (R119). -/
def Obligations.CopyCommands : Prop :=
  (∀ (s t u : State) (ch : BitVec 2) (hm ht cls : BitVec 4) (xm xt : BitVec 6) (wm q wt : BitVec 3) (pst : BitVec 1)
    (k : BitVec 5) (cnt : BitVec 8) (val : BitVec 32) (p : BitVec 5) (m c : Side) (a n : Nat) (l : List Nat)
    (post : Option (Nat × Nat)) (i : BitVec 1 → Instr) (f : Nat → List Nat) (x : CopyCmd) (r : Ring),
    predOk s.th p = true → post = (if pst = 1 then some (k.toNat, cnt.toNat) else none) → n = sideTotal m →
    (side s ht.toNat xt (wReg s.th wt.toNat) scrOnly.noStep6 .w = .ok t c → Copies (.fill ch ht xt wt val pst k p) s t ch.toNat []
      (linesOf (sideScr c)) (copyCmd t 3 ((sideScr c).map (fun a => .known (val.extractLsb' (8 * (a % 4)) 8))) (sideScr c)
        (if pst = 1 then some (k.toNat, 1) else none) 16)) ∧
    (i = (fun tk => .cpy ch hm xm wm tk q ht xt wt pst k cnt cls p) →
      side s hm.toNat xm (wReg s.th wm.toNat) memOnly .r = .ok t m → x = copyCmd t 0 (sideSrcs m) [] post cls.toNat →
      (side t ht.toNat xt (wReg t.th wt.toNat) scrOnly .w = .ok u c →
        (n ≠ sideTotal c → Gives (i 1) s (raise u .formatInvalid 0)) ∧
        (n = sideTotal c → Copies (i 1) s u ch.toNat [] (linesOf (sideScr c)) { x with dst := sideScr c })) ∧
      CopiesToRing (i 0) s t ch.toNat q.toNat n x (fun a => upFrom a n)) ∧
    ((i = (fun tk => .unfold ch hm xm wm tk q ht xt wt pst k cnt cls p) ∧ f = (fun a => upFrom a n) ∧
        unfoldSide s hm.toNat xm (wReg s.th wm.toNat) (wReg s.th wt.toNat) = .ok t m ∧
        x = copyCmd t 2 (sideSrcs m) [] post cls.toNat ∨
      i = (fun tk => .xpose ch hm xm wm tk q ht xt wt pst k cnt cls p) ∧
        f = (fun a => (upFrom 0 n).map (fun j => a + xposeOff m.runs.length m.run (2 ^ wt.toNat) j)) ∧
        xposeSide s hm.toNat xm (wReg s.th wm.toNat) (2 ^ wt.toNat) = .ok t m ∧
        x = copyCmd t 4 (sideSrcs m) [] post cls.toNat) →
      (sideFlat t ht.toNat xt n scrOnly .w = .ok u c → sideScr c = a :: l →
        Copies (i 1) s u ch.toNat [] (linesOf (f a)) { x with dst := f a }) ∧
      CopiesToRing (i 0) s t ch.toNat q.toNat n x f) ∧
    (i = (fun tk => .cpyo ch hm xm wm tk q ht xt wt pst k cnt cls p) →
      (side s ht.toNat xt (wReg s.th wt.toNat) scrOnly .r = .ok t c → side t hm.toNat xm (wReg t.th wm.toNat) memOnly.atCommit .w = .ok u m →
        (n ≠ sideTotal c → Gives (i 1) s (raise u .formatInvalid 0)) ∧
        (n = sideTotal c → chanBusy u.grp ch.toNat = false → 2 ^ 20 < cpyoBytes u + (sideSrcs c).length →
          Gives (i 1) s (raise u .gateOverflow 0)) ∧
        (n = sideTotal c → cpyoBytes u + (sideSrcs c).length ≤ 2 ^ 20 → Copies (i 1) s u ch.toNat (linesOf (sideScr c)) []
          { copyCmd u 1 (sideSrcs c) [] post cls.toNat with out := sideSrcs m, oh := m.h })) ∧
      (ringDeclared s.grp q.toNat = false → Gives (i 0) s (raise s .formatInvalid 0)) ∧
      (ringDeclared s.grp q.toNat = true → side s hm.toNat xm (wReg s.th wm.toNat) memOnly.atCommit .w = .ok t m → r = ringOf t.grp q.toNat →
        (r.bytes < n ∨ r.filled = 0 → Gives (i 0) s (raise t .formatInvalid 0)) ∧
        (n ≤ r.bytes → r.filled ≠ 0 → cpyoBytes t + n ≤ 2 ^ 20 → Copies (i 0) s t ch.toNat [.slot q.toNat r.head] []
          { copyCmd t 1 ((upFrom (r.base + r.head * r.bytes) n).map ByteSrc.scratch) [] post cls.toNat with
            out := sideSrcs m, oh := m.h, ring := some (q.toNat, r.head) })))) ∧
  (∀ (s t : State) (ch : Nat) (c : CopyCmd) (bs : List Byte) (po : List Bool),
    tfind s.grp.ch ch = some c → copyBytes s ch c = some (bs, po) → c.op ≠ 1 → c.bank = none → c.landed = [] → c.ring = none →
    c.dst.Nodup → c.dst.length = bs.length → po.length = bs.length → t = copyDone s ch →
    (∀ i, i < bs.length → tget 0 t.grp.scratch (c.dst.getD i 0) = bs.getD i 0) ∧
    (∀ a, a ∉ c.dst → tget 0 t.grp.scratch a = tget 0 s.grp.scratch a) ∧
    (∀ k n, c.post = some (k, n) → flagOf t.grp k = min (flagOf s.grp k + n) 0xFFFFFFFF ∧
      ∀ j, j ≠ k → flagOf t.grp j = flagOf s.grp j) ∧
    (c.post = none → t.grp.flags = s.grp.flags) ∧ chanBusy t.grp ch = false ∧ t.mem = s.mem ∧ t.core = s.core)

/-- R245 to R248, R370: WLOAD, and R174: a channel's status word. -/
def Obligations.BankLoadAndStatus : Prop :=
  ∀ (s t : State) (ch pb : BitVec 2) (row : BitVec 13) (hs cls : BitVec 4) (xs d : BitVec 6) (ws u : BitVec 3) (pst : BitVec 1)
    (k : BitVec 5) (cnt : BitVec 8) (p : BitVec 5) (m : Side) (n b : Nat) (i : Instr) (post : Option (Nat × Nat)),
    predOk s.th p = true → i = .wload ch row pb hs xs ws pst k cnt cls p → n = sideTotal m →
    post = (if pst = 1 then some (k.toNat, cnt.toNat) else none) →
    b = (if pb = 2 then 0 else if pb = 3 then 1 else 1 - t.grp.active) →
    (side s hs.toNat xs (wReg s.th ws.toNat) memOnly .r = .ok t m →
      (chanBusy t.grp ch.toNat = true → Gives i s (stallOn t (8 + ch.toNat) .queueFull)) ∧
      (chanBusy t.grp ch.toNat = false →
        (t.grp.kern.bank = false → Gives i s (raise t .handlePerm 0)) ∧
        (t.grp.kern.bank = true → n % 2048 ≠ 0 → Gives i s (raise t .formatInvalid 0)) ∧
        (t.grp.kern.bank = true → n % 2048 = 0 → 8192 < row.toNat + n / 2048 → Gives i s (raise t .handleBound 0)) ∧
        (t.grp.kern.bank = true → n % 2048 = 0 → row.toNat + n / 2048 ≤ 8192 →
          (b = t.grp.active ∨ b = t.th.ckpt.act → Gives i s (raise t .bankActiveWrite 0)) ∧
          (b ≠ t.grp.active → b ≠ t.th.ckpt.act → busy t [] [.bank b] = true → Gives i s (block t)) ∧
          (b ≠ t.grp.active → b ≠ t.th.ckpt.act → busy t [] [.bank b] = false → ∃ e : Prov,
            Gives i s (copyStart { t with grp := { t.grp with prov := t.grp.prov ++ [e] } } ch.toNat
              { copyCmd t 16 (sideSrcs m) [] post cls.toNat with bank := some b, prov := some e.id }) ∧
            e.bank = b ∧ e.row0 = row.toNat ∧ e.rows = n / 2048 ∧ e.cls = cls.toNat ∧ e.walk = wReg t.th ws.toNat)))) ∧
    (∃ v : Word, GivesS (.qstat d u p) s d clsLoad v ∧ (u.toNat < 4 →
      v.extractLsb' 0 32 = BitVec.ofNat 32 (tget QStat.init s.grp.chStat u.toNat).stall ∧
      v.extractLsb' 32 5 = (if chanBusy s.grp u.toNat then 1 else 0) ∧ v.getLsbD 37 = chanBusy s.grp u.toNat ∧
      v.getLsbD 38 = (tget QStat.init s.grp.chStat u.toNat).err ∧
      v.extractLsb' 39 8 = BitVec.ofNat 8 (tget QStat.init s.grp.chStat u.toNat).code ∧ v.extractLsb' 47 17 = 0))

/-- R170 to R173, R372 to R374: SHUNT and the collectives. `shuntCtr` and `shuntFlag` are R373's checks of the counter and the flag;
a command past them is held in its queue, which has room for 16. A collective also takes the next number of its level. -/
def Obligations.ShuntCommands : Prop :=
  ∀ (s t u w : State) (qu : BitVec 2) (lvl : BitVec 3) (ty ce fe : BitVec 1) (hd hs hc cls : BitVec 4) (xd xs rb rc : BitVec 6)
    (wd ws : BitVec 3) (p : BitVec 5) (a b : Side) (ctr flag : Option (Nat × Nat × Nat)) (hx : Handle) (x : ShuntCmd),
    predOk s.th p = true →
    (side s hs.toNat xs (wReg s.th ws.toNat) memOrScr .r = .ok t a → side t hd.toNat xd (wReg t.th wd.toNat) memOnly .w = .ok u b →
      (sideTotal a ≠ sideTotal b → Gives (.shunt qu hd xd wd hs xs ws ce fe rc hc cls p) s (raise u .formatInvalid 0)) ∧
      (∀ c v, sideTotal a = sideTotal b → shuntCtr u ce rc hc = (w, .error (c, v)) →
        Gives (.shunt qu hd xd wd hs xs ws ce fe rc hc cls p) s (raise w c v)) ∧
      (sideTotal a = sideTotal b → shuntCtr u ce rc hc = (w, .ok (ctr, hx)) → (ce = 1 → ctr ≠ none) →
        (shuntFlag w fe rc = none → Gives (.shunt qu hd xd wd hs xs ws ce fe rc hc cls p) s (raise w .formatInvalid 0)) ∧
        (shuntFlag w fe rc = some flag →
          (16 ≤ queueLen w.grp qu.toNat →
            Gives (.shunt qu hd xd wd hs xs ws ce fe rc hc cls p) s (stallOn w (12 + qu.toNat) .queueFull)) ∧
          (queueLen w.grp qu.toNat < 16 → x = {
              src := sideSrcs a, dst := sideSrcs b, cls := cls.toNat, ctr := ctr, flag := flag,
              coll := none, th := cxOf w, seq := 0, held := true, pos := w.th.pos, run := a.run, sent := false, wait := [], hs := a.h, hd := b.h, hx := hx, tries := 0,
              early := [], adding := false, bad := false } →
            Gives (.shunt qu hd xd wd hs xs ws ce fe rc hc cls p) s
              { w with grp := { w.grp with qu := w.grp.qu ++ [(qu.toNat, x)] } })))) ∧
    (∀ (kind B root n k len : Nat) (i : Instr),
      (kind = 0 ∧ i = .shuntcAllreduce qu lvl ty hd xd hs xs rb ce fe rc hc cls p ∨
        kind = 1 ∧ i = .shuntcAllgather qu lvl ty hd xd hs xs rb ce fe rc hc cls p ∨
        kind = 2 ∧ i = .shuntcReducescatter qu lvl ty hd xd hs xs rb ce fe rc hc cls p ∨
        kind = 3 ∧ i = .shuntcBroadcast qu lvl ty hd xd hs xs rb ce fe rc hc cls p) →
      B = (sReg s.th rb.toNat).toNat % 2 ^ 32 → root = (sReg s.th rb.toNat).toNat / 2 ^ 32 → n = domGroups s lvl.toNat →
      len = 4 * (if kind = 2 then n else 1) * B →
      (bitsOf s.th.dom.toNat 22 20 < lvl.toNat ∨ 5 < lvl.toNat ∨ thrOf s ≠ 0 → Gives i s (raise s .domainMismatch 0)) ∧
      (lvl.toNat ≤ bitsOf s.th.dom.toNat 22 20 → lvl.toNat ≤ 5 → thrOf s = 0 →
        (if kind ≠ 3 ∨ grpRank s s.grp lvl.toNat = root then collSide s hs.toNat xs len memOrScr.noStep6 .r = .ok t a
          else t = s ∧ a = ⟨Handle.init, [], 0⟩) →
        collSide t hd.toNat xd (4 * (if kind = 1 then n else 1) * B) memOnly.noStep6 .w = .ok u b →
        (n ≤ root → Gives i s (raise u .formatInvalid 0)) ∧
        (root < n → shuntCtr u ce rc hc = (w, .ok (ctr, hx)) → (ce = 1 → ctr ≠ none) → shuntFlag w fe rc = some flag →
          queueLen w.grp qu.toNat < 16 → k = tget 0 u.grp.collN lvl.toNat → w.grp.qu = u.grp.qu →
          x = {
              src := sideSrcs a, dst := sideSrcs b, cls := cls.toNat, ctr := ctr, flag := flag,
              coll := some ⟨kind, ty.toNat, lvl.toNat, k, B, root⟩, th := cxOf w, seq := 0, held := true, pos := w.th.pos, run := len, sent := false, wait := [], hs := a.h, hd := b.h, hx := hx, tries := 0,
              early := [], adding := false, bad := false } →
          ∃ v, Gives i s v ∧ v.grp = { w.grp with qu := w.grp.qu ++ [(qu.toNat, x)],
                                                  collN := tset 0 w.grp.collN lvl.toNat (k + 1) } ∧
            v = { w with grp := v.grp, th := { w.th with ckpt := { w.th.ckpt with coll := v.th.ckpt.coll } } })))

/-- R175 to R181, R375 to R381: every MX instruction consumes its metadata word; past the section it is HANDLE_BOUND; otherwise what
each checks, changes and puts into the engine as it issues. -/
def Obligations.MatrixAtIssue : Prop :=
  ∀ (s u : State) (w : Word) (acc q tag : BitVec 3) (ws : BitVec 1) (m0 xt rs : BitVec 6) (m : BitVec 7) (k0 : BitVec 10)
    (dep : BitVec 11) (row : BitVec 13) (dk : BitVec 2) (cv ht : BitVec 4) (vb p : BitVec 5) (i : Instr) (T : Nat),
    predOk s.th p = true → u = { s with th := { s.th with mpc := s.th.mpc + 8 } } →
    (s.th.seg.mdLen < s.th.mpc.toNat + 8 → i ∈ [.mma acc q ws m0 m k0 dep p, .mmas acc q ws m0 m k0 dep p, .wtile ws row p, .wswap p,
        .mcommit tag p, .accz acc m0 m p, .accrd acc q dk m0 m cv ht xt rs vb p, .accwr acc q m0 m p, .rpop q p] →
      Gives i s (raise u .handleBound 0)) ∧
    (s.th.mpc.toNat + 8 ≤ s.th.seg.mdLen → w = BitVec.ofNat 64 (memNat s (s.th.seg.md + s.th.mpc.toNat) 8) →
      (∀ sp, i = .mma acc q ws m0 m k0 dep p ∧ sp = false ∨ i = .mmas acc q ws m0 m k0 dep p ∧ sp = true →
        (mmaBad u w q ws m0.toNat m.toNat k0.toNat dep.toNat sp = true → Gives i s (raise u .formatInvalid 0)) ∧
        (mmaBad u w q ws m0.toNat m.toNat k0.toNat dep.toNat sp = false → ReadsRing i s u q.toNat (mxOp u i w))) ∧
      (i = .wtile ws row p →
        (s.grp.kern.bank = false → Gives i s (raise u .handlePerm 0)) ∧
        (s.grp.kern.bank = true → tileShape (fmtMXW s.th.fmt) (mxwW s.th.fmt) = none → Gives i s (raise u .formatInvalid 0)) ∧
        (∀ K e sc, s.grp.kern.bank = true → tileShape (fmtMXW s.th.fmt) (mxwW s.th.fmt) = some (K, e, sc) →
          (8192 < row.toNat + e + sc → Gives i s (raise u .handleBound 0)) ∧
          (row.toNat + e + sc ≤ 8192 → ∃ v x, Gives i s (mxIssue v (mxOp u i w)) ∧
            v = { u with grp := { u.grp with wsets := tset WSet.none u.grp.wsets ws.toNat x }, th := { u.th with ckpt := v.th.ckpt } } ∧
            x.valid = true ∧ x.bank = s.grp.active ∧ x.row = row.toNat ∧ x.mxw = fmtMXW s.th.fmt ∧ x.bw = mxwW s.th.fmt))) ∧
      (i = .wswap p →
        (s.grp.kern.bank = false → Gives i s (raise u .handlePerm 0)) ∧
        (s.grp.kern.bank = true → ∃ v, Gives i s (mxIssue v (mxOp u i w)) ∧
          v = { u with grp := { u.grp with active := 1 - u.grp.active }, th := { u.th with ckpt := v.th.ckpt } } ∧
          v.th.ckpt.bank = some (s.th.ckpt.bank.getD s.grp.active))) ∧
      (i = .mcommit tag p → Gives i s { u with th := { u.th with open_ := [], batches := u.th.batches ++
        [(tag.toNat, u.th.open_.filter (fun j => u.grp.mx.any (fun o => o.1 == j)))] } }) ∧
      (i = .accz acc m0 m p →
        (m = 0 ∨ 64 < m0.toNat + m.toNat → Gives i s (raise u .formatInvalid 0)) ∧
        (m ≠ 0 → m0.toNat + m.toNat ≤ 64 → Gives i s (mxIssue u (mxOp u i w)))) ∧
      (i = .accwr acc q m0 m p →
        (m = 0 ∨ 64 < m0.toNat + m.toNat ∨ (ringOf s.grp q.toNat).bytes < m.toNat * 2048 → Gives i s (raise u .formatInvalid 0)) ∧
        (m ≠ 0 → m0.toNat + m.toNat ≤ 64 → m.toNat * 2048 ≤ (ringOf s.grp q.toNat).bytes →
          ReadsRing i s u q.toNat (mxOp u i w))) ∧
      (i = .rpop q p → ReadsRing i s u q.toNat (mxOp u i w)) ∧
      (i = .accrd acc q dk m0 m cv ht xt rs vb p →
        T = (if cv = 5 then 320 else if cv = 6 then 64 * (fmtBFPW s.th.fmt + 3) else 64 * fmtBits cv.toNat 0) →
        (m = 0 ∨ 64 < m0.toNat + m.toNat ∨ 12 < cv.toNat ∨ cv = 6 ∧ fmtBFPW s.th.fmt = 7 ∨ dk = 2 ∧ (cv = 5 ∨ cv = 6) →
          Gives i s (raise u .formatInvalid 0)) ∧
        (m ≠ 0 → m0.toNat + m.toNat ≤ 64 → cv.toNat ≤ 12 → (cv = 6 → fmtBFPW s.th.fmt ≠ 7) → (dk = 2 → cv ≠ 5 ∧ cv ≠ 6) →
          ∀ o, o = { mxOp u i w with scale := if rs = 0 then none else some ((sReg s.th rs.toNat).setWidth 32) } →
          (dk = 0 → ∀ r, r = ringOf s.grp q.toNat →
            (ringDeclared s.grp q.toNat = false ∨ r.bytes < m.toNat * T → Gives i s (raise u .formatInvalid 0)) ∧
            (ringDeclared s.grp q.toNat = true → m.toNat * T ≤ r.bytes →
              (r.slots ≤ r.filled → Gives i s (stallOn u q.toNat .ringFull)) ∧
              (r.filled < r.slots → Gives i s (mxIssue (ringPush u q.toNat).1
                { o with slot := r.tail, dst := upFrom (r.base + r.tail * r.bytes) (m.toNat * T) })))) ∧
          (dk = 1 → ∀ t x, sideFlat u ht.toNat xt (m.toNat * T) scrOnly.noStep6 .w = .ok t x →
            Gives i s (mxIssue t { o with dst := sideScr x })) ∧
          (dk ≠ 0 → dk ≠ 1 →
            (31 < vb.toNat + rowRegs cv.toNat * m.toNat - 1 → Gives i s (raise u .formatInvalid 0)) ∧
            (vb.toNat + rowRegs cv.toNat * m.toNat - 1 ≤ 31 → Gives i s (mxIssue u o))))))

/-- R89, R90, R379 to R381: what an operation leaves when it retires. An MMA takes its positions in chunks of 32; of the integer class it
adds each chunk's exact sum of products to the accumulator element and saturates, of a floating-point class it rounds the chunk's exact sum
to FP32 and adds it with one more rounding; its rows, and no others, take what that gives, and its slot is popped. ACCZ zeroes its rows and
no others; ACCWR takes its rows from the slot; RPOP pops. ACCRD leaves each row's image, padded to the row's stride, in its slot or its
scratch bytes, or 32 columns of each row in vector registers; a row's codes stand little-endian, one a column (R380). -/
def Obligations.MatrixRetires : Prop :=
  (∀ (fmt w : Word) (x y : Nat → Int) (k0 dep : Nat) (a : BitVec 32), mxClass fmt = some .int → fmtACF fmt = 1 → dep ≤ 2048 →
    accChunks fmt (fun k => some (fOfInt (y k))) (fun j => some (fOfInt (x j))) false w k0 dep a 0 64 =
      some ((List.range ((dep + 31) / 32)).foldl (fun acc c => BitVec.ofInt 32 (max (-2147483648) (min 2147483647 (acc.toInt +
        ((List.range (min 32 (dep - 32 * c))).map (fun j => x (32 * c + j) * y (k0 + (32 * c + j)))).sum)))) a)) ∧
  (∀ (fmt w : Word) (x y : Nat → Fv) (k0 dep : Nat) (a : BitVec 32), mxClass fmt ≠ some .int → fmtACF fmt ≠ 1 → dep ≤ 2048 →
    accChunks fmt (fun k => some (y k)) (fun j => some (x j)) false w k0 dep a 0 64 =
      some ((List.range ((dep + 31) / 32)).foldl (fun acc c => r32 0 (fadd 0 (f32 acc) (f32 (r32 0 (fsum 0
        ((List.range (min 32 (dep - 32 * c))).map (fun j => fmul (x (32 * c + j)) (y (k0 + (32 * c + j)))))))))) a)) ∧
  (∀ (s t : State) (o : MxOp) (acc q : BitVec 3) (ws : BitVec 1) (m0 : BitVec 6) (m : BitVec 7) (k0 : BitVec 10) (dep : BitVec 11)
    (p : BitVec 5) (sp : Bool) (base : Nat) (r : Ring) (f : Nat → Nat → BitVec 32), t = mxPerform s o → r = ringOf s.grp q.toNat →
    base = r.base + o.slot * r.bytes →
    o.ins = .mma acc q ws m0 m k0 dep p ∧ sp = false ∨ o.ins = .mmas acc q ws m0 m k0 dep p ∧ sp = true →
    (∀ a ∈ mmaReads o base m.toNat dep.toNat, a / 64 ∉ s.grp.badScr) →
    (∀ i c, i < m.toNat → c < 512 → accChunks o.fmt (fun k => tileVal o.fmt (tget WSet.none s.grp.wsets ws.toNat).rows k c)
      (operandVal s.grp o.fmt (base + i * mxPitch o.fmt dep.toNat)) sp o.meta_ k0.toNat dep.toNat
      (accGet (tget [] s.grp.acc acc.toNat) (m0.toNat + i) c) 0 64 = some (f i c)) →
    (∀ i c, c < 512 → accGet (tget [] t.grp.acc acc.toNat) i c =
      if m0.toNat ≤ i ∧ i < m0.toNat + m.toNat then f (i - m0.toNat) c else accGet (tget [] s.grp.acc acc.toNat) i c) ∧
    (∀ j, j ≠ acc.toNat → tget [] t.grp.acc j = tget [] s.grp.acc j) ∧ t.grp.scratch = s.grp.scratch ∧ t.mem = s.mem ∧
    t.grp.rings = tset Ring.none s.grp.rings q.toNat
      { r with head := (r.head + 1) % r.slots, filled := r.filled - 1, taken := r.taken - 1 }) ∧
  (∀ (s t : State) (o : MxOp) (acc q : BitVec 3) (dk : BitVec 2) (m0 : BitVec 6) (m : BitVec 7) (cv ht : BitVec 4) (xt rs : BitVec 6)
    (vb p : BitVec 5) (a : Tab (BitVec 32)) (T w : Nat) (row : Nat → Nat → Nat → List Byte), t = mxPerform s o →
    o.ins = .accrd acc q dk m0 m cv ht xt rs vb p → a = tget [] s.grp.acc acc.toNat → T = rowStride cv.toNat (bfpW o.fmt) →
    w = rowRegs cv.toNat → (∀ i n0 n, row i n0 n = readRow o cv.toNat a (m0.toNat + i) n0 n) →
    t.mem = s.mem ∧ t.grp.acc = s.grp.acc ∧
    (dk ≠ 2 → o.dst.Nodup → o.dst.length = m.toNat * T → (∀ i, (row i 0 512).length ≤ T) →
      (∀ i j, i < m.toNat → j < T → tget 0 t.grp.scratch (o.dst.getD (i * T + j) 0) = (row i 0 512).getD j 0) ∧
      (∀ x, x ∉ o.dst → tget 0 t.grp.scratch x = tget 0 s.grp.scratch x) ∧ t.th.v = s.th.v ∧
      (dk = 0 → t.grp.rings = tset Ring.none s.grp.rings q.toNat { ringOf s.grp q.toNat with
        flying := (ringOf s.grp q.toNat).flying.filter (fun j => j != o.slot) }) ∧
      (dk ≠ 0 → t.grp.rings = s.grp.rings)) ∧
    (dk = 2 → t.grp.scratch = s.grp.scratch ∧ t.grp.rings = s.grp.rings ∧ ∀ n,
      (∀ i j, i < m.toNat → j < w → n = 32 * (xt.toNat % 8) + vb.toNat + w * i + j → tget 0 (thOf t o.th).v n =
        BitVec.ofNat 512 (leNat (padTo (64 * w) (row i (32 * ht.toNat) 32)) / 2 ^ (512 * j))) ∧
      ((∀ i j, i < m.toNat → j < w → n ≠ 32 * (xt.toNat % 8) + vb.toNat + w * i + j) →
        tget 0 (thOf t o.th).v n = tget 0 (thOf s o.th).v n))) ∧
  (∀ (o : MxOp) (cv b : Nat) (a : Tab (BitVec 32)) (m n0 n c : Nat) (x : BitVec 32), cv ≠ 5 → cv ≠ 6 → b = fmtBits cv 0 → n * b % 8 = 0 →
    c < n → (readRow o cv a m n0 n).length = n * b / 8 ∧
    leNat (readRow o cv a m n0 n) / 2 ^ (b * c) % 2 ^ b = readCode o cv (accGet a m (n0 + c)) % 2 ^ b ∧
    (o.scale = none → cv = 0 ∧ fmtACF o.fmt = 0 ∨ cv = 12 ∧ fmtACF o.fmt = 1 → readCode o cv x = x.toNat) ∧
    (cv = 0 → o.scale ≠ none ∨ fmtACF o.fmt = 1 → ∀ y, y = (if fmtACF o.fmt = 1 then fOfInt x.toInt else f32 x) →
      (o.scale = none → readCode o cv x = fenc fp32 (fmtRM o.fmt) (fmtSAT o.fmt) y) ∧
      (∀ z, o.scale = some z → readCode o cv x = fenc fp32 (fmtRM o.fmt) (fmtSAT o.fmt) (fmul y (f32 z))))) ∧
  (∀ (s t : State) (o : MxOp) (acc q : BitVec 3) (m0 : BitVec 6) (m : BitVec 7) (p : BitVec 5) (base : Nat) (r : Ring),
    t = mxPerform s o → r = ringOf s.grp q.toNat → base = r.base + o.slot * r.bytes →
    (o.ins = .accz acc m0 m p →
      (∀ i c, c < 512 → accGet (tget [] t.grp.acc acc.toNat) i c =
        if m0.toNat ≤ i ∧ i < m0.toNat + m.toNat then 0 else accGet (tget [] s.grp.acc acc.toNat) i c) ∧
      (∀ j, j ≠ acc.toNat → tget [] t.grp.acc j = tget [] s.grp.acc j) ∧ t.grp.rings = s.grp.rings) ∧
    (o.ins = .accwr acc q m0 m p → (∀ j ∈ s.grp.badScr, j < base / 64 ∨ base + m.toNat * 2048 ≤ 64 * j) →
      (∀ i c, c < 512 → accGet (tget [] t.grp.acc acc.toNat) i c = if m0.toNat ≤ i ∧ i < m0.toNat + m.toNat then
          BitVec.ofNat 32 (leNat (tbytes s.grp.scratch (base + 2048 * (i - m0.toNat) + 4 * c) 4))
        else accGet (tget [] s.grp.acc acc.toNat) i c) ∧
      (∀ j, j ≠ acc.toNat → tget [] t.grp.acc j = tget [] s.grp.acc j)) ∧
    (o.ins = .rpop q p → t.grp.rings = tset Ring.none s.grp.rings q.toNat
        { r with head := (r.head + 1) % r.slots, filled := r.filled - 1, taken := r.taken - 1 } ∧ t.grp.acc = s.grp.acc))

/-! Vectors. -/

/-- R345 to R349: units of the cascade on one lane, under the 32-bit integer types, and those on FP32 that act on patterns. -/
def Obligations.CascadeUnits : Prop :=
  ∀ (fmt : Word) (md : Nat) (x y : BitVec 32) (ty : Nat),
    (ty = 1 ∨ ty = 2 →
      unitLane fmt 0 ty md x y = some x ∧ unitLane fmt 1 ty md x y = some (x + y) ∧ unitLane fmt 2 ty md x y = some (x - y) ∧
      unitLane fmt 3 ty md x y = some (x * y) ∧ unitLane fmt 6 ty md x y = some (x &&& y) ∧ unitLane fmt 7 ty md x y = some (x ||| y) ∧
      unitLane fmt 8 ty md x y = some (x ^^^ y) ∧ unitLane fmt 9 ty md x y = some (x <<< (y.toNat % 32)) ∧
      unitLane fmt 10 ty md x y = some (x >>> (y.toNat % 32)) ∧ unitLane fmt 11 ty md x y = some (x.sshiftRight (y.toNat % 32)) ∧
      unitLane fmt 13 ty md x y = some (-x)) ∧
    unitLane fmt 4 1 md x y = some (if x.toInt ≤ y.toInt then x else y) ∧ unitLane fmt 5 1 md x y = some (if x.toInt ≤ y.toInt then y else x) ∧
    unitLane fmt 4 2 md x y = some (if x.toNat ≤ y.toNat then x else y) ∧ unitLane fmt 5 2 md x y = some (if x.toNat ≤ y.toNat then y else x) ∧
    unitLane fmt 12 1 md x y = some (BitVec.ofNat 32 x.toInt.natAbs) ∧ unitLane fmt 12 2 md x y = some x ∧
    unitLane fmt 14 1 md x y = some (if x.toInt < 0 then 0 else x) ∧ unitLane fmt 14 2 md x y = some x ∧
    unitLane fmt 17 1 2 x y = some (if x.toInt < y.toInt then 0xFFFFFFFF else 0) ∧
    unitLane fmt 17 2 2 x y = some (if x.toNat < y.toNat then 0xFFFFFFFF else 0) ∧
    unitLane fmt 0 0 md x y = some x ∧
    unitLane fmt 12 0 md x y = some (if fpNan x then 0x7FC00000 else BitVec.ofNat 32 (fpMag x)) ∧
    unitLane fmt 13 0 md x y = some (if fpNan x then 0x7FC00000 else x ^^^ 0x80000000) ∧
    unitLane fmt 14 0 md x y = some (if fpNan x then 0x7FC00000 else if 0 < fpKey x then x else 0) ∧
    unitLane fmt 17 0 2 x y = some (if !fpNan x && !fpNan y && decide (fpKey x < fpKey y) then 0xFFFFFFFF else 0)

/-- R345, R351 to R354, R381: the cascade, the dot product, the reductions and the movers, lane by lane. -/
def Obligations.VectorInstructions : Prop :=
  ∀ (s : State) (cl cs : BitVec 3) (vd va vb vc ve opa opb opc : BitVec 5) (tya tyb tyc ty md form dest : BitVec 2)
    (mda mdb mdc op : BitVec 3) (d : BitVec 6) (p : BitVec 5) (f : Nat → BitVec 32) (A B C : Nat → BitVec 32) (i : Instr) (x : Nat),
    predOk s.th p = true → A = vLane s cl va → B = vLane s cl vb → C = vLane s cl vc →
    (i = .vx cl vd va vb vc ve opa opb opc tya tyb tyc mda mdb mdc p →
      OnVectors i s (vNum cl vd :: vxRegs cl va vb vc ve opa opb opc)
        ((∀ l, l < 16 → cascade s cl va vb vc ve opa opb opc tya tyb tyc mda mdb mdc l = some (f l)) → GivesLanes i s cl vd clsVec f) ∧
      OnVectors i s (vNum cl vd :: vxRegs cl va vb vc ve opa opb opc)
        ((∃ l, l < 16 ∧ cascade s cl va vb vc ve opa opb opc tya tyb tyc mda mdb mdc l = none) → Faults i s .formatInvalid 0)) ∧
    (i = .vdot cl vd va vb vc form dest p → OnVectors i s [vNum cl vd, vNum cl va, vNum cl vb, vNum cl vc]
      ((dotOk form.toNat (fmtVFA s.th.fmt) = false ∨ dotOk form.toNat (fmtVFB s.th.fmt) = false ∨
          dest ≠ 2 ∧ (isIntFmt (fmtVFA s.th.fmt) && isIntFmt (fmtVFB s.th.fmt)) = false → Faults i s .formatInvalid 0) ∧
        (dotOk form.toNat (fmtVFA s.th.fmt) = true → dotOk form.toNat (fmtVFB s.th.fmt) = true →
          (dest ≠ 2 → (isIntFmt (fmtVFA s.th.fmt) && isIntFmt (fmtVFB s.th.fmt)) = true) →
          (∀ l, l < 16 → dotLane s.th.fmt form.toNat dest.toNat (A l) (B l) (C l) = some (f l)) → GivesLanes i s cl vd clsVec f))) ∧
    (fmtVFA s.th.fmt = 7 → fmtVFB s.th.fmt = 7 → fmtRSUB s.th.fmt = 0 → fmtISGN s.th.fmt = true →
      ∀ l, dotLane s.th.fmt 0 0 (A l) (B l) (C l) = some (BitVec.ofInt 32 (max (-2147483648) (min 2147483647 ((C l).toInt +
        ((List.range 4).map (fun j => ((A l).extractLsb' (8 * j) 8).toInt * ((B l).extractLsb' (8 * j) 8).toInt)).sum))))) ∧
    OnVectors (.vred cl d va op ty p) s [vNum cl va]
      (∃ y, GivesS (.vred cl d va op ty p) s d clsVec y ∧
        (op = 0 → ty = 1 → y = BitVec.ofInt 64 ((List.range 16).map (fun l => (A l).toInt)).sum) ∧
        (op = 0 → ty = 2 → y = BitVec.ofNat 64 ((List.range 16).map (fun l => (A l).toNat)).sum) ∧
        (op = 1 → ty = 1 → (∃ l, l < 16 ∧ y = (A l).signExtend 64) ∧ ∀ l, l < 16 → y.toInt ≤ (A l).toInt) ∧
        (op = 2 → ty = 1 → (∃ l, l < 16 ∧ y = (A l).signExtend 64) ∧ ∀ l, l < 16 → (A l).toInt ≤ y.toInt) ∧
        (op = 1 → ty = 2 → (∃ l, l < 16 ∧ y = (A l).setWidth 64) ∧ ∀ l, l < 16 → y.toNat ≤ (A l).toNat) ∧
        (op = 2 → ty = 2 → (∃ l, l < 16 ∧ y = (A l).setWidth 64) ∧ ∀ l, l < 16 → (A l).toNat ≤ y.toNat) ∧
        (op = 3 → ∀ j, j < 64 → y.getLsbD j = (List.range 16).all (fun l => (A l).getLsbD j)) ∧
        (op = 4 → ∀ j, j < 64 → y.getLsbD j = (List.range 16).any (fun l => (A l).getLsbD j))) ∧
    OnVectors (.vperm cl vd va vb vc p) s [vNum cl vd, vNum cl va, vNum cl vb, vNum cl vc]
      (GivesLanes (.vperm cl vd va vb vc p) s cl vd clsVec
        (fun l => if (B l).toNat % 32 < 16 then A ((B l).toNat % 32) else C ((B l).toNat % 32 - 16))) ∧
    (x = (sReg s.th d.toNat).toNat → OnVectors (.vbcast cl vd d md p) s [vNum cl vd]
      (GivesLanes (.vbcast cl vd d md p) s cl vd clsVec (fun _ => BitVec.ofNat 32
        (if md = 0 then x % 2 ^ 32 else if md = 1 then x % 2 ^ 16 * 0x10001 else x % 2 ^ 8 * 0x1010101)))) ∧
    OnVectors (.vxc cl vd cs va p) s [vNum cl vd, vNum cs va]
      (GivesV (.vxc cl vd cs va p) s cl vd clsXc (vReg s.th cs.toNat va.toNat)) ∧
    OnVectors (.vmov cl vd va p) s [vNum cl vd, vNum cl va]
      (GivesV (.vmov cl vd va p) s cl vd clsVec (vReg s.th cl.toNat va.toNat)) ∧
    OnVectors (.viota cl vd md p) s [vNum cl vd]
      (GivesLanes (.viota cl vd md p) s cl vd clsVec (fun l => BitVec.ofNat 32
        ((l + (if md.getLsbD 1 then 16 * cl.toNat else 0)) * (if md.getLsbD 0 then 4 else 1))))

/-- R355, R356: vector loads and stores. `offs` gives the sixteen lanes' offsets; each lane passes the checks of a 4-byte access
(`locateAll`: the lowest lane that fails is the fault); a stale handle whose new translation fails is the fault of the first lane; a tile
form needs scratch, and waits for busy lines. -/
def Obligations.VectorMemory : Prop :=
  ∀ (s t : State) (cl : BitVec 3) (v vi : BitVec 5) (h cls : BitVec 4) (x : BitVec 6) (imm : BitVec 24) (p : BitVec 5) (i : Instr)
    (offs : List Int) (hh : Handle) (ls : List (Loc × Nat)) (need : Need) (tile : Bool) (rs : List Nat),
    predOk s.th p = true →
    (rs = [vNum cl v] ∧ offs = (List.range 16).map (fun l : Nat => offset s x imm.toInt + 4 * (l : Int)) ∧
        (i = .vld cl v h x imm cls p ∧ need = .r ∧ tile = false ∨ i = .vst cl v h x imm cls p ∧ need = .st ∧ tile = false ∨
          i = .vldt cl v h x imm cls p ∧ need = .r ∧ tile = true ∨ i = .vstt cl v h x imm cls p ∧ need = .w ∧ tile = true) ∨
      rs = [vNum cl v, vNum cl vi] ∧ offs = (List.range 16).map (fun l => offset s x imm.toInt + (vLane s cl vi l).toInt) ∧ tile = false ∧
        (i = .vldx cl v h x imm vi cls p ∧ need = .r ∨ i = .vstx cl v h x imm vi cls p ∧ need = .st)) →
    OnVectors i s rs
      ((∀ c a, useHandle s h.toNat = .bad c a →
        Gives i s (raise s c (BitVec.ofInt 64 (addrOf (hReg s.th h.toNat) (offs.headD 0))).toNat)) ∧
      (useHandle s h.toNat = .ok t hh →
        (hh.st = .empty → Gives i s (raise t .handlePerm 0)) ∧
        (tile = true → hh.st ≠ .empty → hh.space ≠ .scratch →
          Gives i s (raise t .handlePerm (BitVec.ofInt 64 (addrOf hh (offs.headD 0))).toNat)) ∧
        (tile = true → hh.st ≠ .empty → hh.space = .scratch → ∀ c a, locateAll t hh need offs = .error (c, a) → Gives i s (raise t c a)) ∧
        (tile = false → ∀ c a, locateAll t hh need offs = .error (c, a) → Gives i s (raise t c a)) ∧
        (locateAll t hh need offs = .ok ls → (tile = true → hh.space = .scratch) →
          (tile = true → busy t (if need = .r then laneLines ls else []) (if need = .r then [] else laneLines ls) = true →
            Gives i s (block t)) ∧
          (tile = false ∨ busy t (if need = .r then laneLines ls else []) (if need = .r then [] else laneLines ls) = false →
            (need = .r → Gives i s (vload t cl v cls ls)) ∧ (need ≠ .r → Gives i s (vstore t cl v cls ls))))))

/-! Fronts. -/

/-- R92 to R106, R360 to R362: the front instructions, with what each writes to its front at the bundle's end. A
spill image's handle is used as any access uses one: a stale one is translated again (R128). -/
def Obligations.FrontInstructions : Prop :=
  ∀ (s : State) (cl fr fs : BitVec 3) (vb vd : BitVec 5) (a d : BitVec 6) (sel : BitVec 2) (h cls : BitVec 4) (x : BitVec 6)
    (imm : BitVec 24) (p : BitVec 5) (f g : Front) (c : BitVec 32),
    predOk s.th p = true → f = fReg s.th fr.toNat → g = fReg s.th fs.toNat → c = (sReg s.th a.toNat).setWidth 32 →
    OnFronts (.pfcfg cl fr a p) s [fr.toNat] (fun u =>
      (frCfgBad c = true → Gives (.pfcfg cl fr a p) s (raise u .formatInvalid 0)) ∧
      (frCfgBad c = false → GivesFront (.pfcfg cl fr a p) s u fr.toNat { cfg := c, tup := [], ovf := 0, nanc := 0 })) ∧
    OnFronts (.pfins cl fr vb a p) s [fr.toNat] (fun u =>
      (31 < vb.toNat + frKeys f.cfg → Gives (.pfins cl fr vb a p) s (raise u .formatInvalid 0)) ∧
      (vb.toNat + frKeys f.cfg ≤ 31 → vBusy u (upFrom (vNum cl vb) (frKeys f.cfg + 1)) = false →
        ∀ l, l = (upFrom 0 (min (sReg s.th a.toNat).toNat 16)).map (frLane s cl vb f.cfg) →
        (∀ k, frInserts f l = some k → GivesFront (.pfins cl fr vb a p) s u fr.toNat k) ∧
        (frInserts f l = none → Gives (.pfins cl fr vb a p) s (raise u .frontOverflow 0)))) ∧
    OnFronts (.pftst cl vd fr vb a p) s [fr.toNat] (fun u =>
      (31 < vb.toNat + frKeys f.cfg → Gives (.pftst cl vd fr vb a p) s (raise u .formatInvalid 0)) ∧
      (vb.toNat + frKeys f.cfg ≤ 31 → vBusy u (upFrom (vNum cl vb) (frKeys f.cfg + 1) ++ [vNum cl vd]) = false →
        ∃ v, Gives (.pftst cl vd fr vb a p) s (putV u cl.toNat vd.toNat v clsVec) ∧ ∀ l, l < 16 → laneOf v l =
          if l < (sReg s.th a.toNat).toNat then frTest f (frLane s cl vb f.cfg l) else 0)) ∧
    OnFronts (.pfmrg cl fr fs p) s [fr.toNat, fs.toNat] (fun u =>
      (bitsOf f.cfg.toNat 9 0 ≠ bitsOf g.cfg.toNat 9 0 → Gives (.pfmrg cl fr fs p) s (raise u .formatInvalid 0)) ∧
      (bitsOf f.cfg.toNat 9 0 = bitsOf g.cfg.toNat 9 0 →
        (∀ k, frInserts f g.tup = some k → GivesFront (.pfmrg cl fr fs p) s u fr.toNat { k with nanc := f.nanc }) ∧
        (frInserts f g.tup = none → Gives (.pfmrg cl fr fs p) s (raise u .frontOverflow 0)))) ∧
    OnFronts (.pfrd cl vb fr a p) s [fr.toNat] (fun u =>
      (31 < vb.toNat + frKeys f.cfg → Gives (.pfrd cl vb fr a p) s (raise u .formatInvalid 0)) ∧
      (vb.toNat + frKeys f.cfg ≤ 31 → vBusy u (upFrom (vNum cl vb) (frKeys f.cfg + 1)) = false →
        Gives (.pfrd cl vb fr a p) s ((upFrom 0 (frKeys f.cfg + 1)).foldl (fun t j => putV t cl.toNat (vb.toNat + j)
          (mkV (fun l => frOut f j (min (sReg s.th a.toNat).toNat 64 + l))) clsVec) u))) ∧
    OnFronts (.pfcnt cl d fr sel p) s [fr.toNat] (fun u =>
      Gives (.pfcnt cl d fr sel p) s (putS u d.toNat (if sel = 0 then BitVec.ofNat 64 f.tup.length else if sel = 1 then f.ovf.setWidth 64
        else if sel = 2 then f.nanc.setWidth 64 else f.cfg.setWidth 64) clsVec)) ∧
    OnFronts (.pfclr cl fr p) s [fr.toNat] (fun u =>
      GivesFront (.pfclr cl fr p) s u fr.toNat { cfg := f.cfg, tup := [], ovf := 0, nanc := 0 }) ∧
    OnFronts (.pfspl cl fr h x imm cls p) s [fr.toNat] (fun u =>
      (∀ c e, useHandle u h.toNat = .bad c e → Gives (.pfspl cl fr h x imm cls p) s (raise u c e)) ∧
      (∀ t hh, useHandle u h.toNat = .ok t hh →
        (hh.st = .empty ∨ hh.space = .memory → Gives (.pfspl cl fr h x imm cls p) s (raise t .handlePerm 0)) ∧
        (hh.st ≠ .empty → hh.space ≠ .memory → ∀ l va, locate t hh (offset s x imm.toInt) (frImage f).length 4 .w = .ok (l, va) →
          Gives (.pfspl cl fr h x imm cls p) s (storeAt t l (frImage f) cls.toNat va)))) ∧
    OnFronts (.pffil cl fr h x imm cls p) s [fr.toNat] (fun u =>
      (∀ c e, useHandle u h.toNat = .bad c e → Gives (.pffil cl fr h x imm cls p) s (raise u c e)) ∧
      (∀ t hh, useHandle u h.toNat = .ok t hh →
        (hh.st = .empty ∨ hh.space = .memory → Gives (.pffil cl fr h x imm cls p) s (raise t .handlePerm 0)) ∧
        (∀ l va n b k, hh.st ≠ .empty → hh.space ≠ .memory → s.grp.ch = [] →
          earlierLoad s.th cls.toNat = false → earlierTld s cls.toNat = false →
          n = leNat (((imageSrcs t l 16).map (takeByte t)).drop 4 |>.take 4) →
          locate t hh (offset s x imm.toInt) 16 4 .r = .ok (l, va) →
          locate t hh (offset s x imm.toInt) (16 + 20 * n) 4 .r = .ok (l, va) →
          (∀ y ∈ imageSrcs t l (16 + 20 * n), srcPoison t y = false) →
          b = (imageSrcs t l 16).map (takeByte t) ++ (imageSrcs t (l.plus 16) (20 * n)).map (takeByte t) → frFill b = some k →
          GivesFront (.pffil cl fr h x imm cls p) s t fr.toNat k)))

/-- R95, R96: inserting keeps a front's tuples free of one that dominates or equals another, within its capacity, and its
configuration; a tuple with a NaN in an active key, or one dominated or equalled, leaves the held tuples as they are; one that is
placed is in the front afterwards. -/
def Obligations.FrontInsertion : Prop :=
  ∀ (f g : Front) (t : Tuple), FrontOk f → frInsert f t = some g →
    FrontOk g ∧ g.cfg = f.cfg ∧
    (frNan f.cfg t = true → g.tup = f.tup ∧ g.ovf = f.ovf ∧ g.nanc = if f.nanc = 0xFFFFFFFF then f.nanc else f.nanc + 1) ∧
    (frNan f.cfg t = false → g.nanc = f.nanc ∧ ((∃ u ∈ f.tup, frDom f.cfg u t = true ∨ frEq f.cfg u t = true) → g = f)) ∧
    (frNan f.cfg t = false → (∀ u ∈ f.tup, frDom f.cfg u t = false ∧ frEq f.cfg u t = false) →
      ((f.tup.filter (fun u => !frDom f.cfg t u)).length < frCap f.cfg →
        t ∈ g.tup ∧ g.ovf = f.ovf ∧ ∀ u, u ∈ g.tup ↔ u = t ∨ u ∈ f.tup ∧ frDom f.cfg t u = false))

/-! Special functions. -/

/-- R357 to R359: each function of the SF slot on a scalar and lane by lane on a vector; and its value where R359 names it. R358: RCP and
SQRT give the FP32 value nearest the exact result, of two at one distance the even (both in units of 2^−149); EXP2 of an integer and LOG2 of
a power of two are exact; every other result, a free value, keeps R358's bound of the model's fixed-point reference of the function
(`sfRef`, 2^−256 its unit, 2^32 units allowed for its own error), or is the FP32 value nearest that reference. -/
def Obligations.SpecialFunctions : Prop :=
  ∀ (s : State) (d a : BitVec 6) (cl : BitVec 3) (vd va p : BitVec 5) (x : BitVec 32), predOk s.th p = true →
    x = (sReg s.th a.toNat).setWidth 32 →
    (∀ e ∈ [(0, Instr.rcpScalar d a p), (1, .rsqScalar d a p), (2, .sqrtScalar d a p), (3, .exp2Scalar d a p), (4, .log2Scalar d a p),
        (5, .sinScalar d a p), (6, .cosScalar d a p), (7, .tanhScalar d a p), (8, .sigmScalar d a p), (9, .erfScalar d a p)],
      GivesS e.2 s d clsSf ((sfFn e.1 x).setWidth 64)) ∧
    (∀ e ∈ [(0, Instr.rcpVector cl vd va p), (1, .rsqVector cl vd va p), (2, .sqrtVector cl vd va p), (3, .exp2Vector cl vd va p),
        (4, .log2Vector cl vd va p), (5, .sinVector cl vd va p), (6, .cosVector cl vd va p), (7, .tanhVector cl vd va p),
        (8, .sigmVector cl vd va p), (9, .erfVector cl vd va p)],
      OnVectors e.2 s [vNum cl vd, vNum cl va] (GivesLanes e.2 s cl vd clsSf (fun l => sfFn e.1 (vLane s cl va l)))) ∧
    (∀ k, k ≤ 9 → fpNan x = true → sfFn k x = 0x7FC00000) ∧
    (x = 0x7F800000 → sfFn 0 x = 0 ∧ sfFn 1 x = 0 ∧ sfFn 2 x = x ∧ sfFn 3 x = x ∧ sfFn 4 x = x ∧ sfFn 5 x = 0x7FC00000 ∧
      sfFn 6 x = 0x7FC00000 ∧ sfFn 7 x = 0x3F800000 ∧ sfFn 8 x = 0x3F800000 ∧ sfFn 9 x = 0x3F800000) ∧
    (x = 0xFF800000 → sfFn 0 x = 0x80000000 ∧ sfFn 1 x = 0x7FC00000 ∧ sfFn 2 x = 0x7FC00000 ∧ sfFn 3 x = 0 ∧ sfFn 4 x = 0x7FC00000 ∧
      sfFn 5 x = 0x7FC00000 ∧ sfFn 6 x = 0x7FC00000 ∧ sfFn 7 x = 0xBF800000 ∧ sfFn 8 x = 0 ∧ sfFn 9 x = 0xBF800000) ∧
    (fpMag x = 0 → sfFn 0 x = x ||| 0x7F800000 ∧ sfFn 1 x = x ||| 0x7F800000 ∧ sfFn 2 x = x ∧ sfFn 3 x = 0x3F800000 ∧
      sfFn 4 x = 0xFF800000 ∧ sfFn 5 x = x ∧ sfFn 6 x = 0x3F800000 ∧ sfFn 7 x = x ∧ sfFn 8 x = 0x3F000000 ∧ sfFn 9 x = x) ∧
    (x.msb = true → fpMag x ≠ 0 → fpNan x = false → sfFn 1 x = 0x7FC00000 ∧ sfFn 2 x = 0x7FC00000 ∧ sfFn 4 x = 0x7FC00000) ∧
    (fpNan x = false → (0x43000000 ≤ fpKey x → sfFn 3 x = 0x7F800000) ∧ (fpKey x < -0x43160000 → sfFn 3 x = 0)) ∧
    sfFn 4 0x3F800000 = 0 ∧
    (∀ (g : Bool) (n : Nat) (e : Int), f32 x = .fin g n e → 0 < n →
      (∀ c N D : Nat, c = fpMag (sfFn 0 x) → N = 2 ^ (149 - e).toNat → D = n * 2 ^ (e - 149).toNat →
        (sfFn 0 x).msb = g ∧ c ≤ 0x7F800000 ∧ (0 < c → (fpUnits (c - 1) + fpUnits c) * D ≤ 2 * N) ∧
        (c < 0x7F800000 → 2 * N ≤ (fpUnits c + fpUnits (c + 1)) * D) ∧
        ((0 < c ∧ (fpUnits (c - 1) + fpUnits c) * D = 2 * N ∨ 2 * N = (fpUnits c + fpUnits (c + 1)) * D) → c % 2 = 0)) ∧
      (g = false → ∀ c N : Nat, c = fpMag (sfFn 2 x) → N = n * 2 ^ (e + 298).toNat →
        (sfFn 2 x).msb = false ∧ c < 0x7F800000 ∧ 0 < c ∧ (fpUnits (c - 1) + fpUnits c) ^ 2 ≤ 4 * N ∧ 4 * N ≤ (fpUnits c + fpUnits (c + 1)) ^ 2) ∧
      (∀ i : Nat, asInt n e = some i → (g = false ∧ i ≤ 127 ∨ g = true ∧ i ≤ 149) →
        feq (f32 (sfFn 3 x)) (.fin false 1 (if g then -(i : Int) else i)) = true) ∧
      (g = false → ∀ k : Int, pow2Of n e = some k → feq (f32 (sfFn 4 x)) (.fin (decide (k < 0)) k.natAbs 0) = true) ∧
      (∀ (k : Nat) (r b X : Int), k ∈ [1, 3, 4, 5, 6, 7, 8, 9] → (k = 1 ∨ k = 4 → g = false) →
        (k = 3 → fpKey x < 0x43000000 ∧ -0x43160000 ≤ fpKey x ∧ asInt n e = none) → (k = 4 → pow2Of n e = none) →
        r = sfRef k (f32 x) → X = fxOf 256 (f32 x) →
        b = (if k = 1 ∨ k = 3 then fxUlp r else if k = 4 then (if fxOne ≤ 2 * X ∧ X ≤ 2 * fxOne then 2 ^ 234 else fxUlp r)
          else if k = 5 ∨ k = 6 then 2 ^ 234 else 2 * fxUlp (min (r.natAbs : Int) (fxOne - 1))) →
        ((fxOf 256 (f32 (sfFn k x)) - r).natAbs : Int) ≤ b + 2 ^ 32 ∨ sfFn k x = r32 0 (.fin (decide (r < 0)) r.natAbs (-256))))

/-! The ballast level. -/

/-- R400, R401: scalar arithmetic and branches of Lamesque-B. A shift takes its low 6 bits; a branch is relative to its own address. -/
def Obligations.BallastScalar : Prop :=
  ∀ (s : State) (d a b : BitVec 5) (imm : BitVec 16) (sh : BitVec 6) (off : BitVec 26) (x y z : Word) (n : Nat) (go : Bool → State),
    x = eReg s.bi a.toNat → y = eReg s.bi b.toNat → z = BitVec.ofInt 64 imm.toInt → n = y.toNat % 64 →
    (∀ c, go c = { s with bi := { s.bi with pc := if c then s.bi.pc + BitVec.ofInt 32 (4 * imm.toInt) else s.bi.pc + 4 } }) →
    GivesE (.bAdd d a b) s d (BitVec.ofInt 64 (x.toInt + y.toInt)) ∧ GivesE (.bSub d a b) s d (BitVec.ofInt 64 (x.toInt - y.toInt)) ∧
    GivesE (.bMul d a b) s d (BitVec.ofInt 64 (x.toInt * y.toInt)) ∧ GivesE (.bAnd d a b) s d (x &&& y) ∧
    GivesE (.bOr d a b) s d (x ||| y) ∧ GivesE (.bXor d a b) s d (x ^^^ y) ∧
    GivesE (.bShl d a b) s d (BitVec.ofNat 64 (x.toNat * 2 ^ n)) ∧ GivesE (.bShr d a b) s d (BitVec.ofNat 64 (x.toNat / 2 ^ n)) ∧
    GivesE (.bSar d a b) s d (BitVec.ofInt 64 (x.toInt / 2 ^ n)) ∧
    GivesE (.bMin d a b) s d (BitVec.ofInt 64 (min x.toInt y.toInt)) ∧ GivesE (.bMax d a b) s d (BitVec.ofInt 64 (max x.toInt y.toInt)) ∧
    GivesE (.bAddi d a imm) s d (x + z) ∧ GivesE (.bAndi d a imm) s d (x &&& z) ∧ GivesE (.bOri d a imm) s d (x ||| z) ∧
    GivesE (.bXori d a imm) s d (x ^^^ z) ∧ GivesE (.bLui d imm) s d (BitVec.ofInt 64 (imm.toInt * 65536)) ∧
    GivesE (.bShli d a sh) s d (BitVec.ofNat 64 (x.toNat * 2 ^ sh.toNat)) ∧
    Gives (.bBeq a b imm) s (go (x == y)) ∧ Gives (.bBne a b imm) s (go (x != y)) ∧
    Gives (.bBlt a b imm) s (go (decide (x.toInt < y.toInt))) ∧ Gives (.bBge a b imm) s (go (decide (y.toInt ≤ x.toInt))) ∧
    Gives (.bBltu a b imm) s (go (decide (x.toNat < y.toNat))) ∧ Gives (.bBgeu a b imm) s (go (decide (y.toNat ≤ x.toNat))) ∧
    Gives (.bJ off) s { s with bi := { s.bi with pc := s.bi.pc + BitVec.ofInt 32 (4 * off.toInt) } } ∧
    eReg s.bi 0 = 0 ∧ (∀ v i, eReg (setE d.toNat v s.bi) i = if i = d.toNat ∧ d ≠ 0 then v else eReg s.bi i)

/-- R185, R402, R404: row access. A row is opened from the window; loads read the slot; a store changes the slot and the row in memory
alike, and no other byte; RRED combines the row with four vector registers. A failed check is a fault of the instance, which reports the offset in the window (R230); a
sector whose check fails is poisoned at home by the read that finds it (R187, R420). -/
def Obligations.BallastRows : Prop :=
  ∀ (s : State) (d a : BitVec 5) (y sz ty : BitVec 2) (imm : BitVec 12) (z : BitVec 4) (op : BitVec 3) (o n pa : Nat) (r : RowSlot),
    o = ((eReg s.bi a.toNat).toNat + imm.toNat) % 2 ^ 64 → n = (if sz = 2 then 8 else 4) → r = ySlot s.bi y.toNat → pa = s.bi.wpa + r.off →
    (o % 1024 ≠ 0 → Gives (.ropen y a imm) s (ballastFault s .align o)) ∧
    (o % 1024 = 0 → s.bi.wlen ≤ o → Gives (.ropen y a imm) s (ballastFault s .handleBound o)) ∧
    (o % 1024 = 0 → o < s.bi.wlen → anyPoison s (s.bi.wpa + o) 1024 = true →
      Gives (.ropen y a imm) s (ballastFault (testRange s (s.bi.wpa + o) 1024) .poison o)) ∧
    (o % 1024 = 0 → o < s.bi.wlen → anyPoison s (s.bi.wpa + o) 1024 = false → ∃ q, GivesB (.ropen y a imm) s (setY y.toNat q) ∧
      q.isOpen = true ∧ q.off = o ∧ ∀ j, j < 1024 → q.data.extractLsb' (8 * j) 8 = memRead s (s.bi.wpa + o + j)) ∧
    (r.isOpen = false → ∀ i ∈ [Instr.ldy d y a imm sz, .sty d y a imm sz, .vldy z y a imm, .vsty z y a imm, .rred y z op ty],
      Gives i s (ballastFault s .formatInvalid 0)) ∧
    (r.isOpen = true → 1024 < o + n → ∀ i ∈ [Instr.ldy d y a imm sz, .sty d y a imm sz],
      Gives i s (ballastFault s .handleBound (r.off + o))) ∧
    (r.isOpen = true → o + n ≤ 1024 → o % n ≠ 0 → ∀ i ∈ [Instr.ldy d y a imm sz, .sty d y a imm sz],
      Gives i s (ballastFault s .align (r.off + o))) ∧
    (r.isOpen = true → o + n ≤ 1024 → o % n = 0 →
      (∃ v, GivesE (.ldy d y a imm sz) s d v ∧ (∀ j, j < 8 * n → v.getLsbD j = r.data.getLsbD (8 * o + j)) ∧
        (∀ j, 8 * n ≤ j → j < 64 → v.getLsbD j = (sz == 1 && r.data.getLsbD (8 * o + 31)))) ∧
      (∃ t q, Gives (.sty d y a imm sz) s t ∧ t.bi = { setY y.toNat q s.bi with pc := s.bi.pc + 4 } ∧ q.isOpen = true ∧ q.off = r.off ∧
        (∀ j, j < 1024 → q.data.extractLsb' (8 * j) 8 = if o ≤ j ∧ j < o + n
          then (eReg s.bi d.toNat).extractLsb' (8 * (j - o)) 8 else r.data.extractLsb' (8 * j) 8) ∧
        (∀ i, memRead t i = if pa + o ≤ i ∧ i < pa + o + n then (eReg s.bi d.toNat).extractLsb' (8 * (i - (pa + o))) 8 else memRead s i))) ∧
    (r.isOpen = true → 1024 < o + 256 → ∀ i ∈ [Instr.vldy z y a imm, .vsty z y a imm],
      Gives i s (ballastFault s .handleBound (r.off + o))) ∧
    (r.isOpen = true → o + 256 ≤ 1024 → o % 4 ≠ 0 → ∀ i ∈ [Instr.vldy z y a imm, .vsty z y a imm],
      Gives i s (ballastFault s .align (r.off + o))) ∧
    (r.isOpen = true → o + 256 ≤ 1024 → o % 4 = 0 →
      (∃ v : ZReg, GivesB (.vldy z y a imm) s (setZ z.toNat v) ∧ ∀ j, j < 2048 → v.getLsbD j = r.data.getLsbD (8 * o + j)) ∧
      (∃ t q, Gives (.vsty z y a imm) s t ∧ t.bi = { setY y.toNat q s.bi with pc := s.bi.pc + 4 } ∧ q.isOpen = true ∧ q.off = r.off ∧
        (∀ j, j < 1024 → q.data.extractLsb' (8 * j) 8 = if o ≤ j ∧ j < o + 256
          then (zReg s.bi z.toNat).extractLsb' (8 * (j - o)) 8 else r.data.extractLsb' (8 * j) 8) ∧
        (∀ i, memRead t i = if pa + o ≤ i ∧ i < pa + o + 256
          then (zReg s.bi z.toNat).extractLsb' (8 * (i - (pa + o))) 8 else memRead s i))) ∧
    (r.isOpen = true → anyPoison s pa 1024 = true →
      Gives (.rred y z op ty) s (ballastFault (testRange s pa 1024) .poison r.off)) ∧
    (r.isOpen = true → anyPoison s pa 1024 = false → ∃ t q, Gives (.rred y z op ty) s t ∧
      t.bi = { setY y.toNat q s.bi with pc := s.bi.pc + 4 } ∧ q.isOpen = true ∧ q.off = r.off ∧
      (∀ j, j < 1024 → q.data.extractLsb' (8 * j) 8 = memRead t (pa + j)) ∧
      (∀ j, j < 256 → BitVec.ofNat 32 (memNat t (pa + 4 * j) 4) =
        rredWord op ty (BitVec.ofNat 32 (memNat s (pa + 4 * j) 4)) (laneOf (zReg s.bi (z.toNat + j / 64)) (j % 64))) ∧
      (∀ i, i < pa ∨ pa + 1024 ≤ i → memRead t i = memRead s i))

/-- R403, R405, R195, R196: the vector instructions of Lamesque-B lane by lane, KPOST, YIELDB and ENDB. -/
def Obligations.BallastVectors : Prop :=
  ∀ (s : State) (d a b : BitVec 4) (e : BitVec 5) (ty : BitVec 2) (op : BitVec 3) (c : BitVec 8) (A B : Nat → BitVec 32),
    A = bLane s a → B = bLane s b →
    GivesZ (.bVadd d a b ty) s d (fun l => if ty = 2 then r32 0 (fadd 0 (f32 (A l)) (f32 (B l))) else A l + B l) ∧
    GivesZ (.bVsub d a b ty) s d (fun l => if ty = 2 then r32 0 (fadd 0 (f32 (A l)) (fneg (f32 (B l)))) else A l - B l) ∧
    GivesZ (.bVmul d a b ty) s d (fun l => if ty = 2 then r32 0 (fmul (f32 (A l)) (f32 (B l))) else A l * B l) ∧
    (ty = 0 → GivesZ (.bVmin d a b ty) s d (fun l => if (A l).toInt < (B l).toInt then A l else B l) ∧
      GivesZ (.bVmax d a b ty) s d (fun l => if (A l).toInt < (B l).toInt then B l else A l)) ∧
    (ty = 1 → GivesZ (.bVmin d a b ty) s d (fun l => if (A l).toNat < (B l).toNat then A l else B l) ∧
      GivesZ (.bVmax d a b ty) s d (fun l => if (A l).toNat < (B l).toNat then B l else A l)) ∧
    (ty = 2 → GivesZ (.bVmin d a b ty) s d (fun l => fminmax false (A l) (B l)) ∧
      GivesZ (.bVmax d a b ty) s d (fun l => fminmax true (A l) (B l))) ∧
    GivesZ (.bVand d a b) s d (fun l => A l &&& B l) ∧ GivesZ (.bVor d a b) s d (fun l => A l ||| B l) ∧
    GivesZ (.bVxor d a b) s d (fun l => A l ^^^ B l) ∧
    GivesZ (.vbc d e) s d (fun _ => (eReg s.bi e.toNat).setWidth 32) ∧ GivesZ (.bViota d) s d (fun l => BitVec.ofNat 32 l) ∧
    (∃ y, GivesE (.bVred e a op ty) s e y ∧
      (op = 0 → ty = 0 → y = BitVec.ofInt 64 ((List.range 64).map (fun l => (A l).toInt)).sum) ∧
      (op = 0 → ty = 1 → y = BitVec.ofNat 64 ((List.range 64).map (fun l => (A l).toNat)).sum) ∧
      (op = 2 → ty = 0 → (∃ l, l < 64 ∧ y = (A l).signExtend 64) ∧ ∀ l, l < 64 → (A l).toInt ≤ y.toInt) ∧
      (op = 1 → ty = 1 → (∃ l, l < 64 ∧ y = (A l).setWidth 64) ∧ ∀ l, l < 64 → y.toNat ≤ (A l).toNat)) ∧
    (∀ l f, l < 64 → laneOf (mkZ f) l = f l) ∧
    ((launchOf s s.bi.launch).bind (fun l => l.from_) = none → GivesB (.kpost e c) s id) ∧
    (∀ l g, (launchOf s s.bi.launch).bind (fun l => l.from_) = some (l, g) →
      Gives (.kpost e c) s { addFlagTo s l g e.toNat c.toNat with bi := { s.bi with pc := s.bi.pc + 4 } }) ∧
    (32 ≤ tget 0 s.bsave (stackHere s) ∨ (∀ w ∈ waitList s (stackHere s), w.prio < s.bi.prio) → GivesB .yieldb s id) ∧
    (∀ n t, tget 0 s.bsave (stackHere s) < 32 → (∃ w ∈ waitList s (stackHere s), s.bi.prio ≤ w.prio) →
      takeWaiting (saveInst s (stackHere s) { s.bi with pc := s.bi.pc + 4 } false) (stackHere s) = some (n, t) →
      Gives .yieldb s { t with bi := n }) ∧
    Gives .endb s { s with
      bi := BInst.none, launches := s.launches.map (fun l => if l.id == s.bi.launch then { l with ended := l.ended + 1 } else l) }

/-! Events. Nothing is focused and the device takes requests: only then does an event happen. -/

/-- The events of threads and cores: R16, R129, R139, R150, R308, R334, R339, R362 (what a thread waits for has come), R25, R224, R235 to
R237 (roll-backs, the kill of a runaway), R140, R144, R167, R171, R175 (engines), R45, R46, R55, R239 (a group starts, ends, is saved).
Three clauses are the model's choices: PARK_EXPIRY may come at any moment (log entries 10 and 35), and a matrix operation is performed
whole at its retirement (log entry 51). -/
def Obligations.CoreEvents : Prop :=
  ∀ (s u c r : State) (co cx : Nat), s.cur = .none → s.power = .on → c = focusCore s co → u = focusTh s co cx → r = rollback u →
    (threadIs s co cx = true →
      (∀ ix e q w, loadAtIx u.th ix = some (e, q) → loadReady u cx ix = true → w = asReader u (loadTag u e q) →
        (∀ v bs z, (∀ va b n, q.fin ≠ .walk va b n) → (∀ k, q.fin ≠ .pref k) →
          z = touchAll (tested (copiesRead w cx q.cls (e.pos, q.slot)) q.srcs) q.srcs → takeAll z q.cls q.cached q.srcs = .bytes v bs →
          Gives (.loadValueArrival co cx ix) s (unfocus { v with th := { v.th with
            pend := arriveIn e (finVal q.fin bs) v.th.pend,
            ckpt := { v.th.ckpt with pend := arriveIn e (finVal q.fin bs) v.th.ckpt.pend } } })) ∧
        (∀ x va b n pa lv leaf dev, q.fin = .walk va b n → x = testWalk w (rootOf w w.grp.image) va →
          walk x (rootOf x x.grp.image) b va = .page pa lv leaf dev →
          Gives (.loadValueArrival co cx ix) s (unfocus (arrived (spent x) e (.h (pageHandle x va pa lv leaf dev)))))) ∧
      (∀ ix x, u.grp.tld.drop ix = x :: u.grp.tld.drop (ix + 1) → tldReady u cx ix = true → x.ring = none →
        (∀ v bs, takeAll (copiesRead (asReader u (tldTag u x)) cx x.cls (x.pos, x.slot)) x.cls true x.src = .bytes v bs → ∃ g, Gives (.tldLanding co cx ix) s (unfocus { v with grp := g }) ∧
          g.tld = v.grp.tld.take ix ++ v.grp.tld.drop (ix + 1) ∧ g.flags = v.grp.flags ∧
          (∀ a, a ∉ x.dst → tget 0 g.scratch a = tget 0 v.grp.scratch a) ∧
          (x.dst.Nodup → x.dst.length = bs.length → ∀ i, i < bs.length → tget 0 g.scratch (x.dst.getD i 0) = bs.getD i 0))) ∧
      (∀ f, u.th.fbusy.getLsbD f = true → Gives (.frontBusyEnd co cx f) s
        (unfocus { u with th := { u.th with fbusy := u.th.fbusy &&& ~~~BitVec.ofNat 8 (2 ^ f) } })) ∧
      (∀ f, u.th.fault = some f → windowBusy u cx = false → windowLoads u.th = false → Gives (.windowRollback co cx) s
        (unfocus (windowRollback u))) ∧
      (u.th.intr = true → u.th.defer = false → u.th.insys = false → u.th.fault = none → windowBusy u cx = false →
        (65536 ≤ u.th.idist → u.th.marking < 2 → Gives (.interruptDistanceRollback co cx) s (unfocus { r with th := { r.th with
          run := .stopped, intr := false, idist := 0, defer := true, deferN := 0 } })) ∧
        (blockedOpen u.th = true → Gives (.blockedInterruptRollback co cx) s (unfocus { r with th := { r.th with
          run := .stopped, intr := false, idist := 0, defer := false, deferN := 0 } }))) ∧
      (u.th.intr = true → u.th.defer = true ∨ u.th.insys = true → 16777216 ≤ u.th.deferN → ∃ x, x.kind = 4 ∧ x.code = 0 ∧ x.thr = cx ∧
        x.launch = u.grp.launch ∧ x.group = u.grp.index ∧ Gives (.runawayKill co cx) s (tellKills s (killLaunch s x))) ∧
      (u.th.run = .relWait → relReady u u.core.fifo cx = true → ∃ q, (∀ e, e ∈ q ↔ e ∈ u.core.fifo ∧ ∀ m sc, e ≠ .marker cx m sc) ∧
        Gives (.relCompletion co cx) s (unfocus (markThree { u with core := { u.core with fifo := q } }))) ∧
      (∀ n, u.th.run = .walking n → n % 3 = 0 → heldBack u.th = false →
        Gives (.walkRetry co cx) s (unfocus { u with th := { u.th with run := .walking (n + 1) } })) ∧
      (u.th.run = .waitge → heldBack u.th = false → Gives (.waitgeReread co cx) s (unfocus { u with th := { u.th with run := .ready } })) ∧
      (u.th.run = .parked → heldBack u.th = false → Gives (.parkExpiry co cx) s (unfocus { u with th := { u.th with run := .ready } }))) ∧
    (∀ g, groupAt s co = some g →
      (∀ ch k, tfind c.grp.ch ch = some k → copyReady c ch k = true → Gives (.copyCompletion co ch) s (unfocus (copyDone c ch))) ∧
      (∀ q, shuntReady c q = true → Gives (.shuntCompletion co q) s (unfocus (shuntDone c q))) ∧
      (∀ q o l, c.grp.mx = (q, o) :: l →
        (mxReady c = true →
          Gives (.mxOperationStart co) s (unfocus { c with grp := { c.grp with mx := (q, { o with started := true }) :: l } })) ∧
        (o.started = true → Gives (.mxOperationRetire co) s (unfocus (mxPerform { c with grp := { c.grp with mx := l } } o)))) ∧
      (∀ v h, v = onCore s co drainAll → groupAt v co = some h → (coreAt v co).fifo = [] →
        (g.saving = true → g.halted = false → saveReady (coreAt s co) = true → shootsActed s = true →
          Gives (.groupSave co) s (releaseCore (putSaved v h false) co)) ∧
        (∀ w l, endReady (coreAt s co) = true → w = partOver (releaseCore v co) h → launchOf w h.launch = some l →
          (l.killed = false → Gives (.groupEnd co) s
            (launchEnd (setLaunch w h.launch (fun l => { l with ended := l.ended + 1 })) h.launch)) ∧
          (l.killed = true → Gives (.groupEnd co) s (killDone w h.launch))))) ∧
    (∀ l ∈ dirtyLines (coreAt s co), Gives (.coreArrayWriteback co l) s
      (onArray s co (fun v => cleanLine v (l / 2 ^ 40) (l % 2 ^ 40) false))) ∧
    (∀ e l k, headOf s co = some e → e.gang = false → e.saved = false → groupAt s co = none → liveCore s co = true →
      launchOf s e.launch = some l → k = kernelOf s l.image l.kidx → planesFit s (startPlanes s [(co, e)]) = true →
      ∃ t g, Gives (.groupStart co) s t ∧ groupAt t co = some g ∧ g.index = e.index ∧ g.launch = e.launch ∧ g.kern = k ∧
        (coreAt t co).plat = (coreAt s co).plat.drop 1 ∧ (coreAt t co).claim = 0 ∧ SameMem s t ∧
        ∀ i, i < k.threads → ∃ x, tfind g.ths i = some x ∧ x.run = .ready ∧ x.pc = BitVec.ofNat 64 k.seg.entry ∧
          x.pos = 0 ∧ x.p = 1 ∧ x.h = [] ∧ x.v = [] ∧ x.gate = [] ∧ x.fmt = 0x0A083300 ∧
          ∀ j, j < 64 → sReg x j = if j = 1 then BitVec.ofNat 64 l.arg0 else if j = 2 then BitVec.ofNat 64 l.arg1
            else if j = 3 then BitVec.ofNat 64 l.groups else 0)

/-- The package's own units. While the device runs: R63, R65 to R69 (ageing, batches, staging, thresholds), R225 to R232 (the
stationmaster), R119 to R121 (the partitions), R191 to R193, R198 (the ballast dispatchers), R210 (the Fitter's jobs), R428 (idling). In
idle too: R257 to R260 (retransmission, time limits, a device cut off), R421, R430 (health, heat). Under any power: R430's trip. These are
the model's choices: a free bit says whether a launch or a group that has not aged before ages (log entry 38), and every group on a
platform (69); a free bit says whether a flit that fails is the one in hand at its port (82); ranks fenced at the time limit join the
count of fenced ranks (58); a unit put out of service starts its streak again (32); the eighth failed send takes a port a step down, and
a device cut off kills its set launches with KIND 0 and DEVICE_FENCED (42); while a job holds an image no ballast launch of it that has not
taken effect does (71). -/
def Obligations.UnitEvents : Prop :=
  ∀ s : State, s.cur = .none →
    (s.power = .on →
    (∀ id, ∃ t, Gives (.launchAgeing id) s t ∧ SameMem s t ∧
      (∀ l, launchOf s id = some l → ∃ b : Bool,
        launchOf t id = some (if l.ready = true ∧ l.ballast = false ∧ l.handed < localGroups s l then
          (if l.aged = true ∨ b = true then { l with prio := if l.prio < 6 then l.prio + 1 else l.prio, waited := l.waited + 1, aged := true }
            else { l with aged := true }) else l)) ∧
      ∃ f : Staged → Bool, ∀ age : Bool → Staged → Staged, (∀ sure e, age sure e = if e.launch ≠ id then e
          else if sure = true ∧ e.aged = true ∨ f e = true then
            { e with prio := if e.prio < 6 then e.prio + 1 else e.prio, waited := e.waited + 1, aged := true } else { e with aged := true }) →
        (∀ co, (coreAt t co).plat = (coreAt s co).plat.map (age false)) ∧ (∀ d, (boxAt t d).recv = (boxAt s d).recv.map (age true)) ∧
        t.returned = s.returned.map (fun e => if agesBack s e then age true e else e)) ∧
    (∀ t, yardStep s = some t → Gives .yardBatchDispatch s t) ∧
    (∀ d t, stageStep s d = some t → Gives (.groupStaging d) s t) ∧
    (∀ k n mean, k < 16 → ∃ t, Gives (.dispatchThresholdAdapt k n mean) s t ∧ SameMem s t ∧
      ∀ d c, c < 4 → colThr t d c = if 4 * d + c = k ∧ n ≠ 0 then (if mean < 4 then min (colThr s d c + 1) 16
        else if 16 < mean then max (colThr s d c - 1) 4 else colThr s d c) else colThr s d c) ∧
    (∀ r l x v, s.reports = r :: l → v = { s with reports := l } →
      (r.kind = 2 → Gives .stationmasterFaultHandling s (tellKills s (tellPreempt (recordKill v r)))) ∧
      (r.kind ≠ 2 → launchOf s r.launch = some x → x.killed = false → Gives .stationmasterFaultHandling s
        (tellKills s (tellPreempt (if hostFault v r then awaitHost v r else killLaunch v r))))) ∧
    (∀ r l p v, s.awaitQ = r :: l → fqFull s.regs = false → p = s.regs.fqProd →
      v = homeStore { s with awaitQ := l } (s.regs.qbase + 64 * (p % 256)) (recordBytes p 0 r) →
      Gives .faultRecordDeferredWrite s { v with
        regs := { v.regs with fqProd := (p + 1) % 2 ^ 32 }, awaiting := v.awaiting ++ [(p, r)] }) ∧
    (∀ k p q (w : BitVec 64), k < 512 → p = tget Spway.init s.spway k → q = w.toNat % 16 →
      (p.pass = false → q < p.cur → Gives (.spwayReqWrite k w) s
        (clearRange { s with spway := tset Spway.init s.spway k { p with req := q, cur := q, busy := true } }
          (spBase k q) ((p.cur - q) * 2 ^ 20))) ∧
      (p.pass = false → p.cur ≤ q → Gives (.spwayReqWrite k w) s
        { s with spway := tset Spway.init s.spway k { p with req := q, busy := decide (p.cur < q) } }) ∧
      (p.busy = true → p.cur < p.req → Gives (.spwayWayComplete k) s
        (clearRange { s with spway := tset Spway.init s.spway k { p with cur := p.cur + 1 } } (spBase k p.cur) (2 ^ 20))) ∧
      (p.busy = true → p.cur = p.req → Gives (.spwayChangeComplete k) s
        { s with spway := tset Spway.init s.spway k { p with busy := false } })) ∧
    (∀ id l u, launchOf s id = some l → enqueueReady s l = true → u = testWalk (asReader s [5, id]) (rootOf s l.image) l.arg0 →
      (∀ pa n, windowAt u l.image false l.arg0 = .window pa n →
        Gives (.ballastLaunchEnqueue id) s (ballastTake (readDone u [5, id]) id pa n ((stackOf u pa).getD 0))) ∧
      (∀ st m, windowAt u l.image false l.arg0 = .none st → m = { l with killed := true, took := true, tries := 0 } →
        Gives (.ballastLaunchEnqueue id) s (ballastEnd (setLaunch (refuse (readDone u [5, id]) l.mbox 9) id (fun _ => m)) m))) ∧
    (∀ st b v, ballastStartReady s st = true → takeWaiting s st = some (b, v) →
      (∀ bc, freeBcore s st = some bc → Gives (.ballastInstanceStart st) s { v with bcores := tset BInst.none v.bcores bc b }) ∧
      (∀ bc m, freeBcore s st = none → ballastVictim s st = some (bc, m) →
        Gives (.ballastInstanceStart st) s (saveInst { v with bcores := tset BInst.none v.bcores bc b } st m true))) ∧
    (∀ st id ix, ∃ t, Gives (.ballastAgeing st id ix) s t ∧ t.bcores = s.bcores ∧ SameMem s t ∧
      tget [] t.bwait st = (tget [] s.bwait st).map (fun b => if b.launch = id ∧ b.index = ix then
        { b with waited := b.waited + 1, prio := if b.prio < 6 then b.prio + 1 else b.prio } else b)) ∧
    (∀ id l u v w, launchOf s id = some l → ballastOver l = true →
      u = testWalk (asReader s [5, l.id]) (rootOf s l.image) l.doneAddr →
      rootAdd u (rootOf s l.image) l.doneAddr (l.doneInc + if l.killed then 2 ^ 63 else 0) = .done w → v = readDone w [5, l.id] →
      Gives (.ballastLaunchCompletion id) s
        (dropLaunch (if l.evt then postEvent v (plainEvent 1 l.mbox l.image l.kidx) else v) l.id)) ∧
    (∀ j l b u w root im bs r, s.jobs = j :: l → (∀ x ∈ s.readWait, x.2.2.2 ≠ [6]) → j.result = none → b = { j with begun := true } →
      u = { s with jobs := b :: l } → w = asReader u [6] → root = boundRoot s j.mbox →
      (∀ z, j.job = 1 → vaBytes w root j.src j.srcLen = .got bs →
        z = testVa { w with jobs := phaseJob 1 b :: l } root j.src j.srcLen →
        Gives .install s (jobEnd z (installJob z (phaseJob 1 b) bs) (phaseJob 1 b))) ∧
      (jobImage s j = some im → im.hold = true → imageBusy s im.num = false →
        (∀ z, j.job = 2 → vaBytes w root j.src j.srcLen = .got bs → z = testVa { w with jobs := phaseJob 1 b :: l } root j.src j.srcLen →
          updateJob z (phaseJob 1 b) im bs = .got r →
          Gives .partialUpdate s (jobEnd z (setHold r.1 im.num false, r.2) (phaseJob 1 b))) ∧
        (∀ z q, z = { w with jobs := phaseJob 1 b :: l } → q = phaseJob 1 { b with srcLen := 0 } →
          ∀ e ∈ [(3, Instr.exportJob, exportOf z q im []), (4, .retime, retimeJob z q im []), (5, .uninstall, uninstallJob z q im [])],
            j.job = e.1 → e.2.2 = .got r → Gives e.2.1 s (jobEnd z (setHold r.1 im.num false, r.2) q))) ∧
      (∀ e ∈ [(2, Instr.partialUpdate), (3, .exportJob), (4, .retime), (5, .uninstall)], j.job = e.1 →
        (jobImage s j = none → Gives e.2 s (jobEnd w (w, jobBad (11, 0)) b)) ∧
        (jobImage s j = some im → im.hold = false → Gives e.2 s (setHold u im.num true)))) ∧
    (∀ j l st img u v, s.jobs = j :: l → (∀ x ∈ s.readWait, x.2.2.2 ≠ [6]) → j.result = some (st, img) →
      (∀ x ∈ j.waits, s.wacks.contains x = false) → u = testWalk (asReader s [6]) (boundRoot s j.mbox) j.done →
      rootAdd u (boundRoot s j.mbox) j.done (((if st = 0 then 0 else 2 ^ 63) + j.doneInc) % 2 ^ 64) = .done v →
      ∀ e ∈ [(1, Instr.install), (2, .partialUpdate), (3, .exportJob), (4, .retime), (5, .uninstall)], j.job = e.1 →
        Gives e.2 s (jobOver (readDone v [6]) j)) ∧
    (noWork s = true → Gives .idleEntry s { s with power := .idle })) ∧
    (awake s = true →
    (∀ port n, port < 12 → n = (if Config.freeBit s.freeCtr then tget 0 s.linkFails port else 0) →
      (n < 7 → Gives (.flitRetransmit port) s { s with freeCtr := s.freeCtr + 1, linkFails := tset 0 s.linkFails port (n + 1) }) ∧
      (7 ≤ n → Gives (.flitRetransmit port) s
        (portDown { s with freeCtr := s.freeCtr + 1, linkFails := tset 0 s.linkFails port 0 } port))) ∧
    (∀ id x v, s.shoots.find? (fun y => y.id == id && y.init != ownRank s) = some x →
      v = sendFlit s x.init 6 0 id (ackPayload x x.acks) →
      Gives (.shootDownSubtreeTimeout id) s (setShoot v x.init id (fun y => if x.acted then none else some { y with late := true }))) ∧
    (∀ id x bad v, shootOf s (ownRank s) id = some x → bad = (shootMissing s x).filter (fun r => r != ownRank s) →
      v = setShoot s x.init id (fun y => some { y with fenced := y.fenced + bad.length }) →
      Gives (.shootDownFenceTimeout id) s (settleShoots (bad.foldl (fun v d => tellFence (fenceRank v d) d) v))) ∧
    (s.regs.inset = true → Gives .deviceCut s (killSet (cutAll s))) ∧
    (∀ cls unit n k u, unit < healthUnits cls → k = 4096 * cls + unit → u = (tfind s.units k).getD { hist := [], streak := 0 } →
      (n ≤ healthT cls u.hist → Gives (.healthInterval cls unit n) s
        (tellPreempt { s with units := tput s.units k { hist := n :: u.hist, streak := 0 } })) ∧
      (healthT cls u.hist < n → u.streak < 2 → Gives (.healthInterval cls unit n) s
        (tellPreempt { s with units := tput s.units k { hist := n :: u.hist, streak := u.streak + 1 } })) ∧
      (healthT cls u.hist < n → 2 ≤ u.streak → unitOut s cls unit = false → Gives (.healthInterval cls unit n) s
        (tellPreempt (unitDown { s with units := tput s.units k { hist := n :: u.hist, streak := 0 } } cls unit))) ∧
      (healthT cls u.hist < n → 2 ≤ u.streak → unitOut s cls unit = true → Gives (.healthInterval cls unit n) s
        (tellPreempt { s with units := tput s.units k { hist := n :: u.hist, streak := u.streak + 1 } }))) ∧
    (∃ m, 1300 ≤ m ∧ (m < s.clock ∨ m = 1300) ∧ Gives .thermalThrottle s { tick s with clock := m }) ∧
    (s.clock = 1300 → Gives .thermalWarning s (postEvent s { plainEvent 4 0xFF 0 0 with ref := 15 * 2 ^ 12 })) ∧
    (s.power = .idle → Gives .idleWake s { s with power := .on })) ∧
    (s.power ≠ .off → ∃ t, Gives .thermalTrip s t ∧ t.power = .off ∧ t.out = s.out ++ [.linkDown] ∧ t.mem = [] ∧ t.launches = [] ∧
      t.fuses = s.fuses)

/-- The coupler, sets and enclaves: R253 (a set forms), R255 to R257, R420 (reads, writes and atomics at home for another device), R258 to
R260 (shoot-downs, fences), R171, R172 (flags and collectives), R256 (set launches), R264 to R272 (enclaves), R263 (SPDM: Busy before the
device is ready; then each request in its order is answered and joins the channel's transcript). A flit for the device wakes it; any
other leaves it as it was. These are the model's choices: the byte layouts of the flits' payloads (log entry 40); admission as one event,
and the messages between members that the spec leaves to their standards (20); END_SESSION closes the channel's latest session, and
whether FINISH's verify data hold is a free bit (44); whether a read answer travels compressed is a free bit (82). -/
def Obligations.CouplerEvents : Prop :=
  ∀ (s w : State), s.cur = .none → w = wake s →
    (awake s = true →
      (∀ rank n encl, 2 ≤ n → n ≤ 1024 → rank < n → ∃ t, Gives (.setFormation rank n encl) s t ∧ SameMem s t ∧
        t.regs = { s.regs with rank := rank, ndev := n - 1, inset := true, encl := encl, cut := false, fences := [] } ∧
        t.encl.epoch = 0 ∧ t.encl.conf = [] ∧ t.encl.oseq = none ∧ t.encl.coord = 0 ∧ t.encl.policy = s.encl.policy) ∧
      (∀ f sec v bs, flitOk w f 0 = true → sec = f.addr / 64 → v = tick (testSec w sec) →
        bs = (if saddleOut s (64 * sec) || !inMap s (64 * sec) then [0] else if isPoisoned s f.addr then [] else memBytes s (64 * sec) 64) →
        (Config.freeBit s.freeCtr = false ∨ bs.length ≠ 64 →
          Gives (.readRequestFlit f) s (sendFlit v f.src 1 (f.cls % 16) (64 * sec) bs)) ∧
        (∀ g, Config.freeBit s.freeCtr = true → bs.length = 64 → compressSector (Config.marker (sec / 4)) bs = some g →
          Gives (.readRequestFlit f) s (sendFlit v f.src 1 (f.cls % 16 + 16) (64 * sec) g))) ∧
      (∀ f c k tag bs hit, flitOk w f 1 = true → f.data.length ≠ 11 → bs = (if f.cls.testBit 4 then expandSector f.data else f.data) →
        hit = (fun (x : Nat × Nat × Nat × List Nat) => x.1 == f.src && x.2.1 == f.addr / 64) → s.readWait.find? hit = some (c, k, tag) →
        ∃ t, Gives (.readDataFlit f) s t ∧ SameOutside s t ∧ (tag.2 ≠ [] → (f.src, f.addr / 64, tag.2, bs) ∈ t.rdata) ∧
          ((f.src, f.addr / 64) ∈ t.farPoison ↔ bs = []) ∧
          t.readWait = dropFirst hit s.readWait) ∧
      (∀ f k, flitOk w f 2 = true → k = f.addr / 64 → saddleOut s (64 * k) = false → inMap s (64 * k) = true →
        (f.data = [] → Gives (.writeFlit f) s (sendFlit (poisonSec w k) f.src 3 f.cls (64 * k) [])) ∧
        (f.data ≠ [] → Gives (.writeFlit f) s (sendFlit (homeWrite w k (BitVec.ofNat 64 (leNat (f.data.take 8)))
          (BitVec.ofNat 512 (leNat (f.data.drop 8)))) f.src 3 f.cls (64 * k) []))) ∧
      (∀ f, flitOk w f 3 = true → ∃ v, Gives (.writeAcknowledgeFlit f) s (shootActed v) ∧ SameMem s v ∧
        v.wacks = dropFirst (fun x => x == (f.src, f.addr / 64)) s.wacks) ∧
      (∀ f n old, flitOk w f 4 = true → f.data.take 2 = [0, BitVec.ofNat 8 n] → f.data.length = 18 → n = 4 ∨ n = 8 →
        isPoisoned s f.addr = false → saddleOut s f.addr = false → inMap s f.addr = true → old = memNat s f.addr n →
        Gives (.atomicOrNmrFlit f) s (noticeCounter (homeStore w f.addr
          (leBytes ((old + leNat ((f.data.drop 2).take 8) % 2 ^ (8 * n)) % 2 ^ (8 * n)) n)) (f.addr / 8 * 8))) ∧
      (∀ f, flitOk w f 4 = true → leNat (f.data.take 1) < 16 → f.data.length = 20 →
        (saddleOut s f.addr = true ∨ inMap s f.addr = false → Gives (.atomicOrNmrFlit f) s
          (sendFlit (testSec w (f.addr / 64)) f.src 1 f.cls f.addr (f.data.drop 18 ++ leBytes 2 1 ++ leBytes 0 8))) ∧
        (saddleOut s f.addr = false → inMap s f.addr = true → isPoisoned s f.addr = true → Gives (.atomicOrNmrFlit f) s
          (sendFlit (testSec w (f.addr / 64)) f.src 1 f.cls f.addr (f.data.drop 18 ++ leBytes 1 1 ++ leBytes 0 8)))) ∧
      (∀ f, flitOk w f 5 = true → ∃ x, Gives (.shootDownFlit f) s
          (shootActed { w with shoots := w.shoots ++ [x] }) ∧ x.init = f.src ∧ x.acted = false ∧ x.rolled = false ∧
        x.id = leNat (f.data.take 8) ∧ x.lo = leNat ((f.data.drop 8).take 8) ∧ x.len = leNat ((f.data.drop 16).take 8) ∧
        x.image = leNat ((f.data.drop 24).take 2)) ∧
      (∀ f id init l, flitOk w f 6 = true → id = leNat (f.data.take 8) → init = leNat ((f.data.drop 8).take 2) →
        l = (bitRanks (f.data.drop 10)).filter (fun r => !isFenced s r) → Gives (.shootDownAcknowledgeFlit f) s
          (shootStep (setShoot w init id (fun x => some { x with acks := l.foldl (fun l r => insNat r l) x.acks })) init id)) ∧
      (∀ f, flitOk w f 7 = true → Gives (.collectiveFlit f) s (collFlit w f)) ∧
      (∀ f id, flitOk w f 9 = true → ofKey s (leNat ((f.data.drop 2).take 8)) = some id → Gives (.flagAdditionFlit f) s
        (addFlagTo w id (leNat ((f.data.drop 10).take 4)) (leNat (f.data.take 1) % 32) (leNat ((f.data.drop 1).take 1)))) ∧
      (∀ f, flitOk w f 10 = true → s.regs.encl = true → Gives (.enclaveControlFlit f) s (enclaveFlit w f)) ∧
      (∀ f, flitOk w f 11 = true → Gives (.setLaunchControlFlit f) s (setFlit w f)) ∧
      (∀ f d, flitOk w f 11 = true → f.data = BitVec.ofNat 8 8 :: (leBytes 0 8 ++ leBytes d 4) → d < 2 ^ 32 →
        Gives (.setLaunchControlFlit f) s (fenceRank w d)) ∧
      (∀ f, 12 ≤ f.kind → (f.dst = ownRank s → Gives (.flitDrop f) s { w with dropped := w.dropped + 1 }) ∧
        (f.dst ≠ ownRank s → Gives (.flitDrop f) s { s with dropped := s.dropped + 1 })) ∧
      (∀ f, f.dst ≠ ownRank s → ∀ i ∈ [Instr.readRequestFlit f, .readDataFlit f, .writeFlit f, .writeAcknowledgeFlit f, .atomicOrNmrFlit f,
          .shootDownFlit f, .shootDownAcknowledgeFlit f, .collectiveFlit f, .flagAdditionFlit f, .enclaveControlFlit f,
          .setLaunchControlFlit f], Gives i s s) ∧
      (∀ r, policyOk r = true → Gives (.enclavePolicy r) s
        (measExtend { w with encl := { w.encl with policy := r, poldig := sha512 r } } 4 (sha512 r))) ∧
      (∀ r m k, s.regs.encl = true → r ≠ s.regs.rank → r ≤ s.regs.ndev → isFenced s r = false → admits s m = true →
        (s.encl.coord = s.regs.rank → r ∉ s.encl.members → s.encl.members.length < numAt s.encl.policy 6 2 →
          Gives (.enclaveAdmission r m k) s (shareKeys (putKey { w with encl := { w.encl with
              members := insNat r w.encl.members, secrets := w.encl.secrets ++ [(r, k)] } }
            { kind := 0, key := partKeyOf k r s.encl.epoch, bind := r + s.encl.epoch * 2 ^ 32 }) r)) ∧
        (s.encl.coord ≠ s.regs.rank → r = s.encl.coord → s.regs.rank ∉ s.encl.members →
          Gives (.enclaveAdmission r m k) s { w with encl := { w.encl with
            members := insNat s.regs.rank (insNat r w.encl.members), secrets := [(s.regs.rank, k)] } })) ∧
      (∀ o p a, s.agenda = .revocationOrder p :: a → nextOrders a = [] → numAt p 4 4 < numAt o 4 4 →
        Gives (.revocationOrder o) s (oneOrder (oneOrder w p) o)) ∧
      (∀ o, s.regs.encl = true → s.regs.inset = true → s.regs.cut = false → (∀ p ∈ nextOrders s.agenda, numAt o 4 4 ≤ numAt p 4 4) →
        (orderOk s o = false → Gives (.revocationOrder o) s w) ∧
        (orderOk s o = true → numAt o 0x48 2 = s.regs.rank → Gives (.revocationOrder o) s (selfRevoked w o)) ∧
        (orderOk s o = true → numAt o 0x48 2 ≠ s.regs.rank → Gives (.revocationOrder o) s (applyOrder w o)))) ∧
    (awake s = true ∨ s.power = .booting → ∀ ch q k, k = chanOf s ch →
      (sysentV s = false → ∀ e ∈ [(0x84, Instr.getVersion ch q), (0xE1, .getCapabilities ch q), (0xE3, .negotiateAlgorithms ch q),
          (0x81, .getDigests ch q), (0x82, .getCertificate ch q), (0x83, .challenge ch q), (0xE0, .getMeasurements ch q),
          (0xE4, .keyExchange ch q), (0xE5, .finish ch q), (0xEC, .endSession ch q)],
        numAt q 1 1 = e.1 → Gives e.2 s (spdmOut w ch [0x12, 0x7F, 3, 0])) ∧
      (sysentV s = true →
        (numAt q 1 1 = 0x84 → Gives (.getVersion ch q) s (spdmAnswer w { k with log := [] } 1 q [0x10, 4, 0, 0, 0, 1, 0, 0x12])) ∧
        (numAt q 1 1 = 0xE1 → k.stage = 2 → Gives (.getCapabilities ch q) s (spdmOut w ch [0x12, 0x7F, 4, 0])) ∧
        (numAt q 1 1 = 0xE1 → k.stage = 1 → ∃ x y, x.length = 1 ∧ y.length = 8 ∧ Gives (.getCapabilities ch q) s
          (spdmAnswer (tick w) k 2 q ([0x12, 0x61, 0, 0, 0] ++ x ++ [0, 0, 0xD6, 2, 0, 0] ++ y))) ∧
        (numAt q 1 1 = 0xE3 → k.stage = 2 → (numAt q 8 4).testBit 10 = true → (numAt q 12 4).testBit 2 = true →
          ∃ x, Gives (.negotiateAlgorithms ch q) s (spdmAnswer w k 3 q x) ∧ x.take 2 = [0x12, 0x63]) ∧
        (numAt q 1 1 = 0x81 → k.stage = 3 → Gives (.getDigests ch q) s (spdmAnswer w k 3 q ([0x12, 1, 0, 1] ++ certDigest))) ∧
        (numAt q 1 1 = 0x82 → k.stage = 3 → numAt q 2 1 % 16 = 0 → numAt q 4 2 ≤ certChain.length →
          ∃ x, Gives (.getCertificate ch q) s (spdmAnswer w k 3 q x) ∧ x.drop 8 = (certChain.drop (numAt q 4 2)).take (numAt q 6 2)) ∧
        (numAt q 1 1 = 0x83 → k.stage = 3 → numAt q 2 1 = 0 → ∃ x y, x.length = 32 ∧
          y = [0x12, 3, 0, 1] ++ certDigest ++ x ++ measSummary s (numAt q 3 1) ++ [0, 0] ∧
          Gives (.challenge ch q) s (spdmAnswer (tick w) k 3 q (y ++ spdmSign (ctxText 0) (k.log ++ q ++ y)))) ∧
        (∀ j, numAt q 1 1 = 0xE0 → k.stage = 3 → numAt q 2 1 = 0 → numAt q 3 1 = j + 1 → j < 8 →
          ∃ x y, x.length = 32 ∧ y = [BitVec.ofNat 8 (j + 1), 1, 67, 0] ++ leBytes (measType j) 1 ++ [64, 0] ++ measBytes s j ∧
            Gives (.getMeasurements ch q) s
              (spdmAnswer (tick w) k 3 q ([0x12, 0x60, 0, 0, 1] ++ leBytes y.length 3 ++ y ++ x ++ [0, 0]))) ∧
        (numAt q 1 1 = 0xE4 → k.stage = 3 → numAt q 3 1 = 0 → s.sess.length < 32 → ∃ id x v, v = spdmAnswer (tick w) k 3 q x ∧
          Gives (.keyExchange ch q) s { v with sess := s.sess ++ [{ chan := ch, id := id + numAt q 4 2 * 2 ^ 16, done := false }] }) ∧
        (numAt q 1 1 = 0xE5 → k.stage = 3 → s.sess.any (fun x => x.chan == ch && !x.done) = true → ∃ v,
          (v = spdmAnswer (tick w) k 3 q [0x12, 0x65, 0, 0] ∧ Gives (.finish ch q) s { v with
              sess := s.sess.map (fun x => if x.chan == ch && !x.done then { x with done := true } else x) }) ∨
          (v = spdmOut (tick w) ch [0x12, 0x7F, 6, 0] ∧ Gives (.finish ch q) s { v with
              sess := s.sess.filter (fun x => !(x.chan == ch && !x.done)) })) ∧
        (∀ a x b, numAt q 1 1 = 0xEC → s.sess = a ++ x :: b → x.chan = ch → x.done = true → (∀ y ∈ b, y.chan ≠ ch ∨ y.done = false) →
          ∃ v, v = spdmAnswer w k k.stage q [0x12, 0x6C, 0, 0] ∧ Gives (.endSession ch q) s { v with sess := a ++ b }) ∧
        (spdmKnown (numAt q 1 1) = false → Gives (.spdmUnsupportedRequest ch q) s (spdmOut w ch [0x12, 0x7F, 7, 0]))))

/-- The host's side: R57 to R59, R62, R129, R189, R208, R426 (messages: each is checked as it comes, waits where a check needs a table of
another device or meets a migrating entry, and later ones wait behind it), R225, R227, R233 (FQRESP), R416, R417 (BAR0), R414 (an
unprotected request), R419, R420 (device memory: the host's writes, and its reads, which carry EP from a poisoned sector). The words a
register takes are those of R59, R417, R309. -/
def Obligations.HostEvents : Prop :=
  ∀ (s w : State), s.cur = .none → w = wake s →
    (∀ mb st m u, mb < 64 → awake s = true → u = asReader w [7] →
      (isJob m = false → ∀ e, e = (if namesBallast s m then Instr.ballastLaunchMessage mb st m else .launchMessage mb st m) →
        (portOpen s mb st = false → Gives e s (badWrite w)) ∧
        (portOpen s mb st = true → s.pend ≠ [] → Gives e s { w with
          pend := s.pend ++ [{ mbox := mb, station := st, msg := m, tries := 0 }] }) ∧
        (portOpen s mb st = true → s.pend = [] →
          (launchCode u mb st m 0 = .ok → ∃ t, Gives e s t ∧ t.launches = s.launches ++ [launchOfMsg u mb st m] ∧
            t.nextId = s.nextId + 1 ∧ SameMem s t ∧
            (depWaits (launchOfMsg u mb st m) = false → t = readDone { u with
              launches := s.launches ++ [launchOfMsg u mb st m], nextId := s.nextId + 1 } [7])) ∧
          (∀ c, launchCode u mb st m 0 = .code c → ∃ t, Gives e s t ∧ t.launches = s.launches ∧ SameMem s t ∧
            (tget Mbox.init t.mbox mb).err = true ∧ (tget Mbox.init t.mbox mb).code = c) ∧
          (∀ d k, launchCode u mb st m 0 = .wait d k → Gives e s { askSector u d k 0 with
            pend := [{ mbox := mb, station := st, msg := m, tries := 0 }] }) ∧
          (launchCode u mb st m 0 = .mig → Gives e s { spent u with
            pend := [{ mbox := mb, station := st, msg := m, tries := 1 }] }))) ∧
      (isJob m = true → portOpen s mb false = true → s.pend = [] →
        (msgField m 9 7 = 0 → msgField m 8 1 = 0 ∨ msgField m 8 1 = 8 →
          counterCheck u (boundRoot u mb) true (msgField m 0x20 8) 0 = .no → mboxDepth s mb < 32 → 1 ≤ msgField m 0 2 →
          msgField m 0 2 ≤ 5 → 64 ≤ msgField m 4 4 → Gives (.fitterJobMessage mb m) s
            (readDone { u with jobs := s.jobs ++ [jobOfMsg mb m], nextId := s.nextId + 1 } [7])) ∧
        (∀ c, jobCode u mb m 0 = .code c → ∃ t, Gives (.fitterJobMessage mb m) s t ∧ t.jobs = s.jobs ∧ SameMem s t ∧
          (tget Mbox.init t.mbox mb).err = true ∧ (tget Mbox.init t.mbox mb).code = c))) ∧
    (∀ mb st m, mb < 64 → s.power = .booting → Gives (if isJob m then Instr.fitterJobMessage mb m
      else if namesBallast s m then .ballastLaunchMessage mb st m else .launchMessage mb st m) s (badWrite s)) ∧
    (∀ off n (v : BitVec 64), s.power = .booting → Gives (.registerWrite off n v) s (if off < 0x1000 then badWrite s else s)) ∧
    (awake s = true →
      (∀ (v : BitVec 64) r, v.toNat / 2 ^ 34 = 0 → s.awaiting.find? (fun a => a.1 == v.toNat % 2 ^ 32) = some (v.toNat % 2 ^ 32, r) →
        (v.toNat / 2 ^ 32 = 1 → Gives (.fqrespResume v) s (awaitThread { w with
          awaiting := s.awaiting.filter (fun a => a.1 != v.toNat % 2 ^ 32) } r hostAnswer)) ∧
        (v.toNat / 2 ^ 32 = 2 → Gives (.fqrespKill v) s
          (tellKills w (killWith w r (some (v.toNat % 2 ^ 32)))))) ∧
      (∀ mb (v : BitVec 32), mb < 64 → ∃ t, Gives (.mbstatErrClear mb v) s t ∧ SameMem s t ∧
        (∀ i, i ≠ mb → tget Mbox.init t.mbox i = tget Mbox.init s.mbox i) ∧
        tget Mbox.init t.mbox mb = { tget Mbox.init s.mbox mb with err := (tget Mbox.init s.mbox mb).err && !v.getLsbD 7 }) ∧
      (∀ off n (v : BitVec 64), off < 0x1000 → Gives (.registerWrite off n v) s (badWrite w)) ∧
      (∀ (v : BitVec 64),
        Gives (.registerWrite 0x2000 8 v) s { w with regs := { w.regs with evEn := v.getLsbD 0, evBase := v.toNat / 4096 * 4096 } } ∧
        Gives (.registerWrite 0x2008 8 v) s { w with regs := { w.regs with evCons := v.toNat / 2 ^ 32 } } ∧
        Gives (.registerWrite 0x22000 8 v) s { w with regs := { w.regs with
          hostpage := v.getLsbD 0, qbase := v.toNat / 2 ^ 14 % 2 ^ 34 * 2 ^ 14 } } ∧
        Gives (.registerWrite 0x23000 8 v) s { w with regs := { w.regs with fqCons := v.toNat / 2 ^ 32 } } ∧
        Gives (.registerWrite 0x24000 8 v) s (tellKills w (fqresp w v.toNat)) ∧
        (∀ mb, mb < 64 → ∃ t, Gives (.registerWrite (0x1000 + 4 * mb) 4 v) s t ∧ t.mbox = (mbstatWrite s mb v.toNat).mbox)) ∧
      (s.ide = true → Gives .hostUnprotectedRequest s (badWrite w)) ∧
      (s.ide = false → Gives .hostUnprotectedRequest s w) ∧
      Gives .ideEstablishment s { w with ide := true } ∧
      (∀ pa bs, (∀ k, pa / 64 ≤ k → k ≤ (pa + bs.length) / 64 → inMap s (64 * k) = true ∧ saddleOut s (64 * k) = false) →
        Gives (.hostMemoryWrite pa bs) s (homeStore w pa bs)) ∧
      (∀ pa n r v, s.hostReads = (pa, n) :: r → v = testRange { w with hostReads := r } pa n → doChore s .hostRead = { v with
        out := v.out ++ [.completion pa (memBytes v pa n) (anyPoison v pa n)] }))

/-- R425, R426, R428, R430: losing power ends all that is held but the fuses (what has left the device, and what the outside does next,
are the model's own fields); POWER_ON_RESET resets a device, which then boots: the boot stops at the first stage that does not verify and
otherwise leaves the device on with SYSENT set and the stages measured. Reset holds the values of R8, R59, R73, R109. These are the model's
choices: a register of which the spec says no reset value is zero (log entry 4); memory reads as zero at reset and after a loss of power
(6); the boot is one step after the reset, and the third measurement's record is the fused configuration with IPOOL (33). A device without
power does what its power events do, and no more. -/
def Obligations.PowerAndReset : Prop :=
  State.reset.cur = .none ∧ State.reset.power = .booting ∧ State.reset.mem = [] ∧ Memory.wf State.reset.mem = true ∧
  State.reset.regs.ipool = 48 ∧ State.reset.regs.sysent = 0 ∧ State.reset.regs.fqProd = 0 ∧ State.reset.regs.fqCons = 0 ∧
  State.reset.cores = [] ∧ State.reset.launches = [] ∧ State.reset.images = [] ∧ State.reset.keys = [] ∧ State.reset.meas = [] ∧
  (∀ d c, colThr State.reset d c = 8) ∧ (∀ m, mbstatWord State.reset m = 0) ∧ enabled State.reset = [] ∧
  (∀ s : State, Gives .powerOff s { State.reset with
    power := .off, out := s.out, agenda := s.agenda, hostReads := s.hostReads, freeCtr := s.freeCtr, fuses := s.fuses }) ∧
  (∀ (s : State) (i : BootImage), s.power ≠ .booting ∨ s.boot ≠ none → Gives (.powerOnReset i) s { State.reset with
    boot := some i, out := s.out, agenda := s.agenda, hostReads := s.hostReads, freeCtr := s.freeCtr, fuses := s.fuses }) ∧
  (∀ (s : State) (i : BootImage), (s.power = .booting → s.boot = none → Gives (.powerOnReset i) s (bootRun s i)) ∧
    (s.boot = some i → doChore s .boot = bootRun s i)) ∧
  (∀ (s v t : State) (i : BootImage) (n : Nat), v = { s with boot := none } → t = bootRun s i →
    n = (if s.nextId = 0 then min (i.ipool % 64) 48 else s.regs.ipool) →
    (edVerify s.fuses.root i.stage1 i.sig1 = false → t = { v with power := .bootStopped }) ∧
    (edVerify s.fuses.root i.stage1 i.sig1 = true → edVerify i.key2 i.stage2 i.sig2 = false →
      t = { measExtend v 0 (sha512 i.stage1) with power := .bootStopped }) ∧
    (edVerify s.fuses.root i.stage1 i.sig1 = true → edVerify i.key2 i.stage2 i.sig2 = true →
      t.power = .on ∧ t.boot = none ∧ sysentV t = true ∧ t.regs.sysent.toNat / 64 = i.sysAddr % 2 ^ 48 / 64 ∧ t.regs.ipool = n ∧
      t.keys = bootSigners i 0 i.signers ∧
      t.meas = (measExtend (measExtend (measExtend v 0 (sha512 i.stage1)) 1 (sha512 i.stage2)) 2
        (sha512 (s.fuses.hwconf ++ leBytes n 4))).meas ∧
      t.mem = (homeStore v (i.sysAddr / 64 * 64) i.sysSegment).mem)) ∧
  (∀ s : State, s.cur = .none → s.power = .off → ∀ i ∈ [Instr.idleWake, .idleEntry, .deviceCut, .thermalThrottle, .ideEstablishment,
    .stationmasterFaultHandling, .yardBatchDispatch, .hostUnprotectedRequest, .install, .thermalTrip], Gives i s s) ∧
  (∀ s : State, s.power = .off ∨ s.power = .bootStopped → s.agenda = [] → step s = .fault .poweredOff)

/-- The canonical form of home memory is kept by whatever the machine does: a bundle, a mark, a ballast instruction, an event. -/
def Obligations.StepKeepsMemoryForm : Prop :=
  ∀ s t : State, step s = .next t → Memory.wf s.mem = true → Memory.wf t.mem = true
end

