-- ==== Sys2Proof/Laws/Encode.lean ====
section
/-!
SUPPORT. How a packed word is read back: a field inside it, a field that must be zero, an operation number. With these lemmas
a row's round trip is one `simp`: the fields before the one that is read are skipped, and the one that is read is found.
-/
namespace Sys2Proof

/-- Bits beyond the first field are those of the other fields. -/
theorem pack_shift (w v : Nat) (r : List (Nat × Nat)) (k : Nat) (h : w ≤ k) :
    pack ((w, v) :: r) >>> k = pack r >>> (k - w) := by
  have e : k = w + (k - w) := by omega
  rw [e, Nat.shiftRight_add]
  congr 1
  · simp only [pack, Nat.shiftRight_eq_div_pow]
    rw [Nat.add_mul_div_left _ _ (Nat.two_pow_pos w), Nat.div_eq_of_lt (Nat.mod_lt _ (Nat.two_pow_pos w))]
    omega
  · omega

/-- The low bits are the first field. -/
theorem pack_mod (w v : Nat) (r : List (Nat × Nat)) : pack ((w, v) :: r) % 2 ^ w = v % 2 ^ w := by
  simp [pack, Nat.add_mod]

/-- A field beyond the first is found among the others. -/
theorem fld_skip (w v : Nat) (r : List (Nat × Nat)) (k n : Nat) (h : w ≤ k) :
    fld (pack ((w, v) :: r)) k n = fld (pack r) (k - w) n := by
  simp only [fld, pack_shift w v r k h]

/-- The first field. -/
theorem fld_hit (n v : Nat) (r : List (Nat × Nat)) : fld (pack ((n, v) :: r)) 0 n = BitVec.ofNat n v := by
  apply BitVec.eq_of_toNat_eq
  simp [fld, pack_mod]

/-- Zero bits beyond the first field. -/
theorem zeroAt_skip (w v : Nat) (r : List (Nat × Nat)) (k n : Nat) (h : w ≤ k) :
    zeroAt (pack ((w, v) :: r)) k n = zeroAt (pack r) (k - w) n := by
  simp only [zeroAt, pack_shift w v r k h]

/-- A first field that is zero. -/
theorem zeroAt_hit (n : Nat) (r : List (Nat × Nat)) : zeroAt (pack ((n, 0) :: r)) 0 n = true := by
  simp [zeroAt, pack_mod]

/-- A number read at the first field. -/
theorem sh_mod_hit (n v m : Nat) (r : List (Nat × Nat)) (h : m = 2 ^ n) : (pack ((n, v) :: r) >>> 0) % m = v % m := by
  subst h
  simp [pack_mod]

/-- A number read beyond the first field. -/
theorem sh_skip (w v : Nat) (r : List (Nat × Nat)) (k m : Nat) (h : w ≤ k) :
    (pack ((w, v) :: r) >>> k) % m = (pack r >>> (k - w)) % m := by
  rw [pack_shift _ _ _ _ h]

/-- The two halves of being well-formed. -/
theorem wf_iff (i : Instr) : WellFormed i = true ↔ Machine.opCodeBad i = false ∧ Machine.fieldBad i = false := by
  simp [WellFormed]

/-- A word that the table of Lamesque-B reads is decoded to what it reads. -/
theorem decodeBallast_ok {w : Nat} {i : Instr} (h : ballastRow w = .ok i) : decodeBallast w = .ok i := by
  simp [decodeBallast, h]

end Sys2Proof
end

