-- ==== Sys2Proof/Laws/Tab.lean ====
section
/-!
SUPPORT. Sparse tables: reading after writing, and the canonical form kept by every write.
-/
namespace Sys2Proof.Machine

/-- Deleting a key leaves every other key as it was. -/
theorem tget_tdel_ne {α : Type} (d : α) (t : Tab α) (a b : Nat) (h : b ≠ a) : tget d (tdel t a) b = tget d t b := by
  induction t with
  | nil => rfl
  | cons x r ih =>
    obtain ⟨k, v⟩ := x
    simp only [tdel]
    split
    · subst_vars; rw [ih]; simp [tget, Ne.symm h]
    · simp [tget, ih]

/-- A deleted key reads as the default. -/
theorem tfind_tdel_ne {α : Type} (t : Tab α) (a b : Nat) (h : b ≠ a) : tfind (tdel t a) b = tfind t b := by
  induction t with
  | nil => rfl
  | cons x r ih =>
    unfold tdel
    split
    · next e => rw [ih]; exact (if_neg (by omega)).symm
    · unfold tfind
      split
      · rfl
      · exact ih

@[simp] theorem tget_tdel_self {α : Type} (d : α) (t : Tab α) (a : Nat) : tget d (tdel t a) a = d := by
  induction t with
  | nil => rfl
  | cons x r ih =>
    obtain ⟨k, v⟩ := x
    simp only [tdel]
    split
    · exact ih
    · simp [tget, *]

/-- An inserted pair leaves every other key as it was. -/
theorem tget_tins_ne {α : Type} (d : α) (t : Tab α) (a b : Nat) (v : α) (h : b ≠ a) : tget d (tins t a v) b = tget d t b := by
  induction t with
  | nil => simp [tins, tget, Ne.symm h]
  | cons x r ih =>
    obtain ⟨k, w⟩ := x
    simp only [tins]
    split
    · simp [tget, Ne.symm h]
    · simp [tget, ih]

/-- Every key of a table. -/
def tkeys {α : Type} (t : Tab α) : List Nat := t.map (fun x => x.1)

/-- An inserted pair is found where its key was not listed. -/
theorem tget_tins_self {α : Type} (d : α) (t : Tab α) (a : Nat) (v : α) (h : a ∉ tkeys t) : tget d (tins t a v) a = v := by
  induction t with
  | nil => simp [tins, tget]
  | cons x r ih =>
    obtain ⟨k, w⟩ := x
    simp only [tkeys, List.map_cons, List.mem_cons, not_or] at h
    simp only [tins]
    split
    · simp [tget]
    · simp [tget, Ne.symm h.1, ih h.2]

/-- A deleted key is not listed. -/
theorem tdel_keys {α : Type} (t : Tab α) (a : Nat) : a ∉ tkeys (tdel t a) := by
  induction t with
  | nil => simp [tdel, tkeys]
  | cons x r ih =>
    obtain ⟨k, v⟩ := x
    simp only [tdel]
    split
    · exact ih
    · simpa [tkeys, Ne.symm ‹_›] using ih

/-- A write is read back. -/
@[simp] theorem tget_tset_self {α : Type} [DecidableEq α] (d : α) (t : Tab α) (a : Nat) (v : α) :
    tget d (tset d t a v) a = v := by
  unfold tset
  split
  · subst_vars; simp
  · exact tget_tins_self d _ a v (tdel_keys t a)

/-- A write leaves every other key alone. -/
theorem tget_tset_ne {α : Type} [DecidableEq α] (d : α) (t : Tab α) (a b : Nat) (v : α) (h : b ≠ a) :
    tget d (tset d t a v) b = tget d t b := by
  unfold tset
  split
  · exact tget_tdel_ne d t a b h
  · rw [tget_tins_ne d _ a b v h, tget_tdel_ne d t a b h]

/-- A write read back at any key. -/
theorem tget_tset {α : Type} [DecidableEq α] (d : α) (t : Tab α) (a b : Nat) (v : α) :
    tget d (tset d t a v) b = if b = a then v else tget d t b := by
  split
  · subst_vars; simp
  · exact tget_tset_ne d t a b v ‹_›

/-- A lower bound may be lowered. -/
theorem twfFrom_weaken {α : Type} [DecidableEq α] (d : α) (t : Tab α) (b c : Option Nat)
    (h : ∀ x, c = some x → ∃ y, b = some y ∧ x ≤ y) (w : twfFrom d b t = true) : twfFrom d c t = true := by
  cases t with
  | nil => rfl
  | cons x r =>
    obtain ⟨k, v⟩ := x
    simp only [twfFrom, Bool.and_eq_true, decide_eq_true_eq] at w ⊢
    refine ⟨⟨?_, w.1.2⟩, w.2⟩
    cases c with
    | none => rfl
    | some x =>
      obtain ⟨y, rfl, hy⟩ := h x rfl
      have := w.1.1
      simp only [decide_eq_true_eq] at this ⊢
      omega

/-- Deleting a key keeps the form. -/
theorem twfFrom_tdel {α : Type} [DecidableEq α] (d : α) (t : Tab α) (a : Nat) (b : Option Nat)
    (w : twfFrom d b t = true) : twfFrom d b (tdel t a) = true := by
  induction t generalizing b with
  | nil => rfl
  | cons x r ih =>
    obtain ⟨k, v⟩ := x
    simp only [twfFrom, Bool.and_eq_true, decide_eq_true_eq] at w
    simp only [tdel]
    split
    · refine twfFrom_weaken d _ (some k) b ?_ (ih _ w.2)
      intro x hx
      subst hx
      have := w.1.1
      simp only [decide_eq_true_eq] at this
      exact ⟨k, rfl, by omega⟩
    · simp only [twfFrom, Bool.and_eq_true, decide_eq_true_eq]
      exact ⟨w.1, ih _ w.2⟩

/-- Inserting a pair whose key is not listed keeps the form. -/
theorem twfFrom_tins {α : Type} [DecidableEq α] (d : α) (t : Tab α) (a : Nat) (v : α) (b : Option Nat) (hv : v ≠ d)
    (ha : a ∉ tkeys t) (hb : ∀ x, b = some x → x < a) (w : twfFrom d b t = true) : twfFrom d b (tins t a v) = true := by
  induction t generalizing b with
  | nil =>
    simp only [tins, twfFrom, Bool.and_eq_true, decide_eq_true_eq, and_true]
    refine ⟨?_, hv⟩
    cases b with
    | none => rfl
    | some x => simpa using hb x rfl
  | cons y r ih =>
    obtain ⟨k, u⟩ := y
    simp only [twfFrom, Bool.and_eq_true, decide_eq_true_eq] at w
    simp only [tkeys, List.map_cons, List.mem_cons, not_or] at ha
    simp only [tins]
    split
    · simp only [twfFrom, Bool.and_eq_true, decide_eq_true_eq]
      refine ⟨⟨?_, hv⟩, ⟨‹_›, w.1.2⟩, w.2⟩
      cases b with
      | none => rfl
      | some x => simpa using hb x rfl
    · simp only [twfFrom, Bool.and_eq_true, decide_eq_true_eq]
      refine ⟨w.1, ih _ ha.2 ?_ w.2⟩
      intro x hx
      injection hx with hx
      have := ha.1
      omega

/-- A write keeps the canonical form. -/
theorem twf_tset {α : Type} [DecidableEq α] (d : α) (t : Tab α) (a : Nat) (v : α) (w : twf d t = true) :
    twf d (tset d t a v) = true := by
  unfold tset
  split
  · exact twfFrom_tdel d t a none w
  · exact twfFrom_tins d _ a v none ‹_› (tdel_keys t a) (by simp) (twfFrom_tdel d t a none w)

/-- A fold of steps that keep a property keeps it. -/
theorem foldl_keeps {α β : Type} (P : β → Prop) (f : β → α → β) (l : List α) (b : β) (hb : P b)
    (h : ∀ b x, P b → P (f b x)) : P (l.foldl f b) := by
  induction l generalizing b with
  | nil => exact hb
  | cons x r ih => exact ih _ (h b x hb)

/-- A fold of writes keeps the canonical form. -/
theorem twf_foldl {α β : Type} [DecidableEq β] (d : β) (f : Tab β → α → Tab β) (l : List α) (t : Tab β)
    (h : ∀ t x, twf d t = true → twf d (f t x) = true) (w : twf d t = true) : twf d (l.foldl f t) = true :=
  foldl_keeps (fun t => twf d t = true) f l t w h

/-- A store of bytes keeps the canonical form. -/
theorem twf_tstore (t : Tab Byte) (a : Nat) (bs : List Byte) (w : twf 0 t = true) : twf 0 (tstore t a bs) = true := by
  induction bs generalizing t a with
  | nil => exact w
  | cons b r ih => exact ih _ _ (twf_tset 0 t a b w)

/-- What a store of bytes reads as, at any address. -/
theorem tget_tstore (t : Tab Byte) (a b : Nat) (bs : List Byte) :
    tget 0 (tstore t a bs) b = if a ≤ b ∧ b < a + bs.length then bs.getD (b - a) 0 else tget 0 t b := by
  induction bs generalizing t a with
  | nil =>
    have : ¬ (a ≤ b ∧ b < a + ([] : List Byte).length) := by simp only [List.length_nil]; omega
    rw [if_neg this]; rfl
  | cons x r ih =>
    rw [tstore, ih, tget_tset]
    simp only [List.length_cons]
    by_cases h1 : b = a
    · subst h1
      have : ¬ (b + 1 ≤ b ∧ b < b + 1 + r.length) := by omega
      rw [if_neg this, if_pos rfl, if_pos (by omega)]
      simp
    · by_cases h2 : a + 1 ≤ b ∧ b < a + 1 + r.length
      · have e : b - a = (b - (a + 1)) + 1 := by omega
        rw [if_pos h2, if_pos (by omega), e]
        simp
      · rw [if_neg h2, if_neg h1, if_neg (by omega)]

/-- The numbers of upFrom. -/
@[simp] theorem mem_upFrom (a n x : Nat) : x ∈ upFrom a n ↔ a ≤ x ∧ x < a + n := by
  induction n generalizing a with
  | zero => simp only [upFrom, List.not_mem_nil, false_iff]; omega
  | succ n ih => simp only [upFrom, List.mem_cons, ih]; omega

end Sys2Proof.Machine
end

