-- ==== Sys2Proof/Laws/Health.lean ====
section
/-!
SUPPORT. What testing the checks of home memory can do (R420, R422): a sector whose stored check fails becomes poisoned and is counted,
an event is posted and the other devices of the set are told. No byte of memory changes, and whether a read of a sector is bad stays
as it was.
-/
namespace Sys2Proof.Machine
open Sys2Proof

/-- `t` is `s` but for poison, stored checks, the counts of poison and of events, what has left the device and the choice counter. -/
def HealthOnly (s t : State) : Prop :=
  t = { s with poisoned := t.poisoned, checks := t.checks, out := t.out, lseq := t.lseq, freeCtr := t.freeCtr,
               regs := { s.regs with npoison := t.regs.npoison, evProd := t.regs.evProd, evlost := t.regs.evlost } }

theorem HealthOnly.refl (s : State) : HealthOnly s s := rfl

theorem HealthOnly.trans {s t u : State} (h : HealthOnly s t) (k : HealthOnly t u) : HealthOnly s u := by
  unfold HealthOnly at h k ⊢
  rw [k, h]

theorem HealthOnly.mem {s t : State} (h : HealthOnly s t) : t.mem = s.mem := by rw [h]

theorem healthOnly_ite {s a b : State} {c : Prop} [Decidable c] (ha : HealthOnly s a) (hb : HealthOnly s b) :
    HealthOnly s (if c then a else b) := by split <;> assumption

theorem healthOnly_foldl {α : Type} {f : State → α → State} (hf : ∀ s x, HealthOnly s (f s x)) (l : List α) (s : State) :
    HealthOnly s (l.foldl f s) := by
  induction l generalizing s with
  | nil => exact .refl s
  | cons x r ih => exact (hf s x).trans (ih _)

/-- A flit sent changes neither poison nor stored checks. -/
theorem sendFlit_health (s : State) (dst kind cls addr : Nat) (d : List Byte) :
    HealthOnly s (sendFlit s dst kind cls addr d) ∧
    (sendFlit s dst kind cls addr d).poisoned = s.poisoned ∧ (sendFlit s dst kind cls addr d).checks = s.checks := by
  unfold sendFlit
  split
  · exact ⟨.refl s, rfl, rfl⟩
  · exact ⟨rfl, rfl, rfl⟩

theorem tellPoison_health (s : State) (op sec : Nat) :
    HealthOnly s (tellPoison s op sec) ∧ (tellPoison s op sec).poisoned = s.poisoned ∧ (tellPoison s op sec).checks = s.checks := by
  unfold tellPoison
  generalize otherRanks s = l
  induction l generalizing s with
  | nil => exact ⟨.refl s, rfl, rfl⟩
  | cons r l ih =>
    have h := sendFlit_health s r 11 0 0 ([BitVec.ofNat 8 op] ++ leBytes sec 8 ++ leBytes 0 4 ++ [])
    have k := ih (sendSet11 s r op sec 0 [])
    exact ⟨h.1.trans k.1, k.2.1.trans h.2.1, k.2.2.trans h.2.2⟩

theorem postHealth_health (s : State) (ref : Nat) :
    HealthOnly s (postHealth s ref) ∧ (postHealth s ref).poisoned = s.poisoned ∧ (postHealth s ref).checks = s.checks := by
  unfold postHealth postEvent
  dsimp only
  split <;> exact ⟨rfl, rfl, rfl⟩

/-- A sector becomes poisoned, and no other. -/
theorem poisonSec_health (s : State) (sec : Nat) :
    HealthOnly s (poisonSec s sec) ∧ (poisonSec s sec).checks = s.checks ∧
    ∀ x, (poisonSec s sec).poisoned.contains x = (x == sec || s.poisoned.contains x) := by
  have h := tellPoison_health s 16 sec
  unfold poisonSec
  dsimp only
  split
  · next hc =>
    refine ⟨.refl s, rfl, fun x => ?_⟩
    by_cases e : x = sec
    · subst e; rw [hc]; simp
    · simp [e]
  · split
    · refine ⟨h.1.trans rfl, h.2.2, fun x => ?_⟩
      simp only [List.contains_cons, h.2.1]
    · have k := postHealth_health { tellPoison s 16 sec with
        poisoned := sec :: (tellPoison s 16 sec).poisoned,
        regs := { (tellPoison s 16 sec).regs with npoison := (tellPoison s 16 sec).regs.npoison + 1 },
        freeCtr := (tellPoison s 16 sec).freeCtr + 1 } (Config.choice (tellPoison s 16 sec).freeCtr (2 ^ 20) % 2 ^ 20)
      have m : HealthOnly (tellPoison s 16 sec) { tellPoison s 16 sec with
        poisoned := sec :: (tellPoison s 16 sec).poisoned,
        regs := { (tellPoison s 16 sec).regs with npoison := (tellPoison s 16 sec).regs.npoison + 1 },
        freeCtr := (tellPoison s 16 sec).freeCtr + 1 } := rfl
      refine ⟨(h.1.trans m).trans k.1, k.2.2.trans h.2.2, fun x => ?_⟩
      rw [k.2.1]
      simp only [List.contains_cons, h.2.1]

/-- Bytes of home memory depend on nothing else. -/
theorem sectorCheck_mem {s t : State} (h : t.mem = s.mem) (sec : Nat) : sectorCheck t sec = sectorCheck s sec := by
  have : ∀ a n, memBytes t a n = memBytes s a n := by
    intro a n
    unfold memBytes
    rw [h]
  unfold sectorCheck
  rw [this]

/-- A stored check that is the one computed last does not fail. -/
theorem checkFails_nil (s : State) (sec : Nat) (h : s.checks = []) : checkFails s sec = false := by
  unfold checkFails
  rw [h]
  rfl

theorem testSec_health (s : State) (sec : Nat) : HealthOnly s (testSec s sec) :=
  healthOnly_ite (HealthOnly.trans (t := { s with checks := tdel s.checks sec }) rfl (poisonSec_health _ _).1) (.refl s)

/-- Testing a sector's check writes no byte. -/
@[simp] theorem testSec_mem (s : State) (sec : Nat) : (testSec s sec).mem = s.mem := (testSec_health s sec).mem

/-- What a home does before it writes a sector is no more than such a test. -/
theorem beforeWrite_health (s : State) (sec : Nat) (mask : BitVec 64) : HealthOnly s (beforeWrite s sec mask) :=
  healthOnly_ite rfl (testSec_health s sec)

/-- Where every stored check is the one computed last, a test changes nothing. -/
theorem testSec_nil (s : State) (sec : Nat) (h : s.checks = []) : testSec s sec = s := by
  unfold testSec
  rw [if_neg (by rw [checkFails_nil s sec h]; exact Bool.false_ne_true)]

/-- A test leaves every sector as bad, or as good, as it was. -/
theorem testSec_secBad (s : State) (sec x : Nat) : secBad (testSec s sec) x = secBad s x := by
  have hm := testSec_mem s sec
  unfold testSec at hm ⊢
  split
  · next hf =>
    rw [if_pos hf] at hm
    have h := poisonSec_health { s with checks := tdel s.checks sec } sec
    unfold secBad checkFails at *
    rw [h.2.2 x, h.2.1, sectorCheck_mem hm]
    by_cases e : x = sec
    · subst e
      simp only [beq_self_eq_true, Bool.true_or, hf, Bool.or_true]
    · rw [tfind_tdel_ne s.checks sec x e, beq_false_of_ne e]
      rfl
  · rfl

end Sys2Proof.Machine
end

