-- ==== Sys2Proof/Laws/Memory.lean ====
section
/-!
SUPPORT. Home memory: every write keeps the canonical form, and what a byte reads as after a write.
-/
namespace Sys2Proof.Machine
open Sys2Proof

/-- Memory after reset is canonical. -/
theorem reset_mem_wf : Memory.wf State.reset.mem = true := rfl

/-- A masked sector write, read at one address, over some of the sector's bytes. -/
theorem tget_mask (sec : Nat) (mask : BitVec 64) (data : BitVec 512) (a : Nat) (n k : Nat) (h : k + n ≤ 64) (m : Tab Byte) :
    tget 0 ((upFrom k n).foldl (fun m i => if mask.getLsbD i then tset 0 m (64 * sec + i) (data.extractLsb' (8 * i) 8) else m) m) a =
      if 64 * sec + k ≤ a ∧ a < 64 * sec + k + n ∧ mask.getLsbD (a - 64 * sec) = true then data.extractLsb' (8 * (a - 64 * sec)) 8
      else tget 0 m a := by
  induction n generalizing k m with
  | zero =>
    rw [if_neg (by omega)]; rfl
  | succ n ih =>
    simp only [upFrom, List.foldl_cons]
    rw [ih (k + 1) (by omega)]
    by_cases h1 : a = 64 * sec + k
    · subst h1
      rw [if_neg (by omega)]
      have e : 64 * sec + k - 64 * sec = k := by omega
      rw [e]
      by_cases h2 : mask.getLsbD k = true
      · rw [if_pos h2, if_pos ⟨by omega, by omega, h2⟩, tget_tset_self]
      · rw [if_neg h2, if_neg (by simp [h2])]
    · have : ∀ b : Byte, tget 0 (tset 0 m (64 * sec + k) b) a = tget 0 m a := fun b => tget_tset_ne 0 m _ a b h1
      have cond : (64 * sec + (k + 1) ≤ a ∧ a < 64 * sec + (k + 1) + n ∧ mask.getLsbD (a - 64 * sec) = true) ↔
          (64 * sec + k ≤ a ∧ a < 64 * sec + k + (n + 1) ∧ mask.getLsbD (a - 64 * sec) = true) :=
        ⟨fun hh => ⟨by omega, by omega, hh.2.2⟩, fun hh => ⟨by omega, by omega, hh.2.2⟩⟩
      have rest : tget 0 (if mask.getLsbD k = true then tset 0 m (64 * sec + k) (data.extractLsb' (8 * k) 8) else m) a = tget 0 m a := by
        split
        · exact this _
        · rfl
      rw [rest]
      simp only [cond]

/-- A masked sector write at home, as it changes memory. -/
theorem homeWrite_mem (s : State) (sec : Nat) (mask : BitVec 64) (data : BitVec 512) :
    (homeWrite s sec mask data).mem = (upFrom 0 64).foldl (fun m i =>
      if mask.getLsbD i then tset 0 m (64 * sec + i) (data.extractLsb' (8 * i) 8) else m) s.mem := by
  rw [← (beforeWrite_health s sec mask).mem]
  unfold homeWrite
  dsimp only
  split
  · exact (tellPoison_health ..).1.mem
  · rfl

/-- A byte after a masked sector write at home. -/
theorem memRead_homeWrite (s : State) (sec : Nat) (mask : BitVec 64) (data : BitVec 512) (a : Nat) :
    memRead (homeWrite s sec mask data) a =
      if a / 64 = sec ∧ mask.getLsbD (a % 64) = true then data.extractLsb' (8 * (a % 64)) 8 else memRead s a := by
  unfold memRead
  rw [homeWrite_mem, tget_mask sec mask data a 64 0 (by omega)]
  by_cases h : a / 64 = sec
  · subst h
    have e : a - 64 * (a / 64) = a % 64 := by omega
    rw [e]
    by_cases h2 : mask.getLsbD (a % 64) = true
    · rw [if_pos ⟨by omega, by omega, h2⟩, if_pos ⟨rfl, h2⟩]
    · rw [if_neg (by simp [h2]), if_neg (by simp [h2])]
  · rw [if_neg (by omega), if_neg (by simp [h])]

/-- A masked sector write keeps the canonical form. -/
theorem homeWrite_wf (s : State) (sec : Nat) (mask : BitVec 64) (data : BitVec 512) (w : Memory.wf s.mem = true) :
    Memory.wf (homeWrite s sec mask data).mem = true := by
  unfold Memory.wf
  rw [homeWrite_mem]
  refine twf_foldl 0 _ _ _ (fun t x ht => ?_) w
  split
  · exact twf_tset 0 t _ _ ht
  · exact ht

/-- A store of bytes at home keeps the canonical form. -/
theorem homeStore_wf (s : State) (pa : Nat) (bs : List Byte) (w : Memory.wf s.mem = true) :
    Memory.wf (homeStore s pa bs).mem = true :=
  foldl_keeps (fun s => Memory.wf s.mem = true) _ _ s w (fun s x h => homeWrite_wf s x.1 x.2.1 x.2.2 h)

/-- One byte shifted to its place in a sector, read at a place. -/
theorem byte_place (b : Byte) (i j : Nat) (hi : i < 64) (hj : j < 64) :
    (BitVec.ofNat 512 (b.toNat * 2 ^ (8 * i))).extractLsb' (8 * j) 8 = if j = i then b else 0 := by
  apply BitVec.eq_of_getLsbD_eq
  intro k hk
  rw [BitVec.getLsbD_extractLsb', BitVec.getLsbD_ofNat, Nat.testBit_mul_two_pow]
  by_cases h : j = i
  · subst h
    have e : 8 * j + k - 8 * j = k := by omega
    simp only [hk, decide_true, Bool.true_and, if_true, e]
    have : decide (8 * j + k < 512) = true := by simp; omega
    rw [this]
    have : 8 * j ≤ 8 * j + k := by omega
    simp [this, BitVec.getLsbD]
  · rw [if_neg h]
    simp only [hk, decide_true, Bool.true_and]
    by_cases h2 : 8 * i ≤ 8 * j + k
    · have : b.toNat.testBit (8 * j + k - 8 * i) = false := by
        apply Nat.testBit_lt_two_pow
        have : b.toNat < 2 ^ 8 := b.isLt
        exact Nat.lt_of_lt_of_le this (Nat.pow_le_pow_right (by omega) (by omega))
      simp [this]
    · simp [h2]

/-- What a list of sector writes holds: each is of its own sector, no earlier than `lo`, with zero bytes outside its mask. -/
def Tidy (lo : Nat) (x : Nat × BitVec 64 × BitVec 512) : Prop :=
  ∀ i, i < 64 → (x.2.1.getLsbD i = true → lo ≤ 64 * x.1 + i) ∧ (x.2.1.getLsbD i = false → x.2.2.extractLsb' (8 * i) 8 = 0)

/-- One bit of a one-bit mask. -/
theorem one_mask (i j : Nat) (hj : j < 64) :
    (BitVec.ofNat 64 (2 ^ i)).getLsbD j = decide (j = i) := by
  rw [BitVec.getLsbD_ofNat, Nat.testBit_two_pow]
  simp only [hj, decide_true, Bool.true_and, eq_comm]

/-- The first of the writes a store makes is tidy. -/
theorem sectorWrites_tidy (bs : List Byte) (pa : Nat) : ∀ x, (sectorWrites pa bs).head? = some x → Tidy pa x := by
  induction bs generalizing pa with
  | nil => intro x h; cases h
  | cons b r ih =>
    have one : Tidy pa (pa / 64, BitVec.ofNat 64 (2 ^ (pa % 64)), BitVec.ofNat 512 (b.toNat * 2 ^ (8 * (pa % 64)))) := by
      intro i hi
      simp only [one_mask _ _ hi, decide_eq_true_eq, decide_eq_false_iff_not]
      refine ⟨fun h => by omega, fun h => ?_⟩
      rw [byte_place b _ i (Nat.mod_lt pa (by omega : 64 > 0)) hi, if_neg h]
    have ih := ih (pa + 1)
    intro x h
    simp only [sectorWrites] at h
    cases e : sectorWrites (pa + 1) r with
    | nil =>
      rw [e] at h
      cases h
      exact one
    | cons y q =>
      obtain ⟨sec, m', d'⟩ := y
      rw [e] at h ih
      simp only at h
      split at h
      · rename_i hs
        cases h
        intro i hi
        have t := ih _ rfl i hi
        have o := one i hi
        simp only [BitVec.getLsbD_or, Bool.or_eq_true, Bool.or_eq_false_iff, BitVec.extractLsb'_or] at *
        refine ⟨?_, ?_⟩
        · rintro (h | h)
          · have := o.1 h; omega
          · have := t.1 h; omega
        · rintro ⟨h1, h2⟩
          rw [o.2 h1, t.2 h2]; rfl
      · cases h
        exact one

/-- Two writes of disjoint bytes of one sector are one write. -/
theorem homeWrite_or (s : State) (pa : Nat) (b : Byte) (m' : BitVec 64) (d' : BitVec 512) (a : Nat)
    (t : Tidy (pa + 1) (pa / 64, m', d')) :
    memRead (homeWrite s (pa / 64) (BitVec.ofNat 64 (2 ^ (pa % 64)) ||| m')
      (BitVec.ofNat 512 (b.toNat * 2 ^ (8 * (pa % 64))) ||| d')) a =
    memRead (homeWrite (homeWrite s (pa / 64) (BitVec.ofNat 64 (2 ^ (pa % 64)))
      (BitVec.ofNat 512 (b.toNat * 2 ^ (8 * (pa % 64))))) (pa / 64) m' d') a := by
  have ha : a % 64 < 64 := Nat.mod_lt a (by omega)
  have hp : pa % 64 < 64 := Nat.mod_lt pa (by omega)
  simp only [memRead_homeWrite, BitVec.getLsbD_or, BitVec.extractLsb'_or, one_mask _ _ ha, byte_place b _ _ hp ha]
  have := t (a % 64) ha
  simp only at this
  by_cases hs : a / 64 = pa / 64
  · by_cases he : a % 64 = pa % 64
    · have hf : m'.getLsbD (a % 64) = false := by
        cases hm : m'.getLsbD (a % 64) with
        | false => rfl
        | true => have := this.1 hm; omega
      have hz := this.2 hf
      rw [he] at hf hz
      simp [hs, he, hf, hz]
    · by_cases hm : m'.getLsbD (a % 64) = true
      · simp [hs, hm, he]
      · simp [hs, hm, he]
  · simp [hs]

/-- Writes read alike from states that read alike. -/
theorem homeWrites_congr (l : List (Nat × BitVec 64 × BitVec 512)) (s s' : State) (h : ∀ a, memRead s a = memRead s' a) (a : Nat) :
    memRead (l.foldl (fun s w => homeWrite s w.1 w.2.1 w.2.2) s) a = memRead (l.foldl (fun s w => homeWrite s w.1 w.2.1 w.2.2) s') a := by
  induction l generalizing s s' with
  | nil => exact h a
  | cons x r ih =>
    refine ih _ _ (fun a => ?_)
    rw [memRead_homeWrite, memRead_homeWrite, h a]

/-- A store is its first byte's write and then the rest. -/
theorem memRead_homeStore_cons (s : State) (pa : Nat) (b : Byte) (r : List Byte) (a : Nat) :
    memRead (homeStore s pa (b :: r)) a =
      memRead (homeStore (homeWrite s (pa / 64) (BitVec.ofNat 64 (2 ^ (pa % 64))) (BitVec.ofNat 512 (b.toNat * 2 ^ (8 * (pa % 64)))))
        (pa + 1) r) a := by
  have td := sectorWrites_tidy r (pa + 1)
  unfold homeStore
  simp only [sectorWrites]
  cases e : sectorWrites (pa + 1) r with
  | nil => rfl
  | cons y q =>
    obtain ⟨sec, m', d'⟩ := y
    rw [e] at td
    simp only
    split
    · rename_i hs
      subst hs
      exact homeWrites_congr q _ _ (fun a => homeWrite_or s pa b m' d' a (td _ rfl)) a
    · rfl

/-- A byte after a store of bytes at home: the stored bytes, and every other byte as it was. -/
theorem memRead_homeStore (s : State) (pa : Nat) (bs : List Byte) (a : Nat) :
    memRead (homeStore s pa bs) a = if pa ≤ a ∧ a < pa + bs.length then bs.getD (a - pa) 0 else memRead s a := by
  induction bs generalizing pa s with
  | nil => rw [if_neg (by simp only [List.length_nil]; omega)]; rfl
  | cons b r ih =>
    rw [memRead_homeStore_cons, ih, memRead_homeWrite]
    have ha : a % 64 < 64 := Nat.mod_lt a (by omega)
    have hp : pa % 64 < 64 := Nat.mod_lt pa (by omega)
    rw [one_mask _ _ ha, byte_place b _ _ hp ha]
    simp only [List.length_cons]
    by_cases h1 : a = pa
    · subst h1
      have : ¬ (a + 1 ≤ a ∧ a < a + 1 + r.length) := by omega
      rw [if_neg this, if_pos (by simp), if_pos (by simp), if_pos (by omega)]
      simp
    · have h2 : ¬ (a / 64 = pa / 64 ∧ decide (a % 64 = pa % 64) = true) := by
        simp only [decide_eq_true_eq]; omega
      rw [if_neg h2]
      by_cases h3 : pa + 1 ≤ a ∧ a < pa + 1 + r.length
      · have e : a - pa = (a - (pa + 1)) + 1 := by omega
        rw [if_pos h3, if_pos (by omega), e]
        simp
      · rw [if_neg h3, if_neg (by omega)]

end Sys2Proof.Machine
end

