-- ==== Sys2Proof/Laws/Gate.lean ====
section
/-!
SUPPORT. The gate (R21, R22): what a byte reads as after a store has entered it.
-/
namespace Sys2Proof.Machine
open Sys2Proof

/-- The mask of bytes as a number of bits: bit 8i + k is set when byte i is in the mask. -/
theorem mask_bits (mask : BitVec 64) (n j a : Nat) (ha : a < 2 ^ (8 * j)) (b : Nat) :
    ((upFrom j n).foldl (fun a i => if mask.getLsbD i then a + 255 * 2 ^ (8 * i) else a) a).testBit b =
      (a.testBit b || (decide (8 * j ≤ b) && decide (b < 8 * (j + n)) && mask.getLsbD (b / 8))) := by
  induction n generalizing j a with
  | zero =>
    have : ¬ (8 * j ≤ b ∧ b < 8 * (j + 0)) := by omega
    have : (decide (8 * j ≤ b) && decide (b < 8 * (j + 0))) = false := by simp
    simp only [upFrom, List.foldl_nil, this, Bool.false_and, Bool.or_false]
  | succ n ih =>
    simp only [upFrom, List.foldl_cons]
    have p8 : 2 ^ (8 * (j + 1)) = 256 * 2 ^ (8 * j) := by rw [show 8 * (j + 1) = 8 + 8 * j by omega, Nat.pow_add]
    have key : ∀ a', a' < 2 ^ (8 * (j + 1)) → (a'.testBit b = (a.testBit b || (decide (8 * j ≤ b) && decide (b < 8 * (j + 1)) && mask.getLsbD j))) →
        ((upFrom (j + 1) n).foldl (fun a i => if mask.getLsbD i then a + 255 * 2 ^ (8 * i) else a) a').testBit b =
        (a.testBit b || (decide (8 * j ≤ b) && decide (b < 8 * (j + (n + 1))) && mask.getLsbD (b / 8))) := by
      intro a' h1 h2
      rw [ih (j + 1) a' h1, h2]
      by_cases c1 : 8 * j ≤ b ∧ b < 8 * (j + 1)
      · have e : b / 8 = j := by omega
        have n1 : ¬ (8 * (j + 1) ≤ b) := by omega
        have n2 : b < 8 * (j + (n + 1)) := by omega
        simp [c1.1, c1.2, e, n1, n2]
      · by_cases c2 : 8 * (j + 1) ≤ b
        · have n1 : ¬ b < 8 * (j + 1) := by omega
          have n2 : 8 * j ≤ b := by omega
          have n3 : 8 * (j + 1 + n) = 8 * (j + (n + 1)) := by omega
          simp [c2, n1, n2, n3]
        · have n1 : ¬ 8 * j ≤ b := by omega
          simp [c2, n1]
    by_cases hm : mask.getLsbD j = true
    · rw [if_pos hm]
      refine key _ (by omega) ?_
      rw [Nat.add_comm, Nat.mul_comm, Nat.testBit_two_pow_mul_add _ ha]
      by_cases c : b < 8 * j
      · have n1 : ¬ 8 * j ≤ b := by omega
        simp [c, n1]
      · have hz : a.testBit b = false :=
          Nat.testBit_lt_two_pow (Nat.lt_of_lt_of_le ha (Nat.pow_le_pow_right (by omega) (by omega)))
        have n1 : 8 * j ≤ b := by omega
        rw [if_neg c, hz, hm, show (255 : Nat) = 2 ^ 8 - 1 from rfl, Nat.testBit_two_pow_sub_one]
        have : (b - 8 * j < 8) ↔ (b < 8 * (j + 1)) := by omega
        simp [n1, this]
    · rw [if_neg hm]
      refine key _ (by omega) ?_
      simp [hm]

/-- A byte of merged data. -/
theorem mergeBytes_byte (mask : BitVec 64) (new old : BitVec 512) (i : Nat) (hi : i < 64) :
    (mergeBytes mask new old).extractLsb' (8 * i) 8 =
      if mask.getLsbD i then new.extractLsb' (8 * i) 8 else old.extractLsb' (8 * i) 8 := by
  apply BitVec.eq_of_getLsbD_eq
  intro k hk
  have hb : 8 * i + k < 512 := by omega
  have hm : (BitVec.ofNat 512 ((upFrom 0 64).foldl (fun a i => if mask.getLsbD i then a + 255 * 2 ^ (8 * i) else a) 0)).getLsbD (8 * i + k) =
      mask.getLsbD i := by
    rw [BitVec.getLsbD_ofNat, mask_bits mask 64 0 0 (by decide)]
    have e : (8 * i + k) / 8 = i := by omega
    simp [hb, e]
  unfold mergeBytes
  simp only [BitVec.getLsbD_extractLsb', hk, decide_true, Bool.true_and, BitVec.getLsbD_or, BitVec.getLsbD_and, BitVec.getLsbD_not,
    hm, hb]
  by_cases h : mask.getLsbD i = true
  · simp [h, hk]
  · simp [h, hk]

/-- A byte of the gate after one masked store (R21): the store's bytes, and every other byte as it was. -/
theorem gateByte_put {t t' : Thread} {a : GAddr} {cls : Nat} {mask : BitVec 64} {data : BitVec 512} {va : Nat}
    (h : gatePut t a cls mask data va = some t') (b : GAddr) (i : Nat) (hi : i < 64) :
    gateByte b i t'.gate = if a = b ∧ mask.getLsbD i = true then some (data.extractLsb' (8 * i) 8) else gateByte b i t.gate := by
  have new : ∀ r, gateByte b i ({ at_ := a, cls := cls, mask := mask, data := data, va := va } :: r) =
      if a = b ∧ mask.getLsbD i = true then some (data.extractLsb' (8 * i) 8) else gateByte b i r := by
    intro r
    simp only [gateByte, Bool.and_eq_true, beq_iff_eq]
  unfold gatePut at h
  split at h
  · rename_i e r hg
    split at h
    · rename_i hc
      simp only [Bool.and_eq_true, beq_iff_eq, decide_eq_true_eq] at hc
      cases h
      rw [hg]
      simp only [gateByte, Bool.and_eq_true, beq_iff_eq, BitVec.getLsbD_or, Bool.or_eq_true, mergeBytes_byte mask data e.data i hi, hc.1.1]
      by_cases h1 : a = b
      · by_cases h2 : mask.getLsbD i = true
        · simp [h1, h2]
        · simp [h1, h2]
      · simp [h1]
    · split at h
      · cases h
        rw [hg]
        exact new (e :: r)
      · cases h
  · rename_i hg
    cases h
    rw [hg]
    exact new []

/-- Nothing but the gate changes when a store enters it. -/
theorem gatePut_frame {t t' : Thread} {a : GAddr} {cls : Nat} {mask : BitVec 64} {data : BitVec 512} {va : Nat}
    (h : gatePut t a cls mask data va = some t') : t' = { t with gate := t'.gate } := by
  unfold gatePut at h
  split at h
  · split at h
    · cases h; rfl
    · split at h
      · cases h; rfl
      · cases h
  · cases h; rfl

/-- Nothing but the gate changes when stores enter it. -/
theorem gatePuts_frame {cls : Nat} (ws : List (GAddr × BitVec 64 × BitVec 512 × Nat)) {t t' : Thread}
    (h : gatePuts t cls ws = some t') : t' = { t with gate := t'.gate } := by
  induction ws generalizing t with
  | nil => cases h; rfl
  | cons x r ih =>
    obtain ⟨a, m, d, va⟩ := x
    simp only [gatePuts] at h
    split at h
    · rename_i t1 h1
      have e1 := gatePut_frame h1
      have e2 := ih h
      rw [e2, e1]
    · cases h

/-- A store reads the gate's bytes as one masked write each; what the list of writes reads as at a byte. -/
def putsRead (ws : List (GAddr × BitVec 64 × BitVec 512 × Nat)) (b : GAddr) (i : Nat) (f : Option Byte) : Option Byte :=
  ws.foldl (fun f w => if w.1 = b ∧ w.2.1.getLsbD i = true then some (w.2.2.1.extractLsb' (8 * i) 8) else f) f

/-- A byte of the gate after several masked stores. -/
theorem gateByte_puts {cls : Nat} (ws : List (GAddr × BitVec 64 × BitVec 512 × Nat)) {t t' : Thread}
    (h : gatePuts t cls ws = some t') (b : GAddr) (i : Nat) (hi : i < 64) :
    gateByte b i t'.gate = putsRead ws b i (gateByte b i t.gate) := by
  induction ws generalizing t with
  | nil => cases h; rfl
  | cons x r ih =>
    obtain ⟨a, m, d, va⟩ := x
    simp only [gatePuts] at h
    split at h
    · rename_i t1 h1
      rw [ih h, gateByte_put h1 b i hi]
      rfl
    · cases h

/-- The gate's name of sector `n` of the space that a location lies in. -/
def Loc.gsec : Loc → Nat → GAddr
  | .mem d _, n => .mem d n
  | .scr _, n => .scr n
  | .pl r _, n => .pl r n

theorem gsec_inj (l : Loc) (m n : Nat) : l.gsec m = l.gsec n ↔ m = n := by
  cases l <;> simp [Loc.gsec]

/-- What sector writes read as at a byte, from what stood there. -/
def secRead (g : Nat → GAddr) (b : GAddr) (i : Nat) (ws : List (Nat × BitVec 64 × BitVec 512)) (f : Option Byte) : Option Byte :=
  ws.foldl (fun f w => if g w.1 = b ∧ w.2.1.getLsbD i = true then some (w.2.2.extractLsb' (8 * i) 8) else f) f

theorem putsRead_gateWrites (l : Loc) (va : Nat) (bs : List Byte) (b : GAddr) (i : Nat) (f : Option Byte) :
    putsRead (gateWrites l va bs) b i f = secRead l.gsec b i (sectorWrites l.num bs) f := by
  unfold putsRead secRead gateWrites
  rw [List.foldl_map]
  congr 1
  funext f w
  cases l <;> rfl

/-- The bytes of a store read back by sector and place. -/
theorem secRead_store (g : Nat → GAddr) (inj : ∀ m n, g m = g n ↔ m = n) (sec i : Nat) (hi : i < 64) (bs : List Byte) (pa : Nat) (f : Option Byte) :
    secRead g (g sec) i (sectorWrites pa bs) f =
      if pa ≤ 64 * sec + i ∧ 64 * sec + i < pa + bs.length then some (bs.getD (64 * sec + i - pa) 0) else f := by
  induction bs generalizing pa f with
  | nil => rw [if_neg (by simp only [List.length_nil]; omega)]; rfl
  | cons b r ih =>
    have td := sectorWrites_tidy r (pa + 1)
    have hp : pa % 64 < 64 := Nat.mod_lt pa (by omega)
    have step : secRead g (g sec) i (sectorWrites pa (b :: r)) f =
        secRead g (g sec) i (sectorWrites (pa + 1) r) (if 64 * sec + i = pa then some b else f) := by
      have first : (if g (pa / 64) = g sec ∧ (BitVec.ofNat 64 (2 ^ (pa % 64))).getLsbD i = true then
          some ((BitVec.ofNat 512 (b.toNat * 2 ^ (8 * (pa % 64)))).extractLsb' (8 * i) 8) else f) = (if 64 * sec + i = pa then some b else f) := by
        simp only [one_mask _ _ hi, byte_place b _ _ hp hi, inj]
        by_cases h : 64 * sec + i = pa
        · have h1 : pa / 64 = sec := by omega
          have h2 : i = pa % 64 := by omega
          rw [if_pos h, if_pos ⟨h1, by simpa using h2⟩, if_pos h2]
        · have : ¬ (pa / 64 = sec ∧ decide (i = pa % 64) = true) := by simp only [decide_eq_true_eq]; omega
          rw [if_neg h, if_neg this]
      simp only [sectorWrites]
      cases e : sectorWrites (pa + 1) r with
      | nil => simp only [secRead, List.foldl_cons, List.foldl_nil]; exact first
      | cons y q =>
        obtain ⟨s', m', d'⟩ := y
        rw [e] at td
        simp only
        split
        · rename_i hs
          subst hs
          simp only [secRead, List.foldl_cons]
          congr 1
          rw [← first]
          have t := td _ rfl i hi
          simp only at t
          simp only [BitVec.getLsbD_or, BitVec.extractLsb'_or, one_mask _ _ hi, byte_place b _ _ hp hi, inj]
          by_cases h1 : pa / 64 = sec
          · by_cases h2 : i = pa % 64
            · have hf : m'.getLsbD i = false := by
                cases hm : m'.getLsbD i with
                | false => rfl
                | true => have := t.1 hm; omega
              simp [h1, h2, h2 ▸ hf, h2 ▸ t.2 hf]
            · by_cases hm : m'.getLsbD i = true
              · simp [h1, h2, hm]
              · simp [h1, h2, hm]
          · simp [h1]
        · simp only [secRead, List.foldl_cons]
          rw [first]
    rw [step, ih]
    simp only [List.length_cons]
    by_cases h1 : 64 * sec + i = pa
    · have : ¬ (pa + 1 ≤ 64 * sec + i ∧ 64 * sec + i < pa + 1 + r.length) := by omega
      rw [if_neg this, if_pos h1, if_pos (by omega), h1]
      simp
    · by_cases h3 : pa + 1 ≤ 64 * sec + i ∧ 64 * sec + i < pa + 1 + r.length
      · have e : 64 * sec + i - pa = (64 * sec + i - (pa + 1)) + 1 := by omega
        rw [if_pos h3, if_pos (by omega), e]
        simp
      · rw [if_neg h3, if_neg h1, if_neg (by omega)]

/-- A store that does not overflow the gate (R21, R22): every byte it stores is then the gate's byte there, and every other
byte of the gate is as it was; nothing else changes. -/
theorem storeAt_reads (s : State) (l : Loc) (bs : List Byte) (cls va : Nat) (t : Thread)
    (h : gatePuts s.th cls (gateWrites l va bs) = some t) :
    storeAt s l bs cls va = { s with th := { s.th with gate := t.gate } } ∧
    ∀ i, i < bs.length → gateAt t (l.plus i) = some (bs.getD i 0) := by
  constructor
  · unfold storeAt
    rw [h]
    simp only
    rw [gatePuts_frame _ h]
  · intro i hi
    have hn : (l.plus i).num = l.num + i := by cases l <;> rfl
    have hs : (l.plus i).sec = l.gsec ((l.num + i) / 64) := by cases l <;> rfl
    unfold gateAt
    rw [gateByte_puts _ h _ _ (Nat.mod_lt _ (by omega)), putsRead_gateWrites, hs, hn,
      secRead_store l.gsec (gsec_inj l) _ _ (Nat.mod_lt _ (by omega))]
    have e : 64 * ((l.num + i) / 64) + (l.num + i) % 64 = l.num + i := by omega
    rw [e, if_pos (by omega)]
    congr 2
    omega

end Sys2Proof.Machine
end

