-- ==== Sys2Proof/Laws/Home.lean ====
section
/-!
SUPPORT. What a write at home, a write-back of array lines and the accesses of a held privileged instruction can change (R140, R385,
R420): memory with its poison, the focused core's array, and what leaves for other devices. Everything else stays.
-/
namespace Sys2Proof.Machine
open Sys2Proof

/-- `t` is `s` but for memory, its poison and stored checks with their counts, the focused core, writes on their way to other devices and
what readers of this core have been given. -/
def HomeOnly (s t : State) : Prop :=
  t = { s with mem := t.mem, poisoned := t.poisoned, checks := t.checks, core := t.core, out := t.out, lseq := t.lseq,
               freeCtr := t.freeCtr, wacks := t.wacks, farPoison := t.farPoison, readWait := t.readWait, rdata := t.rdata,
               regs := { s.regs with npoison := t.regs.npoison, evProd := t.regs.evProd, evlost := t.regs.evlost } }

theorem HomeOnly.refl (s : State) : HomeOnly s s := rfl

theorem HomeOnly.trans {s t u : State} (h : HomeOnly s t) (k : HomeOnly t u) : HomeOnly s u := by
  unfold HomeOnly at h k ⊢
  rw [k, h]

theorem homeOnly_ite {s a b : State} {c : Prop} [Decidable c] (ha : HomeOnly s a) (hb : HomeOnly s b) :
    HomeOnly s (if c then a else b) := by split <;> assumption

theorem homeOnly_foldl {α : Type} {f : State → α → State} (hf : ∀ s x, HomeOnly s (f s x)) (l : List α) (s : State) :
    HomeOnly s (l.foldl f s) := by
  induction l generalizing s with
  | nil => exact .refl s
  | cons x r ih => exact (hf s x).trans (ih _)

theorem HealthOnly.home {s t : State} (h : HealthOnly s t) : HomeOnly s t := by
  unfold HomeOnly
  rw [h]

theorem sendFlit_homeOnly (s : State) (dst kind cls addr : Nat) (d : List Byte) : HomeOnly s (sendFlit s dst kind cls addr d) :=
  (sendFlit_health ..).1.home

theorem homeWrite_homeOnly (s : State) (sec : Nat) (mask : BitVec 64) (data : BitVec 512) : HomeOnly s (homeWrite s sec mask data) := by
  unfold homeWrite
  exact (beforeWrite_health s sec mask).home.trans
    (homeOnly_ite (HomeOnly.trans (t := { beforeWrite s sec mask with mem := _, poisoned := _ }) rfl (tellPoison_health ..).1.home) rfl)

theorem homeStore_homeOnly (s : State) (pa : Nat) (bs : List Byte) : HomeOnly s (homeStore s pa bs) :=
  homeOnly_foldl (fun s (w : Nat × BitVec 64 × BitVec 512) => homeWrite_homeOnly s w.1 w.2.1 w.2.2) (sectorWrites pa bs) s

/-- A write sent to another device, after what this device knows of the sector's poison has been brought up to date. -/
theorem farWrite_homeOnly (s : State) (l : List (Nat × Nat)) (dev sec cls : Nat) (d : List Byte) :
    HomeOnly s (sendWrite { s with farPoison := l } dev sec cls d) := by
  have m : HomeOnly s { s with farPoison := l } := rfl
  unfold sendWrite
  exact homeOnly_ite m (HomeOnly.trans (t := { s with farPoison := l, wacks := s.wacks ++ [(dev, sec)] }) rfl (sendFlit_homeOnly ..))

theorem writeBack_homeOnly (s : State) (dev sec : Nat) (mask : BitVec 64) (data : BitVec 512) (cls : Nat) :
    HomeOnly s (writeBack s dev sec mask data cls) :=
  homeOnly_ite (.refl s) (homeOnly_ite (homeWrite_homeOnly ..) (homeOnly_ite (.refl s)
    (farWrite_homeOnly ..)))

theorem forgetAt_homeOnly (s : State) (p : Nat → Nat → List Nat → Bool) : HomeOnly s (forgetAt s p) := rfl

theorem cleanSector_homeOnly (s : State) (dev sec : Nat) (drop : Bool) : HomeOnly s (cleanSector s dev sec drop) :=
  (writeBack_homeOnly ..).trans ((homeOnly_ite (.refl _) (forgetAt_homeOnly ..)).trans rfl)

theorem cleanLine_homeOnly (s : State) (dev ln : Nat) (drop : Bool) : HomeOnly s (cleanLine s dev ln drop) := by
  unfold cleanLine
  generalize hu : (upFrom (4 * ln) 4).foldl (fun s sec => cleanSector s dev sec drop) s = u
  have h : HomeOnly s u := hu ▸ homeOnly_foldl (fun s sec => cleanSector_homeOnly s dev sec drop) _ s
  exact h.trans rfl

theorem flushRange_homeOnly (s : State) (dev pa n : Nat) : HomeOnly s (flushRange s dev pa n) :=
  homeOnly_ite (.refl s) (homeOnly_foldl (fun s ln => cleanLine_homeOnly s dev ln true) _ s)

theorem atHome_homeOnly (s : State) (l : List (Nat × Nat)) : HomeOnly s (atHome s l) :=
  homeOnly_foldl (fun s (r : Nat × Nat) => flushRange_homeOnly s (ownRank s) r.1 r.2) l s

end Sys2Proof.Machine
end

