-- ==== Sys2Proof/Laws/Outside.lean ====
section
/-!
SUPPORT. What the shared operations of an issuing bundle leave alone: home memory, its poison, the package's registers,
lowered windows, measurements, keys, images and launches (R20, R23). One lemma per operation; an instruction's proof cites
these and never unfolds the operation.
-/
namespace Sys2Proof.Machine
open Sys2Proof

/-- Whatever next state an outcome gives, the outside is as in `s`. -/
def Keeps (s : State) (o : Out) : Prop := ∀ t, o = .next t → SameOutside s t

/-- A state whose fields of the outside are the same has the same outside. -/
theorem outside_of {s t : State}
    (h : (t.mem, t.poisoned, t.checks, t.regs, t.lowered, t.meas, t.keys, t.images, t.launches) =
      (s.mem, s.poisoned, s.checks, s.regs, s.lowered, s.meas, s.keys, s.images, s.launches)) : SameOutside s t := by
  simp only [Prod.mk.injEq] at h
  obtain ⟨h1, h2, h3, h4, h5⟩ := h
  refine ⟨h1, fun sec => ?_, by rw [h4], fun h => ⟨h3.trans h, h2, h4⟩, h5⟩
  unfold secBad checkFails
  rw [h2, h3, sectorCheck_mem h1]

theorem SameOutside.refl (s : State) : SameOutside s s := outside_of rfl

theorem SameOutside.trans {s t u : State} (h : SameOutside s t) (k : SameOutside t u) : SameOutside s u := by
  obtain ⟨a1, a2, a3, a4, a5, a6, a7, a8, a9⟩ := h
  obtain ⟨b1, b2, b3, b4, b5, b6, b7, b8, b9⟩ := k
  refine ⟨b1.trans a1, fun sec => (b2 sec).trans (a2 sec), by rw [b3, a3], fun h => ?_, b5.trans a5, b6.trans a6, b7.trans a7,
    b8.trans a8, b9.trans a9⟩
  obtain ⟨c1, c2, c3⟩ := a4 h
  obtain ⟨d1, d2, d3⟩ := b4 c1
  exact ⟨d1, d2.trans c2, d3.trans c3⟩

theorem keeps_next {s t : State} (h : SameOutside s t) : Keeps s (.next t) := by
  intro u hu; cases hu; exact h

theorem keeps_trans {s t : State} {o : Out} (h : SameOutside s t) (k : Keeps t o) : Keeps s o :=
  fun u hu => h.trans (k u hu)

theorem keeps_ite {s : State} {c : Prop} [Decidable c] {a b : Out} (ha : Keeps s a) (hb : Keeps s b) :
    Keeps s (if c then a else b) := by split <;> assumption

theorem outside_ite {s a b : State} {c : Prop} [Decidable c] (ha : SameOutside s a) (hb : SameOutside s b) :
    SameOutside s (if c then a else b) := by split <;> assumption

/-- A fold of steps that each keep the outside keeps it. -/
theorem outside_foldl {α : Type} {f : State → α → State} (hf : ∀ s x, SameOutside s (f s x)) (l : List α) (s : State) :
    SameOutside s (l.foldl f s) := by
  induction l generalizing s with
  | nil => exact .refl s
  | cons x r ih => exact (hf s x).trans (ih _)

theorem raise_outside (s : State) (c : FaultCode) (a : Nat) : SameOutside s (raise s c a) := outside_of rfl
theorem block_outside (s : State) : SameOutside s (block s) := outside_of rfl
theorem putS_outside (s : State) (d : Nat) (x : Word) (c : Nat) : SameOutside s (putS s d x c) := outside_of rfl
theorem putP_outside (s : State) (d : Nat) (x : Bool) (c : Nat) : SameOutside s (putP s d x c) := outside_of rfl
theorem putH_outside (s : State) (d : Nat) (x : Handle) (c : Nat) : SameOutside s (putH s d x c) := outside_of rfl
theorem putV_outside (s : State) (cl d : Nat) (x : VReg) (c : Nat) : SameOutside s (putV s cl d x c) := outside_of rfl
theorem tick_outside (s : State) : SameOutside s (tick s) := outside_of rfl
theorem holdOp_outside (s : State) (i : Instr) (a b c : Word) (h : Handle) (l : Loc) (va : Nat) :
    SameOutside s (holdOp s i a b c h l va) := outside_of rfl
theorem mxIssue_outside (s : State) (o : MxOp) : SameOutside s (mxIssue s o) := outside_of rfl

theorem asReader_outside (s : State) (tag : List Nat) : SameOutside s (asReader s tag) := by
  unfold asReader; exact outside_ite (outside_of rfl) (.refl s)
theorem forget_outside (s : State) (p : List Nat → Bool) : SameOutside s (forget s p) := outside_of rfl
theorem spent_outside (s : State) : SameOutside s (spent s) := by
  unfold spent; exact outside_ite (forget_outside ..) (.refl s)
theorem readDone_outside (s : State) (tag : List Nat) : SameOutside s (readDone s tag) := by
  unfold readDone; exact outside_ite (forget_outside ..) (.refl s)

/-- A flit sent leaves only the device. -/
theorem sendFlit_outside (s : State) (dst kind cls addr : Nat) (d : List Byte) :
    SameOutside s (sendFlit s dst kind cls addr d) := by
  unfold sendFlit; exact outside_ite (.refl s) (outside_of rfl)

theorem askSector_outside (s : State) (d sec cls : Nat) : SameOutside s (askSector s d sec cls) := by
  unfold askSector
  exact outside_ite (.refl s) (sendFlit_outside { s with readWait := s.readWait ++ [(d, sec, cls, s.rtag)] } ..)

theorem askAll_outside (s : State) (cls : Nat) (l : List ByteSrc) : SameOutside s (askAll s cls l) := by
  unfold askAll
  exact outside_foldl (fun s x => by first | exact askSector_outside .. | (split <;> first | exact askSector_outside .. | exact outside_of rfl)) _ _

/-- A sector's check tested: if it fails the sector is poisoned and counted, and a read of it was bad before (R420). -/
theorem testSec_outside (s : State) (sec : Nat) : SameOutside s (testSec s sec) := by
  have h := testSec_health s sec
  refine ⟨testSec_mem s sec, testSec_secBad s sec, by rw [h], fun e => ?_, by rw [h], by rw [h], by rw [h], by rw [h], by rw [h]⟩
  rw [testSec_nil s sec e]
  exact ⟨e, rfl, rfl⟩

theorem testFrom_outside (s : State) (va node dev level n : Nat) : SameOutside s (testFrom s va node dev level n) := by
  induction n generalizing s node dev level with
  | zero => exact .refl s
  | succ n ih =>
    have h := testSec_outside s ((node + 8 * walkIndex va level) / 64)
    unfold testFrom
    refine outside_ite (.refl s) (outside_ite h (outside_ite (outside_ite (h.trans (testSec_outside ..))
      ((h.trans (testSec_outside ..)).trans (ih ..))) (outside_ite h (h.trans (ih ..)))))

theorem testWalk_outside (s : State) (root va : Nat) : SameOutside s (testWalk s root va) :=
  outside_ite (.refl s) (testFrom_outside ..)

/-- What a handle's use leaves alone. -/
def HKeeps (s : State) : HRes → Prop
  | .ok t _ => SameOutside s t
  | .wait t => SameOutside s t
  | .bad _ _ => True

theorem walkFor_keeps (s : State) (va : Nat) : HKeeps s (walkFor s va) := by
  unfold walkFor
  dsimp only
  have ha := (asReader_outside s [0, coOf s, cxOf s]).trans (testWalk_outside _ (rootOf s s.grp.image) va)
  split
  · exact ha
  · trivial
  · split
    · trivial
    · exact ha.trans ((spent_outside _).trans (outside_of rfl))
  · exact ha.trans ((askSector_outside ..).trans (outside_ite (block_outside _) (outside_of rfl)))

theorem noteAccess_outside (s : State) (h : Handle) : SameOutside s (noteAccess s h) := outside_of rfl

theorem useHandle_keeps (s : State) (i : Nat) : HKeeps s (useHandle s i) := by
  have hw := walkFor_keeps s (hReg s.th i).va
  unfold useHandle
  dsimp only
  split
  · revert hw
    split
    · next e => intro hw; rw [e] at hw; exact SameOutside.trans hw (outside_of rfl)
    · exact id
  · exact noteAccess_outside ..

/-- An access keeps the outside if what it goes on with does. -/
theorem withAccess_keeps {s : State} {hi n al : Nat} {off : Int} {need : Need} {k : State → Handle → Loc → Nat → Out}
    (hk : ∀ t h l va, SameOutside s t → Keeps s (k t h l va)) : Keeps s (withAccess s hi off n al need k) := by
  have hw := useHandle_keeps s hi
  unfold withAccess
  split
  · exact keeps_next (raise_outside ..)
  · next e => rw [e] at hw; exact keeps_next hw
  · next e =>
    rw [e] at hw
    split
    · exact keeps_next (SameOutside.trans hw (raise_outside ..))
    · exact hk _ _ _ _ hw

theorem withCounter_keeps {s : State} {h : BitVec 4} {x : BitVec 6} {imm : BitVec 14} {need : Need}
    {k : State → Handle → Loc → Nat → Out} (hk : ∀ t h l va, SameOutside s t → Keeps s (k t h l va)) :
    Keeps s (withCounter s h x imm need k) := by
  unfold withCounter
  exact keeps_ite (keeps_next (raise_outside ..)) (withAccess_keeps hk)

theorem slotOn_keeps {s : State} {p : BitVec 5} {o : Out} (h : Keeps s o) : Keeps s (slotOn s p o) :=
  keeps_ite h (keeps_next (.refl s))

theorem replaceMaybe_outside (s : State) (dev ln : Nat) : SameOutside s (replaceMaybe s dev ln) := by
  unfold replaceMaybe
  dsimp only
  split
  · split <;> exact outside_of rfl
  · exact outside_of rfl

theorem tested_outside (s : State) (l : List ByteSrc) : SameOutside s (tested s l) := by
  unfold tested
  exact outside_ite (.refl s) (outside_foldl (fun s x => outside_ite (.refl s) (testSec_outside ..)) _ _)

theorem touchCopy_outside (s : State) (ch a : Nat) : SameOutside s (touchCopy s ch a) := by
  unfold touchCopy
  dsimp only
  split
  · exact .refl s
  · next c _ =>
    have h : SameOutside s (tick (if c.got.isSome then s else tested s c.src)) :=
      (outside_ite (.refl s) (tested_outside ..)).trans (tick_outside _)
    refine outside_ite (.refl s) (outside_ite ?_ h)
    split
    · exact h.trans (outside_of rfl)
    · exact h

theorem touchAll_outside (s : State) (l : List ByteSrc) : SameOutside s (touchAll s l) := by
  unfold touchAll
  refine outside_foldl (fun s x => ?_) _ _
  split
  · exact outside_foldl (fun s x => touchCopy_outside ..) _ _
  · exact outside_of rfl

theorem copiesRead_outside (s : State) (cx cls : Nat) (q : Nat × Nat) : SameOutside s (copiesRead s cx cls q) := by
  unfold copiesRead
  exact outside_ite (.refl s) ((outside_foldl (fun s x => outside_ite (tested_outside ..) (.refl s)) _ _).trans (outside_of rfl))

theorem startLoad_outside (s : State) (r : RegName) (l : List ByteSrc) (cls : Nat) (fin : LoadFin) (addrs : List Nat) (lc : Nat) :
    SameOutside s (startLoad s r l cls fin addrs lc) := by
  unfold startLoad
  have h1 : SameOutside s (touchAll ((srcLines l).foldl (fun s x => replaceMaybe s x.1 x.2) s) l) :=
    (outside_foldl (fun s x => replaceMaybe_outside ..) _ _).trans (touchAll_outside ..)
  exact h1.trans (outside_ite ((copiesRead_outside ..).trans (outside_ite ((tested_outside ..).trans (raise_outside ..)) (outside_of rfl)))
    (outside_of rfl))

theorem loadAt_outside (s : State) (r : RegName) (l : Loc) (n cls : Nat) (fin : LoadFin) (addr lc : Nat) :
    SameOutside s (loadAt s r l n cls fin addr lc) := startLoad_outside ..

theorem storeAt_outside (s : State) (l : Loc) (bs : List Byte) (cls va : Nat) : SameOutside s (storeAt s l bs cls va) := by
  unfold storeAt; split <;> exact outside_of rfl

theorem storeRuns_outside (s : State) (cls run : Nat) (l : List (Loc × Nat)) (bs : List Byte) :
    SameOutside s (storeRuns s cls run l bs) := by
  induction l generalizing s bs with
  | nil => exact outside_of rfl
  | cons r rs ih => exact (storeAt_outside ..).trans (ih _ _)

/-- What the checks of a side leave alone. -/
def SideKeeps (s : State) : SideRes → Prop
  | .ok t _ => SameOutside s t
  | .wait t => SameOutside s t
  | .bad _ _ => True

theorem sideRuns_keeps (s : State) (h : Handle) (sp : Spaces) (b : Int) (run : Nat) (offs : List Int) :
    SideKeeps s (sideRuns s h sp b run offs) := by
  unfold sideRuns
  dsimp only
  repeat' split
  all_goals first | trivial | exact SameOutside.refl _

theorem sideHandle_keeps (s : State) (hi : Nat) (sp : Spaces) (need : Need) : HKeeps s (sideHandle s hi sp need) := by
  have hw := useHandle_keeps s hi
  unfold sideHandle
  split
  · next e =>
    rw [e] at hw
    repeat' split
    all_goals trivial
  · exact hw

theorem SideKeeps.of {s t : State} {r : SideRes} (h : SameOutside s t) (k : SideKeeps t r) : SideKeeps s r := by
  cases r
  · exact h.trans k
  · trivial
  · exact h.trans k

theorem side_keeps (s : State) (hi : Nat) (x : BitVec 6) (d : BitVec 512) (sp : Spaces) (need : Need) :
    SideKeeps s (side s hi x d sp need) := by
  have hw := sideHandle_keeps s hi sp need
  unfold side
  split
  · trivial
  · next e => rw [e] at hw; exact hw
  · next e =>
    rw [e] at hw
    split
    · trivial
    · exact .of hw (sideRuns_keeps ..)

theorem sideFlat_keeps (s : State) (hi : Nat) (x : BitVec 6) (n : Nat) (sp : Spaces) (need : Need) :
    SideKeeps s (sideFlat s hi x n sp need) := by
  have hw := sideHandle_keeps s hi sp need
  unfold sideFlat
  split
  · trivial
  · next e => rw [e] at hw; exact hw
  · next e => rw [e] at hw; exact .of hw (sideRuns_keeps ..)

theorem withSide_keeps {s u : State} {r : SideRes} {k : State → Side → Out} (hu : SameOutside u s) (hr : SideKeeps u r)
    (hk : ∀ t x, SameOutside u t → Keeps u (k t x)) : Keeps u (withSide s r k) := by
  unfold withSide
  split
  · exact keeps_next (hu.trans (raise_outside ..))
  · exact keeps_next hr
  · exact hk _ _ hr

theorem ringPush_outside (s : State) (q : Nat) : SameOutside s (ringPush s q).1 := outside_of rfl
theorem stallOnce_outside (s : State) (key : Nat) : SameOutside s (stallOnce s key) := by
  unfold stallOnce; exact outside_ite (outside_of rfl) (outside_of rfl)
theorem stallOn_outside (s : State) (key : Nat) (c : FaultCode) : SameOutside s (stallOn s key c) := by
  unfold stallOn
  exact (stallOnce_outside s key).trans (outside_ite (block_outside _) (raise_outside ..))

end Sys2Proof.Machine
end

