-- ==== Sys2Proof/Laws/State.lean ====
section
/-!
SUPPORT. What the updates that every meaning is made of leave of a state: one lemma for each field and update, all by
computation. No proof needs to unfold a record update.
-/
namespace Sys2Proof.Machine
open Sys2Proof

/-- Recognising a fault changes a thread in nothing but its fault. -/
theorem raiseTh_eq (t : Thread) (f : FaultInfo) : raiseTh t f = { t with fault := (raiseTh t f).fault } := by
  unfold raiseTh
  split
  · rfl
  · split <;> rfl

@[simp] theorem putS_cur (s : State) (d : Nat) (x : Word) (c : Nat) : (putS s d x c).cur = s.cur := rfl
@[simp] theorem putS_grp (s : State) (d : Nat) (x : Word) (c : Nat) : (putS s d x c).grp = s.grp := rfl
@[simp] theorem putS_core (s : State) (d : Nat) (x : Word) (c : Nat) : (putS s d x c).core = s.core := rfl
@[simp] theorem putS_bi (s : State) (d : Nat) (x : Word) (c : Nat) : (putS s d x c).bi = s.bi := rfl
@[simp] theorem putS_cores (s : State) (d : Nat) (x : Word) (c : Nat) : (putS s d x c).cores = s.cores := rfl
@[simp] theorem putS_bcores (s : State) (d : Nat) (x : Word) (c : Nat) : (putS s d x c).bcores = s.bcores := rfl
@[simp] theorem putS_mem (s : State) (d : Nat) (x : Word) (c : Nat) : (putS s d x c).mem = s.mem := rfl
@[simp] theorem putS_poisoned (s : State) (d : Nat) (x : Word) (c : Nat) : (putS s d x c).poisoned = s.poisoned := rfl
@[simp] theorem putS_checks (s : State) (d : Nat) (x : Word) (c : Nat) : (putS s d x c).checks = s.checks := rfl
@[simp] theorem putS_lowered (s : State) (d : Nat) (x : Word) (c : Nat) : (putS s d x c).lowered = s.lowered := rfl
@[simp] theorem putS_farLow (s : State) (d : Nat) (x : Word) (c : Nat) : (putS s d x c).farLow = s.farLow := rfl
@[simp] theorem putS_planes (s : State) (d : Nat) (x : Word) (c : Nat) : (putS s d x c).planes = s.planes := rfl
@[simp] theorem putS_regs (s : State) (d : Nat) (x : Word) (c : Nat) : (putS s d x c).regs = s.regs := rfl
@[simp] theorem putS_spway (s : State) (d : Nat) (x : Word) (c : Nat) : (putS s d x c).spway = s.spway := rfl
@[simp] theorem putS_mbox (s : State) (d : Nat) (x : Word) (c : Nat) : (putS s d x c).mbox = s.mbox := rfl
@[simp] theorem putS_meas (s : State) (d : Nat) (x : Word) (c : Nat) : (putS s d x c).meas = s.meas := rfl
@[simp] theorem putS_keys (s : State) (d : Nat) (x : Word) (c : Nat) : (putS s d x c).keys = s.keys := rfl
@[simp] theorem putS_images (s : State) (d : Nat) (x : Word) (c : Nat) : (putS s d x c).images = s.images := rfl
@[simp] theorem putS_launches (s : State) (d : Nat) (x : Word) (c : Nat) : (putS s d x c).launches = s.launches := rfl
@[simp] theorem putS_nextId (s : State) (d : Nat) (x : Word) (c : Nat) : (putS s d x c).nextId = s.nextId := rfl
@[simp] theorem putS_boxes (s : State) (d : Nat) (x : Word) (c : Nat) : (putS s d x c).boxes = s.boxes := rfl
@[simp] theorem putS_returned (s : State) (d : Nat) (x : Word) (c : Nat) : (putS s d x c).returned = s.returned := rfl
@[simp] theorem putS_saved (s : State) (d : Nat) (x : Word) (c : Nat) : (putS s d x c).saved = s.saved := rfl
@[simp] theorem putS_reports (s : State) (d : Nat) (x : Word) (c : Nat) : (putS s d x c).reports = s.reports := rfl
@[simp] theorem putS_awaiting (s : State) (d : Nat) (x : Word) (c : Nat) : (putS s d x c).awaiting = s.awaiting := rfl
@[simp] theorem putS_kills (s : State) (d : Nat) (x : Word) (c : Nat) : (putS s d x c).kills = s.kills := rfl
@[simp] theorem putS_awaitQ (s : State) (d : Nat) (x : Word) (c : Nat) : (putS s d x c).awaitQ = s.awaitQ := rfl
@[simp] theorem putS_jobs (s : State) (d : Nat) (x : Word) (c : Nat) : (putS s d x c).jobs = s.jobs := rfl
@[simp] theorem putS_pend (s : State) (d : Nat) (x : Word) (c : Nat) : (putS s d x c).pend = s.pend := rfl
@[simp] theorem putS_watches (s : State) (d : Nat) (x : Word) (c : Nat) : (putS s d x c).watches = s.watches := rfl
@[simp] theorem putS_rtag (s : State) (d : Nat) (x : Word) (c : Nat) : (putS s d x c).rtag = s.rtag := rfl
@[simp] theorem putS_readWait (s : State) (d : Nat) (x : Word) (c : Nat) : (putS s d x c).readWait = s.readWait := rfl
@[simp] theorem putS_rdata (s : State) (d : Nat) (x : Word) (c : Nat) : (putS s d x c).rdata = s.rdata := rfl
@[simp] theorem putS_farPoison (s : State) (d : Nat) (x : Word) (c : Nat) : (putS s d x c).farPoison = s.farPoison := rfl
@[simp] theorem putS_earlyAdds (s : State) (d : Nat) (x : Word) (c : Nat) : (putS s d x c).earlyAdds = s.earlyAdds := rfl
@[simp] theorem putS_shoots (s : State) (d : Nat) (x : Word) (c : Nat) : (putS s d x c).shoots = s.shoots := rfl
@[simp] theorem putS_farArr (s : State) (d : Nat) (x : Word) (c : Nat) : (putS s d x c).farArr = s.farArr := rfl
@[simp] theorem putS_colls (s : State) (d : Nat) (x : Word) (c : Nat) : (putS s d x c).colls = s.colls := rfl
@[simp] theorem putS_encl (s : State) (d : Nat) (x : Word) (c : Nat) : (putS s d x c).encl = s.encl := rfl
@[simp] theorem putS_chans (s : State) (d : Nat) (x : Word) (c : Nat) : (putS s d x c).chans = s.chans := rfl
@[simp] theorem putS_sess (s : State) (d : Nat) (x : Word) (c : Nat) : (putS s d x c).sess = s.sess := rfl
@[simp] theorem putS_fuses (s : State) (d : Nat) (x : Word) (c : Nat) : (putS s d x c).fuses = s.fuses := rfl
@[simp] theorem putS_boot (s : State) (d : Nat) (x : Word) (c : Nat) : (putS s d x c).boot = s.boot := rfl
@[simp] theorem putS_power (s : State) (d : Nat) (x : Word) (c : Nat) : (putS s d x c).power = s.power := rfl
@[simp] theorem putS_clock (s : State) (d : Nat) (x : Word) (c : Nat) : (putS s d x c).clock = s.clock := rfl
@[simp] theorem putS_agenda (s : State) (d : Nat) (x : Word) (c : Nat) : (putS s d x c).agenda = s.agenda := rfl
@[simp] theorem putS_hostReads (s : State) (d : Nat) (x : Word) (c : Nat) : (putS s d x c).hostReads = s.hostReads := rfl
@[simp] theorem putS_out (s : State) (d : Nat) (x : Word) (c : Nat) : (putS s d x c).out = s.out := rfl
@[simp] theorem putS_freeCtr (s : State) (d : Nat) (x : Word) (c : Nat) : (putS s d x c).freeCtr = s.freeCtr := rfl
@[simp] theorem putS_th_pc (s : State) (d : Nat) (x : Word) (c : Nat) : (putS s d x c).th.pc = s.th.pc := rfl
@[simp] theorem putS_th_pos (s : State) (d : Nat) (x : Word) (c : Nat) : (putS s d x c).th.pos = s.th.pos := rfl
@[simp] theorem putS_th_s (s : State) (d : Nat) (x : Word) (c : Nat) : (putS s d x c).th.s = s.th.s := rfl
@[simp] theorem putS_th_p (s : State) (d : Nat) (x : Word) (c : Nat) : (putS s d x c).th.p = s.th.p := rfl
@[simp] theorem putS_th_h (s : State) (d : Nat) (x : Word) (c : Nat) : (putS s d x c).th.h = s.th.h := rfl
@[simp] theorem putS_th_fr (s : State) (d : Nat) (x : Word) (c : Nat) : (putS s d x c).th.fr = s.th.fr := rfl
@[simp] theorem putS_th_n (s : State) (d : Nat) (x : Word) (c : Nat) : (putS s d x c).th.n = s.th.n := rfl
@[simp] theorem putS_th_w (s : State) (d : Nat) (x : Word) (c : Nat) : (putS s d x c).th.w = s.th.w := rfl
@[simp] theorem putS_th_v (s : State) (d : Nat) (x : Word) (c : Nat) : (putS s d x c).th.v = s.th.v := rfl
@[simp] theorem putS_th_fmt (s : State) (d : Nat) (x : Word) (c : Nat) : (putS s d x c).th.fmt = s.th.fmt := rfl
@[simp] theorem putS_th_dom (s : State) (d : Nat) (x : Word) (c : Nat) : (putS s d x c).th.dom = s.th.dom := rfl
@[simp] theorem putS_th_mpc (s : State) (d : Nat) (x : Word) (c : Nat) : (putS s d x c).th.mpc = s.th.mpc := rfl
@[simp] theorem putS_th_xpc (s : State) (d : Nat) (x : Word) (c : Nat) : (putS s d x c).th.xpc = s.th.xpc := rfl
@[simp] theorem putS_th_xcause (s : State) (d : Nat) (x : Word) (c : Nat) : (putS s d x c).th.xcause = s.th.xcause := rfl
@[simp] theorem putS_th_seg (s : State) (d : Nat) (x : Word) (c : Nat) : (putS s d x c).th.seg = s.th.seg := rfl
@[simp] theorem putS_th_insys (s : State) (d : Nat) (x : Word) (c : Nat) : (putS s d x c).th.insys = s.th.insys := rfl
@[simp] theorem putS_th_gate (s : State) (d : Nat) (x : Word) (c : Nat) : (putS s d x c).th.gate = s.th.gate := rfl
@[simp] theorem putS_th_fences (s : State) (d : Nat) (x : Word) (c : Nat) : (putS s d x c).th.fences = s.th.fences := rfl
@[simp] theorem putS_th_ckpt (s : State) (d : Nat) (x : Word) (c : Nat) : (putS s d x c).th.ckpt = s.th.ckpt := rfl
@[simp] theorem putS_th_fault (s : State) (d : Nat) (x : Word) (c : Nat) : (putS s d x c).th.fault = s.th.fault := rfl
@[simp] theorem putS_th_run (s : State) (d : Nat) (x : Word) (c : Nat) : (putS s d x c).th.run = s.th.run := rfl
@[simp] theorem putS_th_marking (s : State) (d : Nat) (x : Word) (c : Nat) : (putS s d x c).th.marking = s.th.marking := rfl
@[simp] theorem putS_th_committed (s : State) (d : Nat) (x : Word) (c : Nat) : (putS s d x c).th.committed = s.th.committed := rfl
@[simp] theorem putS_th_heldPriv (s : State) (d : Nat) (x : Word) (c : Nat) : (putS s d x c).th.heldPriv = s.th.heldPriv := rfl
@[simp] theorem putS_th_heldOp (s : State) (d : Nat) (x : Word) (c : Nat) : (putS s d x c).th.heldOp = s.th.heldOp := rfl
@[simp] theorem putS_th_heldCpyo (s : State) (d : Nat) (x : Word) (c : Nat) : (putS s d x c).th.heldCpyo = s.th.heldCpyo := rfl
@[simp] theorem putS_th_intr (s : State) (d : Nat) (x : Word) (c : Nat) : (putS s d x c).th.intr = s.th.intr := rfl
@[simp] theorem putS_th_idist (s : State) (d : Nat) (x : Word) (c : Nat) : (putS s d x c).th.idist = s.th.idist := rfl
@[simp] theorem putS_th_defer (s : State) (d : Nat) (x : Word) (c : Nat) : (putS s d x c).th.defer = s.th.defer := rfl
@[simp] theorem putS_th_deferN (s : State) (d : Nat) (x : Word) (c : Nat) : (putS s d x c).th.deferN = s.th.deferN := rfl
@[simp] theorem putS_th_used (s : State) (d : Nat) (x : Word) (c : Nat) : (putS s d x c).th.used = s.th.used := rfl

@[simp] theorem putP_cur (s : State) (d : Nat) (x : Bool) (c : Nat) : (putP s d x c).cur = s.cur := rfl
@[simp] theorem putP_grp (s : State) (d : Nat) (x : Bool) (c : Nat) : (putP s d x c).grp = s.grp := rfl
@[simp] theorem putP_core (s : State) (d : Nat) (x : Bool) (c : Nat) : (putP s d x c).core = s.core := rfl
@[simp] theorem putP_bi (s : State) (d : Nat) (x : Bool) (c : Nat) : (putP s d x c).bi = s.bi := rfl
@[simp] theorem putP_cores (s : State) (d : Nat) (x : Bool) (c : Nat) : (putP s d x c).cores = s.cores := rfl
@[simp] theorem putP_bcores (s : State) (d : Nat) (x : Bool) (c : Nat) : (putP s d x c).bcores = s.bcores := rfl
@[simp] theorem putP_mem (s : State) (d : Nat) (x : Bool) (c : Nat) : (putP s d x c).mem = s.mem := rfl
@[simp] theorem putP_poisoned (s : State) (d : Nat) (x : Bool) (c : Nat) : (putP s d x c).poisoned = s.poisoned := rfl
@[simp] theorem putP_checks (s : State) (d : Nat) (x : Bool) (c : Nat) : (putP s d x c).checks = s.checks := rfl
@[simp] theorem putP_lowered (s : State) (d : Nat) (x : Bool) (c : Nat) : (putP s d x c).lowered = s.lowered := rfl
@[simp] theorem putP_farLow (s : State) (d : Nat) (x : Bool) (c : Nat) : (putP s d x c).farLow = s.farLow := rfl
@[simp] theorem putP_planes (s : State) (d : Nat) (x : Bool) (c : Nat) : (putP s d x c).planes = s.planes := rfl
@[simp] theorem putP_regs (s : State) (d : Nat) (x : Bool) (c : Nat) : (putP s d x c).regs = s.regs := rfl
@[simp] theorem putP_spway (s : State) (d : Nat) (x : Bool) (c : Nat) : (putP s d x c).spway = s.spway := rfl
@[simp] theorem putP_mbox (s : State) (d : Nat) (x : Bool) (c : Nat) : (putP s d x c).mbox = s.mbox := rfl
@[simp] theorem putP_meas (s : State) (d : Nat) (x : Bool) (c : Nat) : (putP s d x c).meas = s.meas := rfl
@[simp] theorem putP_keys (s : State) (d : Nat) (x : Bool) (c : Nat) : (putP s d x c).keys = s.keys := rfl
@[simp] theorem putP_images (s : State) (d : Nat) (x : Bool) (c : Nat) : (putP s d x c).images = s.images := rfl
@[simp] theorem putP_launches (s : State) (d : Nat) (x : Bool) (c : Nat) : (putP s d x c).launches = s.launches := rfl
@[simp] theorem putP_nextId (s : State) (d : Nat) (x : Bool) (c : Nat) : (putP s d x c).nextId = s.nextId := rfl
@[simp] theorem putP_boxes (s : State) (d : Nat) (x : Bool) (c : Nat) : (putP s d x c).boxes = s.boxes := rfl
@[simp] theorem putP_returned (s : State) (d : Nat) (x : Bool) (c : Nat) : (putP s d x c).returned = s.returned := rfl
@[simp] theorem putP_saved (s : State) (d : Nat) (x : Bool) (c : Nat) : (putP s d x c).saved = s.saved := rfl
@[simp] theorem putP_reports (s : State) (d : Nat) (x : Bool) (c : Nat) : (putP s d x c).reports = s.reports := rfl
@[simp] theorem putP_awaiting (s : State) (d : Nat) (x : Bool) (c : Nat) : (putP s d x c).awaiting = s.awaiting := rfl
@[simp] theorem putP_kills (s : State) (d : Nat) (x : Bool) (c : Nat) : (putP s d x c).kills = s.kills := rfl
@[simp] theorem putP_awaitQ (s : State) (d : Nat) (x : Bool) (c : Nat) : (putP s d x c).awaitQ = s.awaitQ := rfl
@[simp] theorem putP_jobs (s : State) (d : Nat) (x : Bool) (c : Nat) : (putP s d x c).jobs = s.jobs := rfl
@[simp] theorem putP_pend (s : State) (d : Nat) (x : Bool) (c : Nat) : (putP s d x c).pend = s.pend := rfl
@[simp] theorem putP_watches (s : State) (d : Nat) (x : Bool) (c : Nat) : (putP s d x c).watches = s.watches := rfl
@[simp] theorem putP_rtag (s : State) (d : Nat) (x : Bool) (c : Nat) : (putP s d x c).rtag = s.rtag := rfl
@[simp] theorem putP_readWait (s : State) (d : Nat) (x : Bool) (c : Nat) : (putP s d x c).readWait = s.readWait := rfl
@[simp] theorem putP_rdata (s : State) (d : Nat) (x : Bool) (c : Nat) : (putP s d x c).rdata = s.rdata := rfl
@[simp] theorem putP_farPoison (s : State) (d : Nat) (x : Bool) (c : Nat) : (putP s d x c).farPoison = s.farPoison := rfl
@[simp] theorem putP_earlyAdds (s : State) (d : Nat) (x : Bool) (c : Nat) : (putP s d x c).earlyAdds = s.earlyAdds := rfl
@[simp] theorem putP_shoots (s : State) (d : Nat) (x : Bool) (c : Nat) : (putP s d x c).shoots = s.shoots := rfl
@[simp] theorem putP_farArr (s : State) (d : Nat) (x : Bool) (c : Nat) : (putP s d x c).farArr = s.farArr := rfl
@[simp] theorem putP_colls (s : State) (d : Nat) (x : Bool) (c : Nat) : (putP s d x c).colls = s.colls := rfl
@[simp] theorem putP_encl (s : State) (d : Nat) (x : Bool) (c : Nat) : (putP s d x c).encl = s.encl := rfl
@[simp] theorem putP_chans (s : State) (d : Nat) (x : Bool) (c : Nat) : (putP s d x c).chans = s.chans := rfl
@[simp] theorem putP_sess (s : State) (d : Nat) (x : Bool) (c : Nat) : (putP s d x c).sess = s.sess := rfl
@[simp] theorem putP_fuses (s : State) (d : Nat) (x : Bool) (c : Nat) : (putP s d x c).fuses = s.fuses := rfl
@[simp] theorem putP_boot (s : State) (d : Nat) (x : Bool) (c : Nat) : (putP s d x c).boot = s.boot := rfl
@[simp] theorem putP_power (s : State) (d : Nat) (x : Bool) (c : Nat) : (putP s d x c).power = s.power := rfl
@[simp] theorem putP_clock (s : State) (d : Nat) (x : Bool) (c : Nat) : (putP s d x c).clock = s.clock := rfl
@[simp] theorem putP_agenda (s : State) (d : Nat) (x : Bool) (c : Nat) : (putP s d x c).agenda = s.agenda := rfl
@[simp] theorem putP_hostReads (s : State) (d : Nat) (x : Bool) (c : Nat) : (putP s d x c).hostReads = s.hostReads := rfl
@[simp] theorem putP_out (s : State) (d : Nat) (x : Bool) (c : Nat) : (putP s d x c).out = s.out := rfl
@[simp] theorem putP_freeCtr (s : State) (d : Nat) (x : Bool) (c : Nat) : (putP s d x c).freeCtr = s.freeCtr := rfl
@[simp] theorem putP_th_pc (s : State) (d : Nat) (x : Bool) (c : Nat) : (putP s d x c).th.pc = s.th.pc := rfl
@[simp] theorem putP_th_pos (s : State) (d : Nat) (x : Bool) (c : Nat) : (putP s d x c).th.pos = s.th.pos := rfl
@[simp] theorem putP_th_s (s : State) (d : Nat) (x : Bool) (c : Nat) : (putP s d x c).th.s = s.th.s := rfl
@[simp] theorem putP_th_p (s : State) (d : Nat) (x : Bool) (c : Nat) : (putP s d x c).th.p = s.th.p := rfl
@[simp] theorem putP_th_h (s : State) (d : Nat) (x : Bool) (c : Nat) : (putP s d x c).th.h = s.th.h := rfl
@[simp] theorem putP_th_fr (s : State) (d : Nat) (x : Bool) (c : Nat) : (putP s d x c).th.fr = s.th.fr := rfl
@[simp] theorem putP_th_n (s : State) (d : Nat) (x : Bool) (c : Nat) : (putP s d x c).th.n = s.th.n := rfl
@[simp] theorem putP_th_w (s : State) (d : Nat) (x : Bool) (c : Nat) : (putP s d x c).th.w = s.th.w := rfl
@[simp] theorem putP_th_v (s : State) (d : Nat) (x : Bool) (c : Nat) : (putP s d x c).th.v = s.th.v := rfl
@[simp] theorem putP_th_fmt (s : State) (d : Nat) (x : Bool) (c : Nat) : (putP s d x c).th.fmt = s.th.fmt := rfl
@[simp] theorem putP_th_dom (s : State) (d : Nat) (x : Bool) (c : Nat) : (putP s d x c).th.dom = s.th.dom := rfl
@[simp] theorem putP_th_mpc (s : State) (d : Nat) (x : Bool) (c : Nat) : (putP s d x c).th.mpc = s.th.mpc := rfl
@[simp] theorem putP_th_xpc (s : State) (d : Nat) (x : Bool) (c : Nat) : (putP s d x c).th.xpc = s.th.xpc := rfl
@[simp] theorem putP_th_xcause (s : State) (d : Nat) (x : Bool) (c : Nat) : (putP s d x c).th.xcause = s.th.xcause := rfl
@[simp] theorem putP_th_seg (s : State) (d : Nat) (x : Bool) (c : Nat) : (putP s d x c).th.seg = s.th.seg := rfl
@[simp] theorem putP_th_insys (s : State) (d : Nat) (x : Bool) (c : Nat) : (putP s d x c).th.insys = s.th.insys := rfl
@[simp] theorem putP_th_gate (s : State) (d : Nat) (x : Bool) (c : Nat) : (putP s d x c).th.gate = s.th.gate := rfl
@[simp] theorem putP_th_fences (s : State) (d : Nat) (x : Bool) (c : Nat) : (putP s d x c).th.fences = s.th.fences := rfl
@[simp] theorem putP_th_ckpt (s : State) (d : Nat) (x : Bool) (c : Nat) : (putP s d x c).th.ckpt = s.th.ckpt := rfl
@[simp] theorem putP_th_fault (s : State) (d : Nat) (x : Bool) (c : Nat) : (putP s d x c).th.fault = s.th.fault := rfl
@[simp] theorem putP_th_run (s : State) (d : Nat) (x : Bool) (c : Nat) : (putP s d x c).th.run = s.th.run := rfl
@[simp] theorem putP_th_marking (s : State) (d : Nat) (x : Bool) (c : Nat) : (putP s d x c).th.marking = s.th.marking := rfl
@[simp] theorem putP_th_committed (s : State) (d : Nat) (x : Bool) (c : Nat) : (putP s d x c).th.committed = s.th.committed := rfl
@[simp] theorem putP_th_heldPriv (s : State) (d : Nat) (x : Bool) (c : Nat) : (putP s d x c).th.heldPriv = s.th.heldPriv := rfl
@[simp] theorem putP_th_heldOp (s : State) (d : Nat) (x : Bool) (c : Nat) : (putP s d x c).th.heldOp = s.th.heldOp := rfl
@[simp] theorem putP_th_heldCpyo (s : State) (d : Nat) (x : Bool) (c : Nat) : (putP s d x c).th.heldCpyo = s.th.heldCpyo := rfl
@[simp] theorem putP_th_intr (s : State) (d : Nat) (x : Bool) (c : Nat) : (putP s d x c).th.intr = s.th.intr := rfl
@[simp] theorem putP_th_idist (s : State) (d : Nat) (x : Bool) (c : Nat) : (putP s d x c).th.idist = s.th.idist := rfl
@[simp] theorem putP_th_defer (s : State) (d : Nat) (x : Bool) (c : Nat) : (putP s d x c).th.defer = s.th.defer := rfl
@[simp] theorem putP_th_deferN (s : State) (d : Nat) (x : Bool) (c : Nat) : (putP s d x c).th.deferN = s.th.deferN := rfl
@[simp] theorem putP_th_used (s : State) (d : Nat) (x : Bool) (c : Nat) : (putP s d x c).th.used = s.th.used := rfl

@[simp] theorem putH_cur (s : State) (d : Nat) (x : Handle) (c : Nat) : (putH s d x c).cur = s.cur := rfl
@[simp] theorem putH_grp (s : State) (d : Nat) (x : Handle) (c : Nat) : (putH s d x c).grp = s.grp := rfl
@[simp] theorem putH_core (s : State) (d : Nat) (x : Handle) (c : Nat) : (putH s d x c).core = s.core := rfl
@[simp] theorem putH_bi (s : State) (d : Nat) (x : Handle) (c : Nat) : (putH s d x c).bi = s.bi := rfl
@[simp] theorem putH_cores (s : State) (d : Nat) (x : Handle) (c : Nat) : (putH s d x c).cores = s.cores := rfl
@[simp] theorem putH_bcores (s : State) (d : Nat) (x : Handle) (c : Nat) : (putH s d x c).bcores = s.bcores := rfl
@[simp] theorem putH_mem (s : State) (d : Nat) (x : Handle) (c : Nat) : (putH s d x c).mem = s.mem := rfl
@[simp] theorem putH_poisoned (s : State) (d : Nat) (x : Handle) (c : Nat) : (putH s d x c).poisoned = s.poisoned := rfl
@[simp] theorem putH_checks (s : State) (d : Nat) (x : Handle) (c : Nat) : (putH s d x c).checks = s.checks := rfl
@[simp] theorem putH_lowered (s : State) (d : Nat) (x : Handle) (c : Nat) : (putH s d x c).lowered = s.lowered := rfl
@[simp] theorem putH_farLow (s : State) (d : Nat) (x : Handle) (c : Nat) : (putH s d x c).farLow = s.farLow := rfl
@[simp] theorem putH_planes (s : State) (d : Nat) (x : Handle) (c : Nat) : (putH s d x c).planes = s.planes := rfl
@[simp] theorem putH_regs (s : State) (d : Nat) (x : Handle) (c : Nat) : (putH s d x c).regs = s.regs := rfl
@[simp] theorem putH_spway (s : State) (d : Nat) (x : Handle) (c : Nat) : (putH s d x c).spway = s.spway := rfl
@[simp] theorem putH_mbox (s : State) (d : Nat) (x : Handle) (c : Nat) : (putH s d x c).mbox = s.mbox := rfl
@[simp] theorem putH_meas (s : State) (d : Nat) (x : Handle) (c : Nat) : (putH s d x c).meas = s.meas := rfl
@[simp] theorem putH_keys (s : State) (d : Nat) (x : Handle) (c : Nat) : (putH s d x c).keys = s.keys := rfl
@[simp] theorem putH_images (s : State) (d : Nat) (x : Handle) (c : Nat) : (putH s d x c).images = s.images := rfl
@[simp] theorem putH_launches (s : State) (d : Nat) (x : Handle) (c : Nat) : (putH s d x c).launches = s.launches := rfl
@[simp] theorem putH_nextId (s : State) (d : Nat) (x : Handle) (c : Nat) : (putH s d x c).nextId = s.nextId := rfl
@[simp] theorem putH_boxes (s : State) (d : Nat) (x : Handle) (c : Nat) : (putH s d x c).boxes = s.boxes := rfl
@[simp] theorem putH_returned (s : State) (d : Nat) (x : Handle) (c : Nat) : (putH s d x c).returned = s.returned := rfl
@[simp] theorem putH_saved (s : State) (d : Nat) (x : Handle) (c : Nat) : (putH s d x c).saved = s.saved := rfl
@[simp] theorem putH_reports (s : State) (d : Nat) (x : Handle) (c : Nat) : (putH s d x c).reports = s.reports := rfl
@[simp] theorem putH_awaiting (s : State) (d : Nat) (x : Handle) (c : Nat) : (putH s d x c).awaiting = s.awaiting := rfl
@[simp] theorem putH_kills (s : State) (d : Nat) (x : Handle) (c : Nat) : (putH s d x c).kills = s.kills := rfl
@[simp] theorem putH_awaitQ (s : State) (d : Nat) (x : Handle) (c : Nat) : (putH s d x c).awaitQ = s.awaitQ := rfl
@[simp] theorem putH_jobs (s : State) (d : Nat) (x : Handle) (c : Nat) : (putH s d x c).jobs = s.jobs := rfl
@[simp] theorem putH_pend (s : State) (d : Nat) (x : Handle) (c : Nat) : (putH s d x c).pend = s.pend := rfl
@[simp] theorem putH_watches (s : State) (d : Nat) (x : Handle) (c : Nat) : (putH s d x c).watches = s.watches := rfl
@[simp] theorem putH_rtag (s : State) (d : Nat) (x : Handle) (c : Nat) : (putH s d x c).rtag = s.rtag := rfl
@[simp] theorem putH_readWait (s : State) (d : Nat) (x : Handle) (c : Nat) : (putH s d x c).readWait = s.readWait := rfl
@[simp] theorem putH_rdata (s : State) (d : Nat) (x : Handle) (c : Nat) : (putH s d x c).rdata = s.rdata := rfl
@[simp] theorem putH_farPoison (s : State) (d : Nat) (x : Handle) (c : Nat) : (putH s d x c).farPoison = s.farPoison := rfl
@[simp] theorem putH_earlyAdds (s : State) (d : Nat) (x : Handle) (c : Nat) : (putH s d x c).earlyAdds = s.earlyAdds := rfl
@[simp] theorem putH_shoots (s : State) (d : Nat) (x : Handle) (c : Nat) : (putH s d x c).shoots = s.shoots := rfl
@[simp] theorem putH_farArr (s : State) (d : Nat) (x : Handle) (c : Nat) : (putH s d x c).farArr = s.farArr := rfl
@[simp] theorem putH_colls (s : State) (d : Nat) (x : Handle) (c : Nat) : (putH s d x c).colls = s.colls := rfl
@[simp] theorem putH_encl (s : State) (d : Nat) (x : Handle) (c : Nat) : (putH s d x c).encl = s.encl := rfl
@[simp] theorem putH_chans (s : State) (d : Nat) (x : Handle) (c : Nat) : (putH s d x c).chans = s.chans := rfl
@[simp] theorem putH_sess (s : State) (d : Nat) (x : Handle) (c : Nat) : (putH s d x c).sess = s.sess := rfl
@[simp] theorem putH_fuses (s : State) (d : Nat) (x : Handle) (c : Nat) : (putH s d x c).fuses = s.fuses := rfl
@[simp] theorem putH_boot (s : State) (d : Nat) (x : Handle) (c : Nat) : (putH s d x c).boot = s.boot := rfl
@[simp] theorem putH_power (s : State) (d : Nat) (x : Handle) (c : Nat) : (putH s d x c).power = s.power := rfl
@[simp] theorem putH_clock (s : State) (d : Nat) (x : Handle) (c : Nat) : (putH s d x c).clock = s.clock := rfl
@[simp] theorem putH_agenda (s : State) (d : Nat) (x : Handle) (c : Nat) : (putH s d x c).agenda = s.agenda := rfl
@[simp] theorem putH_hostReads (s : State) (d : Nat) (x : Handle) (c : Nat) : (putH s d x c).hostReads = s.hostReads := rfl
@[simp] theorem putH_out (s : State) (d : Nat) (x : Handle) (c : Nat) : (putH s d x c).out = s.out := rfl
@[simp] theorem putH_freeCtr (s : State) (d : Nat) (x : Handle) (c : Nat) : (putH s d x c).freeCtr = s.freeCtr := rfl
@[simp] theorem putH_th_pc (s : State) (d : Nat) (x : Handle) (c : Nat) : (putH s d x c).th.pc = s.th.pc := rfl
@[simp] theorem putH_th_pos (s : State) (d : Nat) (x : Handle) (c : Nat) : (putH s d x c).th.pos = s.th.pos := rfl
@[simp] theorem putH_th_s (s : State) (d : Nat) (x : Handle) (c : Nat) : (putH s d x c).th.s = s.th.s := rfl
@[simp] theorem putH_th_p (s : State) (d : Nat) (x : Handle) (c : Nat) : (putH s d x c).th.p = s.th.p := rfl
@[simp] theorem putH_th_h (s : State) (d : Nat) (x : Handle) (c : Nat) : (putH s d x c).th.h = s.th.h := rfl
@[simp] theorem putH_th_fr (s : State) (d : Nat) (x : Handle) (c : Nat) : (putH s d x c).th.fr = s.th.fr := rfl
@[simp] theorem putH_th_n (s : State) (d : Nat) (x : Handle) (c : Nat) : (putH s d x c).th.n = s.th.n := rfl
@[simp] theorem putH_th_w (s : State) (d : Nat) (x : Handle) (c : Nat) : (putH s d x c).th.w = s.th.w := rfl
@[simp] theorem putH_th_v (s : State) (d : Nat) (x : Handle) (c : Nat) : (putH s d x c).th.v = s.th.v := rfl
@[simp] theorem putH_th_fmt (s : State) (d : Nat) (x : Handle) (c : Nat) : (putH s d x c).th.fmt = s.th.fmt := rfl
@[simp] theorem putH_th_dom (s : State) (d : Nat) (x : Handle) (c : Nat) : (putH s d x c).th.dom = s.th.dom := rfl
@[simp] theorem putH_th_mpc (s : State) (d : Nat) (x : Handle) (c : Nat) : (putH s d x c).th.mpc = s.th.mpc := rfl
@[simp] theorem putH_th_xpc (s : State) (d : Nat) (x : Handle) (c : Nat) : (putH s d x c).th.xpc = s.th.xpc := rfl
@[simp] theorem putH_th_xcause (s : State) (d : Nat) (x : Handle) (c : Nat) : (putH s d x c).th.xcause = s.th.xcause := rfl
@[simp] theorem putH_th_seg (s : State) (d : Nat) (x : Handle) (c : Nat) : (putH s d x c).th.seg = s.th.seg := rfl
@[simp] theorem putH_th_insys (s : State) (d : Nat) (x : Handle) (c : Nat) : (putH s d x c).th.insys = s.th.insys := rfl
@[simp] theorem putH_th_gate (s : State) (d : Nat) (x : Handle) (c : Nat) : (putH s d x c).th.gate = s.th.gate := rfl
@[simp] theorem putH_th_fences (s : State) (d : Nat) (x : Handle) (c : Nat) : (putH s d x c).th.fences = s.th.fences := rfl
@[simp] theorem putH_th_ckpt (s : State) (d : Nat) (x : Handle) (c : Nat) : (putH s d x c).th.ckpt = s.th.ckpt := rfl
@[simp] theorem putH_th_fault (s : State) (d : Nat) (x : Handle) (c : Nat) : (putH s d x c).th.fault = s.th.fault := rfl
@[simp] theorem putH_th_run (s : State) (d : Nat) (x : Handle) (c : Nat) : (putH s d x c).th.run = s.th.run := rfl
@[simp] theorem putH_th_marking (s : State) (d : Nat) (x : Handle) (c : Nat) : (putH s d x c).th.marking = s.th.marking := rfl
@[simp] theorem putH_th_committed (s : State) (d : Nat) (x : Handle) (c : Nat) : (putH s d x c).th.committed = s.th.committed := rfl
@[simp] theorem putH_th_heldPriv (s : State) (d : Nat) (x : Handle) (c : Nat) : (putH s d x c).th.heldPriv = s.th.heldPriv := rfl
@[simp] theorem putH_th_heldOp (s : State) (d : Nat) (x : Handle) (c : Nat) : (putH s d x c).th.heldOp = s.th.heldOp := rfl
@[simp] theorem putH_th_heldCpyo (s : State) (d : Nat) (x : Handle) (c : Nat) : (putH s d x c).th.heldCpyo = s.th.heldCpyo := rfl
@[simp] theorem putH_th_intr (s : State) (d : Nat) (x : Handle) (c : Nat) : (putH s d x c).th.intr = s.th.intr := rfl
@[simp] theorem putH_th_idist (s : State) (d : Nat) (x : Handle) (c : Nat) : (putH s d x c).th.idist = s.th.idist := rfl
@[simp] theorem putH_th_defer (s : State) (d : Nat) (x : Handle) (c : Nat) : (putH s d x c).th.defer = s.th.defer := rfl
@[simp] theorem putH_th_deferN (s : State) (d : Nat) (x : Handle) (c : Nat) : (putH s d x c).th.deferN = s.th.deferN := rfl
@[simp] theorem putH_th_used (s : State) (d : Nat) (x : Handle) (c : Nat) : (putH s d x c).th.used = s.th.used := rfl

@[simp] theorem putV_cur (s : State) (cl d : Nat) (x : VReg) (c : Nat) : (putV s cl d x c).cur = s.cur := rfl
@[simp] theorem putV_grp (s : State) (cl d : Nat) (x : VReg) (c : Nat) : (putV s cl d x c).grp = s.grp := rfl
@[simp] theorem putV_core (s : State) (cl d : Nat) (x : VReg) (c : Nat) : (putV s cl d x c).core = s.core := rfl
@[simp] theorem putV_bi (s : State) (cl d : Nat) (x : VReg) (c : Nat) : (putV s cl d x c).bi = s.bi := rfl
@[simp] theorem putV_cores (s : State) (cl d : Nat) (x : VReg) (c : Nat) : (putV s cl d x c).cores = s.cores := rfl
@[simp] theorem putV_bcores (s : State) (cl d : Nat) (x : VReg) (c : Nat) : (putV s cl d x c).bcores = s.bcores := rfl
@[simp] theorem putV_mem (s : State) (cl d : Nat) (x : VReg) (c : Nat) : (putV s cl d x c).mem = s.mem := rfl
@[simp] theorem putV_poisoned (s : State) (cl d : Nat) (x : VReg) (c : Nat) : (putV s cl d x c).poisoned = s.poisoned := rfl
@[simp] theorem putV_checks (s : State) (cl d : Nat) (x : VReg) (c : Nat) : (putV s cl d x c).checks = s.checks := rfl
@[simp] theorem putV_lowered (s : State) (cl d : Nat) (x : VReg) (c : Nat) : (putV s cl d x c).lowered = s.lowered := rfl
@[simp] theorem putV_farLow (s : State) (cl d : Nat) (x : VReg) (c : Nat) : (putV s cl d x c).farLow = s.farLow := rfl
@[simp] theorem putV_planes (s : State) (cl d : Nat) (x : VReg) (c : Nat) : (putV s cl d x c).planes = s.planes := rfl
@[simp] theorem putV_regs (s : State) (cl d : Nat) (x : VReg) (c : Nat) : (putV s cl d x c).regs = s.regs := rfl
@[simp] theorem putV_spway (s : State) (cl d : Nat) (x : VReg) (c : Nat) : (putV s cl d x c).spway = s.spway := rfl
@[simp] theorem putV_mbox (s : State) (cl d : Nat) (x : VReg) (c : Nat) : (putV s cl d x c).mbox = s.mbox := rfl
@[simp] theorem putV_meas (s : State) (cl d : Nat) (x : VReg) (c : Nat) : (putV s cl d x c).meas = s.meas := rfl
@[simp] theorem putV_keys (s : State) (cl d : Nat) (x : VReg) (c : Nat) : (putV s cl d x c).keys = s.keys := rfl
@[simp] theorem putV_images (s : State) (cl d : Nat) (x : VReg) (c : Nat) : (putV s cl d x c).images = s.images := rfl
@[simp] theorem putV_launches (s : State) (cl d : Nat) (x : VReg) (c : Nat) : (putV s cl d x c).launches = s.launches := rfl
@[simp] theorem putV_nextId (s : State) (cl d : Nat) (x : VReg) (c : Nat) : (putV s cl d x c).nextId = s.nextId := rfl
@[simp] theorem putV_boxes (s : State) (cl d : Nat) (x : VReg) (c : Nat) : (putV s cl d x c).boxes = s.boxes := rfl
@[simp] theorem putV_returned (s : State) (cl d : Nat) (x : VReg) (c : Nat) : (putV s cl d x c).returned = s.returned := rfl
@[simp] theorem putV_saved (s : State) (cl d : Nat) (x : VReg) (c : Nat) : (putV s cl d x c).saved = s.saved := rfl
@[simp] theorem putV_reports (s : State) (cl d : Nat) (x : VReg) (c : Nat) : (putV s cl d x c).reports = s.reports := rfl
@[simp] theorem putV_awaiting (s : State) (cl d : Nat) (x : VReg) (c : Nat) : (putV s cl d x c).awaiting = s.awaiting := rfl
@[simp] theorem putV_kills (s : State) (cl d : Nat) (x : VReg) (c : Nat) : (putV s cl d x c).kills = s.kills := rfl
@[simp] theorem putV_awaitQ (s : State) (cl d : Nat) (x : VReg) (c : Nat) : (putV s cl d x c).awaitQ = s.awaitQ := rfl
@[simp] theorem putV_jobs (s : State) (cl d : Nat) (x : VReg) (c : Nat) : (putV s cl d x c).jobs = s.jobs := rfl
@[simp] theorem putV_pend (s : State) (cl d : Nat) (x : VReg) (c : Nat) : (putV s cl d x c).pend = s.pend := rfl
@[simp] theorem putV_watches (s : State) (cl d : Nat) (x : VReg) (c : Nat) : (putV s cl d x c).watches = s.watches := rfl
@[simp] theorem putV_rtag (s : State) (cl d : Nat) (x : VReg) (c : Nat) : (putV s cl d x c).rtag = s.rtag := rfl
@[simp] theorem putV_readWait (s : State) (cl d : Nat) (x : VReg) (c : Nat) : (putV s cl d x c).readWait = s.readWait := rfl
@[simp] theorem putV_rdata (s : State) (cl d : Nat) (x : VReg) (c : Nat) : (putV s cl d x c).rdata = s.rdata := rfl
@[simp] theorem putV_farPoison (s : State) (cl d : Nat) (x : VReg) (c : Nat) : (putV s cl d x c).farPoison = s.farPoison := rfl
@[simp] theorem putV_earlyAdds (s : State) (cl d : Nat) (x : VReg) (c : Nat) : (putV s cl d x c).earlyAdds = s.earlyAdds := rfl
@[simp] theorem putV_shoots (s : State) (cl d : Nat) (x : VReg) (c : Nat) : (putV s cl d x c).shoots = s.shoots := rfl
@[simp] theorem putV_farArr (s : State) (cl d : Nat) (x : VReg) (c : Nat) : (putV s cl d x c).farArr = s.farArr := rfl
@[simp] theorem putV_colls (s : State) (cl d : Nat) (x : VReg) (c : Nat) : (putV s cl d x c).colls = s.colls := rfl
@[simp] theorem putV_encl (s : State) (cl d : Nat) (x : VReg) (c : Nat) : (putV s cl d x c).encl = s.encl := rfl
@[simp] theorem putV_chans (s : State) (cl d : Nat) (x : VReg) (c : Nat) : (putV s cl d x c).chans = s.chans := rfl
@[simp] theorem putV_sess (s : State) (cl d : Nat) (x : VReg) (c : Nat) : (putV s cl d x c).sess = s.sess := rfl
@[simp] theorem putV_fuses (s : State) (cl d : Nat) (x : VReg) (c : Nat) : (putV s cl d x c).fuses = s.fuses := rfl
@[simp] theorem putV_boot (s : State) (cl d : Nat) (x : VReg) (c : Nat) : (putV s cl d x c).boot = s.boot := rfl
@[simp] theorem putV_power (s : State) (cl d : Nat) (x : VReg) (c : Nat) : (putV s cl d x c).power = s.power := rfl
@[simp] theorem putV_clock (s : State) (cl d : Nat) (x : VReg) (c : Nat) : (putV s cl d x c).clock = s.clock := rfl
@[simp] theorem putV_agenda (s : State) (cl d : Nat) (x : VReg) (c : Nat) : (putV s cl d x c).agenda = s.agenda := rfl
@[simp] theorem putV_hostReads (s : State) (cl d : Nat) (x : VReg) (c : Nat) : (putV s cl d x c).hostReads = s.hostReads := rfl
@[simp] theorem putV_out (s : State) (cl d : Nat) (x : VReg) (c : Nat) : (putV s cl d x c).out = s.out := rfl
@[simp] theorem putV_freeCtr (s : State) (cl d : Nat) (x : VReg) (c : Nat) : (putV s cl d x c).freeCtr = s.freeCtr := rfl
@[simp] theorem putV_th_pc (s : State) (cl d : Nat) (x : VReg) (c : Nat) : (putV s cl d x c).th.pc = s.th.pc := rfl
@[simp] theorem putV_th_pos (s : State) (cl d : Nat) (x : VReg) (c : Nat) : (putV s cl d x c).th.pos = s.th.pos := rfl
@[simp] theorem putV_th_s (s : State) (cl d : Nat) (x : VReg) (c : Nat) : (putV s cl d x c).th.s = s.th.s := rfl
@[simp] theorem putV_th_p (s : State) (cl d : Nat) (x : VReg) (c : Nat) : (putV s cl d x c).th.p = s.th.p := rfl
@[simp] theorem putV_th_h (s : State) (cl d : Nat) (x : VReg) (c : Nat) : (putV s cl d x c).th.h = s.th.h := rfl
@[simp] theorem putV_th_fr (s : State) (cl d : Nat) (x : VReg) (c : Nat) : (putV s cl d x c).th.fr = s.th.fr := rfl
@[simp] theorem putV_th_n (s : State) (cl d : Nat) (x : VReg) (c : Nat) : (putV s cl d x c).th.n = s.th.n := rfl
@[simp] theorem putV_th_w (s : State) (cl d : Nat) (x : VReg) (c : Nat) : (putV s cl d x c).th.w = s.th.w := rfl
@[simp] theorem putV_th_v (s : State) (cl d : Nat) (x : VReg) (c : Nat) : (putV s cl d x c).th.v = s.th.v := rfl
@[simp] theorem putV_th_fmt (s : State) (cl d : Nat) (x : VReg) (c : Nat) : (putV s cl d x c).th.fmt = s.th.fmt := rfl
@[simp] theorem putV_th_dom (s : State) (cl d : Nat) (x : VReg) (c : Nat) : (putV s cl d x c).th.dom = s.th.dom := rfl
@[simp] theorem putV_th_mpc (s : State) (cl d : Nat) (x : VReg) (c : Nat) : (putV s cl d x c).th.mpc = s.th.mpc := rfl
@[simp] theorem putV_th_xpc (s : State) (cl d : Nat) (x : VReg) (c : Nat) : (putV s cl d x c).th.xpc = s.th.xpc := rfl
@[simp] theorem putV_th_xcause (s : State) (cl d : Nat) (x : VReg) (c : Nat) : (putV s cl d x c).th.xcause = s.th.xcause := rfl
@[simp] theorem putV_th_seg (s : State) (cl d : Nat) (x : VReg) (c : Nat) : (putV s cl d x c).th.seg = s.th.seg := rfl
@[simp] theorem putV_th_insys (s : State) (cl d : Nat) (x : VReg) (c : Nat) : (putV s cl d x c).th.insys = s.th.insys := rfl
@[simp] theorem putV_th_gate (s : State) (cl d : Nat) (x : VReg) (c : Nat) : (putV s cl d x c).th.gate = s.th.gate := rfl
@[simp] theorem putV_th_fences (s : State) (cl d : Nat) (x : VReg) (c : Nat) : (putV s cl d x c).th.fences = s.th.fences := rfl
@[simp] theorem putV_th_ckpt (s : State) (cl d : Nat) (x : VReg) (c : Nat) : (putV s cl d x c).th.ckpt = s.th.ckpt := rfl
@[simp] theorem putV_th_fault (s : State) (cl d : Nat) (x : VReg) (c : Nat) : (putV s cl d x c).th.fault = s.th.fault := rfl
@[simp] theorem putV_th_run (s : State) (cl d : Nat) (x : VReg) (c : Nat) : (putV s cl d x c).th.run = s.th.run := rfl
@[simp] theorem putV_th_marking (s : State) (cl d : Nat) (x : VReg) (c : Nat) : (putV s cl d x c).th.marking = s.th.marking := rfl
@[simp] theorem putV_th_committed (s : State) (cl d : Nat) (x : VReg) (c : Nat) : (putV s cl d x c).th.committed = s.th.committed := rfl
@[simp] theorem putV_th_heldPriv (s : State) (cl d : Nat) (x : VReg) (c : Nat) : (putV s cl d x c).th.heldPriv = s.th.heldPriv := rfl
@[simp] theorem putV_th_heldOp (s : State) (cl d : Nat) (x : VReg) (c : Nat) : (putV s cl d x c).th.heldOp = s.th.heldOp := rfl
@[simp] theorem putV_th_heldCpyo (s : State) (cl d : Nat) (x : VReg) (c : Nat) : (putV s cl d x c).th.heldCpyo = s.th.heldCpyo := rfl
@[simp] theorem putV_th_intr (s : State) (cl d : Nat) (x : VReg) (c : Nat) : (putV s cl d x c).th.intr = s.th.intr := rfl
@[simp] theorem putV_th_idist (s : State) (cl d : Nat) (x : VReg) (c : Nat) : (putV s cl d x c).th.idist = s.th.idist := rfl
@[simp] theorem putV_th_defer (s : State) (cl d : Nat) (x : VReg) (c : Nat) : (putV s cl d x c).th.defer = s.th.defer := rfl
@[simp] theorem putV_th_deferN (s : State) (cl d : Nat) (x : VReg) (c : Nat) : (putV s cl d x c).th.deferN = s.th.deferN := rfl
@[simp] theorem putV_th_used (s : State) (cl d : Nat) (x : VReg) (c : Nat) : (putV s cl d x c).th.used = s.th.used := rfl

@[simp] theorem block_cur (s : State) : (block s).cur = s.cur := rfl
@[simp] theorem block_grp (s : State) : (block s).grp = s.grp := rfl
@[simp] theorem block_core (s : State) : (block s).core = s.core := rfl
@[simp] theorem block_bi (s : State) : (block s).bi = s.bi := rfl
@[simp] theorem block_cores (s : State) : (block s).cores = s.cores := rfl
@[simp] theorem block_bcores (s : State) : (block s).bcores = s.bcores := rfl
@[simp] theorem block_mem (s : State) : (block s).mem = s.mem := rfl
@[simp] theorem block_poisoned (s : State) : (block s).poisoned = s.poisoned := rfl
@[simp] theorem block_checks (s : State) : (block s).checks = s.checks := rfl
@[simp] theorem block_lowered (s : State) : (block s).lowered = s.lowered := rfl
@[simp] theorem block_farLow (s : State) : (block s).farLow = s.farLow := rfl
@[simp] theorem block_planes (s : State) : (block s).planes = s.planes := rfl
@[simp] theorem block_regs (s : State) : (block s).regs = s.regs := rfl
@[simp] theorem block_spway (s : State) : (block s).spway = s.spway := rfl
@[simp] theorem block_mbox (s : State) : (block s).mbox = s.mbox := rfl
@[simp] theorem block_meas (s : State) : (block s).meas = s.meas := rfl
@[simp] theorem block_keys (s : State) : (block s).keys = s.keys := rfl
@[simp] theorem block_images (s : State) : (block s).images = s.images := rfl
@[simp] theorem block_launches (s : State) : (block s).launches = s.launches := rfl
@[simp] theorem block_nextId (s : State) : (block s).nextId = s.nextId := rfl
@[simp] theorem block_boxes (s : State) : (block s).boxes = s.boxes := rfl
@[simp] theorem block_returned (s : State) : (block s).returned = s.returned := rfl
@[simp] theorem block_saved (s : State) : (block s).saved = s.saved := rfl
@[simp] theorem block_reports (s : State) : (block s).reports = s.reports := rfl
@[simp] theorem block_awaiting (s : State) : (block s).awaiting = s.awaiting := rfl
@[simp] theorem block_kills (s : State) : (block s).kills = s.kills := rfl
@[simp] theorem block_awaitQ (s : State) : (block s).awaitQ = s.awaitQ := rfl
@[simp] theorem block_jobs (s : State) : (block s).jobs = s.jobs := rfl
@[simp] theorem block_pend (s : State) : (block s).pend = s.pend := rfl
@[simp] theorem block_watches (s : State) : (block s).watches = s.watches := rfl
@[simp] theorem block_rtag (s : State) : (block s).rtag = s.rtag := rfl
@[simp] theorem block_readWait (s : State) : (block s).readWait = s.readWait := rfl
@[simp] theorem block_rdata (s : State) : (block s).rdata = s.rdata := rfl
@[simp] theorem block_farPoison (s : State) : (block s).farPoison = s.farPoison := rfl
@[simp] theorem block_earlyAdds (s : State) : (block s).earlyAdds = s.earlyAdds := rfl
@[simp] theorem block_shoots (s : State) : (block s).shoots = s.shoots := rfl
@[simp] theorem block_farArr (s : State) : (block s).farArr = s.farArr := rfl
@[simp] theorem block_colls (s : State) : (block s).colls = s.colls := rfl
@[simp] theorem block_encl (s : State) : (block s).encl = s.encl := rfl
@[simp] theorem block_chans (s : State) : (block s).chans = s.chans := rfl
@[simp] theorem block_sess (s : State) : (block s).sess = s.sess := rfl
@[simp] theorem block_fuses (s : State) : (block s).fuses = s.fuses := rfl
@[simp] theorem block_boot (s : State) : (block s).boot = s.boot := rfl
@[simp] theorem block_power (s : State) : (block s).power = s.power := rfl
@[simp] theorem block_clock (s : State) : (block s).clock = s.clock := rfl
@[simp] theorem block_agenda (s : State) : (block s).agenda = s.agenda := rfl
@[simp] theorem block_hostReads (s : State) : (block s).hostReads = s.hostReads := rfl
@[simp] theorem block_out (s : State) : (block s).out = s.out := rfl
@[simp] theorem block_freeCtr (s : State) : (block s).freeCtr = s.freeCtr := rfl
@[simp] theorem block_th_pc (s : State) : (block s).th.pc = s.th.pc := rfl
@[simp] theorem block_th_pos (s : State) : (block s).th.pos = s.th.pos := rfl
@[simp] theorem block_th_s (s : State) : (block s).th.s = s.th.s := rfl
@[simp] theorem block_th_p (s : State) : (block s).th.p = s.th.p := rfl
@[simp] theorem block_th_h (s : State) : (block s).th.h = s.th.h := rfl
@[simp] theorem block_th_fr (s : State) : (block s).th.fr = s.th.fr := rfl
@[simp] theorem block_th_n (s : State) : (block s).th.n = s.th.n := rfl
@[simp] theorem block_th_w (s : State) : (block s).th.w = s.th.w := rfl
@[simp] theorem block_th_v (s : State) : (block s).th.v = s.th.v := rfl
@[simp] theorem block_th_fmt (s : State) : (block s).th.fmt = s.th.fmt := rfl
@[simp] theorem block_th_dom (s : State) : (block s).th.dom = s.th.dom := rfl
@[simp] theorem block_th_mpc (s : State) : (block s).th.mpc = s.th.mpc := rfl
@[simp] theorem block_th_xpc (s : State) : (block s).th.xpc = s.th.xpc := rfl
@[simp] theorem block_th_xcause (s : State) : (block s).th.xcause = s.th.xcause := rfl
@[simp] theorem block_th_seg (s : State) : (block s).th.seg = s.th.seg := rfl
@[simp] theorem block_th_insys (s : State) : (block s).th.insys = s.th.insys := rfl
@[simp] theorem block_th_gate (s : State) : (block s).th.gate = s.th.gate := rfl
@[simp] theorem block_th_fences (s : State) : (block s).th.fences = s.th.fences := rfl
@[simp] theorem block_th_ckpt (s : State) : (block s).th.ckpt = s.th.ckpt := rfl
@[simp] theorem block_th_fault (s : State) : (block s).th.fault = s.th.fault := rfl
@[simp] theorem block_th_marking (s : State) : (block s).th.marking = s.th.marking := rfl
@[simp] theorem block_th_committed (s : State) : (block s).th.committed = s.th.committed := rfl
@[simp] theorem block_th_heldPriv (s : State) : (block s).th.heldPriv = s.th.heldPriv := rfl
@[simp] theorem block_th_heldOp (s : State) : (block s).th.heldOp = s.th.heldOp := rfl
@[simp] theorem block_th_heldCpyo (s : State) : (block s).th.heldCpyo = s.th.heldCpyo := rfl
@[simp] theorem block_th_intr (s : State) : (block s).th.intr = s.th.intr := rfl
@[simp] theorem block_th_idist (s : State) : (block s).th.idist = s.th.idist := rfl
@[simp] theorem block_th_defer (s : State) : (block s).th.defer = s.th.defer := rfl
@[simp] theorem block_th_deferN (s : State) : (block s).th.deferN = s.th.deferN := rfl
@[simp] theorem block_th_used (s : State) : (block s).th.used = s.th.used := rfl
@[simp] theorem block_th_run (s : State) : (block s).th.run = .blocked := rfl

@[simp] theorem tick_cur (s : State) : (tick s).cur = s.cur := rfl
@[simp] theorem tick_grp (s : State) : (tick s).grp = s.grp := rfl
@[simp] theorem tick_core (s : State) : (tick s).core = s.core := rfl
@[simp] theorem tick_bi (s : State) : (tick s).bi = s.bi := rfl
@[simp] theorem tick_cores (s : State) : (tick s).cores = s.cores := rfl
@[simp] theorem tick_bcores (s : State) : (tick s).bcores = s.bcores := rfl
@[simp] theorem tick_mem (s : State) : (tick s).mem = s.mem := rfl
@[simp] theorem tick_poisoned (s : State) : (tick s).poisoned = s.poisoned := rfl
@[simp] theorem tick_checks (s : State) : (tick s).checks = s.checks := rfl
@[simp] theorem tick_lowered (s : State) : (tick s).lowered = s.lowered := rfl
@[simp] theorem tick_farLow (s : State) : (tick s).farLow = s.farLow := rfl
@[simp] theorem tick_planes (s : State) : (tick s).planes = s.planes := rfl
@[simp] theorem tick_regs (s : State) : (tick s).regs = s.regs := rfl
@[simp] theorem tick_spway (s : State) : (tick s).spway = s.spway := rfl
@[simp] theorem tick_mbox (s : State) : (tick s).mbox = s.mbox := rfl
@[simp] theorem tick_meas (s : State) : (tick s).meas = s.meas := rfl
@[simp] theorem tick_keys (s : State) : (tick s).keys = s.keys := rfl
@[simp] theorem tick_images (s : State) : (tick s).images = s.images := rfl
@[simp] theorem tick_launches (s : State) : (tick s).launches = s.launches := rfl
@[simp] theorem tick_nextId (s : State) : (tick s).nextId = s.nextId := rfl
@[simp] theorem tick_boxes (s : State) : (tick s).boxes = s.boxes := rfl
@[simp] theorem tick_returned (s : State) : (tick s).returned = s.returned := rfl
@[simp] theorem tick_saved (s : State) : (tick s).saved = s.saved := rfl
@[simp] theorem tick_reports (s : State) : (tick s).reports = s.reports := rfl
@[simp] theorem tick_awaiting (s : State) : (tick s).awaiting = s.awaiting := rfl
@[simp] theorem tick_kills (s : State) : (tick s).kills = s.kills := rfl
@[simp] theorem tick_awaitQ (s : State) : (tick s).awaitQ = s.awaitQ := rfl
@[simp] theorem tick_jobs (s : State) : (tick s).jobs = s.jobs := rfl
@[simp] theorem tick_pend (s : State) : (tick s).pend = s.pend := rfl
@[simp] theorem tick_watches (s : State) : (tick s).watches = s.watches := rfl
@[simp] theorem tick_rtag (s : State) : (tick s).rtag = s.rtag := rfl
@[simp] theorem tick_readWait (s : State) : (tick s).readWait = s.readWait := rfl
@[simp] theorem tick_rdata (s : State) : (tick s).rdata = s.rdata := rfl
@[simp] theorem tick_farPoison (s : State) : (tick s).farPoison = s.farPoison := rfl
@[simp] theorem tick_earlyAdds (s : State) : (tick s).earlyAdds = s.earlyAdds := rfl
@[simp] theorem tick_shoots (s : State) : (tick s).shoots = s.shoots := rfl
@[simp] theorem tick_farArr (s : State) : (tick s).farArr = s.farArr := rfl
@[simp] theorem tick_colls (s : State) : (tick s).colls = s.colls := rfl
@[simp] theorem tick_encl (s : State) : (tick s).encl = s.encl := rfl
@[simp] theorem tick_chans (s : State) : (tick s).chans = s.chans := rfl
@[simp] theorem tick_sess (s : State) : (tick s).sess = s.sess := rfl
@[simp] theorem tick_fuses (s : State) : (tick s).fuses = s.fuses := rfl
@[simp] theorem tick_boot (s : State) : (tick s).boot = s.boot := rfl
@[simp] theorem tick_power (s : State) : (tick s).power = s.power := rfl
@[simp] theorem tick_clock (s : State) : (tick s).clock = s.clock := rfl
@[simp] theorem tick_agenda (s : State) : (tick s).agenda = s.agenda := rfl
@[simp] theorem tick_hostReads (s : State) : (tick s).hostReads = s.hostReads := rfl
@[simp] theorem tick_out (s : State) : (tick s).out = s.out := rfl
@[simp] theorem tick_th (s : State) : (tick s).th = s.th := rfl
@[simp] theorem tick_freeCtr (s : State) : (tick s).freeCtr = s.freeCtr + 1 := rfl

@[simp] theorem holdOp_cur (s : State) (i : Instr) (a b c : Word) (h : Handle) (l : Loc) (va : Nat) : (holdOp s i a b c h l va).cur = s.cur := rfl
@[simp] theorem holdOp_grp (s : State) (i : Instr) (a b c : Word) (h : Handle) (l : Loc) (va : Nat) : (holdOp s i a b c h l va).grp = s.grp := rfl
@[simp] theorem holdOp_core (s : State) (i : Instr) (a b c : Word) (h : Handle) (l : Loc) (va : Nat) : (holdOp s i a b c h l va).core = s.core := rfl
@[simp] theorem holdOp_bi (s : State) (i : Instr) (a b c : Word) (h : Handle) (l : Loc) (va : Nat) : (holdOp s i a b c h l va).bi = s.bi := rfl
@[simp] theorem holdOp_cores (s : State) (i : Instr) (a b c : Word) (h : Handle) (l : Loc) (va : Nat) : (holdOp s i a b c h l va).cores = s.cores := rfl
@[simp] theorem holdOp_bcores (s : State) (i : Instr) (a b c : Word) (h : Handle) (l : Loc) (va : Nat) : (holdOp s i a b c h l va).bcores = s.bcores := rfl
@[simp] theorem holdOp_mem (s : State) (i : Instr) (a b c : Word) (h : Handle) (l : Loc) (va : Nat) : (holdOp s i a b c h l va).mem = s.mem := rfl
@[simp] theorem holdOp_poisoned (s : State) (i : Instr) (a b c : Word) (h : Handle) (l : Loc) (va : Nat) : (holdOp s i a b c h l va).poisoned = s.poisoned := rfl
@[simp] theorem holdOp_checks (s : State) (i : Instr) (a b c : Word) (h : Handle) (l : Loc) (va : Nat) : (holdOp s i a b c h l va).checks = s.checks := rfl
@[simp] theorem holdOp_lowered (s : State) (i : Instr) (a b c : Word) (h : Handle) (l : Loc) (va : Nat) : (holdOp s i a b c h l va).lowered = s.lowered := rfl
@[simp] theorem holdOp_farLow (s : State) (i : Instr) (a b c : Word) (h : Handle) (l : Loc) (va : Nat) : (holdOp s i a b c h l va).farLow = s.farLow := rfl
@[simp] theorem holdOp_planes (s : State) (i : Instr) (a b c : Word) (h : Handle) (l : Loc) (va : Nat) : (holdOp s i a b c h l va).planes = s.planes := rfl
@[simp] theorem holdOp_regs (s : State) (i : Instr) (a b c : Word) (h : Handle) (l : Loc) (va : Nat) : (holdOp s i a b c h l va).regs = s.regs := rfl
@[simp] theorem holdOp_spway (s : State) (i : Instr) (a b c : Word) (h : Handle) (l : Loc) (va : Nat) : (holdOp s i a b c h l va).spway = s.spway := rfl
@[simp] theorem holdOp_mbox (s : State) (i : Instr) (a b c : Word) (h : Handle) (l : Loc) (va : Nat) : (holdOp s i a b c h l va).mbox = s.mbox := rfl
@[simp] theorem holdOp_meas (s : State) (i : Instr) (a b c : Word) (h : Handle) (l : Loc) (va : Nat) : (holdOp s i a b c h l va).meas = s.meas := rfl
@[simp] theorem holdOp_keys (s : State) (i : Instr) (a b c : Word) (h : Handle) (l : Loc) (va : Nat) : (holdOp s i a b c h l va).keys = s.keys := rfl
@[simp] theorem holdOp_images (s : State) (i : Instr) (a b c : Word) (h : Handle) (l : Loc) (va : Nat) : (holdOp s i a b c h l va).images = s.images := rfl
@[simp] theorem holdOp_launches (s : State) (i : Instr) (a b c : Word) (h : Handle) (l : Loc) (va : Nat) : (holdOp s i a b c h l va).launches = s.launches := rfl
@[simp] theorem holdOp_nextId (s : State) (i : Instr) (a b c : Word) (h : Handle) (l : Loc) (va : Nat) : (holdOp s i a b c h l va).nextId = s.nextId := rfl
@[simp] theorem holdOp_boxes (s : State) (i : Instr) (a b c : Word) (h : Handle) (l : Loc) (va : Nat) : (holdOp s i a b c h l va).boxes = s.boxes := rfl
@[simp] theorem holdOp_returned (s : State) (i : Instr) (a b c : Word) (h : Handle) (l : Loc) (va : Nat) : (holdOp s i a b c h l va).returned = s.returned := rfl
@[simp] theorem holdOp_saved (s : State) (i : Instr) (a b c : Word) (h : Handle) (l : Loc) (va : Nat) : (holdOp s i a b c h l va).saved = s.saved := rfl
@[simp] theorem holdOp_reports (s : State) (i : Instr) (a b c : Word) (h : Handle) (l : Loc) (va : Nat) : (holdOp s i a b c h l va).reports = s.reports := rfl
@[simp] theorem holdOp_awaiting (s : State) (i : Instr) (a b c : Word) (h : Handle) (l : Loc) (va : Nat) : (holdOp s i a b c h l va).awaiting = s.awaiting := rfl
@[simp] theorem holdOp_kills (s : State) (i : Instr) (a b c : Word) (h : Handle) (l : Loc) (va : Nat) : (holdOp s i a b c h l va).kills = s.kills := rfl
@[simp] theorem holdOp_awaitQ (s : State) (i : Instr) (a b c : Word) (h : Handle) (l : Loc) (va : Nat) : (holdOp s i a b c h l va).awaitQ = s.awaitQ := rfl
@[simp] theorem holdOp_jobs (s : State) (i : Instr) (a b c : Word) (h : Handle) (l : Loc) (va : Nat) : (holdOp s i a b c h l va).jobs = s.jobs := rfl
@[simp] theorem holdOp_pend (s : State) (i : Instr) (a b c : Word) (h : Handle) (l : Loc) (va : Nat) : (holdOp s i a b c h l va).pend = s.pend := rfl
@[simp] theorem holdOp_watches (s : State) (i : Instr) (a b c : Word) (h : Handle) (l : Loc) (va : Nat) : (holdOp s i a b c h l va).watches = s.watches := rfl
@[simp] theorem holdOp_rtag (s : State) (i : Instr) (a b c : Word) (h : Handle) (l : Loc) (va : Nat) : (holdOp s i a b c h l va).rtag = s.rtag := rfl
@[simp] theorem holdOp_readWait (s : State) (i : Instr) (a b c : Word) (h : Handle) (l : Loc) (va : Nat) : (holdOp s i a b c h l va).readWait = s.readWait := rfl
@[simp] theorem holdOp_rdata (s : State) (i : Instr) (a b c : Word) (h : Handle) (l : Loc) (va : Nat) : (holdOp s i a b c h l va).rdata = s.rdata := rfl
@[simp] theorem holdOp_farPoison (s : State) (i : Instr) (a b c : Word) (h : Handle) (l : Loc) (va : Nat) : (holdOp s i a b c h l va).farPoison = s.farPoison := rfl
@[simp] theorem holdOp_earlyAdds (s : State) (i : Instr) (a b c : Word) (h : Handle) (l : Loc) (va : Nat) : (holdOp s i a b c h l va).earlyAdds = s.earlyAdds := rfl
@[simp] theorem holdOp_shoots (s : State) (i : Instr) (a b c : Word) (h : Handle) (l : Loc) (va : Nat) : (holdOp s i a b c h l va).shoots = s.shoots := rfl
@[simp] theorem holdOp_farArr (s : State) (i : Instr) (a b c : Word) (h : Handle) (l : Loc) (va : Nat) : (holdOp s i a b c h l va).farArr = s.farArr := rfl
@[simp] theorem holdOp_colls (s : State) (i : Instr) (a b c : Word) (h : Handle) (l : Loc) (va : Nat) : (holdOp s i a b c h l va).colls = s.colls := rfl
@[simp] theorem holdOp_encl (s : State) (i : Instr) (a b c : Word) (h : Handle) (l : Loc) (va : Nat) : (holdOp s i a b c h l va).encl = s.encl := rfl
@[simp] theorem holdOp_chans (s : State) (i : Instr) (a b c : Word) (h : Handle) (l : Loc) (va : Nat) : (holdOp s i a b c h l va).chans = s.chans := rfl
@[simp] theorem holdOp_sess (s : State) (i : Instr) (a b c : Word) (h : Handle) (l : Loc) (va : Nat) : (holdOp s i a b c h l va).sess = s.sess := rfl
@[simp] theorem holdOp_fuses (s : State) (i : Instr) (a b c : Word) (h : Handle) (l : Loc) (va : Nat) : (holdOp s i a b c h l va).fuses = s.fuses := rfl
@[simp] theorem holdOp_boot (s : State) (i : Instr) (a b c : Word) (h : Handle) (l : Loc) (va : Nat) : (holdOp s i a b c h l va).boot = s.boot := rfl
@[simp] theorem holdOp_power (s : State) (i : Instr) (a b c : Word) (h : Handle) (l : Loc) (va : Nat) : (holdOp s i a b c h l va).power = s.power := rfl
@[simp] theorem holdOp_clock (s : State) (i : Instr) (a b c : Word) (h : Handle) (l : Loc) (va : Nat) : (holdOp s i a b c h l va).clock = s.clock := rfl
@[simp] theorem holdOp_agenda (s : State) (i : Instr) (a b c : Word) (h : Handle) (l : Loc) (va : Nat) : (holdOp s i a b c h l va).agenda = s.agenda := rfl
@[simp] theorem holdOp_hostReads (s : State) (i : Instr) (a b c : Word) (h : Handle) (l : Loc) (va : Nat) : (holdOp s i a b c h l va).hostReads = s.hostReads := rfl
@[simp] theorem holdOp_out (s : State) (i : Instr) (a b c : Word) (h : Handle) (l : Loc) (va : Nat) : (holdOp s i a b c h l va).out = s.out := rfl
@[simp] theorem holdOp_freeCtr (s : State) (i : Instr) (a b c : Word) (h : Handle) (l : Loc) (va : Nat) : (holdOp s i a b c h l va).freeCtr = s.freeCtr := rfl
@[simp] theorem holdOp_th_pc (s : State) (i : Instr) (a b c : Word) (h : Handle) (l : Loc) (va : Nat) : (holdOp s i a b c h l va).th.pc = s.th.pc := rfl
@[simp] theorem holdOp_th_pos (s : State) (i : Instr) (a b c : Word) (h : Handle) (l : Loc) (va : Nat) : (holdOp s i a b c h l va).th.pos = s.th.pos := rfl
@[simp] theorem holdOp_th_s (s : State) (i : Instr) (a b c : Word) (h : Handle) (l : Loc) (va : Nat) : (holdOp s i a b c h l va).th.s = s.th.s := rfl
@[simp] theorem holdOp_th_p (s : State) (i : Instr) (a b c : Word) (h : Handle) (l : Loc) (va : Nat) : (holdOp s i a b c h l va).th.p = s.th.p := rfl
@[simp] theorem holdOp_th_h (s : State) (i : Instr) (a b c : Word) (h : Handle) (l : Loc) (va : Nat) : (holdOp s i a b c h l va).th.h = s.th.h := rfl
@[simp] theorem holdOp_th_fr (s : State) (i : Instr) (a b c : Word) (h : Handle) (l : Loc) (va : Nat) : (holdOp s i a b c h l va).th.fr = s.th.fr := rfl
@[simp] theorem holdOp_th_n (s : State) (i : Instr) (a b c : Word) (h : Handle) (l : Loc) (va : Nat) : (holdOp s i a b c h l va).th.n = s.th.n := rfl
@[simp] theorem holdOp_th_w (s : State) (i : Instr) (a b c : Word) (h : Handle) (l : Loc) (va : Nat) : (holdOp s i a b c h l va).th.w = s.th.w := rfl
@[simp] theorem holdOp_th_v (s : State) (i : Instr) (a b c : Word) (h : Handle) (l : Loc) (va : Nat) : (holdOp s i a b c h l va).th.v = s.th.v := rfl
@[simp] theorem holdOp_th_fmt (s : State) (i : Instr) (a b c : Word) (h : Handle) (l : Loc) (va : Nat) : (holdOp s i a b c h l va).th.fmt = s.th.fmt := rfl
@[simp] theorem holdOp_th_dom (s : State) (i : Instr) (a b c : Word) (h : Handle) (l : Loc) (va : Nat) : (holdOp s i a b c h l va).th.dom = s.th.dom := rfl
@[simp] theorem holdOp_th_mpc (s : State) (i : Instr) (a b c : Word) (h : Handle) (l : Loc) (va : Nat) : (holdOp s i a b c h l va).th.mpc = s.th.mpc := rfl
@[simp] theorem holdOp_th_xpc (s : State) (i : Instr) (a b c : Word) (h : Handle) (l : Loc) (va : Nat) : (holdOp s i a b c h l va).th.xpc = s.th.xpc := rfl
@[simp] theorem holdOp_th_xcause (s : State) (i : Instr) (a b c : Word) (h : Handle) (l : Loc) (va : Nat) : (holdOp s i a b c h l va).th.xcause = s.th.xcause := rfl
@[simp] theorem holdOp_th_seg (s : State) (i : Instr) (a b c : Word) (h : Handle) (l : Loc) (va : Nat) : (holdOp s i a b c h l va).th.seg = s.th.seg := rfl
@[simp] theorem holdOp_th_insys (s : State) (i : Instr) (a b c : Word) (h : Handle) (l : Loc) (va : Nat) : (holdOp s i a b c h l va).th.insys = s.th.insys := rfl
@[simp] theorem holdOp_th_gate (s : State) (i : Instr) (a b c : Word) (h : Handle) (l : Loc) (va : Nat) : (holdOp s i a b c h l va).th.gate = s.th.gate := rfl
@[simp] theorem holdOp_th_fences (s : State) (i : Instr) (a b c : Word) (h : Handle) (l : Loc) (va : Nat) : (holdOp s i a b c h l va).th.fences = s.th.fences := rfl
@[simp] theorem holdOp_th_ckpt (s : State) (i : Instr) (a b c : Word) (h : Handle) (l : Loc) (va : Nat) : (holdOp s i a b c h l va).th.ckpt = s.th.ckpt := rfl
@[simp] theorem holdOp_th_fault (s : State) (i : Instr) (a b c : Word) (h : Handle) (l : Loc) (va : Nat) : (holdOp s i a b c h l va).th.fault = s.th.fault := rfl
@[simp] theorem holdOp_th_run (s : State) (i : Instr) (a b c : Word) (h : Handle) (l : Loc) (va : Nat) : (holdOp s i a b c h l va).th.run = s.th.run := rfl
@[simp] theorem holdOp_th_marking (s : State) (i : Instr) (a b c : Word) (h : Handle) (l : Loc) (va : Nat) : (holdOp s i a b c h l va).th.marking = s.th.marking := rfl
@[simp] theorem holdOp_th_committed (s : State) (i : Instr) (a b c : Word) (h : Handle) (l : Loc) (va : Nat) : (holdOp s i a b c h l va).th.committed = s.th.committed := rfl
@[simp] theorem holdOp_th_heldPriv (s : State) (i : Instr) (a b c : Word) (h : Handle) (l : Loc) (va : Nat) : (holdOp s i a b c h l va).th.heldPriv = s.th.heldPriv := rfl
@[simp] theorem holdOp_th_heldCpyo (s : State) (i : Instr) (a b c : Word) (h : Handle) (l : Loc) (va : Nat) : (holdOp s i a b c h l va).th.heldCpyo = s.th.heldCpyo := rfl
@[simp] theorem holdOp_th_intr (s : State) (i : Instr) (a b c : Word) (h : Handle) (l : Loc) (va : Nat) : (holdOp s i a b c h l va).th.intr = s.th.intr := rfl
@[simp] theorem holdOp_th_idist (s : State) (i : Instr) (a b c : Word) (h : Handle) (l : Loc) (va : Nat) : (holdOp s i a b c h l va).th.idist = s.th.idist := rfl
@[simp] theorem holdOp_th_defer (s : State) (i : Instr) (a b c : Word) (h : Handle) (l : Loc) (va : Nat) : (holdOp s i a b c h l va).th.defer = s.th.defer := rfl
@[simp] theorem holdOp_th_deferN (s : State) (i : Instr) (a b c : Word) (h : Handle) (l : Loc) (va : Nat) : (holdOp s i a b c h l va).th.deferN = s.th.deferN := rfl
@[simp] theorem holdOp_th_used (s : State) (i : Instr) (a b c : Word) (h : Handle) (l : Loc) (va : Nat) : (holdOp s i a b c h l va).th.used = s.th.used := rfl

@[simp] theorem raise_cur (s : State) (c : FaultCode) (a : Nat) : (raise s c a).cur = s.cur := rfl
@[simp] theorem raise_grp (s : State) (c : FaultCode) (a : Nat) : (raise s c a).grp = s.grp := rfl
@[simp] theorem raise_core (s : State) (c : FaultCode) (a : Nat) : (raise s c a).core = s.core := rfl
@[simp] theorem raise_bi (s : State) (c : FaultCode) (a : Nat) : (raise s c a).bi = s.bi := rfl
@[simp] theorem raise_cores (s : State) (c : FaultCode) (a : Nat) : (raise s c a).cores = s.cores := rfl
@[simp] theorem raise_bcores (s : State) (c : FaultCode) (a : Nat) : (raise s c a).bcores = s.bcores := rfl
@[simp] theorem raise_mem (s : State) (c : FaultCode) (a : Nat) : (raise s c a).mem = s.mem := rfl
@[simp] theorem raise_poisoned (s : State) (c : FaultCode) (a : Nat) : (raise s c a).poisoned = s.poisoned := rfl
@[simp] theorem raise_checks (s : State) (c : FaultCode) (a : Nat) : (raise s c a).checks = s.checks := rfl
@[simp] theorem raise_lowered (s : State) (c : FaultCode) (a : Nat) : (raise s c a).lowered = s.lowered := rfl
@[simp] theorem raise_farLow (s : State) (c : FaultCode) (a : Nat) : (raise s c a).farLow = s.farLow := rfl
@[simp] theorem raise_planes (s : State) (c : FaultCode) (a : Nat) : (raise s c a).planes = s.planes := rfl
@[simp] theorem raise_regs (s : State) (c : FaultCode) (a : Nat) : (raise s c a).regs = s.regs := rfl
@[simp] theorem raise_spway (s : State) (c : FaultCode) (a : Nat) : (raise s c a).spway = s.spway := rfl
@[simp] theorem raise_mbox (s : State) (c : FaultCode) (a : Nat) : (raise s c a).mbox = s.mbox := rfl
@[simp] theorem raise_meas (s : State) (c : FaultCode) (a : Nat) : (raise s c a).meas = s.meas := rfl
@[simp] theorem raise_keys (s : State) (c : FaultCode) (a : Nat) : (raise s c a).keys = s.keys := rfl
@[simp] theorem raise_images (s : State) (c : FaultCode) (a : Nat) : (raise s c a).images = s.images := rfl
@[simp] theorem raise_launches (s : State) (c : FaultCode) (a : Nat) : (raise s c a).launches = s.launches := rfl
@[simp] theorem raise_nextId (s : State) (c : FaultCode) (a : Nat) : (raise s c a).nextId = s.nextId := rfl
@[simp] theorem raise_boxes (s : State) (c : FaultCode) (a : Nat) : (raise s c a).boxes = s.boxes := rfl
@[simp] theorem raise_returned (s : State) (c : FaultCode) (a : Nat) : (raise s c a).returned = s.returned := rfl
@[simp] theorem raise_saved (s : State) (c : FaultCode) (a : Nat) : (raise s c a).saved = s.saved := rfl
@[simp] theorem raise_reports (s : State) (c : FaultCode) (a : Nat) : (raise s c a).reports = s.reports := rfl
@[simp] theorem raise_awaiting (s : State) (c : FaultCode) (a : Nat) : (raise s c a).awaiting = s.awaiting := rfl
@[simp] theorem raise_kills (s : State) (c : FaultCode) (a : Nat) : (raise s c a).kills = s.kills := rfl
@[simp] theorem raise_awaitQ (s : State) (c : FaultCode) (a : Nat) : (raise s c a).awaitQ = s.awaitQ := rfl
@[simp] theorem raise_jobs (s : State) (c : FaultCode) (a : Nat) : (raise s c a).jobs = s.jobs := rfl
@[simp] theorem raise_pend (s : State) (c : FaultCode) (a : Nat) : (raise s c a).pend = s.pend := rfl
@[simp] theorem raise_watches (s : State) (c : FaultCode) (a : Nat) : (raise s c a).watches = s.watches := rfl
@[simp] theorem raise_rtag (s : State) (c : FaultCode) (a : Nat) : (raise s c a).rtag = s.rtag := rfl
@[simp] theorem raise_readWait (s : State) (c : FaultCode) (a : Nat) : (raise s c a).readWait = s.readWait := rfl
@[simp] theorem raise_rdata (s : State) (c : FaultCode) (a : Nat) : (raise s c a).rdata = s.rdata := rfl
@[simp] theorem raise_farPoison (s : State) (c : FaultCode) (a : Nat) : (raise s c a).farPoison = s.farPoison := rfl
@[simp] theorem raise_earlyAdds (s : State) (c : FaultCode) (a : Nat) : (raise s c a).earlyAdds = s.earlyAdds := rfl
@[simp] theorem raise_shoots (s : State) (c : FaultCode) (a : Nat) : (raise s c a).shoots = s.shoots := rfl
@[simp] theorem raise_farArr (s : State) (c : FaultCode) (a : Nat) : (raise s c a).farArr = s.farArr := rfl
@[simp] theorem raise_colls (s : State) (c : FaultCode) (a : Nat) : (raise s c a).colls = s.colls := rfl
@[simp] theorem raise_encl (s : State) (c : FaultCode) (a : Nat) : (raise s c a).encl = s.encl := rfl
@[simp] theorem raise_chans (s : State) (c : FaultCode) (a : Nat) : (raise s c a).chans = s.chans := rfl
@[simp] theorem raise_sess (s : State) (c : FaultCode) (a : Nat) : (raise s c a).sess = s.sess := rfl
@[simp] theorem raise_fuses (s : State) (c : FaultCode) (a : Nat) : (raise s c a).fuses = s.fuses := rfl
@[simp] theorem raise_boot (s : State) (c : FaultCode) (a : Nat) : (raise s c a).boot = s.boot := rfl
@[simp] theorem raise_power (s : State) (c : FaultCode) (a : Nat) : (raise s c a).power = s.power := rfl
@[simp] theorem raise_clock (s : State) (c : FaultCode) (a : Nat) : (raise s c a).clock = s.clock := rfl
@[simp] theorem raise_agenda (s : State) (c : FaultCode) (a : Nat) : (raise s c a).agenda = s.agenda := rfl
@[simp] theorem raise_hostReads (s : State) (c : FaultCode) (a : Nat) : (raise s c a).hostReads = s.hostReads := rfl
@[simp] theorem raise_out (s : State) (c : FaultCode) (a : Nat) : (raise s c a).out = s.out := rfl
@[simp] theorem raise_freeCtr (s : State) (c : FaultCode) (a : Nat) : (raise s c a).freeCtr = s.freeCtr := rfl
@[simp] theorem raise_th_pc (s : State) (c : FaultCode) (a : Nat) : (raise s c a).th.pc = s.th.pc := (congrArg Thread.pc (raiseTh_eq s.th _) :)
@[simp] theorem raise_th_pos (s : State) (c : FaultCode) (a : Nat) : (raise s c a).th.pos = s.th.pos := (congrArg Thread.pos (raiseTh_eq s.th _) :)
@[simp] theorem raise_th_s (s : State) (c : FaultCode) (a : Nat) : (raise s c a).th.s = s.th.s := (congrArg Thread.s (raiseTh_eq s.th _) :)
@[simp] theorem raise_th_p (s : State) (c : FaultCode) (a : Nat) : (raise s c a).th.p = s.th.p := (congrArg Thread.p (raiseTh_eq s.th _) :)
@[simp] theorem raise_th_h (s : State) (c : FaultCode) (a : Nat) : (raise s c a).th.h = s.th.h := (congrArg Thread.h (raiseTh_eq s.th _) :)
@[simp] theorem raise_th_fr (s : State) (c : FaultCode) (a : Nat) : (raise s c a).th.fr = s.th.fr := (congrArg Thread.fr (raiseTh_eq s.th _) :)
@[simp] theorem raise_th_n (s : State) (c : FaultCode) (a : Nat) : (raise s c a).th.n = s.th.n := (congrArg Thread.n (raiseTh_eq s.th _) :)
@[simp] theorem raise_th_w (s : State) (c : FaultCode) (a : Nat) : (raise s c a).th.w = s.th.w := (congrArg Thread.w (raiseTh_eq s.th _) :)
@[simp] theorem raise_th_v (s : State) (c : FaultCode) (a : Nat) : (raise s c a).th.v = s.th.v := (congrArg Thread.v (raiseTh_eq s.th _) :)
@[simp] theorem raise_th_fmt (s : State) (c : FaultCode) (a : Nat) : (raise s c a).th.fmt = s.th.fmt := (congrArg Thread.fmt (raiseTh_eq s.th _) :)
@[simp] theorem raise_th_dom (s : State) (c : FaultCode) (a : Nat) : (raise s c a).th.dom = s.th.dom := (congrArg Thread.dom (raiseTh_eq s.th _) :)
@[simp] theorem raise_th_mpc (s : State) (c : FaultCode) (a : Nat) : (raise s c a).th.mpc = s.th.mpc := (congrArg Thread.mpc (raiseTh_eq s.th _) :)
@[simp] theorem raise_th_xpc (s : State) (c : FaultCode) (a : Nat) : (raise s c a).th.xpc = s.th.xpc := (congrArg Thread.xpc (raiseTh_eq s.th _) :)
@[simp] theorem raise_th_xcause (s : State) (c : FaultCode) (a : Nat) : (raise s c a).th.xcause = s.th.xcause := (congrArg Thread.xcause (raiseTh_eq s.th _) :)
@[simp] theorem raise_th_seg (s : State) (c : FaultCode) (a : Nat) : (raise s c a).th.seg = s.th.seg := (congrArg Thread.seg (raiseTh_eq s.th _) :)
@[simp] theorem raise_th_insys (s : State) (c : FaultCode) (a : Nat) : (raise s c a).th.insys = s.th.insys := (congrArg Thread.insys (raiseTh_eq s.th _) :)
@[simp] theorem raise_th_gate (s : State) (c : FaultCode) (a : Nat) : (raise s c a).th.gate = s.th.gate := (congrArg Thread.gate (raiseTh_eq s.th _) :)
@[simp] theorem raise_th_fences (s : State) (c : FaultCode) (a : Nat) : (raise s c a).th.fences = s.th.fences := (congrArg Thread.fences (raiseTh_eq s.th _) :)
@[simp] theorem raise_th_ckpt (s : State) (c : FaultCode) (a : Nat) : (raise s c a).th.ckpt = s.th.ckpt := (congrArg Thread.ckpt (raiseTh_eq s.th _) :)
@[simp] theorem raise_th_run (s : State) (c : FaultCode) (a : Nat) : (raise s c a).th.run = s.th.run := (congrArg Thread.run (raiseTh_eq s.th _) :)
@[simp] theorem raise_th_marking (s : State) (c : FaultCode) (a : Nat) : (raise s c a).th.marking = s.th.marking := (congrArg Thread.marking (raiseTh_eq s.th _) :)
@[simp] theorem raise_th_committed (s : State) (c : FaultCode) (a : Nat) : (raise s c a).th.committed = s.th.committed := (congrArg Thread.committed (raiseTh_eq s.th _) :)
@[simp] theorem raise_th_heldPriv (s : State) (c : FaultCode) (a : Nat) : (raise s c a).th.heldPriv = s.th.heldPriv := (congrArg Thread.heldPriv (raiseTh_eq s.th _) :)
@[simp] theorem raise_th_heldOp (s : State) (c : FaultCode) (a : Nat) : (raise s c a).th.heldOp = s.th.heldOp := (congrArg Thread.heldOp (raiseTh_eq s.th _) :)
@[simp] theorem raise_th_heldCpyo (s : State) (c : FaultCode) (a : Nat) : (raise s c a).th.heldCpyo = s.th.heldCpyo := (congrArg Thread.heldCpyo (raiseTh_eq s.th _) :)
@[simp] theorem raise_th_intr (s : State) (c : FaultCode) (a : Nat) : (raise s c a).th.intr = s.th.intr := (congrArg Thread.intr (raiseTh_eq s.th _) :)
@[simp] theorem raise_th_idist (s : State) (c : FaultCode) (a : Nat) : (raise s c a).th.idist = s.th.idist := (congrArg Thread.idist (raiseTh_eq s.th _) :)
@[simp] theorem raise_th_defer (s : State) (c : FaultCode) (a : Nat) : (raise s c a).th.defer = s.th.defer := (congrArg Thread.defer (raiseTh_eq s.th _) :)
@[simp] theorem raise_th_deferN (s : State) (c : FaultCode) (a : Nat) : (raise s c a).th.deferN = s.th.deferN := (congrArg Thread.deferN (raiseTh_eq s.th _) :)
@[simp] theorem raise_th_used (s : State) (c : FaultCode) (a : Nat) : (raise s c a).th.used = s.th.used := (congrArg Thread.used (raiseTh_eq s.th _) :)

/-! Results put in flight. -/

theorem putS_th_pend (s : State) (d : Nat) (x : Word) (c : Nat) :
    (putS s d x c).th.pend = { reg := .s d, val := .s x, land := s.th.pos + latOf s.th.seg c, pos := s.th.pos, load := none } :: s.th.pend := rfl

end Sys2Proof.Machine
end

