-- ==== Sys2Proof/Laws/Slots.lean ====
section
/-!
SUPPORT. What the wrappers of a slot do: with a false predicate nothing (R11), otherwise what they are given. One lemma per
wrapper and case; an instruction's proof rewrites with these and is left with its own effect.
-/
namespace Sys2Proof.Machine
open Sys2Proof

variable {s : State} {p : BitVec 5}

/-! The predicate. -/

theorem ctl_true (f : State → State) (h : predOk s.th p = true) : ctl s p f = .next (f s) := by simp [ctl, h]
theorem ctl_false (f : State → State) (h : predOk s.th p = false) : ctl s p f = .next s := by simp [ctl, h]
theorem slotOn_true (k : Out) (h : predOk s.th p = true) : slotOn s p k = k := by simp [slotOn, h]
theorem slotOn_false (k : Out) (h : predOk s.th p = false) : slotOn s p k = .next s := by simp [slotOn, h]
theorem scal_true (d : BitVec 6) (c : Nat) (x : Word) (h : predOk s.th p = true) : scal s p d c x = .next (putS s d.toNat x c) := by
  simp [scal, h]
theorem scal_false (d : BitVec 6) (c : Nat) (x : Word) (h : predOk s.th p = false) : scal s p d c x = .next s := by simp [scal, h]
theorem scalP_true (d : BitVec 4) (c : Nat) (x : Bool) (h : predOk s.th p = true) : scalP s p d c x = .next (putP s d.toNat x c) := by
  simp [scalP, h]
theorem scalP_false (d : BitVec 4) (c : Nat) (x : Bool) (h : predOk s.th p = false) : scalP s p d c x = .next s := by simp [scalP, h]
theorem scalF_true (d : BitVec 6) (x : BitVec 32) (h : predOk s.th p = true) :
    scalF s p d x = .next (putS s d.toNat (x.setWidth 64) clsFp) := scal_true d clsFp _ h

/-- A vector slot: nothing, a blocked bundle, or its effect. -/
theorem vSlot_false (rs : List Nat) (k : State → Out) (h : predOk s.th p = false) : vSlot s p rs k = .next s := by simp [vSlot, h]
theorem vSlot_busy (rs : List Nat) (k : State → Out) (h : predOk s.th p = true) (b : vBusy s rs = true) :
    vSlot s p rs k = .next (block s) := by simp [vSlot, h, b]
theorem vSlot_free (rs : List Nat) (k : State → Out) (h : predOk s.th p = true) (b : vBusy s rs = false) : vSlot s p rs k = k s := by
  simp [vSlot, h, b]

/-- A matrix slot consumes its metadata word in every case. -/
theorem mxSlot_false (k : State → Word → Out) (h : predOk s.th p = false) :
    mxSlot s p k = .next { s with th := { s.th with mpc := s.th.mpc + 8 } } := by simp [mxSlot, h]
theorem mxSlot_none (k : State → Word → Out) (h : predOk s.th p = true) (m : metaWord s = none) :
    mxSlot s p k = .next (raise { s with th := { s.th with mpc := s.th.mpc + 8 } } .handleBound 0) := by simp [mxSlot, h, m]
theorem mxSlot_some (k : State → Word → Out) (w : Word) (h : predOk s.th p = true) (m : metaWord s = some w) :
    mxSlot s p k = k { s with th := { s.th with mpc := s.th.mpc + 8 } } w := by simp [mxSlot, h, m]

/-! Accesses. -/

theorem withAccess_ok {hi n al : Nat} {off : Int} {need : Need} {k : State → Handle → Loc → Nat → Out} {t : State} {h : Handle}
    {l : Loc} {va : Nat} (u : useHandle s hi = .ok t h) (v : locate t h off n al need = .ok (l, va)) :
    withAccess s hi off n al need k = k t h l va := by simp [withAccess, u, v]
theorem withAccess_error {hi n al : Nat} {off : Int} {need : Need} {k : State → Handle → Loc → Nat → Out} {t : State} {h : Handle}
    {c : FaultCode} {a : Nat} (u : useHandle s hi = .ok t h) (v : locate t h off n al need = .error (c, a)) :
    withAccess s hi off n al need k = .next (raise t c a) := by simp [withAccess, u, v]
theorem withAccess_bad {hi n al : Nat} {off : Int} {need : Need} {k : State → Handle → Loc → Nat → Out} {c : FaultCode} {a : Nat}
    (u : useHandle s hi = .bad c a) : withAccess s hi off n al need k = .next (raise s c a) := by simp [withAccess, u]
theorem withAccess_wait {hi n al : Nat} {off : Int} {need : Need} {k : State → Handle → Loc → Nat → Out} {t : State}
    (u : useHandle s hi = .wait t) : withAccess s hi off n al need k = .next t := by simp [withAccess, u]

/-! Privileged instructions. -/

theorem privIssue_none (i : Instr) (a b c : Word) : privIssue s i a b c none = holdPriv s i a b c := rfl
theorem privIssue_some (i : Instr) (a b c : Word) (f : FaultCode) (x : Nat) :
    privIssue s i a b c (some (f, x)) = .next (raise s f x) := rfl

/-! Events. -/

theorem inner_on (f : State → State) (c : s.cur = .none) (a : s.power = .on) : inner s f = .next (f s) := by simp [inner, c, a]
theorem inner_off (f : State → State) (a : s.power ≠ .on) : inner s f = .next s := by simp [inner, a]
theorem linked_on (f : State → State) (c : s.cur = .none) (a : awake s = true) : linked s f = .next (f s) := by simp [linked, c, a]
theorem linked_off (f : State → State) (a : awake s = false) : linked s f = .next s := by simp [linked, a]
theorem outer_on (f : State → State) (c : s.cur = .none) (a : awake s = true) : outer s f = .next (f (wake s)) := by simp [outer, c, a]
theorem outer_off (f : State → State) (a : awake s = false) : outer s f = .next s := by simp [outer, a]

/-- Waking changes nothing but the power state. -/
theorem wake_eq (s : State) : ∃ p, wake s = { s with power := p } := by
  unfold wake
  split
  · exact ⟨_, rfl⟩
  · exact ⟨s.power, rfl⟩

/-! The ballast level. -/

theorem bNext_eq (f : BInst → BInst) : bNext s f = .next { s with bi := { f s.bi with pc := s.bi.pc + 4 } } := rfl
theorem bScal_eq (d : BitVec 5) (x : Word) : bScal s d x = .next { s with bi := { setE d.toNat x s.bi with pc := s.bi.pc + 4 } } := rfl

end Sys2Proof.Machine
end

