-- ==== Sys2Proof/Tests/Slice0.lean ====
section
/-!
SUPPORT. Tests: words of every family written out from the spec's formats, an ill-formed term for each check of WellFormed, and
for every statement a state and operands that meet its hypotheses.
-/
open Sys2Proof Sys2Proof.Machine

section
set_option Elab.async false

/-! Decoding. The words are written out from the formats of chapters 13 to 17. -/

/-- R275: header rows; with M set the row is the mark's. -/
theorem test_decode_header :
    decodeAt 15 0x00000000 = .ok .idle ∧ decodeAt 15 0x018D0000 = .ok (.wait 3 3 0 0) ∧
    decodeAt 15 0x018E0000 = .ok (.post 3 3 0 0) ∧ decodeAt 15 0x018F0000 = .ok (.take 3 3 0 0) ∧
    decodeAt 15 0x018E8021 = .ok (.restartMark 3 3 2 0x21) := by decide

/-- R279, R280. -/
theorem test_decode_control_1 :
    decodeAt 0 0x31B1540F = .ok (.br 814165 15) ∧
    decodeAt 0 0x89C84424 = .ok (.brp 1 1 70544 4) ∧
    decodeAt 0 0x2EE8A056 = .ok (.call 40 12008 22) ∧
    decodeAt 0 0x00003468 = .ok (.ret 13 8) ∧
    decodeAt 0 0xBED35885 = .ok (.jmpr 22 48851 5) ∧
    decodeAt 0 0xD2E710A9 = .ok (.loop 4 8 26995 9) ∧
    decodeAt 0 0x005A28D5 = .ok (.loopx 2 45 1 21) ∧
    decodeAt 0 0x000000F4 = .ok (.yield 20) ∧
    decodeAt 0 0x0000010F = .ok (.exit 15) ∧
    decodeAt 0 0x02372925 = .ok (.trap 36298 5) ∧
    decodeAt 0 0x025FBD5C = .ok (.svc 38895 28) ∧
    decodeAt 0 0x0000017A = .ok (.eret 26) := by decide

/-- R279, R280. -/
theorem test_decode_control_2 :
    decodeAt 0 0x0000558F = .ok (.setfmt 21 15) ∧
    decodeAt 0 0x000035BD = .ok (.fmtrd 13 29) ∧
    decodeAt 0 0xD4A005C1 = .ok (.mdpc 1 54432 1) ∧
    decodeAt 0 0x000005E3 = .ok (.step 1 3) ∧
    decodeAt 0 0x00001612 = .ok (.barr 5 18) ∧
    decodeAt 0 0x00000E39 = .ok (.mwait 3 25) ∧
    decodeAt 0 0x00F00E5D = .ok (.park 15363 29) := by decide

/-- R281, R282. -/
theorem test_decode_scalar_1 :
    decodeAt 1 0x0702701E = .ok (.add 14 1 14 30) ∧
    decodeAt 1 0xBCE59831 = .ok (.addi 51 50 377 17) ∧
    decodeAt 1 0x09184051 = .ok (.sub 8 12 18 17) ∧
    decodeAt 1 0x1195B87B = .ok (.mul 55 10 35 27) ∧
    decodeAt 1 0x1CCF688B = .ok (.mulh 45 39 57 11) ∧
    decodeAt 1 0x0FC2A8BD = .ok (.mulhu 21 33 31 29) ∧
    decodeAt 1 0x1164E8CC = .ok (.div 29 50 34 12) ∧
    decodeAt 1 0x072D78F5 = .ok (.divu 47 22 14 21) ∧
    decodeAt 1 0x1797C114 = .ok (.rem 56 11 47 20) ∧
    decodeAt 1 0x08972125 = .ok (.remu 36 11 17 5) ∧
    decodeAt 1 0x1FA6F143 = .ok (.and 30 19 63 3) ∧
    decodeAt 1 0x033E996B = .ok (.andi 19 31 6 11) := by decide

/-- R281, R282. -/
theorem test_decode_scalar_2 :
    decodeAt 1 0x19557999 = .ok (.or 47 42 50 25) ∧
    decodeAt 1 0x6762F1A9 = .ok (.ori 30 49 206 9) ∧
    decodeAt 1 0x146059D6 = .ok (.xor 11 48 40 22) ∧
    decodeAt 1 0xA54719FD = .ok (.xori 35 35 330 29) ∧
    decodeAt 1 0x008C921A = .ok (.andn 18 6 1 26) ∧
    decodeAt 1 0x0C282229 = .ok (.shl 4 20 24 9) ∧
    decodeAt 1 0x0E152245 = .ok (.shr 36 10 28 5) ∧
    decodeAt 1 0x0CC9026B = .ok (.sar 32 36 25 11) ∧
    decodeAt 1 0x0DBB1297 = .ok (.rot 34 29 27 23) ∧
    decodeAt 1 0x0064B2AE = .ok (.clz 22 50 14) ∧
    decodeAt 1 0x00552ADF = .ok (.ctz 37 42 31) ∧
    decodeAt 1 0x0060EAE8 = .ok (.popc 29 48 8) := by decide

/-- R281, R282. -/
theorem test_decode_scalar_3 :
    decodeAt 1 0x006B0315 = .ok (.brev 32 53 21) ∧
    decodeAt 1 0x0062EB22 = .ok (.bswap 29 49 2) ∧
    decodeAt 1 0x06A98350 = .ok (.min 48 20 13 16) ∧
    decodeAt 1 0x18B6EB6A = .ok (.max 29 27 49 10) ∧
    decodeAt 1 0x0CB9BB9D = .ok (.minu 55 28 25 29) ∧
    decodeAt 1 0x0088DBB5 = .ok (.maxu 27 4 1 21) ∧
    decodeAt 1 0x007F2BC3 = .ok (.abs 37 63 3) ∧
    decodeAt 1 0x1C63EC1E = .ok (.bfx 61 49 56 30) ∧
    decodeAt 1 0x0E34142D = .ok (.bfi 2 26 28 13) ∧
    decodeAt 1 0x007A8C57 = .ok (.mov 17 61 23) ∧
    decodeAt 1 0x1B665D55 = .ok (.fadd 11 51 54 21) ∧
    decodeAt 1 0x106FB561 = .ok (.fsub 54 55 32 1) := by decide

/-- R281, R282. -/
theorem test_decode_scalar_4 :
    decodeAt 1 0x0CCE4588 = .ok (.fmul 8 39 25 8) ∧
    decodeAt 1 0x1DA1EDB6 = .ok (.ffma 61 16 59 22) ∧
    decodeAt 1 0x11FC9DD7 = .ok (.fmin 19 62 35 23) ∧
    decodeAt 1 0x167A25F6 = .ok (.fmax 4 61 44 22) ∧
    decodeAt 1 0x00306E74 = .ok (.fclass 13 24 20) ∧
    decodeAt 1 0xC0550BFC = .ok (.ext 33 42 2 1 28) ∧
    decodeAt 1 0xB702AC76 = .ok (.movi 21 23425 22) ∧
    decodeAt 1 0x8258AC85 = .ok (.movhi 21 16684 5) ∧
    decodeAt 1 0xCC287CAF = .ok (.sel 15 6 20 24 15) ∧
    decodeAt 1 0x52D62CD4 = .ok (.cmp 5 43 37 2 20) ∧
    decodeAt 1 0x5664DCF1 = .ok (.cmpi 11 25 86 1 17) ∧
    decodeAt 1 0x0462FD05 = .ok (.pset 15 5 12 8 5) := by decide

/-- R281, R282. -/
theorem test_decode_scalar_5 :
    decodeAt 1 0x0000653D = .ok (.pmovRd 12 29) ∧
    decodeAt 1 0x207C0535 = .ok (.pmovWr 62 21) ∧
    decodeAt 1 0x0EAFBE1C = .ok (.fsgnCp 55 23 29 28) ∧
    decodeAt 1 0x294C8E06 = .ok (.fsgnNeg 17 38 18 6) ∧
    decodeAt 1 0x5C2CBE1E = .ok (.fsgnXor 23 22 56 30) ∧
    decodeAt 1 0x36E42E37 = .ok (.fcmp 5 50 45 1 23) ∧
    decodeAt 1 0x00163E4B = .ok (.fcvtI32F32 7 11 11) ∧
    decodeAt 1 0x20424E4F = .ok (.fcvtF32I32 9 33 15) ∧
    decodeAt 1 0x402CC64B = .ok (.fcvtU32F32 24 22 11) ∧
    decodeAt 1 0x6007A65B = .ok (.fcvtF32U32 52 3 27) ∧
    decodeAt 1 0x806E9E59 = .ok (.fcvtF16F32 19 55 25) ∧
    decodeAt 1 0xA007A655 = .ok (.fcvtF32F16 52 3 21) := by decide

/-- R281, R282. -/
theorem test_decode_scalar_6 :
    decodeAt 1 0xC0793647 = .ok (.fcvtBf16F32 38 60 7) ∧
    decodeAt 1 0xE06D3E50 = .ok (.fcvtF32Bf16 39 54 16) := by decide

/-- R283, R284, R386 to R394. -/
theorem test_decode_memory_1 :
    decodeAt 3 0x023B7162986DF01E = .ok (.ld 13 12 20 4681260 1 1 15 30) ∧
    decodeAt 3 0x02A9E7D9596BD02C = .ok (.st 45 12 10 5586171 3 13 12) ∧
    decodeAt 3 0x0991A0383813B001 = .ok (.ldWalk 2 12 1 3290119 11 1) ∧
    decodeAt 3 0x0A24DF0F1413E021 = .ok (.stWalk 2 10 56 4496353 14 1) ∧
    decodeAt 3 0x00000000003CE041 = .ok (.xlate 14 60 1) ∧
    decodeAt 3 0x0000000000407059 = .ok (.xlateScratch 7 25) ∧
    decodeAt 3 0x000000000680D059 = .ok (.xlatePlane 13 6 25) ∧
    decodeAt 3 0x0000000000004070 = .ok (.hfree 4 16) ∧
    decodeAt 3 0x00000003B000309D = .ok (.htest 59 3 29) ∧
    decodeAt 3 0x0AF8006B1A06111E = .ok (.aadd 1 10 49 702 26 0 1 30) ∧
    decodeAt 3 0xA7A000698A13C130 = .ok (.aand 4 10 24 10728 26 1 12 16) ∧
    decodeAt 3 0x054800F7BDA69154 = .ok (.aor 41 13 59 338 61 0 9 20) := by decide

/-- R283, R284, R386 to R394. -/
theorem test_decode_memory_2 :
    decodeAt 3 0xCD8C009FA22F216C = .ok (.axor 11 2 58 13155 39 1 2 12) ∧
    decodeAt 3 0x96A80048A1126186 = .ok (.amin 4 1 10 9642 18 0 6 6) ∧
    decodeAt 3 0x6F0400F42A8781A1 = .ok (.amax 33 10 2 7105 61 1 8 1) ∧
    decodeAt 3 0xFAF8009E89E231C5 = .ok (.aminu 56 9 40 16062 39 0 3 5) ∧
    decodeAt 3 0xFD7000965A1BD1EC = .ok (.amaxu 6 10 37 16220 37 1 13 12) ∧
    decodeAt 3 0xC74C00A1B7267201 = .ok (.axchg 9 7 27 12755 40 0 7 1) ∧
    decodeAt 3 0x382C2AD0341F5234 = .ok (.acas 7 4 3 3595 52 42 1 5 20) ∧
    decodeAt 3 0x4DE400A5969A425D = .ok (.afadd 38 6 25 4985 41 4 29) ∧
    decodeAt 3 0x9AFC00AC86037310 = .ok (.nmrAdd 6 8 9919 43 1 7 16) ∧
    decodeAt 3 0x1E2040370402F317 = .ok (.nmrFadd 4 48 1928 13 15 23) ∧
    decodeAt 3 0x30F08038B4038315 = .ok (.nmrMin 4 11 3132 14 1 8 21) ∧
    decodeAt 3 0x1000C0E3F603A317 = .ok (.nmrMax 6 63 1024 56 1 10 23) := by decide

/-- R283, R284, R386 to R394. -/
theorem test_decode_memory_3 :
    decodeAt 3 0x435100081702A318 = .ok (.nmrMinu 7 1 4308 2 0 10 24) ∧
    decodeAt 3 0xC2D540B6B103931F = .ok (.nmrMaxu 1 43 12469 45 1 9 31) ∧
    decodeAt 3 0xF6F180AAC403231E = .ok (.nmrAnd 4 44 15804 42 1 2 30) ∧
    decodeAt 3 0xB4F5C0C98503F314 = .ok (.nmrOr 5 24 11581 50 1 15 20) ∧
    decodeAt 3 0x57A200AD2F03430B = .ok (.nmrXor 15 18 5608 43 1 4 11) ∧
    decodeAt 3 0x000000000F2BA329 = .ok (.fence 62138 9) ∧
    decodeAt 3 0x00000000344EA349 = .ok (.rel 17642 3 9) ∧
    decodeAt 3 0x000000005809237A = .ok (.acq 32914 5 26) ∧
    decodeAt 3 0xA82C00A78B034383 = .ok (.waitge 11 56 10763 41 4 3) ∧
    decodeAt 3 0x8B4400DC430343B4 = .ok (.ctradd 3 4 8913 55 4 20) ∧
    decodeAt 3 0x00000001B82D0408 = .ok (.pin 45 32 27 8) ∧
    decodeAt 3 0x0000000095800433 = .ok (.unpin 22 9 19) := by decide

/-- R283, R284, R386 to R394. -/
theorem test_decode_memory_4 :
    decodeAt 3 0x01FA1200D600A448 = .ok (.pref 11 6 4145728 10 8) ∧
    decodeAt 3 0x032A2E51F200046C = .ok (.clean 9 15 6637002 12) ∧
    decodeAt 3 0x013926005A000482 = .ok (.inval 13 2 2565312 2) ∧
    decodeAt 3 0x000008711E7CD518 = .ok (.tld 12 39 7 1 0 8 3 1 13 24) ∧
    decodeAt 3 0x00000000F32E8531 = .ok (.tst 14 50 4 0 7 0 0 0 8 17) ∧
    decodeAt 3 0x5344005DE907155C = .ok (.lower 1 9 30 5329 23 1 28) ∧
    decodeAt 3 0xA45000FBCD03256A = .ok (.raise 13 60 10516 62 2 10) ∧
    decodeAt 3 0x00000102C81E061E = .ok (.wcloc 30 32 44 1 30) ∧
    decodeAt 3 0x00000000675B3636 = .ok (.wcrd 27 29 6 3 22) ∧
    decodeAt 3 0x000000706FB2B65E = .ok (.wcwr 50 62 6 28 11 30) ∧
    decodeAt 3 0x02BC649812A02716 = .ok (.blaunch 20 9 5737619 2 22) ∧
    decodeAt 3 0x736E200005F90C0B = .ok (.rdsys 57 23 1891208 11) := by decide

/-- R283, R284, R386 to R394. -/
theorem test_decode_memory_5 :
    decodeAt 3 0xE2F6A80231C00C2D = .ok (.wrsys 7 35 3718570 13) ∧
    decodeAt 3 0x000001EA5CD00C41 = .ok (.shootPkg 16 51 37 58 1) ∧
    decodeAt 3 0x0000020EB1430C4E = .ok (.shootSet 3 5 43 3 14) ∧
    decodeAt 3 0x0000004457D63C70 = .ok (.ctxsv 22 31 5 17 3 16) ∧
    decodeAt 3 0x0000000391F1BC94 = .ok (.ctxrs 49 7 57 11 20) ∧
    decodeAt 3 0x00000000092E0CBC = .ok (.haltcStop 46 36 28) ∧
    decodeAt 3 0x0000010000790CAF = .ok (.haltcGo 57 1 15) ∧
    decodeAt 3 0x000000A3ABAFFCDD = .ok (.keyldPart 47 46 58 40 15 29) ∧
    decodeAt 3 0x0000014D96585CCF = .ok (.keyldLink 24 25 25 19 5 15) ∧
    decodeAt 3 0x00000256F6E9BCC3 = .ok (.keyldSign 41 27 47 21 11 3) ∧
    decodeAt 3 0x0000000008000CF8 = .ok (.keydrop 32 24) ∧
    decodeAt 3 0x0000020000000D15 = .ok (.hsinit 2 21) := by decide

/-- R283, R284, R386 to R394. -/
theorem test_decode_memory_6 :
    decodeAt 3 0x000001013100ED39 = .ok (.hsupd 1 4 19 14 25) ∧
    decodeAt 3 0x000002000A859D47 = .ok (.hsfin 5 2 42 9 7) ∧
    decodeAt 3 0x0000005411231D79 = .ok (.edsign 35 4 1 21 1 25) ∧
    decodeAt 3 0x000000569F2D8D88 = .ok (.edver 45 60 41 21 8 8) ∧
    decodeAt 3 0x00000113F9177D91 = .ok (.edverSlots 23 36 63 4 7 17) ∧
    decodeAt 3 0x000000014F9E9DB1 = .ok (.mext 30 62 20 9 17) ∧
    decodeAt 3 0x0000000000010DDB = .ok (.rand 1 27) := by decide

/-- R285, R286. -/
theorem test_decode_copy_1 :
    decodeAt 4 0x0947C54BA622C012 = .ok (.cpy 1 4 23 1 1 0 10 34 6 1 7 74 8 18) ∧
    decodeAt 4 0x1168801930E58835 = .ok (.cpyo 3 6 50 7 0 1 0 0 0 1 8 139 1 21) ∧
    decodeAt 4 0x09D380120D64F04E = .ok (.unfold 1 1 36 3 0 1 0 0 5 1 19 78 14 14) ∧
    decodeAt 4 0x740025846033F87A = .ok (.fill 3 3 3 7 614680 1 14 26) ∧
    decodeAt 4 0x1C5583EDB223B893 = .ok (.xpose 3 6 27 1 1 0 15 1 2 1 21 226 7 19) ∧
    decodeAt 4 0x001EA5D429B2F91E = .ok (.shunt 1 10 46 3 3 5 1 1 1 20 3 15 30) ∧
    decodeAt 4 0x17A83F10D938E939 = .ok (.shuntcAllreduce 1 3 1 8 56 2 27 7 1 1 20 11 13 25) ∧
    decodeAt 4 0x0FAAF3696A3AB13D = .ok (.shuntcAllgather 1 3 1 4 27 4 45 30 1 1 21 7 6 29) ∧
    decodeAt 4 0x03ADE17DCB3DA121 = .ok (.shuntcReducescatter 3 3 1 14 11 6 57 60 1 1 22 1 4 1) ∧
    decodeAt 4 0x1DAFDE64E53E9127 = .ok (.shuntcBroadcast 1 3 1 2 51 10 28 59 1 1 23 14 2 7) ∧
    decodeAt 4 0x0052F39CB296DA1D = .ok (.wload 1 5714 3 3 39 4 1 11 10 11 29) ∧
    decodeAt 4 0x000000000004231E = .ok (.qstat 4 2 30) := by decide

/-- R287, R288. -/
theorem test_decode_matrix_1 :
    decodeAt 5 0x0004121520AEE81F = .ok (.mma 5 3 1 43 32 42 521 31) ∧
    decodeAt 5 0x0000ACF12397602B = .ok (.mmas 4 5 1 37 35 482 86 11) ∧
    decodeAt 5 0x000000001ECE005C = .ok (.wtile 1 1971 28) ∧
    decodeAt 5 0x000000000000007B = .ok (.wswap 27) ∧
    decodeAt 5 0x000000000000288D = .ok (.mcommit 5 13) ∧
    decodeAt 5 0x000000007F0818BC = .ok (.accz 3 2 127 28) ∧
    decodeAt 5 0x000CC46CCB6208C8 = .ok (.accrd 1 0 1 44 101 12 6 4 51 0 8) ∧
    decodeAt 5 0x000000003D95D8E9 = .ok (.accwr 3 7 37 61 9) ∧
    decodeAt 5 0x0000000000004117 = .ok (.rpop 1 23) := by decide

/-- R289. -/
theorem test_decode_special_1 :
    decodeAt 6 0x0079BC04 = .ok (.rcpVector 7 13 30 4) ∧
    decodeAt 6 0x00320609 = .ok (.rcpScalar 1 50 9) ∧
    decodeAt 6 0x0055243F = .ok (.rsqVector 1 9 21 31) ∧
    decodeAt 6 0x00390A33 = .ok (.rsqScalar 2 57 19) ∧
    decodeAt 6 0x00755045 = .ok (.sqrtVector 4 10 29 5) ∧
    decodeAt 6 0x001EF243 = .ok (.sqrtScalar 60 30 3) ∧
    decodeAt 6 0x006B4875 = .ok (.exp2Vector 2 26 26 21) ∧
    decodeAt 6 0x0033F27A = .ok (.exp2Scalar 60 51 26) ∧
    decodeAt 6 0x004F249A = .ok (.log2Vector 1 25 19 26) ∧
    decodeAt 6 0x001A4286 = .ok (.log2Scalar 16 26 6) ∧
    decodeAt 6 0x007A34B8 = .ok (.sinVector 5 17 30 24) ∧
    decodeAt 6 0x000E22BF = .ok (.sinScalar 8 14 31) := by decide

/-- R289. -/
theorem test_decode_special_2 :
    decodeAt 6 0x0051D0DA = .ok (.cosVector 4 14 20 26) ∧
    decodeAt 6 0x00051ECF = .ok (.cosScalar 7 5 15) ∧
    decodeAt 6 0x001F8CEA = .ok (.tanhVector 3 28 7 10) ∧
    decodeAt 6 0x00213AF1 = .ok (.tanhScalar 14 33 17) ∧
    decodeAt 6 0x0007CD1F = .ok (.sigmVector 3 30 1 31) ∧
    decodeAt 6 0x0018D306 = .ok (.sigmScalar 52 24 6) ∧
    decodeAt 6 0x0063513E = .ok (.erfVector 4 26 24 30) ∧
    decodeAt 6 0x0010DB3A = .ok (.erfScalar 54 16 26) := by decide

/-- R290, R291, R351 to R361. -/
theorem test_decode_vector_1 :
    decodeAt 13 0x0D0661112F191DFF = .ok (.vx 6 23 3 25 24 11 2 17 16 1 2 1 0 2 3 31) ∧
    decodeAt 9 0x000000090C21100D = .ok (.vdot 2 17 16 16 1 1 2 13) ∧
    decodeAt 8 0x0000000006042057 = .ok (.vred 1 2 2 4 1 23) ∧
    decodeAt 8 0x00000000A7201097 = .ok (.vperm 1 1 16 28 20 23) ∧
    decodeAt 8 0x00000000015E80D3 = .ok (.vbcast 1 8 47 2 19) ∧
    decodeAt 13 0x0000000001FC7106 = .ok (.vxc 6 7 6 31 6) ∧
    decodeAt 11 0x0000000000135143 = .ok (.vmov 4 21 9 3) ∧
    decodeAt 11 0x000000030001819B = .ok (.viota 4 24 3 27) ∧
    decodeAt 9 0x0006A973EC56B209 = .ok (.vld 2 11 11 34 873191 13 9) ∧
    decodeAt 8 0x0020D26E95FA6249 = .ok (.vst 1 6 13 47 4302045 2 9) ∧
    decodeAt 8 0x00038FF16370A304 = .ok (.vldt 1 10 8 27 466914 12 4) ∧
    decodeAt 14 0x000F8E01A05E735E = .ok (.vstt 7 7 15 2 2038787 4 30) := by decide

/-- R290, R291, R351 to R361. -/
theorem test_decode_vector_2 :
    decodeAt 12 0x0B3A6E6930CB1283 = .ok (.vldx 5 17 5 6 7658706 22 6 3) ∧
    decodeAt 12 0x0A2EEC7D3025D2CB = .ok (.vstx 5 29 2 1 6150394 20 6 11) ∧
    decodeAt 11 0x0000000000E0540E = .ok (.pfcfg 4 5 14 14) ∧
    decodeAt 8 0x0000000001625452 = .ok (.pfins 1 5 4 22 18) ∧
    decodeAt 8 0x0000000C01126483 = .ok (.pftst 1 24 6 4 17 3) ∧
    decodeAt 10 0x00000000500074C2 = .ok (.pfmrg 3 7 5 2) ∧
    decodeAt 9 0x0000000001041514 = .ok (.pfrd 2 8 1 16 20) ∧
    decodeAt 10 0x0000000005E0355D = .ok (.pfcnt 3 30 3 1 29) ∧
    decodeAt 9 0x0000000000005588 = .ok (.pfclr 2 5 8) ∧
    decodeAt 13 0x000F981C7C2415D8 = .ok (.pfspl 6 1 2 33 2043960 15 24) ∧
    decodeAt 14 0x003A08174B22160F = .ok (.pffil 7 1 1 25 7606318 9 15) := by decide

/-- R399, R400. -/
theorem test_decode_ballast_1 :
    decodeAt 16 0x02590800 = .ok (.bAdd 18 25 1) ∧
    decodeAt 16 0x055F6800 = .ok (.bSub 10 31 13) ∧
    decodeAt 16 0x0A5AD800 = .ok (.bMul 18 26 27) ∧
    decodeAt 16 0x0ED97000 = .ok (.bAnd 22 25 14) ∧
    decodeAt 16 0x109F8800 = .ok (.bOr 4 31 17) ∧
    decodeAt 16 0x1634B000 = .ok (.bXor 17 20 22) ∧
    decodeAt 16 0x1B0E3800 = .ok (.bShl 24 14 7) ∧
    decodeAt 16 0x1CA89000 = .ok (.bShr 5 8 18) ∧
    decodeAt 16 0x2378F000 = .ok (.bSar 27 24 30) ∧
    decodeAt 16 0x250AE800 = .ok (.bMin 8 10 29) ∧
    decodeAt 16 0x2ABE8800 = .ok (.bMax 21 30 17) ∧
    decodeAt 16 0x43CB1D7E = .ok (.bAddi 30 11 7550) := by decide

/-- R399, R400. -/
theorem test_decode_ballast_2 :
    decodeAt 16 0x458871DA = .ok (.bAndi 12 8 29146) ∧
    decodeAt 16 0x4AB695C7 = .ok (.bOri 21 22 38343) ∧
    decodeAt 16 0x4FEFBA6C = .ok (.bXori 31 15 47724) ∧
    decodeAt 16 0x50E0D355 = .ok (.bLui 7 54101) ∧
    decodeAt 16 0x56EA0025 = .ok (.bShli 23 10 37) ∧
    decodeAt 16 0x627AB35A = .ok (.bBeq 19 26 45914) ∧
    decodeAt 16 0x659889C8 = .ok (.bBne 12 24 35272) ∧
    decodeAt 16 0x688E6D42 = .ok (.bBlt 4 14 27970) ∧
    decodeAt 16 0x6F811D6B = .ok (.bBge 28 1 7531) ∧
    decodeAt 16 0x7391125C = .ok (.bBltu 28 17 4700) ∧
    decodeAt 16 0x74342524 = .ok (.bBgeu 1 20 9508) ∧
    decodeAt 16 0x781450A2 = .ok (.bJ 1331362) := by decide

/-- R399, R400. -/
theorem test_decode_ballast_3 :
    decodeAt 16 0x80144112 = .ok (.ropen 1 20 274) ∧
    decodeAt 16 0x87E854B4 = .ok (.ldy 31 1 8 1204 1) ∧
    decodeAt 16 0x8BFE65A9 = .ok (.sty 31 1 30 1449 2) ∧
    decodeAt 16 0x8DA1474B = .ok (.vldy 13 1 1 1867) ∧
    decodeAt 16 0x90DB46B8 = .ok (.vsty 6 1 27 1720) ∧
    decodeAt 16 0x96428000 = .ok (.rred 2 4 1 1) ∧
    decodeAt 16 0xA06E6000 = .ok (.bVadd 1 11 9 2) ∧
    decodeAt 16 0xA6732000 = .ok (.bVsub 9 12 12 2) ∧
    decodeAt 16 0xAB6FE000 = .ok (.bVmul 13 11 15 2) ∧
    decodeAt 16 0xAE79E000 = .ok (.bVmin 9 14 7 2) ∧
    decodeAt 16 0xB17E6000 = .ok (.bVmax 5 15 9 2) ∧
    decodeAt 16 0xB6B28000 = .ok (.bVand 10 12 10) := by decide

/-- R399, R400. -/
theorem test_decode_ballast_4 :
    decodeAt 16 0xBABF8000 = .ok (.bVor 10 15 14) ∧
    decodeAt 16 0xBD750000 = .ok (.bVxor 5 13 4) ∧
    decodeAt 16 0xC21E0000 = .ok (.vbc 8 30) ∧
    decodeAt 16 0xC5A69000 = .ok (.bVred 13 3 2 1) ∧
    decodeAt 16 0xC9800000 = .ok (.bViota 6) ∧
    decodeAt 16 0xE1E2E000 = .ok (.kpost 15 23) ∧
    decodeAt 16 0xE4000000 = .ok .yieldb ∧
    decodeAt 16 0xE8000000 = .ok .endb := by decide


/-! An ill-formed term for each check of WellFormed, beside its well-formed neighbour. -/

/-- R278, R321, R323: unassigned relations. -/
theorem test_ill_relations :
    WellFormed (.cmp 1 2 3 6 0) = false ∧ WellFormed (.cmp 1 2 3 5 0) = true ∧
    WellFormed (.cmpi 1 2 3 6 0) = false ∧ WellFormed (.cmpi 1 2 3 5 0) = true ∧
    WellFormed (.fcmp 1 2 3 4 0) = false ∧ WellFormed (.fcmp 1 2 3 3 0) = true := by decide

/-- R345 to R353: unassigned unit, mode, form, destination, reduction and width codes. -/
theorem test_ill_vector_codes :
    WellFormed (.vx 0 1 2 0 0 0 0 0 0 0 0 0 0 0 0 0) = false ∧ WellFormed (.vx 0 1 2 3 0 0 1 0 0 0 0 0 0 0 0 0) = true ∧
    WellFormed (.vx 0 1 2 3 0 0 20 0 0 0 0 0 0 0 0 0) = false ∧ WellFormed (.vx 0 1 2 3 0 0 1 20 0 0 0 0 0 0 0 0) = false ∧
    WellFormed (.vx 0 1 2 3 0 0 1 0 20 0 0 0 0 0 0 0) = false ∧ WellFormed (.vx 0 1 2 3 0 0 17 0 0 0 0 0 6 0 0 0) = false ∧
    WellFormed (.vx 0 1 2 3 0 0 17 0 0 0 0 0 5 0 0 0) = true ∧ WellFormed (.vx 0 1 2 3 0 0 1 17 0 0 0 0 0 6 0 0) = false ∧
    WellFormed (.vx 0 1 2 3 0 0 1 0 17 0 0 0 0 0 6 0) = false ∧
    WellFormed (.vdot 0 1 2 3 4 3 0 0) = false ∧ WellFormed (.vdot 0 1 2 3 4 0 3 0) = false ∧
    WellFormed (.vdot 0 1 2 3 4 2 2 0) = true ∧
    WellFormed (.vred 0 1 2 6 1 0) = false ∧ WellFormed (.vred 0 1 2 5 1 0) = true ∧
    WellFormed (.vred 0 1 2 0 3 0) = false ∧ WellFormed (.vred 0 1 2 2 0 0) = true ∧
    WellFormed (.vbcast 0 1 2 3 0) = false ∧ WellFormed (.vbcast 0 1 2 2 0) = true := by decide

/-- R400, R402 to R404: type, operation and size codes of Lamesque-B, and RRED's four registers. -/
theorem test_ill_ballast :
    WellFormed (.bVadd 1 2 3 3) = false ∧ WellFormed (.bVsub 1 2 3 3) = false ∧ WellFormed (.bVmul 1 2 3 3) = false ∧
    WellFormed (.bVmin 1 2 3 3) = false ∧ WellFormed (.bVmax 1 2 3 3) = false ∧ WellFormed (.bVmax 1 2 3 2) = true ∧
    WellFormed (.bVred 1 2 0 3) = false ∧ WellFormed (.bVred 1 2 0 2) = true ∧ WellFormed (.bVred 1 2 6 0) = false ∧ WellFormed (.bVred 1 2 3 1) = false ∧ WellFormed (.bVred 1 2 5 0) = true ∧
    WellFormed (.rred 1 13 0 0) = false ∧ WellFormed (.rred 1 12 0 0) = true ∧ WellFormed (.rred 1 0 0 3) = false ∧
    WellFormed (.ldy 1 0 2 0 3) = false ∧ WellFormed (.ldy 1 0 2 0 2) = true ∧ WellFormed (.sty 1 0 2 0 1) = false ∧
    WellFormed (.sty 1 0 2 0 3) = false ∧ WellFormed (.sty 1 0 2 0 2) = true := by decide

/-- R275, R305, R319, R327, R334, R336: fields of header, control, scalar and memory words. -/
theorem test_ill_fields :
    WellFormed (.restartMark 1 0 0 0) = false ∧ WellFormed (.restartMark 0 1 0 0) = false ∧ WellFormed (.restartMark 1 1 1 0) = true ∧
    WellFormed (.loop 6 0 0 0) = false ∧ WellFormed (.loop 5 15 0 0) = true ∧ WellFormed (.loopx 6 0 0 0) = false ∧
    WellFormed (.loopx 5 0 0 0) = true ∧ WellFormed (.ext 1 2 3 0 0) = false ∧ WellFormed (.ext 1 2 2 1 0) = true ∧
    WellFormed (.ld 1 2 3 4 3 1 0 0) = false ∧ WellFormed (.ld 1 2 3 4 3 0 0 0) = true ∧
    WellFormed (.rel 1 0 0) = false ∧ WellFormed (.rel 1 6 0) = false ∧ WellFormed (.rel 1 5 0) = true ∧
    WellFormed (.acq 1 0 0) = false ∧ WellFormed (.acq 1 7 0) = false ∧ WellFormed (.acq 1 1 0) = true := by decide

/-- R278, R283, R285: the unused half of a tile side, a post that is not made, and the fields of the other engine words. -/
theorem test_ill_engines :
    WellFormed (.tld 1 2 3 0 4 1 0 0 0 0) = false ∧ WellFormed (.tld 1 2 3 0 4 0 1 0 0 0) = false ∧
    WellFormed (.tld 1 2 3 0 4 0 0 1 0 0) = false ∧ WellFormed (.tld 1 2 3 1 4 0 0 0 0 0) = false ∧
    WellFormed (.tld 1 2 3 1 0 5 6 7 0 0) = true ∧ WellFormed (.tst 1 2 3 0 4 1 0 0 0 0) = false ∧
    WellFormed (.tst 1 2 3 0 4 0 0 1 0 0) = false ∧ WellFormed (.tst 1 2 3 0 4 0 0 0 0 0) = true ∧
    WellFormed (.cpy 0 1 2 3 0 4 1 0 0 0 0 0 0 0) = false ∧ WellFormed (.cpy 0 1 2 3 0 4 0 0 1 0 0 0 0 0) = false ∧
    WellFormed (.cpy 0 1 2 3 0 4 0 0 0 0 1 0 0 0) = false ∧ WellFormed (.cpy 0 1 2 3 0 4 0 0 0 1 1 1 0 0) = true ∧
    WellFormed (.cpyo 0 1 2 3 1 4 0 0 0 0 0 0 0 0) = false ∧ WellFormed (.cpyo 0 1 2 3 1 0 0 0 0 0 0 1 0 0) = false ∧
    WellFormed (.unfold 0 1 2 3 0 4 0 1 0 0 0 0 0 0) = false ∧ WellFormed (.unfold 0 1 2 3 0 4 0 0 7 0 0 1 0 0) = false ∧
    WellFormed (.xpose 0 1 2 3 0 4 1 0 0 0 0 0 0 0) = false ∧ WellFormed (.xpose 0 1 2 3 0 4 0 0 3 0 0 0 0 0) = false ∧
    WellFormed (.xpose 0 1 2 3 0 4 0 0 2 0 0 1 0 0) = false ∧ WellFormed (.xpose 0 1 2 3 0 4 0 0 2 0 0 0 0 0) = true ∧
    WellFormed (.fill 0 1 2 3 4 0 1 0) = false ∧ WellFormed (.fill 0 1 2 3 4 1 1 0) = true ∧
    WellFormed (.wload 0 0 1 1 1 1 0 0 0 0 0) = false ∧ WellFormed (.wload 0 0 0 1 1 1 0 1 0 0 0) = false ∧
    WellFormed (.wload 0 0 2 1 1 1 1 1 1 0 0) = true := by decide

/-- R285, R373: CE and FE with the registers of a shunt. -/
theorem test_ill_shunts :
    WellFormed (.shunt 0 1 2 3 4 5 6 0 0 1 0 0 0) = false ∧ WellFormed (.shunt 0 1 2 3 4 5 6 0 0 0 1 0 0) = false ∧
    WellFormed (.shunt 0 1 2 3 4 5 6 1 0 0 1 0 0) = false ∧ WellFormed (.shunt 0 1 2 3 4 5 6 1 1 62 1 0 0) = false ∧
    WellFormed (.shunt 0 1 2 3 4 5 6 0 1 61 1 0 0) = false ∧ WellFormed (.shunt 0 1 2 3 4 5 6 1 1 61 1 0 0) = true ∧
    WellFormed (.shuntcAllreduce 0 1 0 1 2 3 4 5 0 0 1 0 0 0) = false ∧
    WellFormed (.shuntcAllgather 0 1 0 1 2 3 4 5 0 0 0 1 0 0) = false ∧
    WellFormed (.shuntcReducescatter 0 1 0 1 2 3 4 5 1 0 0 1 0 0) = false ∧
    WellFormed (.shuntcBroadcast 0 1 0 1 2 3 4 5 1 0 62 1 0 0) = false ∧
    WellFormed (.shuntcBroadcast 0 1 0 1 2 3 4 5 0 1 61 0 0 0) = true := by decide

/-- R287, R380, R346: ACCRD's destinations, and the units of a cascade that use no type, mode or second register. -/
theorem test_ill_accrd_vx :
    WellFormed (.accrd 0 1 0 0 1 4 1 0 0 0 0) = false ∧ WellFormed (.accrd 0 1 0 0 1 4 0 1 0 0 0) = false ∧
    WellFormed (.accrd 0 1 0 0 1 4 0 0 0 1 0) = false ∧ WellFormed (.accrd 0 1 0 0 1 4 0 0 2 0 0) = true ∧
    WellFormed (.accrd 0 1 1 0 1 4 2 3 0 0 0) = false ∧ WellFormed (.accrd 0 0 1 0 1 4 2 3 0 1 0) = false ∧
    WellFormed (.accrd 0 0 1 0 1 4 2 3 0 0 0) = true ∧ WellFormed (.accrd 0 1 2 0 1 4 0 3 0 4 0) = false ∧
    WellFormed (.accrd 0 0 2 0 1 4 0 8 0 4 0) = false ∧ WellFormed (.accrd 0 0 2 0 1 4 0 7 0 4 0) = true ∧
    WellFormed (.accrd 0 0 3 0 1 4 0 0 0 0 0) = false ∧
    WellFormed (.vx 0 1 2 3 0 0 13 0 0 0 0 0 0 0 0 0) = false ∧ WellFormed (.vx 0 1 2 0 0 0 13 0 0 0 0 0 0 0 0 0) = true ∧
    WellFormed (.vx 0 1 2 3 4 0 1 13 0 0 0 0 0 0 0 0) = false ∧ WellFormed (.vx 0 1 2 3 0 4 1 0 13 0 0 0 0 0 0 0) = false ∧
    WellFormed (.vx 0 1 2 3 0 0 1 0 0 0 0 0 1 0 0 0) = false ∧ WellFormed (.vx 0 1 2 3 0 0 6 0 0 0 0 0 0 0 0 0) = false ∧
    WellFormed (.vx 0 1 2 3 0 0 6 0 0 1 0 0 0 0 0 0) = true := by decide


/-! Equations that the kernel decides by evaluation. -/

def hresOk (r : HRes) (t : State) (x : Handle) : Bool := match r with
  | .ok s y => s == t && y == x
  | _ => false

theorem hres_ok {r : HRes} {t : State} {x : Handle} (h : hresOk r t x = true) : r = .ok t x := by
  cases r <;> simp_all [hresOk]

def hresBad (r : HRes) (c : FaultCode) (a : Nat) : Bool := match r with
  | .bad d b => d == c && b == a
  | _ => false

theorem hres_bad {r : HRes} {c : FaultCode} {a : Nat} (h : hresBad r c a = true) : r = .bad c a := by
  cases r <;> simp_all [hresBad]

def hresVal (r : HRes) (x : Handle) : Bool := match r with
  | .ok _ y => y == x
  | _ => false

theorem hres_val {r : HRes} {x : Handle} (h : hresVal r x = true) : ∃ t, r = .ok t x := by
  cases r <;> simp_all [hresVal]

def sideOk (r : SideRes) (t : State) (x : Side) : Bool := match r with
  | .ok s y => s == t && y == x
  | _ => false

theorem side_ok {r : SideRes} {t : State} {x : Side} (h : sideOk r t x = true) : r = .ok t x := by
  cases r <;> simp_all [sideOk]

def outNext (r : Out) (t : State) : Bool := match r with
  | .next s => s == t
  | _ => false

theorem out_next {r : Out} {t : State} (h : outNext r t = true) : r = .next t := by
  cases r <;> simp_all [outNext]

def locIs {α : Type} [DecidableEq α] (r : Except (FaultCode × Nat) α) (x : α) : Bool := match r with
  | .ok y => y == x
  | .error _ => false

theorem loc_ok {α : Type} [DecidableEq α] {r : Except (FaultCode × Nat) α} {x : α} (h : locIs r x = true) : r = .ok x := by
  cases r <;> simp_all [locIs]

def locBad {α : Type} (r : Except (FaultCode × Nat) α) (e : FaultCode × Nat) : Bool := match r with
  | .ok _ => false
  | .error d => d == e

theorem loc_bad {α : Type} {r : Except (FaultCode × Nat) α} {e : FaultCode × Nat} (h : locBad r e = true) : r = .error e := by
  cases r <;> simp_all [locBad]

def listOf {α β : Type} (r : Except α (List β)) : List β := match r with
  | .ok l => l
  | .error _ => []

theorem list_ok {α β : Type} {r : Except α (List β)} (h : r.isOk = true) : r = .ok (listOf r) := by
  cases r <;> simp_all [listOf, Except.isOk, Except.toBool]

/-! Witnesses. `at_ t` is a machine whose focused thread is `t`, in a group with two declared fronts, two rings and two planes, a bank
and scratch. -/

/-- A segment of two words of metadata, whose bundle map marks every word. -/
def tSeg : Seg := { Seg.none with code := 0x10000, len := 256, map := 0x30000, md := 0x20000, mdLen := 16 }

/-- A kernel that declares something of each kind. -/
def tKern : Kernel :=
  { Kernel.none with bank := true, fronts := 2, scratch := 64, rings := [(2048, 2), (256, 1)], planes := [(65536, 0), (4096, 1)], seg := tSeg }

/-- Its group: ring 0 empty with two slots of 2048 bytes, ring 1 with its one slot of 256 bytes filled, 20 pinned lines. -/
def tGrp : Group :=
  { Group.init with
    kern := tKern, pinned := List.range 20,
    rings := [(0, { Ring.none with bytes := 2048, slots := 2 }), (1, { Ring.none with base := 4096, bytes := 256, slots := 1, filled := 1 })] }

/-- A thread of it, before its first bundle. -/
def tTh : Thread := { Thread.init with seg := tSeg, pc := 4, bpc := 0, pos := 5 }

/-- The machine after reset, with fuses that the kernel can compare. -/
def tReset : State := { State.reset with fuses := { root := [], hwconf := [] } }

/-- The machine with thread `t` focused. -/
def at_ (t : Thread) : State := { tReset with cur := .thread 0 0, power := .on, th := t, grp := tGrp }

/-- The thread with given scalars. -/
def withS (l : Tab Word) : State := at_ { tTh with s := l }

/-! Encoding and stepping. -/

theorem test_hyp_RoundTripScalarHeaderBallast :
    slotOf (.addi 63 63 0x1FF 0x1F) = some 1 ∧ WellFormed (.addi 63 63 0x1FF 0x1F) = true ∧
    (encode (.addi 63 63 0x1FF 0x1F)).isSome = true ∧ slotOf (.br 0x3FFFFF 0) = some 0 ∧ (encode (.br 0x3FFFFF 0)).isSome = true ∧
    slotOf (.restartMark 255 31 3 0x7FFF) = some 15 ∧ unmarked (.restartMark 255 31 3 0x7FFF) = true ∧
    WellFormed (.restartMark 255 31 3 0x7FFF) = true ∧ (encode (.restartMark 255 31 3 0x7FFF)).isSome = true ∧
    slotOf (.bAddi 31 31 0xFFFF) = some 16 ∧ WellFormed (.bAddi 31 31 0xFFFF) = true ∧
    (encode (.bAddi 31 31 0xFFFF)).isSome = true := by decide +kernel

theorem test_hyp_RoundTripEngines :
    slotOf (.st 63 15 63 0xFFFFFF 3 15 31) = some 3 ∧ WellFormed (.st 63 15 63 0xFFFFFF 3 15 31) = true ∧
    (encode (.st 63 15 63 0xFFFFFF 3 15 31)).isSome = true ∧
    slotOf (.pfclr 7 7 31) = some 14 ∧ WellFormed (.pfclr 7 7 31) = true ∧ (encode (.pfclr 7 7 31)).isSome = true ∧
    slotOf (.mma 7 7 1 63 64 0x3FF 0x7FF 31) = some 5 ∧ WellFormed (.mma 7 7 1 63 64 0x3FF 0x7FF 31) = true ∧
    (encode (.mma 7 7 1 63 64 0x3FF 0x7FF 31)).isSome = true := by decide +kernel

/-- ADDI s1, s0, 5 placed as the next thing to run. -/
noncomputable def tStep : State := State.reset.withFetchWord 32 0x02800820

/-- The same with its core, then its thread, focused and ready. -/
noncomputable def tStepTh : State := readyTh (focusCx (focusCore tStep 0) 0)

/-- Its bundle. -/
def tStepBundle : Bundle := { m := false, sync := 0, flag := 0, count := 0, slots := [(1, .addi 1 0 5 0)], len := 8 }

/-- The thread as the slot's instruction finds it, and as it leaves it. -/
noncomputable def tStepAt : State := { tStepTh with th := { tStepTh.th with pc := tStepTh.th.pc + BitVec.ofNat 64 8, slot := 1 } }

theorem test_hyp_StepRunsSlot :
    enabled tStep = [.issue 0] ∧ (focusCore tStep 0).cur = .core 0 ∧ 
    shotHold (focusCore tStep 0) (focusCore tStep 0).grp.image (thAt (focusCore tStep 0).grp 0) = false ∧
    yielded (focusCore tStep 0).grp = [] ∧ claimOrder (focusCore tStep 0) = [0] ∧ mayTry (thAt (focusCore tStep 0).grp 0) = true ∧
    fetch tStepTh tStepTh.th.seg tStepTh.th.pc.toNat = .ok tStepBundle ∧ tStepBundle.isMark = false ∧
    slotStalls tStepTh.th (.addi 1 0 5 0) = false := by decide +kernel

theorem test_hyp_StepRunsSlot_exec :
    exec (.addi 1 0 5 0) tStepAt = .next (putS tStepAt 1 5 clsAlu) ∧ isBlock (putS tStepAt 1 5 clsAlu).th.run = false ∧
    isBlock (bundleEnd (putS tStepAt 1 5 clsAlu) false).th.run = false ∧ (putS tStepAt 1 5 clsAlu).cur = .thread 0 0 :=
  ⟨rfl, by decide⟩

/-- B_ADDI e1, e0, 5, and a word that no row has, placed as the next thing to run. -/
noncomputable def tBallast : State := State.reset.withFetchWord 32 0x40200005
def tBallastBad : State := placeBallast State.reset 0xFFFFFFFF

theorem test_hyp_StepRunsBallast :
    enabled tBallast = [.ballast 0] ∧ ((focusBallast tBallast 0).bi.code.drop (focusBallast tBallast 0).bi.pc.toNat).length = 4 ∧
    decodeBallast (leNat ((focusBallast tBallast 0).bi.code.take 4)) = .ok (.bAddi 1 0 5) ∧ enabled tBallastBad = [.ballast 0] ∧
    decodeBallast (leNat ((focusBallast tBallastBad 0).bi.code.take 4)) = .illegalOpcode := by decide +kernel

theorem test_hyp_StepRunsBallast_exec : exec (.bAddi 1 0 5) (focusBallast tBallast 0) =
    .next { focusBallast tBallast 0 with bi := { setE 1 5 (focusBallast tBallast 0).bi with pc := 4 } } := rfl

/-- A thread whose next bundle has the given bytes, in a segment with or without the system bit. -/
def tBytes (bs : List Byte) (len : Nat) (sys : Bool) : State :=
  { homeStore tReset 0x10000 bs with
    cur := .thread 0 0, power := .on, grp := tGrp, th := { tTh with pc := 0, seg := { tSeg with len := len, sys := sys } } }

/-- R13, R276: a bundle of 8 bytes in a segment of 4; ERET without the system bit; CTL OP 0x13; M clear with an atomic. -/
theorem test_hyp_FetchFaults :
    (let s := readyTh (tBytes [1, 0, 0, 0] 4 false); fetch s s.th.seg s.th.pc.toNat = .pastEnd) ∧
    (let s := readyTh (tBytes [1, 0, 0, 0, 0x60, 1, 0, 0] 8 false); fetch s s.th.seg s.th.pc.toNat = .bad 0 false .privOpcode) ∧
    (let s := readyTh (tBytes [1, 0, 0, 0, 0x60, 2, 0, 0] 8 true); fetch s s.th.seg s.th.pc.toNat = .bad 0 false .illegalOpcode) ∧
    (let s := readyTh (tBytes [1, 0, 0, 0, 0xA0, 0x18, 0, 0] 8 true); fetch s s.th.seg s.th.pc.toNat = .bad 0 false .illegalBundle) ∧
    (0x260 >>> 5) % 32 = 0x13 ∧ (0x680 >>> 5) % 64 = 0x34 ∧ (0x160 >>> 5) % 32 = 0x0B ∧ (0xC00 >>> 5) % 128 = 0x60 := by decide +kernel


/-! Registers, results and scalar instructions. -/

/-- Two results in flight for s3: one due, one not. -/
def tPend : List Pend := [⟨.s 3, .s 7, 5, 3, none⟩, ⟨.s 3, .s 9, 6, 5, none⟩]

theorem test_hyp_Landing :
    (⟨.s 3, .s 7, 5, 3, none⟩ : Pend) ∈ tPend ∧
    (∀ e' ∈ tPend, e'.reg = .s 3 → e'.load = none → e'.land ≤ 5 → e' = ⟨.s 3, .s 7, 5, 3, none⟩ ∨ landsBefore e' ⟨.s 3, .s 7, 5, 3, none⟩ = true) ∧
    sReg (landDue { tTh with pend := tPend }) 3 = 7 ∧ (∀ e ∈ tPend, e.reg = .s 3 → e.load = none → 4 < e.land) ∧
    (∀ e ∈ tPend, 4 < e.land) ∧ (landMark 5 { tTh with pend := tPend }).pend = [⟨.s 3, .s 9, 6, 5, none⟩] ∧
    (5 : Nat) < 6 := by decide

/-- What the mark at 6 leaves: the later-landing result of s3; the one issued first if it is the only one before the mark; s4 as it was. -/
theorem test_hyp_Landing_mark :
    takesWrite (.s 3) (.s 9) ∧ HoldsReg (landMark 6 { tTh with pend := tPend }) (.s 3) (.s 9) ∧
    (∀ e' ∈ tPend, e'.reg = .s 3 → e'.load = none → e'.pos < 6 → e' = ⟨.s 3, .s 9, 6, 5, none⟩ ∨ landsBefore e' ⟨.s 3, .s 9, 6, 5, none⟩ = true) ∧
    (∀ e ∈ tPend, e.reg = .s 3 → e.load = none → 3 ≤ e.pos) ∧ HoldsReg { tTh with pend := tPend } (.s 3) (.s 0) ∧
    (∀ e ∈ tPend, e.reg = .s 4 → e.load = none → 6 ≤ e.pos) ∧ HoldsReg { tTh with pend := tPend } (.s 4) (.s 0) := by
  refine ⟨show 0 < 3 by decide, ?_, by decide, by decide, rfl, by decide, rfl⟩
  show sReg (landMark 6 { tTh with pend := tPend }) 3 = 9
  decide

theorem test_hyp_PredicateFalse :
    slotOf (.accz 0 0 1 1) = some 5 ∧ predOk tTh (predOf (.accz 0 0 1 1)) = false ∧
    slotOf (.add 1 2 3 0x10) = some 1 ∧ predOk tTh (predOf (.add 1 2 3 0x10)) = false := by decide

theorem test_hyp_ScalarFrame : slotOf (.add 1 2 3 0) = some 1 ∧
    exec (.add 1 2 3 0) (withS [(2, 5), (3, 6)]) = .next (putS (withS [(2, 5), (3, 6)]) 1 11 clsAlu) := ⟨rfl, rfl⟩

theorem test_hyp_NoOutsideAtIssue : slotOf (.hfree 3 0) = some 3 ∧
    (∀ h x imm p, Instr.hfree 3 0 ≠ .clean h x imm p) ∧ (∀ h x imm p, Instr.hfree 3 0 ≠ .inval h x imm p) ∧
    exec (.hfree 3 0) (withS []) = .next (putH (withS []) 3 Handle.init clsAlu) :=
  ⟨rfl, by simp, by simp, rfl⟩

/-- Predicate fields that hold: always, p1 set, and p2 clear read with its negation bit. -/
theorem test_hyp_predicate : predOk tTh 0 = true ∧ predOk { tTh with p := 2 } 1 = true ∧ predOk tTh 0x12 = true := by decide

/-- R316, R317: a sum past the top, the product of the most negative number with itself, and the corners of division. -/
theorem test_hyp_IntegerArithmetic :
    sReg (withS [(1, 0x8000000000000000), (2, 0xFFFFFFFFFFFFFFFF)]).th 1 = 0x8000000000000000 ∧
    exec (.add 3 1 1 0) (withS [(1, 0x8000000000000000)]) = .next (putS (withS [(1, 0x8000000000000000)]) 3 0 clsAlu) ∧
    exec (.mulh 3 1 1 0) (withS [(1, 0x8000000000000000)]) = .next (putS (withS [(1, 0x8000000000000000)]) 3 0x4000000000000000 clsMul) ∧
    exec (.div 3 1 0 0) (withS [(1, 7)]) = .next (putS (withS [(1, 7)]) 3 0xFFFFFFFFFFFFFFFF clsMul) ∧
    exec (.rem 3 1 2 0) (withS [(1, 0xFFFFFFFFFFFFFFF9), (2, 2)]) =
      .next (putS (withS [(1, 0xFFFFFFFFFFFFFFF9), (2, 2)]) 3 0xFFFFFFFFFFFFFFFF clsMul) ∧
    exec (.div 3 1 2 0) (withS [(1, 0x8000000000000000), (2, 0xFFFFFFFFFFFFFFFF)]) =
      .next (putS (withS [(1, 0x8000000000000000), (2, 0xFFFFFFFFFFFFFFFF)]) 3 0x8000000000000000 clsMul) ∧
    exec (.remu 3 1 2 0) (withS [(1, 7), (2, 4)]) = .next (putS (withS [(1, 7), (2, 4)]) 3 3 clsMul) :=
  ⟨rfl, rfl, rfl, rfl, rfl, rfl, rfl⟩

/-- R318: the last shift amount, rotation by 1, and counts of 0 and of all ones. -/
theorem test_hyp_LogicShiftBits :
    exec (.shl 3 1 2 0) (withS [(1, 3), (2, 63)]) = .next (putS (withS [(1, 3), (2, 63)]) 3 0x8000000000000000 clsAlu) ∧
    exec (.sar 3 1 2 0) (withS [(1, 0x8000000000000000), (2, 63)]) =
      .next (putS (withS [(1, 0x8000000000000000), (2, 63)]) 3 0xFFFFFFFFFFFFFFFF clsAlu) ∧
    exec (.rot 3 1 2 0) (withS [(1, 0x8000000000000000), (2, 65)]) = .next (putS (withS [(1, 0x8000000000000000), (2, 65)]) 3 1 clsAlu) ∧
    exec (.clz 3 0 0) (withS []) = .next (putS (withS []) 3 64 clsAlu) ∧
    exec (.ctz 3 1 0) (withS [(1, 8)]) = .next (putS (withS [(1, 8)]) 3 3 clsAlu) ∧
    exec (.popc 3 1 0) (withS [(1, 0xFF00)]) = .next (putS (withS [(1, 0xFF00)]) 3 8 clsAlu) ∧
    exec (.bswap 3 1 0) (withS [(1, 0x0102030405060708)]) = .next (putS (withS [(1, 0x0102030405060708)]) 3 0x0807060504030201 clsAlu) :=
  ⟨rfl, rfl, rfl, rfl, rfl, rfl, rfl⟩

/-- R319, R320: sign extension of a byte, a field that passes bit 63, insertion, and MOVHI; the word of EXT with width 3. -/
theorem test_hyp_FieldsAndMoves :
    exec (.ext 3 1 0 1 0) (withS [(1, 0x80)]) = .next (putS (withS [(1, 0x80)]) 3 0xFFFFFFFFFFFFFF80 clsAlu) ∧
    exec (.bfx 3 1 2 0) (withS [(1, 0xF000000000000000), (2, 0xFFC)]) =
      .next (putS (withS [(1, 0xF000000000000000), (2, 0xFFC)]) 3 0xF clsAlu) ∧
    exec (.bfi 3 1 2 0) (withS [(1, 0xF), (2, 0xC4), (3, 0x1000)]) = .next (putS (withS [(1, 0xF), (2, 0xC4), (3, 0x1000)]) 3 0x10F0 clsAlu) ∧
    exec (.movhi 3 0x7FFF 0) (withS [(3, 1)]) = .next (putS (withS [(3, 1)]) 3 0xFFFF clsAlu) ∧
    (encode (.ext 1 2 3 1 0)).isSome = true :=
  ⟨rfl, rfl, rfl, rfl, by decide⟩

/-- R321: each relation's code in range, and PMOV's reach. -/
theorem test_hyp_ComparesAndPredicates :
    (5 : BitVec 3).toNat ≤ 5 ∧ exec (.cmpi 1 1 0xFF 2 0) (withS [(1, 0xFFFFFFFFFFFFFFFE)]) = .next (putP (withS [(1, 0xFFFFFFFFFFFFFFFE)]) 1 true clsAlu) ∧
    exec (.cmp 1 1 2 4 0) (withS [(1, 1), (2, 0xFFFFFFFFFFFFFFFF)]) = .next (putP (withS [(1, 1), (2, 0xFFFFFFFFFFFFFFFF)]) 1 true clsAlu) ∧
    exec (.pmovRd 3 0) (at_ { tTh with p := 0x8001 }) = .next (putS (at_ { tTh with p := 0x8001 }) 3 0x8001 clsAlu) :=
  ⟨by decide, rfl, rfl, rfl⟩

/-- R323: a NaN compared; each class at a pattern of its own. -/
theorem test_hyp_FpCompareAndClass :
    fpNan 0x7F800001 = true ∧ fpNan 0x7F800000 = false ∧ (0xFF7FFFFF : BitVec 32).msb = true ∧ 0x800000 ≤ fpMag 0xFF7FFFFF ∧
    fpMag 0x807FFFFF < 0x800000 ∧ exec (.fclass 3 1 0) (withS [(1, 0xFF800000)]) = .next (putS (withS [(1, 0xFF800000)]) 3 1 clsFp) ∧
    exec (.fclass 3 1 0) (withS [(1, 0x7FFFFFFF)]) = .next (putS (withS [(1, 0x7FFFFFFF)]) 3 0x100 clsFp) ∧
    exec (.fcmp 1 1 1 3 0) (withS [(1, 0x7FFFFFFF)]) = .next (putP (withS [(1, 0x7FFFFFFF)]) 1 true clsFp) := by
  and_intros <;> first | decide +kernel | rfl

/-- R322: 1.5 + 2.25 = 3.75; minimum of the two zeros; infinity times zero. -/
theorem test_hyp_FpArithmetic :
    exec (.fadd 3 1 2 0) (withS [(1, 0x3FC00000), (2, 0x40100000)]) = .next (putS (withS [(1, 0x3FC00000), (2, 0x40100000)]) 3 0x40700000 clsFp) ∧
    exec (.fmin 3 1 2 0) (withS [(1, 0), (2, 0x80000000)]) = .next (putS (withS [(1, 0), (2, 0x80000000)]) 3 0x80000000 clsFp) ∧
    fpMag 0x7F800000 = 0x7F800000 ∧ fpMag 0x80000000 = 0 ∧
    exec (.fmul 3 1 2 0) (withS [(1, 0x7F800000), (2, 0)]) = .next (putS (withS [(1, 0x7F800000), (2, 0)]) 3 0x7FC00000 clsFp) :=
  ⟨rfl, rfl, by decide, by decide, rfl⟩

/-- R324: saturation, a NaN, and the FP16 pattern of 1.0. -/
theorem test_hyp_FpConversions :
    exec (.fcvtI32F32 3 1 0) (withS [(1, 0x4F32D05E)]) = .next (putS (withS [(1, 0x4F32D05E)]) 3 0x7FFFFFFF clsFp) ∧
    exec (.fcvtU32F32 3 1 0) (withS [(1, 0x7FC00000)]) = .next (putS (withS [(1, 0x7FC00000)]) 3 0 clsFp) ∧
    exec (.fcvtF16F32 3 1 0) (withS [(1, 0x3F800000)]) = .next (putS (withS [(1, 0x3F800000)]) 3 0x3C00 clsFp) ∧
    exec (.fcvtF32F16 3 1 0) (withS [(1, 0xBC00)]) = .next (putS (withS [(1, 0xBC00)]) 3 0xBF800000 clsFp) :=
  ⟨rfl, rfl, rfl, rfl⟩

/-- R85: 5 / 2 in each mode, and a pattern that is no NaN. -/
theorem test_hyp_Rounding : roundMag 0 false 5 1 = 2 ∧ roundMag 1 true 5 1 = 2 ∧ roundMag 2 false 5 1 = 3 ∧ roundMag 3 true 5 1 = 3 ∧
    fpNan 0xFF800000 = false := by decide

/-- R85, R86: 2^24 + 1 up and to the even code below it, a tie of the subnormals, and the top of the range. -/
theorem test_hyp_Rounding_r32 :
    r32 0 (.fin false 16777217 0) = 0x4B800000 ∧ r32 2 (.fin false 16777217 0) = 0x4B800001 ∧ r32 0 (.fin true 3 (-150)) = 0x80000002 ∧
    r32 1 (.fin false 1 128) = 0x7F7FFFFF ∧ r32 0 (.fin false 1 128) = 0x7F800000 ∧ 16777217 * 2 ^ ((0 : Int) + 149).toNat < fpUnits 0x7F800000 ∧
    fpUnits 0x7F800000 ≤ 1 * 2 ^ ((128 : Int) + 149).toNat := by decide +kernel


/-! Control. In `mapped t` bundles start at 0 and 8 of the segment. -/
def mapped (t : Thread) : State :=
  { homeStore tReset 0x30000 [5] with cur := .thread 0 0, power := .on, th := t, grp := tGrp }

theorem test_hyp_Transfers :
    startsAt (mapped tTh) tSeg 8 ∧ startsAt (mapped tTh) tSeg 0 ∧ ¬ startsAt (mapped tTh) tSeg 4 ∧
    ¬ startsAt (mapped tTh) tSeg 0x100 ∧ (pReg tTh 0).toNat ≠ (0 : BitVec 1).toNat ∧ (pReg tTh 1).toNat = (0 : BitVec 1).toNat ∧
    exec (.br 2 0) (mapped tTh) = .next { mapped tTh with th := { endLoops tTh with pc := 8 } } ∧
    exec (.br 1 0) (mapped tTh) = .next (raise (mapped tTh) .illegalTarget 0) := by
  and_intros <;> first | decide +kernel | (unfold startsAt; decide +kernel) | exact congrArg Host.Outcome.next (by decide +kernel)

/-- A loop counter whose body starts at 4 and ends at `last`, with `count` turns to go, inside `depth` others. -/
def tLoop (count : BitVec 16) (last depth : Nat) : LoopCtr := { count := count, act := true, body := 0, first := 4, last := last, sys := false, depth := depth }

theorem test_hyp_LoopSetup :
    skipBundles (at_ tTh) tSeg 1 4 0 = some (8, 4) ∧ skipBundles (at_ tTh) tSeg 16 0xC4 0 = none ∧
    (tget LoopCtr.init tTh.n 5).act = false ∧ (tget LoopCtr.init [(5, tLoop 1 4 0)] 5).act = true ∧
    (∃ j, j < 6 ∧ (tget LoopCtr.init [(0, tLoop 1 0 0)] j).act = true ∧ (tget LoopCtr.init [(0, tLoop 1 0 0)] j).sys = tSeg.sys ∧
      (tget LoopCtr.init [(0, tLoop 1 0 0)] j).last < 4) ∧
    (∀ j, j < 6 → (tget LoopCtr.init [(0, tLoop 1 4 0)] j).act = true → (tget LoopCtr.init [(0, tLoop 1 4 0)] j).sys = tSeg.sys →
      4 ≤ (tget LoopCtr.init [(0, tLoop 1 4 0)] j).last) ∧
    (sReg (withS [(1, 65535)]).th 1).toNat ≤ 65535 ∧ 65535 < (sReg (withS [(1, 65536)]).th 1).toNat := by
  and_intros <;> decide +kernel

/-- Loop 0 around loop 1, both ending at 8. -/
def tLoops (inner outer : BitVec 16) : Tab LoopCtr := [(0, tLoop outer 8 0), (1, tLoop inner 8 1)]

theorem test_hyp_LoopSetup_ends :
    (∀ j, j < 6 → (tget LoopCtr.init (tLoops 1 2) j).act = true → (tget LoopCtr.init (tLoops 1 2) j).last ≠ 4) ∧
    (∀ j, j < 6 → (tget LoopCtr.init (tLoops 1 2) j).sys = tTh.seg.sys) ∧
    (tget LoopCtr.init (tLoops 1 2) 1).act = true ∧ (tget LoopCtr.init (tLoops 1 2) 1).last = 8 ∧
    (∀ j, j < 6 → j ≠ 1 → (tget LoopCtr.init (tLoops 1 2) j).act = true → (tget LoopCtr.init (tLoops 1 2) j).last = 8 →
      (tget LoopCtr.init (tLoops 1 2) j).depth < (tget LoopCtr.init (tLoops 1 2) 1).depth) ∧
    (tget LoopCtr.init (tLoops 2 2) 1).count ≠ 1 ∧ (tget LoopCtr.init (tLoops 1 2) 1).count = 1 ∧
    (∀ j, j < 6 → j ≠ 0 → (tget LoopCtr.init [(0, tLoop 1 8 0)] j).act = true →
      (tget LoopCtr.init [(0, tLoop 1 8 0)] j).last ≠ 8) ∧
    (tget LoopCtr.init (tLoops 1 2) 0).act = true ∧ (tget LoopCtr.init (tLoops 1 2) 0).last = 8 ∧
    (tget LoopCtr.init (tLoops 1 2) 0).count ≠ 1 ∧
    (∀ j, j < 6 → j ≠ 1 → j ≠ 0 → (tget LoopCtr.init (tLoops 1 2) j).act = true → (tget LoopCtr.init (tLoops 1 2) j).last ≠ 8) := by
  and_intros <;> first | decide +kernel

/-- The inner loop ends and the outer one goes round. -/
theorem test_loop_ends : loopStep { tTh with n := tLoops 1 2 } 8 6 =
      { tTh with n := [(0, tLoop 1 8 0), (1, { tLoop 0 8 1 with act := false })], pc := 4 } := by decide

/-- The same thread in system code. -/
def tSys : Thread := { tTh with seg := { tSeg with sys := true } }

/-- An MMA of batch tag 2 in the engine. -/
def tMx : State := { at_ { tTh with batches := [(2, [7])] } with grp := { tGrp with mx := [(7, mxOp (at_ tTh) (.rpop 1 0) 0)] } }

theorem test_hyp_ThreadControl :
    sysentV { at_ tTh with regs := { Regs.init with sysent := 1 } } = true ∧ sysentV (at_ tTh) = false ∧ tSys.seg.sys = true ∧
    tTh.seg.sys = false ∧ (0x0FFFFFFF : Word).toNat < 2 ^ 28 ∧ 2 ^ 28 ≤ (0x10000000 : Word).toNat ∧ (8 : Word).toNat % 8 = 0 ∧
    (9 : Word).toNat % 8 ≠ 0 ∧ (5 : BitVec 3).toNat ≤ bitsOf ({ tTh with dom := 0x500000 } : Thread).dom.toNat 22 20 ∧
    bitsOf tTh.dom.toNat 22 20 < (1 : BitVec 3).toNat ∧ 5 < (6 : BitVec 3).toNat ∧
    (∀ b ∈ tTh.batches, b.1 = (2 : BitVec 3).toNat → ∀ q ∈ b.2, ∀ o ∈ tGrp.mx, o.1 ≠ q) ∧
    (∃ b ∈ tMx.th.batches, b.1 = (2 : BitVec 3).toNat ∧ ∃ q ∈ b.2, ∃ o ∈ tMx.grp.mx, o.1 = q) := by
  and_intros <;> decide +kernel

/-- A core whose one thread, or whose two, stand at a point: those with the given STEP bits; a region with two contributions to word 1. -/
def tRegion : PlaneReg := { size := 4096, rule := 1, launch := 0, dom := 0, idx := 0, die := 0, present := [], contrib := [(1, 0, 5), (1, 1, 6)] }
def tArrived (sts : List Bool) : State :=
  { tReset with
    power := .on, planes := [tRegion],
    cores := [(0, { Core.init with grp := some { tGrp with
      kern := { tKern with threads := sts.length },
      ths := (upFrom 0 sts.length).zip (sts.map (fun b => { tTh with run := .arrived, marking := 7, arrival := some (1, b) })) } })] }
def tPoint : Point := { launch := 0, level := 1, first := 0, cx := 0 }

theorem test_hyp_ThreadControl_points (sts : List Bool) (h : sts ∈ [[true], [false], [true, false]]) :
    pointFull (tArrived sts) tPoint sts.length = true ∧ farRanks (tArrived sts) tPoint sts.length = [] ∧ (tArrived sts).farQ = [] ∧
    twf Core.init (tArrived sts).cores = true ∧ (members (tArrived sts) tPoint).length = sts.length ∧
    (∀ x ∈ members (tArrived sts) tPoint, x.2.2.2.after = [] ∧ x.2.2.2.heldCtl = none ∧ x.2.2.2.intr = false ∧ x.2.2.1.shuntFail = []) ∧
    (∀ x ∈ allRunning (tArrived sts), pointOf (tArrived sts) x.2.2.1 x.2.1 x.2.2.2 = some tPoint ∧ x.2.2.1.kern.threads = sts.length) := by
  simp only [List.mem_cons, List.not_mem_nil, or_false] at h
  rcases h with rfl | rfl | rfl <;> decide +kernel

theorem test_hyp_ThreadControl_swap :
    (∀ q ∈ (tArrived [true]).planes, collided q = []) ∧ (∃ e ∈ tRegion.contrib, e.1 = 1) ∧ (∀ e ∈ tRegion.contrib, e.1 ≠ 2) ∧
    leNat (tbytes (swapRegion tRegion).present 4 4) = 11 ∧ (at_ tTh).th.heldPost = none ∧
    (∀ x ∈ members (tArrived [true]) tPoint, x.2.2.2.arrival = some (1, true)) ∧
    (∀ x ∈ members (tArrived [false]) tPoint, x.2.2.2.arrival = some (1, false)) ∧
    (∃ x ∈ members (tArrived [true, false]) tPoint, x.2.2.2.arrival = some (1, true)) ∧
    (∃ x ∈ members (tArrived [true, false]) tPoint, x.2.2.2.arrival = some (1, false)) := by decide +kernel

theorem test_hyp_SystemEntryAndReturn :
    ({ tTh with heldCtl := some (0, 0) } : Thread).heldCtl = some (0, 0) ∧ ({ tTh with heldCtl := some (2, 9) } : Thread).heldCtl = some (2, 9) ∧
    startsAt (mapped { tSys with heldCtl := some (3, 0), xpc := 8 }) tSeg 8 ∧
    ¬ startsAt (mapped { tSys with heldCtl := some (3, 0), xpc := 4 }) tSeg 4 ∧
    ctlRetire (mapped { tTh with heldCtl := some (1, 9) }) = enterSystem (mapped { tTh with heldCtl := some (1, 9) }) 9 false := by
  refine ⟨rfl, rfl, by unfold startsAt; decide +kernel, by unfold startsAt; decide +kernel, rfl⟩


/-! Memory operands. Handles: h1 a page of memory, h2 scratch, h3 plane 1, h4 stale, h5 a page with no permission, h6 fenced. -/
def hMem : Handle := { Handle.init with st := .valid, va := 0x50000, pa := 0x90000, r := true, w := true }
def hScr : Handle := { Handle.init with st := .valid, space := .scratch, r := true, w := true }
def hPl : Handle := { hScr with space := .plane, plane := 1 }
def hTab : Tab Handle := [(1, hMem), (2, hScr), (3, hPl), (4, { hMem with st := .stale }), (5, { hMem with r := false, w := false }),
  (6, { hMem with dev := 7 })]

/-- A thread with these handles and the given scalars, over page tables that map VA 0x50000 to 0x90000 and nothing else. -/
def mach (l : Tab Word) : State :=
  { homeStore (homeStore (homeStore tReset 0x60000 (leBytes 0x40001 8)) 0x40000 (leBytes 0x48001 8)) 0x48028 (leBytes 0x9000F 8) with
    cur := .thread 0 0, power := .on, grp := tGrp, th := { tTh with h := hTab, s := l },
    images := [{ num := 0, root := 0x60000, sys := false, kernels := [tKern], tensors := [], cont := [], hold := true, everywhere := true, area := [] }] }

theorem test_hyp_AccessChecks :
    (Need.r ≠ .none) ∧ (hReg (mach []).th 0).st = .empty ∧ hMem.st ≠ .empty ∧ permits hMem .w = true ∧ permits { hMem with w := false } .w = false ∧
    (0x50000 : Int) + -1 < (hMem.va - hMem.va % handlePage hMem : Nat) ∧ ((0x50000 : Nat) + handlePage hMem : Nat) < (0x50000 : Int) + 0xFFFD + 4 ∧
    (0x50000 : Int) + 0xFFFC + 4 ≤ ((0x50000 : Nat) + handlePage hMem : Nat) ∧ ((0x5FFFD : Int)).toNat % 2 ≠ 0 ∧ ((0x5FFFC : Int)).toNat % 4 = 0 ∧
    allPinned tGrp 0x13FC 4 = true ∧ allPinned tGrp 0x13FE 4 = false ∧ isFenced { mach [] with regs := { Regs.init with fences := [7] } } 7 = true ∧
    isFenced (mach []) 0 = false ∧ isRemote (mach []) 7 = true ∧ isRemote (mach []) 0 = false ∧ saddleOut (mach []) 0x90000 = false ∧
    saddleOut (mach []) 0x500000000000 = true ∧ planeFenced (mach []) = false ∧
    planeFenced { mach [] with grp := { tGrp with kern := { tKern with level := 5 } }, regs := { Regs.init with inset := true, fences := [0], rank := 1 } } = true := by
  and_intros <;> first | decide +kernel

/-- A stale handle: a walk that finds its page, and one that does not. -/
theorem test_hyp_AccessChecks_stale :
    (hReg (mach []).th 4).st = .stale ∧ (hReg { mach [] with th := { tTh with h := [(4, { hMem with st := .restored })] } }.th 4).st = .restored ∧
    (∃ t, walkFor (mach []) 0x50000 = .ok t hMem) ∧ walkFor (mach []) 0x60000 = .bad .pageAbsent 0x60000 :=
  ⟨by decide, by decide, hres_val (by decide +kernel), hres_bad (by decide +kernel)⟩

/-- R243: HTEST of a restored handle is what it was before the save. -/
theorem test_htest_restored : htestWord (mach []) { hMem with st := .restored } = htestWord (mach []) hMem := by decide

/-- Accesses that pass their checks: the last word of the page, of the scratch's pinned lines and of the plane; and refused ones. -/
theorem test_hyp_LoadsAndStores :
    Reaches (mach [(1, 0xFFF8)]) 1 (offset (mach [(1, 0xFFF8)]) 1 4) 4 4 .st
      (noteAccess (mach [(1, 0xFFF8)]) hMem) hMem (.mem 0 0x9FFFC) 0x5FFFC ∧
    Reaches (mach []) 3 (offset (mach []) 0 0xFFE) 2 2 .st (mach []) hPl (.pl 1 0xFFE) 0xFFE ∧ hPl.space = .plane ∧ (1 : BitVec 2).toNat < 2 ∧
    Reaches (mach []) 2 (offset (mach []) 0 0x1380) 64 64 .r (mach []) hScr (.scr 0x1380) 0x1380 ∧ hScr.space ≠ .plane ∧
    Reaches (mach []) 1 (offset (mach []) 0 0) 64 64 .st (noteAccess (mach []) hMem) hMem (.mem 0 0x90000) 0x50000 ∧
    locate (mach []) hMem (offset (mach []) 0 (-4)) 4 4 .st = .error (.handleBound, 0x4FFFC) := by
  and_intros <;>
    first
    | decide +kernel
    | exact hres_ok (by decide +kernel)
    | exact loc_ok (by decide +kernel)
    | exact loc_bad (by decide +kernel)

/-- A stale handle whose page is no longer mapped. -/
theorem test_hyp_LoadsAndStores_bad :
    useHandle { mach [] with th := { (mach []).th with h := [(4, { hMem with st := .stale, va := 0x60000 })] } } 4 = .bad .pageAbsent 0x60000 :=
  hres_bad (by decide +kernel)

/-- 127 and 128 gate entries. -/
def tGate (n : Nat) : List GateEnt := (List.range n).map (fun i => { at_ := .mem 0 i, cls := 0, mask := 1, data := 0, va := 0 })

theorem test_hyp_GateStore :
    (gatePuts (mach []).th 0 (gateWrites (.mem 0 0x9003E) 0x5003E [1, 2, 3, 4])).isSome = true ∧
    (gatePuts { (mach []).th with gate := tGate 127 } 0 (gateWrites (.mem 0 0x9003E) 0x5003E [1, 2, 3, 4])).isSome = false ∧
    (tGate 128).length = 128 ∧ fenceFloor (mach []).th.fences 0 < 1 ∧ gateAt { tTh with gate := [{ at_ := .scr 1, cls := 0, mask := 2, data := 0x700, va := 0 }] } (.scr 65) = some 7 ∧
    (∀ reg o, Loc.scr 65 ≠ .pl reg o) ∧ (∀ c ∈ (mach []).grp.ch, readsBefore (mach []) 0 0 (5, 3) c.2 = false) ∧ earlierLoad (mach []).th 0 = false ∧ earlierTld (mach []) 0 = false ∧ [(1 : Byte), 2].length ≤ 8 := by
  and_intros <;> first | decide +kernel | simp

theorem test_hyp_HandleInstructions :
    walk (asReader (mach []) []) 0x60000 false 0x50000 = .page 0x90000 3 0x9000F 0 ∧
    walk (asReader (mach []) []) 0x60000 false 0 = .bad .pageAbsent ∧
    walk (asReader (homeStore (mach []) 0x480A8 [0x81]) []) 0x60000 false 0x150000 = .mig ∧
    walk (asReader (homeStore { mach [] with regs := { Regs.init with inset := true, ndev := 1 } } 0x68000 [1, 0x80]) []) 0x60000 false 0x50000 =
      .wait 1 0x1000 ∧
    rootOf (mach []) (mach []).grp.image = 0x60000 ∧ (mach []).th.seg.sys = false ∧ (1 : BitVec 4).toNat < tGrp.kern.planes.length ∧
    tGrp.kern.planes.length ≤ (2 : BitVec 4).toNat ∧ (hReg (mach []).th 0).st = .empty ∧ (hReg (mach []).th 3).st ≠ .empty ∧ hPl.size < 3 ∧
    hPl.plane < 16 ∧ hPl.dev < 1024 ∧ (∀ k, hPl.stack = some k → k < 8) ∧ (hMem.space ≠ .plane → hMem.plane = 0) ∧ (mach []).regs.rank < 1024 := by
  and_intros <;> decide +kernel

theorem test_htest : exec (.htest 1 3 0) (mach []) = .next (putS (mach []) 1 0x80C9 clsLoad) := rfl

/-- Entries of a walk of VA 0x50000 from the root 0x60000, and what their bits say. -/
theorem test_hyp_WalkThreeLevels :
    (mach []).regs.inset = false ∧ (mach []).regs.fences = [] ∧ (mach []).poisoned = [] ∧ (mach []).checks = [] ∧
    memNat (mach []) (0x60000 + 8 * bitsOf 0x50000 51 40) 8 = 0x40001 ∧ bitsOf 0x40001 47 15 * 2 ^ 15 + 8 * bitsOf 0x50000 39 28 = 0x40000 ∧
    memNat (mach []) 0x40000 8 = 0x48001 ∧ bitsOf 0x48001 47 15 * 2 ^ 15 + 8 * bitsOf 0x50000 27 16 = 0x48028 ∧ memNat (mach []) 0x48028 8 = 0x9000F ∧
    (∀ e ∈ [0x40001, 0x48001], bitsOf e 7 0 % 2 = 1 ∧ e.testBit 1 = false ∧ e.testBit 6 = false ∧ e.testBit 7 = false ∧ bitsOf e 14 8 = 0 ∧
      bitsOf e 63 48 = 0) ∧
    memNat (mach []) 0x48030 8 = 0 ∧ (0x9000F).testBit 0 = true ∧ bitsOf 0x9010F 14 8 ≠ 0 ∧ bitsOf 0x9000F 14 8 = 0 ∧ bitsOf 0x9000F 63 48 = 0 ∧
    (0x9008F).testBit 7 = true ∧ (0x9000F).testBit 7 = false ∧ (0x9000D).testBit 1 = false ∧ (0x9000F).testBit 1 = true ∧
    bitsOf 0x9800F 47 15 * 2 ^ 15 % 2 ^ 16 ≠ 0 ∧ bitsOf 0x9000F 47 15 * 2 ^ 15 % 2 ^ 16 = 0 ∧ inMap (mach []) (bitsOf 0x9000F 47 15 * 2 ^ 15) = true ∧
    inMap (mach []) (bitsOf 0x70000000000F 47 15 * 2 ^ 15) = false ∧ (0x9001F).testBit 4 = true ∧ (0x9000F).testBit 4 = false := by
  refine ⟨rfl, rfl, rfl, rfl, ?_⟩; decide +kernel


/-! Read-modify-writes, ordering, lines, tiles, coordinates. -/

theorem test_hyp_ReadModifyWriteIssue :
    Reaches (mach []) 1 (offset (mach []) 0 ((8 : BitVec 14).toInt)) 8 8 .w (noteAccess (mach []) hMem) hMem (.mem 0 0x90008) 0x50008 ∧
    hMem.space ≠ .plane ∧ hMem.space = .memory ∧
    Reaches (mach []) 2 (offset (mach []) 0 ((0x13FC : BitVec 14).toInt)) 4 4 .w (mach []) hScr (.scr 0x13FC) 0x13FC ∧ hScr.space ≠ .memory ∧
    Reaches (mach []) 3 (offset (mach []) 0 ((0xFFC : BitVec 14).toInt)) 4 4 .w (mach []) hPl (.pl 1 0xFFC) 0xFFC ∧ hPl.space = .plane ∧
    (hReg (mach []).th (1 : BitVec 4).toNat).space = .memory ∧ (hReg (mach []).th (2 : BitVec 4).toNat).st ≠ .empty ∧
    (hReg (mach []).th (2 : BitVec 4).toNat).space ≠ .memory ∧ hScr.space = .scratch ∧
    locate (mach []) hScr (offset (mach []) 0 ((0x1400 : BitVec 14).toInt)) 4 4 .w = .error (.scratchUnmapped, 0x1400) := by
  and_intros <;>
    first
    | decide +kernel
    | exact hres_ok (by decide +kernel)
    | exact loc_ok (by decide +kernel)
    | exact loc_bad (by decide +kernel)

/-- The greatest cells of both widths; a captured atomic add on the sector of the page's start. -/
def tRmw : HeldOp := { ins := .aadd 1 1 0 0 2 1 0 0, a := 0xFFFFFFFFFFFFFFFF, b := 0, c := 0, h := hMem, va := 0x50008, pa := 0x90008, addr := 0x50008, lines := [], tries := 0, tries2 := 0 }

theorem test_hyp_ReadModifyWriteValue :
    (0xFFFFFFFF : Nat) < 2 ^ 32 ∧ (0xFFFFFFFFFFFFFFFF : Nat) < 2 ^ 64 ∧ tRmw.pa % 8 = 0 ∧ tRmw.h.space = .memory ∧ tRmw.h.dev = ownRank (mach []) ∧
    isFenced (mach []) tRmw.h.dev = false ∧ isPoisoned (cleanLine (mach []) 0 (0x90008 / 256) true) 0x90008 = false ∧
    saddleOut (cleanLine (mach []) 0 (0x90008 / 256) true) 0x90008 = false ∧ hScr.space = .scratch ∧ 0x13FC / 64 ∉ (mach []).grp.badScr ∧
    0x13FC / 64 ∈ ({ tGrp with badScr := [0x4F] } : Group).badScr ∧
    isPoisoned (cleanLine { mach [] with poisoned := [0x2400] } 0 (0x90008 / 256) true) 0x90008 = true := by decide +kernel

/-- A load of class 1 that has not arrived. -/
def tLoad : Pend := ⟨.s 3, .s 0, 13, 5, some { cls := 1, srcs := [.home 0 0x90000], fin := .int false, addrs := [0x50000], slot := 3, cached := true, bpc := 0 }⟩
def tLoading : State := { mach [] with th := { (mach []).th with pend := [tLoad] } }

theorem test_hyp_OrderingInstructions :
    loadHeld (asReader tLoading [0, 0, 0]) 2 = false ∧ loadHeld (asReader tLoading [0, 0, 0]) 1 = true ∧ beforeFence (mach []) 2 = false ∧ beforeFence tLoading 2 = true ∧ beforeAcq (mach []) 2 = false ∧ beforeAcq tLoading 2 = true ∧
    (hReg (mach []).th (1 : BitVec 4).toNat).space = .memory ∧
    Reaches (mach []) 1 (offset (mach []) 0 ((0 : BitVec 14).toInt)) 8 8 .r (noteAccess (mach []) hMem) hMem (.mem 0 0x90000) 0x50000 ∧
    isRemote (mach []) hMem.dev = false ∧ isPoisoned { mach [] with poisoned := [0x2400] } 0x90000 = true ∧ isPoisoned (mach []) 0x90000 = false ∧
    (sReg (mach []).th 0).toNat ≤ memNat (mach []) 0x90000 8 ∧ memNat (mach [(1, 1)]) 0x90000 8 < (sReg (mach [(1, 1)]).th 1).toNat ∧
    twf Sector.none [(3, { data := 7, valid := 3, dirty := 1, cls := 1 })] = true ∧
    (2 : Nat).testBit (tget Sector.none [(3, { data := 7, valid := 3, dirty := 1, cls := 1 })] 3).cls = true := by
  and_intros <;>
    first
    | decide +kernel
    | exact hres_ok (by decide +kernel)
    | exact loc_ok (by decide +kernel)

theorem test_hyp_LineOperations :
    (hReg (mach []).th (4 : BitVec 4).toNat).st ≠ .valid ∧ (hReg (mach []).th (1 : BitVec 4).toNat).st = .valid ∧
    locate (mach []) (hReg (mach []).th (1 : BitVec 4).toNat) (offset (mach []) 0 ((255 : BitVec 24).toInt)) 1 1 .r = .ok (.mem 0 0x900FF, 0x500FF) ∧
    uncached { mach [] with lowered := [(0x90000, 65536)] } 0x900FF = true ∧ uncached (mach []) 0x900FF = false ∧ 0x2403 / 4 = 0x900FF / 256 ∧
    Reaches (mach []) 1 (offset (mach []) 0 ((0 : BitVec 24).toInt)) 1 1 .none (noteAccess (mach []) hMem) hMem (.mem 0 0x90000) 0x50000 ∧
    cachedAt (mach []) 0 0x90000 = true ∧ cachedAt { mach [] with lowered := [(0x90000, 65536)] } 0 0x90000 = false ∧
    (∀ e q, Loc.scr 0 ≠ .mem e q) ∧ secBad (mach []) 0x2403 = false ∧ (arrGet (mach []).core 0 0x2403).valid ≠ BitVec.allOnes 64 ∧
    isRemote (mach []) 7 = true ∧ cachedAt { mach [] with regs := { Regs.init with inset := true, ndev := 7 } } 7 0x90000 = true := by
  and_intros <;>
    first
    | decide +kernel
    | exact hres_ok (by decide +kernel)
    | exact loc_ok (by decide +kernel)
    | simp

/-- The scratch's last line; one line more than the group may pin; a fill in flight that writes line 19. -/
theorem test_hyp_LineOperations_pins :
    0x7FFF00 + 256 ≤ 0x800000 ∧ 0x800000 < 0x7FFF00 + 257 ∧ (pinLines (mach []) (lineRange 0x1400 (44 * 256))).isSome = true ∧
    pinLines (mach []) (lineRange 0x1400 (44 * 256 + 1)) = none ∧
    (∃ c ∈ [(0, copyCmd (mach []) 3 [] [0x13FF] none 0)], c.2.op ≠ 1 ∧ c.2.bank = none ∧ ∃ w ∈ c.2.dst, w / 256 ∈ lineRange 0x1300 256) ∧
    (mach []).grp.ch = [] ∧ (mach []).grp.tld = [] ∧ 19 ∈ (mach []).grp.pinned ∧ ringBytes (mach []).grp ≤ 256 * 19 ∧
    256 * 7 < ringBytes (mach []).grp := by
  and_intros <;> first | decide +kernel | rfl | exact ⟨_, .head _, by decide, rfl, 0x13FF, .head _, by decide⟩

/-- A stale handle whose walk needs a table of another device; a load that has still to read a scratch line; a tile load that writes one. -/
theorem test_hyp_LineOperations_waits :
    (useHandle { homeStore (mach []) 0x68000 [1, 0x80] with regs := { Regs.init with inset := true, ndev := 1 } } 4 matches .wait _) ∧
    (∃ w ∈ srcScr [ByteSrc.scratch 0x1300], w / 256 ∈ lineRange 0x1300 256) ∧
    (∃ q : LoadReq, tLoad.load = some q ∧ ∀ w ∈ srcScr q.srcs, w / 256 ∉ lineRange 0x1300 256) := by
  and_intros <;> first | decide +kernel | exact ⟨_, rfl, by decide⟩

/-- A core array with line 2,053 of this device in set 5, where scratch line 5 is pinned too. -/
def tWays : State := { mach [] with core := { (mach []).core with arr := [(4 * 2053, { data := 7, valid := 1, dirty := 0, cls := 0 })] } }

theorem test_hyp_LineOperations_ways :
    (0, 2053) ∈ setLines tWays.core (2053 % 2048) ∧ (0, 5) ∉ setLines tWays.core (5 % 2048) ∧ (setLines tWays.core 5).length ≤ 16 ∧
    scrWays tWays 5 = 1 := by decide +kernel

/-- A walk of one run of `n` bytes, and its sides in memory and in scratch. -/
def tWalk (n : Nat) : BitVec 512 := BitVec.ofNat 512 n
def tTile (n : Nat) : State := { mach [] with th := { (mach []).th with w := [(1, tWalk n), (2, tWalk 8)] } }
def tNoted (n : Nat) : State := noteAccess (tTile n) hMem
def tMemSide (n : Nat) : Side := { h := hMem, runs := [(.mem 0 0x90000, 0x50000)], run := n }
def tScrSide (n : Nat) : Side := { h := hScr, runs := [(.scr 0, 0)], run := n }

theorem test_hyp_TileLoadsAndStores :
    side (tTile 8) 1 0 (wReg (tTile 8).th 1) memOrPl .r = .ok (tNoted 8) (tMemSide 8) ∧
    side (tNoted 8) 2 0 (wReg (tNoted 8).th 2) scrOnly .w = .ok (tNoted 8) (tScrSide 8) ∧
    sideTotal (tMemSide 12) ≠ sideTotal (tScrSide 8) ∧ busy (tNoted 8) [] (linesOf (sideScr (tScrSide 8))) = false ∧
    busy { tNoted 8 with grp := { tGrp with ch := [(0, copyCmd (withS []) 3 [] [255] none 0)] }, th := { tTh with pos := 6 } } []
      (linesOf (sideScr (tScrSide 8))) = true ∧
    ringDeclared tGrp 1 = true ∧ ringDeclared tGrp 2 = false ∧ (ringOf tGrp 1).bytes < sideTotal (tMemSide 260) ∧
    sideTotal (tMemSide 256) ≤ (ringOf tGrp 1).bytes ∧ (ringOf tGrp 1).slots ≤ (ringOf tGrp 1).filled ∧ (ringOf tGrp 0).filled < (ringOf tGrp 0).slots ∧
    0 < (ringOf tGrp 1).filled ∧ busy (tNoted 8) [] [.slot 0 0] = false ∧ busy (tNoted 8) [.slot 1 0] [] = false := by
  and_intros <;> first | decide +kernel | exact side_ok (by decide +kernel)

theorem test_hyp_TileLoadsAndStores_stores :
    side (tTile 8) 2 0 (wReg (tTile 8).th 2) scrOnly .r = .ok (tTile 8) (tScrSide 8) ∧
    side (tTile 8) 1 0 (wReg (tTile 8).th 1) memOrPl.atCommit .w = .ok (tNoted 8) (tMemSide 8) ∧ sideTotal (tMemSide 8) = sideTotal (tScrSide 8) ∧
    ((sideScr (tScrSide 8)).map (fun a => srcOf (tNoted 8).th (.scr a))).any (srcPoison (tNoted 8)) = false ∧
    ((upFrom 4096 8).map (fun a => srcOf (tNoted 8).th (.scr a))).any (srcPoison (tNoted 8)) = false := by
  and_intros <;> first | decide +kernel | exact side_ok (by decide +kernel) | rfl

/-- A tensor of 1024 by 1024 elements of type 2, and the machine whose image has it. -/
def tTensor : Tensor := { id := 9, ptype := 2, priv := 0, bw := 0, kdim := 1024, ndim := 1024, kt := 4, e := 256, sc := 0, va := 0, pa := 0x100000, off := 0, reenc := [] }
def tCoord (l : Tab Word) (sc : Nat) : State :=
  { mach l with images := [{ num := 0, root := 0x60000, sys := false, kernels := [tKern], tensors := [{ tTensor with sc := sc }], cont := [], hold := true,
                             everywhere := true, area := [] }] }

/-- The last element of the tensor and the first index past it; an unknown tensor. -/
theorem test_hyp_WclocWord :
    patternOf (tCoord [] 0) 9 0xFFFFF = some tTensor ∧ patternOf (tCoord [] 0) 9 0x100000 = none ∧ patternOf (tCoord [] 0) 8 0 = none ∧
    patternOf (tCoord [] 8) 9 0 = some { tTensor with sc := 8 } ∧ tTensor.sc = 0 := by decide

/-- The words of the tensor's first element, and of the block that a WCWR of it writes. -/
def placed (x : Places) : List WcWord := match x with
  | .ok l => l
  | _ => []
def tWords : List WcWord := placed (wcPlaces (asReader (tCoord [] 0) [0, 0, 0]) 0 tTensor (blockWords tTensor 0 false))
def tWcwr : HeldOp := { tRmw with ins := .wcwr 1 2 3 4 0 0, a := 9, b := 0, c := 1 }
def tBlock : List WcWord := placed (wcwrWords (tCoord [] 0) tWcwr tTensor)

theorem test_hyp_WindowsAndCoordinates_words :
    wcPlaces (asReader (tCoord [] 0) [0, 0, 0]) 0 tTensor (blockWords tTensor 0 false) = .ok tWords ∧
    wcwrWords (tCoord [] 0) tWcwr tTensor = .ok tBlock ∧ patternOf (tCoord [] 0) tWcwr.a tWcwr.b = some tTensor ∧ tBlock ≠ [] ∧
    (∀ w ∈ tBlock, w.dev = ownRank (tCoord [] 0) ∧ heldSec (tCoord [] 0) w.dev (w.pa / 64) = false ∧
      secBad (tBlock.foldl (fun s w => cleanLine s w.dev (w.pa / 256) true) (asReader (tCoord [] 0) [0, 0, 0])) (w.pa / 64) = false) ∧
    tBlock.Pairwise (fun x y => x.pa + 4 ≤ y.pa ∨ y.pa + 4 ≤ x.pa) := by
  and_intros <;> decide +kernel

/-- The tensor's page on a fenced device, and migrating; its block held, and poisoned. -/
def tFarPage : State := { homeStore (tCoord [] 0) 0x68000 (leBytes 0x8001 2) with
  regs := { Regs.init with inset := true, ndev := 1, fences := [1] } }
def tMigPage : State := homeStore (tCoord [] 0) 0x48000 (leBytes 0x9008F 8)

def tProv (pa : Nat) : Prov :=
  { id := 0, bank := 0, cls := 0, row0 := 0, rows := 1, chk := 0, va := 0, walk := 0, secs := [(0, pa / 64)], live := [0] }

theorem test_hyp_WindowsAndCoordinates_places :
    wcPlaces (asReader tFarPage [0, 0, 0]) 0 tTensor (blockWords tTensor 0 false) = .fenced tTensor.va ∧
    wcPlaces (asReader tMigPage [0, 0, 0]) 0 tTensor (blockWords tTensor 0 false) = .mig ∧
    triesOf tMigPage.th < 64 ∧ 64 ≤ triesOf { tMigPage.th with run := .walking 193 } ∧
    (∃ w ∈ tBlock, secBad { tCoord [] 0 with poisoned := [w.pa / 64] } (w.pa / 64) = true ∧
      heldSec { tCoord [] 0 with grp := { tGrp with prov := [tProv w.pa] } } 0 (w.pa / 64) = true) := by
  and_intros <;> decide +kernel

/-- Windows: the page's start, a length of one page; a placement on stack 3. -/
def hSt : Handle := { hMem with va := 0x50000, pa := 0x403000000000, size := 1, stack := some 3 }
def tWin (a : Word) : State := { mach [(1, a)] with th := { (mach [(1, a)]).th with h := [(1, hSt)] } }

theorem test_hyp_WindowsAndCoordinates :
    useHandle (tWin 65536) 1 = .ok (noteAccess (tWin 65536) hSt) hSt ∧ hMem.stack = none ∧ hSt.st ≠ .empty ∧ hSt.w = true ∧
    hSt.space = .memory ∧ hSt.stack ≠ none ∧ isRemote (tWin 0) hSt.dev = false ∧ (0 : Int) ≤ hSt.va + 0 ∧ ((hSt.va : Int) + 0) % 65536 = 0 ∧
    ((hSt.va : Int) + 4) % 65536 ≠ 0 ∧ (65536 : Nat) % 65536 = 0 ∧ (0x10000000 : Int) - 65536 + 65536 ≤ ((0 : Nat) + handlePage hSt : Nat) ∧
    ((0 : Nat) + handlePage hSt : Nat) < (0x10000000 : Int) - 65536 + 131072 ∧ hSt.pa < 2 ^ 64 ∧
    Reaches (mach []) 1 ((32 : BitVec 24).toInt) 32 8 .r (noteAccess (mach []) hMem) hMem (.mem 0 0x90020) 0x50020 ∧
    earlierLoad (tCoord [] 0).th 0 = false ∧ earlierTld (tCoord [] 0) 0 = false ∧
    loadHeld (asReader (tCoord [] 0) [0, 0, 0]) 0 = false ∧ loadHeld { asReader (tCoord [] 0) [0, 0, 0] with th := tLoading.th } 1 = true ∧
    (∀ w ∈ tWords, isRemote (tCoord [] 0) w.dev = false ∧ secBad (tCoord [] 0) (w.pa / 64) = false) ∧
    (∃ w ∈ tWords, secBad { tCoord [] 0 with poisoned := [w.pa / 64] } (w.pa / 64) = true) := by
  and_intros <;> first | decide +kernel | exact hres_ok (by decide +kernel) | exact loc_ok (by decide +kernel) | rfl

/-- Windows that lie on one another; a window that a launch holds; a whole table of a stack. -/
def tHeldWin : Launch := { noLaunch with ballast := true, took := true, wpa := 0x90000, wlen := 65536 }

theorem test_hyp_WindowsAndCoordinates_windows :
    (∃ w ∈ [((0x90000 : Nat), (65536 : Nat))], w.1 < 0x80000 + 0x20000 ∧ 0x80000 < w.1 + w.2) ∧ (0x90000, 65536) ∈ [((0x90000 : Nat), (65536 : Nat))] ∧
    (0x90000, 65536) ∉ (mach []).lowered ∧
    ¬ ((∃ w ∈ (mach []).lowered, w.1 < 0x90000 + 65536 ∧ 0x90000 < w.1 + w.2) ∨
      64 ≤ ((mach []).lowered.filter (fun w => stackOf (mach []) w.1 == stackOf (mach []) 0x90000)).length) ∧
    windowHeld (mach []) 0x90000 65536 = false ∧ windowHeld { mach [] with launches := [tHeldWin] } 0x90000 65536 = true ∧
    (heldPerform (markReader { mach [] with th := { tTh with heldOp := some { tRmw with ins := .raise 1 0 0 2 0 0 } } }) matches .done _) ∧
    raiseWindow { mach [] with launches := [tHeldWin] } 0x90000 65536 = none ∧ (raiseWindow (mach []) 0x90000 65536).isSome = true := by
  and_intros <;> first | decide +kernel | simp [mach, tReset, homeStore]

/-- An image whose second kernel is a ballast kernel; a page that may not be written at VA 0x60000. -/
def tBlaunch (low : List (Nat × Nat)) (ls : List Launch) : State :=
  { homeStore (mach []) 0x48030 (leBytes 0x90007 8) with
    lowered := low, launches := ls,
    images := [{ num := 0, root := 0x60000, sys := false, kernels := [tKern, { tKern with kind := 2 }], tensors := [], cont := [], hold := false,
                 everywhere := true, area := [] }] }

theorem test_hyp_WindowsAndCoordinates_blaunch :
    (∃ m, imageOf (tBlaunch [] []) 0 = some m ∧ 1 < m.kernels.length ∧ (kernelOf (tBlaunch [] []) 0 1).kind = 2) ∧
    windowAt (tBlaunch [] []) 0 false 0x50000 = .none (stackOf (tBlaunch [] []) 0x90000) ∧
    windowAt (tBlaunch [(0x90000, 65536)] []) 0 false 0x50000 = .window 0x90000 65536 ∧
    walk (tBlaunch [] []) 0x60000 false 0x70000 = .bad .pageAbsent ∧ walk (tBlaunch [] []) 0x60000 false 0x60000 = .page 0x90000 3 0x90007 0 ∧
    (0x90007).testBit 3 = false ∧ walk (tBlaunch [] []) 0x60000 false 0x50008 = .page 0x90000 3 0x9000F 0 ∧ (0x9000F).testBit 3 = true ∧
    testWalk (testWalk (tBlaunch [] []) 0x60000 0x50000) 0x60000 0 = tBlaunch [] [] ∧ queueCount (tBlaunch [] []) 0 < 64 ∧
    64 ≤ queueCount (tBlaunch [] (List.replicate 64 { noLaunch with ballast := true, took := true, groups := 1 })) 0 := by
  and_intros <;> first | decide +kernel | exact ⟨_, rfl, by decide, rfl⟩ | rfl


/-! Marks, faults, privileged instructions. -/

theorem test_hyp_MarkRetires :
    tTh.marking < 2 ∧ tTh.fault = none ∧ markDrained tLoading = true ∧ markDrained { tLoading with th := { tLoading.th with pos := 6 } } = false ∧
    ownDone tLoading = false ∧ ownDone (at_ tTh) = true ∧ tTh.committed = [] ∧
    flagOf { tGrp with flags := [(31, 254)] } 31 < (255 : BitVec 8).toNat ∧ (255 : BitVec 8).toNat ≤ flagOf { tGrp with flags := [(31, 255)] } 31 ∧
    holdsNothing tTh ∧ tGrp.qu = [] ∧ tGrp.shuntFail = [] ∧ tTh.intr = false ∧ tTh.run = .ready := by
  and_intros <;> decide +kernel

/-- A gate of one entry at a place, and the item that it is. -/
def tEnt (a : GAddr) : GateEnt := { at_ := a, cls := 3, mask := 5, data := 0x70009, va := 0x50000 }
def tItem (a : GAddr) : Item := { ix := 0, ent := tEnt a, po := 0, fen := none }
def tGated (a : GAddr) : State := { mach [] with th := { (mach []).th with gate := [tEnt a] } }

theorem test_hyp_MarkRetires_commit (a : GAddr) (h : a ∈ [GAddr.mem 0 0x2400, .scr 3, .pl 1 2]) :
    let s : State := { tGated a with planes := [tRegion, { tRegion with idx := 1 }] }
    markDrained s = true ∧ ownDone s = true ∧ s.grp.ch = [] ∧ s.th.heldOp = none ∧ itemAsks s (openItems s.th) = [] ∧ s.th.gate = [tEnt a] ∧
    itemBad s (tItem a) = none ∧ fifoCount s.core.fifo < 4096 ∧ s.grp.qu = [] ∧ holdsNothing { s.th with gate := [] } ∧ openItems s.th = [tItem a] ∧
    spansSet s s.grp = false := by
  simp only [List.mem_cons, List.not_mem_nil, or_false] at h
  unfold holdsNothing
  rcases h with rfl | rfl | rfl <;> decide +kernel

/-- Where items go: uncached, cached with its line in its set; scratch that is not pinned is refused. -/
theorem test_hyp_MarkRetires_places :
    cachedAt { mach [] with lowered := [(0x90000, 65536)] } 0 (64 * 0x2400) = false ∧ saddleOut (mach []) (64 * 0x2400) = false ∧
    cachedAt (mach []) 0 (64 * 0x2400) = true ∧
    (0, 0x2400 / 4) ∈ setLines (arrSet (mach []).core 0 0x2400 { data := 7, valid := 1, dirty := 0, cls := 0 }) (0x2400 / 4 % 2048) ∧
    (openItems (tGated (.scr 0x50)).th).find? (fun y => (itemBad (tGated (.scr 0x50)) y).isSome) = some (tItem (.scr 0x50)) ∧
    itemBad (tGated (.scr 0x50)) (tItem (.scr 0x50)) = some .scratchUnmapped ∧
    ({ (tGated (.scr 3)).th with marking := 9 } : Thread).marking = 9 := by decide +kernel

/-- A CPYO of the mark bundle itself. -/
theorem test_hyp_MarkRetires_own : ∃ ch x, tfind [(1, copyCmd (mach []) 1 [] [] none 0)] ch = some x ∧ x.op = 1 ∧ x.th = cxOf (mach []) ∧
    x.pos ≤ (mach []).th.pos := ⟨1, _, rfl, rfl, rfl, by decide⟩

/-- A fault at position 5, slot 3. -/
def tFault : FaultInfo := { code := .align, pos := 5, slot := 3, addr := 9, gate := 0, fq := 0, bpc := 0 }

theorem test_hyp_FaultAndRollback :
    tTh.fault = none ∧ ({ tTh with fault := some tFault } : Thread).fault = some tFault ∧ (4 : Nat) < tFault.pos ∧ (2 : Nat) < tFault.slot ∧
    tFault.slot ≤ 3 ∧ tFault.pos < 6 ∧ ({ Ckpt.init with takes := [(3, 2)] } : Ckpt).takes = [(3, 2)] ∧ Ckpt.init.takes = [] ∧ Ckpt.init.posts = [] ∧
    raise (at_ { tTh with fault := some tFault, slot := 3 }) .poison 0 = at_ { tTh with fault := some tFault, slot := 3 } ∧
    raise (at_ { tTh with fault := some tFault, slot := 2 }) .poison 7 =
      at_ { tTh with fault := some { tFault with code := .poison, slot := 2, addr := 7 }, slot := 2 } := by decide +kernel

theorem test_hyp_PrivilegedAtIssue :
    sysCount 1 = some 1 ∧ (1 * 4096 % 4096 + 0) % 2 ^ 64 < 1 ∧ sysCount 0x16 = some 16 ∧ 16 ≤ (0x16 * 4096 + 16) % 4096 ∧ sysCount 4 = none ∧
    coOf (mach []) = 0 ∧ imageOf (mach []) 0 ≠ none ∧ imageOf (mach []) 5 = none ∧ localBad (mach []) 0x40000 256 256 = none ∧
    localBad (mach []) 0x40080 256 256 = some .align ∧ localBad (mach []) 0x6000000000 32 32 = some .handleBound ∧
    0x5FFFFFFFFF + 1 ≤ poolTop (mach []) := by
  and_intros <;> decide +kernel

/-- A thread with one held privileged instruction, and memory poisoned at its operand. -/
def tHeld (o : HeldOp) : State := { mach [] with th := { (mach []).th with heldPriv := [o] } }
def tPriv (i : Instr) (a b c : Word) : HeldOp := { ins := i, a := a, b := b, c := c, h := Handle.init, va := 0, pa := 0, addr := 0, lines := [], tries := 0, tries2 := 0 }

theorem test_hyp_PrivilegedPerformed :
    focused (tHeld (tPriv (.keydrop 1 0) 0 0 0)) = true ∧ anyPoison (mach []) 0x40000 64 = false ∧
    anyPoison { mach [] with poisoned := [0x1000] } 0x40000 64 = true ∧ (0xFFFFFFFFFFFFFFFF : Word) ≠ 2047 ∧ (hashOf tTh 3).bad = false := by
  refine ⟨rfl, by decide +kernel, by decide +kernel, by decide, rfl⟩

/-- What an operand that is at home, sound or poisoned, gives; a register number with its value's shape; the slots of EDVER's signers. -/
def tPoison : State := { tHeld (tPriv (.edsign 1 2 3 4 0 0) 0x40000 64 0x40100) with poisoned := [0x1000] }
def tKeyed : State := { mach [] with keys := [(0, { kind := 1, key := [], bind := 0 }), (3, { kind := 2, key := [], bind := 0 })] }

theorem test_hyp_PrivilegedPerformed_operands :
    anyPoison (privHome (tHeld (tPriv (.edsign 1 2 3 4 0 0) 0x40000 64 0x40100)) (.edsign 1 2 3 4 0 0) 0x40000 64 0x40100) 0x40000 64 = false ∧
    anyPoison (privHome tPoison (.edsign 1 2 3 4 0 0) 0x40000 64 0x40100) 0x40000 64 = true ∧
    (∃ k ∈ tKeyed.keys, (k.2.kind == 2) = true) ∧ (∃ k ∈ tKeyed.keys, (k.2.kind == 2) = false) ∧
    (0x400000000 : Nat) / 2 ^ 34 ≠ 0 ∧ (0x300000001 : Nat) / 2 ^ 32 % 4 ≠ 1 ∧ (0x300000001 : Nat) / 2 ^ 32 % 4 ≠ 2 ∧
    ({ Spway.init with cur := 3 } : Spway).pass = false ∧ (17 : Nat) % 16 < 3 ∧ (3 : Nat) ≤ 19 % 16 := by decide +kernel

/-- A group of one stopped thread on core 0, and the same running and halted; the header of its image at 0x40000. -/
def tSave (g : Group → Group) : State :=
  { tReset with
    power := .on, cores := [(0, { Core.init with grp := some (g { tGrp with
      kern := { Kernel.none with threads := 1, seg := tSeg }, pinned := [], rings := [], ths := [(0, { tTh with run := .stopped })] }) })] }
def tSavedIm : State :=
  { homeStore (homeStore (homeStore { tSave id with cores := [] } 0x40000 (leBytes 0x58435A49 4 ++ [1, 0])) 0x40010 [9, 0, 0, 0, 1]) 0x40020
      (leBytes 3840 8) with
    saved := [{ grp := (((tSave id).cores.filterMap (fun c => c.2.grp)).headD Group.init), adds := [], host := true, prio := 0, waited := 0,
                gang := false, tries := 0 }] }
def tSavedAt : State := homeStore (homeStore tSavedIm 0x40040 (leBytes 256 8)) 0x40058 (leBytes 3328 8)

theorem test_hyp_PrivilegedPerformed_save :
    (groupAt (tSave id) 0).isSome = true ∧ saveReady (coreAt (tSave id) 0) = true ∧ (coreAt (tSave id) 0).fifo = [] ∧ groupAt (tSave id) 1 = none ∧
    saveReady (coreAt (tSave (fun g => { g with ths := [] })) 0) = false ∧ 0 < (imageOfGroup (((tSave id).cores.filterMap (fun c => c.2.grp)).headD Group.init) []).length ∧
    (imageOfGroup (((tSave id).cores.filterMap (fun c => c.2.grp)).headD Group.init) []).length ≤ 2 ^ 26 ∧
    ((groupAt (tSave (fun g => { g with halted := true })) 0).map (fun g => g.halted)) = some true := by decide +kernel

theorem test_hyp_PrivilegedPerformed_restore :
    groupAt tSavedAt 0 = none ∧ (coreAt tSavedAt 0).oos = false ∧ anyPoison tSavedAt 0x40000 3840 = false ∧
    rangeOk tSavedAt 600 0x40000 (memNat tSavedAt 0x40020 8) = true ∧ memNat tSavedAt 0x40020 8 = 3840 ∧
    (∃ x, savedFor tSavedAt (memBytes tSavedAt 0x40000 3840) = some x ∧ x.gang = false ∧ imageOk x.grp.kern (memBytes tSavedAt 0x40000 3840) = true ∧
      (reviveGroup (asReader tSavedAt [5, 0]) (groupOfImage tSavedAt x.grp (memBytes tSavedAt 0x40000 3840)).1
        (mergeAdds (groupOfImage tSavedAt x.grp (memBytes tSavedAt 0x40000 3840)).2 x.adds) matches .ok _)) ∧
    savedFor { tSavedAt with saved := [] } (memBytes tSavedAt 0x40000 128) = none := by
  refine ⟨rfl, rfl, by decide +kernel, by decide +kernel, by decide +kernel, ⟨tSavedAt.saved.headD ⟨Group.init, [], true, 0, 0, false, 0⟩, ?_⟩, rfl⟩
  and_intros <;> decide +kernel

/-- R391: the key of a slot is emptied, the other slots stay. -/
theorem test_keydrop : (privStep { tHeld (tPriv (.keydrop 1 0) 1 0 0) with keys := [(1, { kind := 0, key := [], bind := 0 }), (2, { kind := 1, key := [], bind := 0 })] }
    (tPriv (.keydrop 1 0) 1 0 0)).keys = [(2, { kind := 1, key := [], bind := 0 })] := by decide +kernel

/-- R385, R395: a byte the core's own array holds dirty goes home before a held privileged instruction reads its range; one outside
the range stays. -/
theorem test_atHome : let s0 := { mach [] with core := arrSet (mach []).core 0 0x1000 { data := 0x77, valid := 1, dirty := 1, cls := 0 } }
    memRead (atHome s0 [(0x40000, 32)]) 0x40000 = 0x77 ∧ memRead (atHome s0 [(0x40100, 32)]) 0x40000 = 0x01 := by
  decide +kernel

/-! Engines. -/

/-- A side of `n` bytes of zeros for CPYO, and channel 0 occupied. -/
def tBusy : State := { tNoted 8 with grp := { tGrp with ch := [(0, copyCmd (tNoted 8) 0 [] [] none 0)] } }

theorem test_hyp_CopyCommands :
    side (tTile 8) 1 0 (wReg (tTile 8).th 1) memOnly .r = .ok (tNoted 8) (tMemSide 8) ∧
    side (tTile 8) 2 0 (wReg (tTile 8).th 2) scrOnly .w = .ok (tTile 8) (tScrSide 8) ∧
    side (tNoted 8) 2 0 (wReg (tNoted 8).th 2) scrOnly .w = .ok (tNoted 8) (tScrSide 8) ∧
    side (tTile 8) 2 0 (wReg (tTile 8).th 2) scrOnly .r = .ok (tTile 8) (tScrSide 8) ∧
    side (tTile 8) 1 0 (wReg (tTile 8).th 1) memOnly.atCommit .w = .ok (tNoted 8) (tMemSide 8) ∧
    side (tTile 8) 2 0 (wReg (tTile 8).th 2) scrOnly.noStep6 .w = .ok (tTile 8) (tScrSide 8) ∧ sideTotal (tMemSide 8) = sideTotal (tScrSide 8) ∧
    sideTotal (tMemSide 12) ≠ sideTotal (tScrSide 8) ∧ chanBusy tBusy.grp 0 = true ∧ chanBusy (tNoted 8).grp 0 = false ∧
    busy (tNoted 8) [] (linesOf (sideScr (tScrSide 8))) = false ∧ busy (tNoted 8) (linesOf (sideScr (tScrSide 8))) [] = false ∧
    cpyoBytes (tNoted 8) + 8 ≤ 2 ^ 20 ∧
    2 ^ 20 < cpyoBytes { tNoted 8 with th := { tTh with heldCpyo := [{ cls := 0, pos := 5, out := [], oh := hMem, bytes := List.replicate 4 0, bad := [], fen := 0 }] } } + (2 ^ 20 - 3) := by
  and_intros <;> first | decide +kernel | exact side_ok (by decide +kernel)

/-- UNFOLD with a position walk of no dimension and a window of 8 bytes; XPOSE of one row of two 4-byte elements; each to a flat side. -/
theorem test_hyp_CopyCommands_shapes :
    unfoldSide { tTile 8 with th := { (tTile 8).th with w := [(1, 0), (2, tWalk 8)] } } 1 0 0 (tWalk 8) =
      .ok { tNoted 8 with th := { (tNoted 8).th with w := [(1, 0), (2, tWalk 8)] } } (tMemSide 8) ∧
    xposeSide (tTile 8) 1 0 (tWalk 8 ||| BitVec.ofNat 512 (2 ^ 32 + 2 ^ 64)) 4 = .ok (tNoted 8) (tMemSide 8) ∧
    sideFlat (tNoted 8) 2 0 8 scrOnly .w = .ok (tNoted 8) (tScrSide 8) ∧ sideScr (tScrSide 8) = 0 :: [1, 2, 3, 4, 5, 6, 7] := by
  and_intros <;> first | decide +kernel | exact side_ok (by decide +kernel)

/-- Rings: too small a slot, full, free, empty, with a filled head. -/
theorem test_hyp_CopyCommands_rings :
    ringDeclared tGrp 2 = false ∧ ringDeclared tGrp 1 = true ∧ (ringOf tGrp 1).bytes < 260 ∧ 256 ≤ (ringOf tGrp 1).bytes ∧
    (ringOf tGrp 1).slots ≤ (ringOf tGrp 1).filled ∧ (ringOf tGrp 0).filled < (ringOf tGrp 0).slots ∧ busy (tNoted 8) [] [.slot 0 0] = false ∧
    (ringOf tGrp 0).filled = 0 ∧ (ringOf tGrp 1).filled ≠ 0 := by decide +kernel

/-- A fill of four bytes that completes and posts 2 to flag 3. -/
def tFill : CopyCmd := copyCmd (tNoted 8) 3 [.known 1, .known 2, .known 3, .known 4] [8, 9, 10, 11] (some (3, 2)) 0
def tFilling : State := { tNoted 8 with grp := { tGrp with ch := [(1, tFill)] } }

theorem test_hyp_CopyCommands_done :
    tfind tFilling.grp.ch 1 = some tFill ∧ copyBytes tFilling 1 tFill = some ([1, 2, 3, 4], [false, false, false, false]) ∧ tFill.op ≠ 1 ∧
    tFill.bank = none ∧ tFill.landed = [] ∧ tFill.ring = none ∧ tFill.dst.Nodup ∧ tFill.dst.length = 4 := by
  and_intros <;> decide +kernel

/-- Bank loads: the last row, one row too many, a row cut short; the active bank, and both readings of a shadow bank. -/
theorem test_hyp_BankLoadAndStatus :
    chanBusy tBusy.grp 0 = true ∧ tGrp.kern.bank = true ∧ Kernel.none.bank = false ∧ sideTotal (tMemSide 2048) % 2048 = 0 ∧
    sideTotal (tMemSide 2052) % 2048 ≠ 0 ∧ (8191 : BitVec 13).toNat + 2048 / 2048 ≤ 8192 ∧ 8192 < (8191 : BitVec 13).toNat + 4096 / 2048 ∧
    (0 : Nat) = tGrp.active ∧ (1 : Nat) ≠ tGrp.active ∧ (1 : Nat) ≠ tTh.ckpt.act ∧ busy (tNoted 8) [] [.bank 1] = false ∧
    side (tTile 2048) 1 0 (wReg (tTile 2048).th 1) memOnly .r = .ok (tNoted 2048) (tMemSide 2048) ∧ (3 : BitVec 3).toNat < 4 := by
  and_intros <;> first | decide +kernel | exact side_ok (by decide +kernel)

/-- A shunt of no bytes. -/
def tShunt : ShuntCmd :=
  { src := [], dst := [], cls := 0, ctr := none, flag := none, coll := none, th := 0, seq := 0, held := true, pos := 5, run := 8, sent := false,
    wait := [], hs := hMem, hd := hMem, hx := Handle.init, tries := 0, early := [], adding := false, bad := false }

/-- Shunts: sides that agree, no counter, no flag, a queue with room and one without. -/
theorem test_hyp_ShuntCommands :
    side (tTile 8) 2 0 (wReg (tTile 8).th 2) memOrScr .r = .ok (tTile 8) (tScrSide 8) ∧
    side (tTile 8) 1 0 (wReg (tTile 8).th 1) memOnly .w = .ok (tNoted 8) (tMemSide 8) ∧
    (shuntCtr (tNoted 8) 0 0 0).1 = tNoted 8 ∧ locIs (shuntCtr (tNoted 8) 0 0 0).2 (none, Handle.init) = true ∧ shuntFlag (tNoted 8) 0 0 = some none ∧
    (shuntFlag { tNoted 8 with th := { (tNoted 8).th with s := [(3, 2 ^ 32)] } } 1 1).isSome = false ∧
    shuntFlag { tNoted 8 with th := { (tNoted 8).th with s := [(3, 0x1F01)] } } 1 1 = some (some (31, 1, 0)) ∧
    queueLen (tNoted 8).grp 3 < 16 ∧
    16 ≤ queueLen { tGrp with qu := List.replicate 16 (3, tShunt) } 3 ∧
    locIs (shuntCtr { tNoted 8 with th := { (tNoted 8).th with s := [(1, 8), (2, 1)] } } 1 1 1).2 (some (0, 0x90008, 1), hMem) = true ∧
    locBad (shuntCtr { tNoted 8 with th := { (tNoted 8).th with s := [(1, 4), (2, 1)] } } 1 1 1).2 (.align, 0x50004) = true := by
  and_intros <;> first | decide +kernel | exact side_ok (by decide +kernel)

/-- Collectives at level 2 of a set of four groups: blocks of two words; the root past the domain; a thread that is not the group's first. -/
def tColl : State := { mach [] with th := { (mach []).th with dom := 0x200000, s := [(1, 2 + 3 * 2 ^ 32)] } }

theorem test_hyp_ShuntCommands_collectives :
    (2 : BitVec 3).toNat ≤ bitsOf tColl.th.dom.toNat 22 20 ∧ bitsOf tColl.th.dom.toNat 22 20 < (3 : BitVec 3).toNat ∧ thrOf tColl = 0 ∧
    thrOf { tColl with th := { tColl.th with dom := 0x200001 } } ≠ 0 ∧ domGroups tColl 2 = 4 ∧ (sReg tColl.th 1).toNat / 2 ^ 32 = 3 ∧
    collSide tColl 1 0 8 memOrScr.noStep6 .r = .ok (noteAccess tColl hMem) (tMemSide 8) ∧
    collSide (noteAccess tColl hMem) 1 0 32 memOnly.noStep6 .w = .ok (noteAccess tColl hMem) (tMemSide 32) ∧
    grpRank tColl tColl.grp 2 ≠ 3 ∧ queueLen tColl.grp 0 < 16 := by
  and_intros <;> first | decide +kernel | exact side_ok (by decide +kernel)


/-- Matrices: INT8 formats with weights loaded; the last metadata word; a ring with a filled slot. -/
def tInt : Word := 0x00097700
def tMatrix : State :=
  { mach [] with
    th := { (mach []).th with fmt := tInt, mpc := 8 },
    grp := { tGrp with wsets := [(0, { valid := true, bank := 0, row := 0, mxw := 7, bw := 0, rows := [] })] } }

theorem test_hyp_MatrixAtIssue :
    tSeg.mdLen < (16 : Word).toNat + 8 ∧ tMatrix.th.mpc.toNat + 8 ≤ tMatrix.th.seg.mdLen ∧
    mmaBad { tMatrix with th := { tMatrix.th with mpc := 16 } } 0 1 0 0 1 224 32 false = false ∧
    mmaBad { tMatrix with th := { tMatrix.th with mpc := 16 } } 0 1 0 0 1 225 32 false = true ∧
    mmaBad { tMatrix with th := { tMatrix.th with mpc := 16 } } 0 1 0 64 1 0 32 false = true ∧
    ringDeclared tGrp 1 = true ∧ (ringOf tGrp 1).taken < (ringOf tGrp 1).filled ∧ (ringOf tGrp 0).filled ≤ (ringOf tGrp 0).taken ∧
    tMatrix.grp.kern.bank = true ∧ tileShape (fmtMXW tInt) (mxwW tInt) = some (256, 64, 0) ∧ tileShape 0 0 = none ∧ 8192 < 8129 + 64 + 0 ∧
    (8128 : BitVec 13).toNat + 64 + 0 ≤ 8192 ∧ (1 : BitVec 7) ≠ 0 ∧ (63 : BitVec 6).toNat + (1 : BitVec 7).toNat ≤ 64 ∧
    64 < (63 : BitVec 6).toNat + (2 : BitVec 7).toNat ∧ (1 : BitVec 7).toNat * 2048 ≤ (ringOf tGrp 0).bytes ∧
    (ringOf tGrp 1).bytes < (1 : BitVec 7).toNat * 2048 := by decide +kernel

/-- ACCRD: FP16 rows to a ring, to scratch, and to the last registers; a register too far, and a ring that is full. -/
theorem test_hyp_MatrixAtIssue_accrd :
    (12 : BitVec 4).toNat ≤ 12 ∧ 12 < (13 : BitVec 4).toNat ∧ fmtBFPW tInt ≠ 7 ∧ fmtBFPW 0x07000000 = 7 ∧ 64 * fmtBits (1 : BitVec 4).toNat 0 = 1024 ∧
    (2 : BitVec 7).toNat * 1024 ≤ (ringOf tGrp 0).bytes ∧ (ringOf tGrp 1).bytes < (1 : BitVec 7).toNat * 1024 ∧ (ringOf tGrp 0).filled < (ringOf tGrp 0).slots ∧
    (ringOf tGrp 1).slots ≤ (ringOf tGrp 1).filled ∧ sideFlat (mach []) 2 0 1024 scrOnly.noStep6 .w = .ok (mach []) (tScrSide 1024) ∧
    (31 : BitVec 5).toNat + rowRegs (1 : BitVec 4).toNat * (1 : BitVec 7).toNat - 1 ≤ 31 ∧
    31 < (31 : BitVec 5).toNat + rowRegs (12 : BitVec 4).toNat * (1 : BitVec 7).toNat - 1 := by
  and_intros <;> first | decide +kernel | exact side_ok (by decide +kernel)

theorem test_hyp_MatrixRetires :
    mxClass tInt = some .int ∧ fmtACF tInt = 1 ∧ 0 < 32 ∧ (∀ j ∈ tGrp.badScr, j < 4096 / 64 ∨ 4096 + 2048 ≤ 64 * j) ∧
    accChunks tInt (fun k => some (fOfInt (k : Int))) (fun _ => some (fOfInt (-2))) false 0 1 3 5 0 64 = some (BitVec.ofInt 32 (5 - 2 * (1 + 2 + 3))) := by
  decide +kernel

/-- FP16 by FP16: one product for each of 512 columns; ACCRD's rows of raw words, and destinations in scratch for one of them. -/
def tHalf : Word := 0x1100
def tAccrd (n : Nat) : MxOp := { mxOp (mach []) (.accrd 0 0 1 0 1 0 0 0 0 0 0) 0 with dst := List.range n, fmt := 0 }

theorem test_hyp_MatrixRetires_half :
    mxClass tHalf = some .half ∧ fmtACF tHalf ≠ 1 ∧
    (∀ c, c < 2 → (accChunks tHalf (fun k => tileVal tHalf WSet.none.rows k c) (operandVal (mach []).grp tHalf 4096) false 0 0 1 0 0 64).isSome = true) ∧
    (∀ a ∈ mmaReads { tAccrd 0 with fmt := tHalf } 4096 1 1, a / 64 ∉ (mach []).grp.badScr) := by decide +kernel

theorem leBytes_len (x n : Nat) : (leBytes x n).length = n := by
  induction n generalizing x with
  | zero => rfl
  | succ n h => exact congrArg Nat.succ (h (x / 256))

theorem test_hyp_MatrixRetires_accrd (n : Nat) (h : n = (1 : BitVec 7).toNat * rowStride 0 0) :
    (tAccrd n).dst.Nodup ∧ (tAccrd n).dst.length = (1 : BitVec 7).toNat * rowStride 0 0 ∧ 512 * fmtBits 0 0 % 8 = 0 ∧
    (∀ i, (readRow (tAccrd n) 0 [] i 0 512).length ≤ rowStride 0 0) ∧
    (tAccrd n).scale = none ∧ fmtACF (tAccrd n).fmt = 0 ∧ ({ tAccrd n with scale := some 2 } : MxOp).scale ≠ none :=
  ⟨List.nodup_range, List.length_range.trans h, by decide, fun _ => Nat.le_of_eq (leBytes_len _ _), rfl, (rfl : bitsOf 0 16 16 = 0), by simp⟩

/-! Vectors, fronts and special functions. -/

theorem test_hyp_CascadeUnits : (1 = 1 ∨ 1 = 2) ∧ (2 = 1 ∨ 2 = 2) ∧ unitLane 0 17 0 2 0x80000000 0 = some 0 := by decide +kernel

/-- An ACCRD in flight writes register 3 of cluster 0. -/
def tRead : State :=
  { mach [] with grp := { tGrp with mx := [(0, { mxOp (mach []) (.accrd 0 0 2 0 1 12 0 0 0 3 0) 0 with pos := 4 })] } }

theorem test_hyp_VectorInstructions :
    vBusy tRead [vNum 0 3] = true ∧ vBusy tRead [vNum 0 5] = false ∧
    (∀ l, l < 16 → cascade (mach []) 0 0 0 0 0 1 0 0 1 0 0 0 0 0 l = some 0) ∧
    dotOk 0 7 = true ∧ dotOk 1 7 = false ∧ (isIntFmt 7 && isIntFmt 7) = true ∧ (isIntFmt 3 && isIntFmt 7) = false ∧
    dotLane 0x00080077 0 0 0x01010101 0x02020202 5 = some 13 := by decide +kernel

theorem test_hyp_VectorMemory :
    (∀ l, l < 16 → (laneOffs (mach []) 0 0).getD l 0 = 4 * (l : Int)) ∧ hMem.st ≠ .empty ∧ hMem.space ≠ .scratch ∧ hScr.space = .scratch ∧
    locateAll (mach []) hScr .w ((List.range 16).map (fun l : Nat => 4 * (l : Int))) = .ok ((List.range 16).map (fun l => (.scr (4 * l), 4 * l))) ∧
    locBad (locateAll (mach []) hScr .w ((List.range 16).map (fun l : Nat => 0x13C4 + 4 * (l : Int)))) (.scratchUnmapped, 0x1400) = true ∧
    busy (mach []) [] (laneLines [(.scr 0, 0)]) = false ∧
    busy { tBusy with grp := { tGrp with ch := [(0, copyCmd (withS []) 3 [] [255] none 0)] }, th := { tTh with pos := 6 } } [] (laneLines [(.scr 0, 0)]) = true := by
  and_intros <;> first | decide +kernel | exact loc_ok (by decide +kernel) | rfl

/-- A front of two INT32 keys to minimise, capacity 2, that drops; and the tuples it holds. -/
def tCfg : BitVec 32 := 0x00800015
def tFront : Front := { cfg := tCfg, tup := [⟨[1, 9], 7⟩, ⟨[4, 4], 8⟩], ovf := 0, nanc := 0 }

theorem test_hyp_FrontInstructions :
    frCfgBad tCfg = false ∧ frCfgBad 0x10000015 = true ∧ (1 : BitVec 3).toNat < tGrp.kern.fronts ∧ tGrp.kern.fronts ≤ (2 : BitVec 3).toNat ∧
    ({ tTh with fbusy := 2 } : Thread).fbusy.getLsbD 1 = true ∧ tTh.fbusy.getLsbD 1 = false ∧ (29 : BitVec 5).toNat + frKeys tCfg ≤ 31 ∧
    31 < (30 : BitVec 5).toNat + frKeys tCfg ∧ vBusy (mach []) (upFrom (vNum 0 29) (frKeys tCfg + 1)) = false ∧
    (frInserts tFront [⟨[0, 0], 1⟩]).isSome = true ∧ frInserts { tFront with cfg := tCfg ||| 0x80000 } [⟨[2, 6], 1⟩] = none ∧
    bitsOf tCfg.toNat 9 0 = bitsOf (tCfg ||| 0x400).toNat 9 0 ∧ bitsOf tCfg.toNat 9 0 ≠ bitsOf 0 9 0 ∧ (hReg (mach []).th 0).st = .empty ∧
    (hReg (mach []).th 2).st ≠ .empty ∧ (hReg (mach []).th 2).space ≠ .memory := by decide +kernel

/-- A spill image in scratch: a configuration and one tuple. -/
def tImage : State := { mach [] with grp := { tGrp with scratch := tstore [] 0 (frImage { tFront with tup := [⟨[1, 9], 7⟩] }) } }

theorem test_hyp_FrontInstructions_images :
    locate tImage hScr 0 (frImage tFront).length 4 .w = .ok (.scr 0, 0) ∧ locate tImage hScr 0 16 4 .r = .ok (.scr 0, 0) ∧
    leNat (((imageSrcs tImage (.scr 0) 16).map (takeByte tImage)).drop 4 |>.take 4) = 1 ∧ locate tImage hScr 0 (16 + 20 * 1) 4 .r = .ok (.scr 0, 0) ∧
    (∀ y ∈ imageSrcs tImage (.scr 0) (16 + 20 * 1), srcPoison tImage y = false) ∧ tImage.grp.ch = [] ∧
    (frFill ((imageSrcs tImage (.scr 0) 16).map (takeByte tImage) ++ (imageSrcs tImage (.scr 16) 20).map (takeByte tImage))).isSome = true := by
  and_intros <;> first | decide +kernel | exact loc_ok (by decide +kernel) | rfl

/-- Tuples that are dominated, placed, and (in a key of type FP32) a NaN. -/
theorem test_hyp_FrontInsertion :
    FrontOk tFront ∧ FrontOk { tFront with tup := [] } ∧ frInsert tFront ⟨[5, 5], 1⟩ = some tFront ∧ frNan tCfg ⟨[5, 5], 1⟩ = false ∧
    frDom tCfg ⟨[4, 4], 8⟩ ⟨[5, 5], 1⟩ = true ∧ frNan 0x8 ⟨[0x7FC00000], 1⟩ = true ∧ (frInsert { tFront with tup := [⟨[1, 9], 7⟩] } ⟨[9, 1], 2⟩).isSome = true ∧
    (([⟨[1, 9], 7⟩] : List Tuple).filter (fun u => !frDom tCfg ⟨[9, 1], 2⟩ u)).length < frCap tCfg := by
  unfold FrontOk; decide +kernel

/-- 3, 1/2 and 2: none of 3 and 1/2 both an integer and a power of two. -/
theorem test_hyp_SpecialFunctions_finite :
    f32 0x40400000 = .fin false 12582912 (-22) ∧ asInt 12582912 (-22) = some 3 ∧ pow2Of 12582912 (-22) = none ∧
    f32 0x3F000000 = .fin false 8388608 (-24) ∧ asInt 8388608 (-24) = none ∧ pow2Of 8388608 (-24) = some (-1) ∧
    fpKey 0x3F000000 < 0x43000000 ∧ -0x43160000 ≤ fpKey 0x3F000000 ∧ (0x43000000 : Int) ≤ fpKey 0x43000000 ∧ fpKey 0xC3160001 < -0x43160000 ∧
    f32 0xC0000000 = .fin true 8388608 (-22) ∧ asInt 8388608 (-22) = some 2 := by decide +kernel

theorem test_hyp_SpecialFunctions :
    fpNan 0x7FC00000 = true ∧ fpMag 0x80000000 = 0 ∧ (0xBF800000 : BitVec 32).msb = true ∧ fpMag 0xBF800000 ≠ 0 ∧ fpNan 0xBF800000 = false ∧
    exec (.rcpScalar 3 1 0) (withS [(1, 0x40000000)]) = .next (putS (withS [(1, 0x40000000)]) 3 0x3F000000 clsSf) ∧
    exec (.sqrtScalar 3 1 0) (withS [(1, 0x40800000)]) = .next (putS (withS [(1, 0x40800000)]) 3 0x40000000 clsSf) := by
  and_intros <;> first | decide +kernel | exact out_next (by decide +kernel)


/-! The ballast level. -/

/-- A running instance with a window of 4096 bytes at 0x90000, row 0 open in y0, and given scalars. -/
def tInst (l : Tab Word) : BInst := { BInst.none with e := l, wlen := 4096, wpa := 0x90000, y := [(0, { isOpen := true, off := 0, data := 0 })] }
def tBal (l : Tab Word) : State := { tReset with cur := .ballast 0, power := .on, bi := tInst l }

/-- Corners of the scalars: a shift of 63, a branch taken backwards, e0. -/
theorem test_hyp_BallastScalar :
    exec (.bShl 1 2 3) (tBal [(2, 3), (3, 127)]) = .next { tBal [(2, 3), (3, 127)] with bi := { setE 1 0x8000000000000000 (tInst [(2, 3), (3, 127)]) with pc := 4 } } ∧
    exec (.bBne 1 0 0xFFFF) (tBal [(1, 1)]) = .next { tBal [(1, 1)] with bi := { tInst [(1, 1)] with pc := 0xFFFFFFFC } } ∧
    exec (.bAddi 0 0 5) (tBal []) = .next { tBal [] with bi := { tInst [] with pc := 4 } } := ⟨rfl, rfl, rfl⟩

/-- A row that is the window's last, one past it, one that is not aligned, one poisoned; the last places in a row. -/
theorem test_hyp_BallastRows :
    ((eReg (tBal [(2, 3072)]).bi 2).toNat + (0 : BitVec 12).toNat) % 2 ^ 64 = 3072 ∧ 3072 % 1024 = 0 ∧ 3072 < (tBal []).bi.wlen ∧
    (tBal []).bi.wlen ≤ 4096 ∧ 1025 % 1024 ≠ 0 ∧ anyPoison (tBal []) (0x90000 + 3072) 1024 = false ∧
    anyPoison { tBal [] with poisoned := [0x2430] } (0x90000 + 3072) 1024 = true ∧ (ySlot (tBal []).bi 1).isOpen = false ∧
    (ySlot (tBal []).bi 0).isOpen = true ∧ 1016 + 8 ≤ 1024 ∧ 1024 < 1017 + 8 ∧ 1016 % 8 = 0 ∧ 1012 % 8 ≠ 0 ∧ 768 + 256 ≤ 1024 ∧ 1024 < 769 + 256 ∧
    768 % 4 = 0 ∧ 766 % 4 ≠ 0 ∧ anyPoison (tBal []) ((tBal []).bi.wpa + 0) 1024 = false := by decide +kernel

/-- A launch that a group of another launch made, and one that the host made; instances that wait. -/
def tLaunch : Launch :=
  { id := 0, mbox := 0, station := false, image := 0, kidx := 0, groups := 4, prio := 2, waited := 0, evt := true, depAddr := 0, depTgt := 0,
    doneAddr := 0, doneInc := 0, arg0 := 0x50000, arg1 := 0, ready := true, readySeq := 1, handed := 0, ended := 0, killed := false,
    finished := false, forwarded := false, ballast := true, took := false, started := 0, stack := 0, wpa := 0, wlen := 0, from_ := none,
    remote := none, ready2 := [], reports := [], tries := 0, aged := false, seen := false }
def tWaits : State := { tBal [] with bwait := [(0, [{ tInst [] with prio := 3 }])], launches := [{ tLaunch with from_ := some (7, 2) }] }

theorem test_hyp_BallastVectors :
    (launchOf (tBal []) 0).bind (fun l => l.from_) = none ∧ (launchOf tWaits tWaits.bi.launch).bind (fun l => l.from_) = some (7, 2) ∧
    (∀ w ∈ waitList (tBal []) (stackHere (tBal [])), w.prio < (tBal []).bi.prio) ∧ tget 0 tWaits.bsave (stackHere tWaits) < 32 ∧
    32 ≤ tget 0 ({ tWaits with bsave := [(0, 32)] } : State).bsave 0 ∧ (∃ w ∈ waitList tWaits (stackHere tWaits), tWaits.bi.prio ≤ w.prio) ∧
    (takeWaiting (saveInst tWaits (stackHere tWaits) { tWaits.bi with pc := tWaits.bi.pc + 4 } false) (stackHere tWaits)).isSome = true := by
  and_intros <;> decide +kernel


/-! Events. Nothing is focused in `tDev`, whose core 0 runs the group with one thread. -/
def devOf (g : Group) : State :=
  { mach [] with cur := .none, th := Thread.init, grp := Group.init, cores := [(0, { Core.init with grp := some g })] }
def tDev (t : Thread) : State := devOf { tGrp with ths := [(0, t)] }

/-- The core focused, and its thread. -/
def inCore (s : State) : State := focusCore s 0
def inTh (s : State) : State := focusTh s 0 0

theorem test_hyp_CoreEvents_threads :
    (tDev tTh).cur = .none ∧ (tDev tTh).power = .on ∧ threadIs (tDev tTh) 0 0 = true ∧
    loadAtIx { tTh with pend := [tLoad] } 0 = some (tLoad, { cls := 1, srcs := [.home 0 0x90000], fin := .int false, addrs := [0x50000], slot := 3, cached := true, bpc := 0 }) ∧
    loadReady (inTh (tDev { tTh with pend := [tLoad] })) 0 0 = true ∧ ({ tTh with fbusy := 0x80 } : Thread).fbusy.getLsbD 7 = true ∧
    ({ tTh with fault := some tFault } : Thread).fault = some tFault ∧ windowBusy (inTh (tDev { tTh with fault := some tFault })) 0 = false ∧
    windowLoads { tTh with fault := some tFault } = false ∧ 65536 ≤ ({ tTh with intr := true, idist := 65536 } : Thread).idist ∧ tTh.defer = false ∧ tTh.insys = false ∧ tTh.fault = none ∧ tTh.marking < 2 ∧
    windowBusy (inTh (tDev { tTh with intr := true, idist := 65536 })) 0 = false ∧ ({ tTh with insys := true } : Thread).insys = true ∧
    blockedOpen { tTh with run := .blocked } = true ∧ blockedOpen { tTh with run := .blocked, marking := 1 } = false ∧
    16777216 ≤ ({ tTh with intr := true, defer := true, deferN := 16777216 } : Thread).deferN ∧ relReady (tDev tTh) [.marker 0 2 1] 0 = true ∧
    (3 : Nat) % 3 = 0 := by decide +kernel

/-- A load that is a walk, whose page is there (R129). -/
def tWalking : Thread := { tTh with pend := [{ tLoad with load := some { cls := 0, srcs := [], fin := .walk 0x50000 false 0, addrs := [], slot := 3, cached := false, bpc := 0 } }] }

theorem test_hyp_CoreEvents_walk :
    loadReady (inTh (tDev tWalking)) 0 0 = true ∧ (loadAtIx tWalking 0).map (fun x => x.2.fin) = some (.walk 0x50000 false 0) ∧
    walk (testWalk (asReader (inTh (tDev tWalking)) [1, 0, 0, 5, 3]) (rootOf (inTh (tDev tWalking)) 0) 0x50000)
      (rootOf (inTh (tDev tWalking)) 0) false 0x50000 = .page 0x90000 3 0x9000F 0 ∧
    heldBack { tTh with run := .walking 3 } = false ∧ shootsActed (tDev tTh) = true ∧ (launchOf { tDev tTh with launches := [{ tLaunch with killed := true }] } 0).map (fun l => l.killed) = some true := by
  decide +kernel

/-- A byte that a load takes from home, and a tile load. -/
theorem test_hyp_CoreEvents_takes :
    (match takeAll (touchAll (inTh (tDev { tTh with pend := [tLoad] })) [.home 0 0x90000]) 1 true [.home 0 0x90000] with
      | .bytes _ bs => bs == [0]
      | _ => false) = true ∧
    tldReady (inTh (devOf { tGrp with ths := [(0, tTh)], tld := [{ src := [.home 0 0x90000], dst := [64], cls := 1, ring := none, pos := 4, th := 0, addr := 0x50000, slot := 3, bpc := 0 }] })) 0 0 = true := by
  decide +kernel

/-- Engines: a copy that can complete, a shunt, a matrix operation waiting and one that runs; a group that can be saved, one that ends. -/
def tMatrixOp (b : Bool) : MxOp := { mxOp (mach []) (.accz 0 0 1 0) 0 with started := b }
def tShunted : ShuntCmd := { tShunt with src := [.known 5], dst := [.home 0 0x90000], held := false, pos := 4, run := 1 }

theorem test_hyp_CoreEvents_engines :
    (groupAt (devOf { tGrp with ch := [(1, tFill)] }) 0).isSome = true ∧
    copyReady (inCore (devOf { tGrp with ch := [(1, tFill)], ths := [(0, tTh)] })) 1 tFill = true ∧
    shuntReady (inCore (devOf { tGrp with qu := [(2, tShunted)] })) 2 = true ∧ mxReady (inCore (devOf { tGrp with mx := [(0, tMatrixOp false)] })) = true ∧
    (tMatrixOp true).started = true ∧
    saveReady (coreAt (devOf { tGrp with saving := true, ths := [(0, { tTh with run := .stopped })] }) 0) = true ∧
    endReady (coreAt (devOf { tGrp with ths := [(0, { tTh with run := .exited })] }) 0) = true ∧
    (coreAt (onCore (devOf { tGrp with ths := [(0, { tTh with run := .exited })] }) 0 drainAll) 0).fifo = [] ∧
    (groupAt (onCore (devOf { tGrp with ths := [(0, { tTh with run := .exited })] }) 0 drainAll) 0).isSome = true := by decide +kernel

/-- A dirty line of the array, and a group at the head of a free core's platform. -/
def tStaged : Staged := { launch := 0, index := 3, prio := 2, waited := 0, aged := false, saved := false, gang := false, core := 0, same := false, seq := 0 }
def tIdle : State :=
  { mach [] with cur := .none, th := Thread.init, grp := Group.init, launches := [{ tLaunch with ballast := false, arg0 := 7 }],
                 cores := [(0, { Core.init with arr := [(0x2400, { data := 7, valid := 1, dirty := 1, cls := 0 })], plat := [tStaged] })] }

theorem test_hyp_CoreEvents_start :
    dirtyLines (coreAt tIdle 0) = [0x900] ∧ headOf tIdle 0 = some tStaged ∧ tStaged.gang = false ∧ tStaged.saved = false ∧ groupAt tIdle 0 = none ∧
    liveCore tIdle 0 = true ∧ (launchOf tIdle tStaged.launch).isSome = true ∧ planesFit tIdle (startPlanes tIdle [(0, tStaged)]) = true := by
  decide +kernel

/-- The package's units. -/
def tReport (k : Nat) : Report := { launch := 0, core := none, code := 5, kind := k, thr := 0, image := 0, kernel := 0, mbox := 0, group := 0, noff := 0, poff := 0, addr := 0,
                                    info := 0, sys := false }

theorem test_hyp_UnitEvents_yard :
    tIdle.cur = .none ∧ tIdle.power = .on ∧ awake tIdle = true ∧ { tLaunch with ballast := false, aged := true }.ready = true ∧ 0 < localGroups tIdle tLaunch ∧ (launchOf tIdle 0).isSome = true ∧ (yardStep { tIdle with images := tIdle.images.map (fun i => { i with hold := false }) }).isSome = true ∧
    (stageStep { tIdle with boxes := [(0, { SigBox.init with recv := [tStaged] })] } 0).isSome = true ∧ (15 : Nat) < 16 ∧ (3 : Nat) < 4 ∧ 16 < 17 ∧
    (3 : Nat) < 4 ∧ ({ tIdle with reports := [tReport 2] } : State).reports = tReport 2 :: [] ∧ (tReport 0).kind ≠ 2 ∧
    (∀ x, launchOf tIdle 0 = some x → x.killed = false) ∧ fqFull Regs.init = false ∧ ({ tIdle with awaitQ := [tReport 0] } : State).awaitQ = tReport 0 :: [] := by
  and_intros <;> decide +kernel

/-- A partition with three ways that is asked for two or for fifteen; one whose change is half done, and one where it is complete. -/
theorem test_hyp_UnitEvents_partitions :
    (511 : Nat) < 512 ∧ (2 : Nat) < 3 ∧ (3 : Nat) ≤ (15 : BitVec 64).toNat % 16 ∧
    (tget Spway.init [(511, { req := 15, cur := 3, busy := true, pass := false })] 511).busy = true ∧
    (tget Spway.init [(511, { req := 15, cur := 3, busy := true, pass := false })] 511).cur < 15 ∧
    (tget Spway.init [(511, { req := 3, cur := 3, busy := true, pass := false })] 511).cur =
      (tget Spway.init [(511, { req := 3, cur := 3, busy := true, pass := false })] 511).req := by decide

/-- A ballast launch that takes effect; a free core, and a victim when every core of the stack runs something of lower priority. -/
def tWindow : State := { tIdle with images := tIdle.images.map (fun i => { i with hold := false }), launches := [tLaunch], lowered := [(0x90000, 65536)] }
def tStack (n : Nat) : State := { tWindow with bwait := [(0, [{ tInst [] with prio := 3, seq := 0 }])], bcores := (List.range n).map (fun i => (i, { tInst [] with seq := 1 })) }

theorem test_hyp_UnitEvents_ballast :
    enqueueReady tWindow tLaunch = true ∧ windowAt (asReader tWindow [5, 0]) 0 false 0x50000 = .window 0x90000 65536 ∧ ballastStartReady (tStack 15) 0 = true ∧
    (takeWaiting (tStack 15) 0).isSome = true ∧ freeBcore (tStack 15) 0 = some 15 ∧ ballastStartReady (tStack 16) 0 = true ∧
    freeBcore (tStack 16) 0 = none ∧ (ballastVictim (tStack 16) 0).isSome = true ∧ ballastOver { tLaunch with took := true, ended := 4 } = true ∧
    ballastOver { tLaunch with took := true, ended := 3 } = false ∧
    enqueueReady { tWindow with lowered := [] } tLaunch = true ∧ windowAt (asReader { tWindow with lowered := [] } [5, 0]) 0 false 0x50000 = .none none ∧
    tLaunch.doneAddr = 0 := by decide +kernel

/-- R72: without a DONEADDR nothing is added. -/
theorem test_hyp_UnitEvents_add (s : State) (root n : Nat) : rootAdd s root 0 n = .done s := if_pos rfl

/-- Jobs: an install, and each job on an image that it holds and that no launch uses. -/
def tJob (n : Nat) : Job := { mbox := 0, job := n, outCap := 64, evt := false, src := 0x50000, srcLen := 0, done := 0, doneInc := 0, timg := 0, tkern := 0, aux := 0, out := 0, tries := 0, begun := false, phase := 0, result := none, waits := [] }
def tFit (n : Nat) : State := asReader { tIdle with launches := [], jobs := [phaseJob 1 { tJob n with begun := true }] } [6]
def tImg : Image := { num := 0, root := 0x60000, sys := false, kernels := [tKern], tensors := [], cont := [], hold := true, everywhere := true, area := [] }

/-- Jobs that have all they need; one whose image is not installed; one that is over, with no counter. -/
theorem test_hyp_UnitEvents_jobsGot :
    jobImage (tFit 2) (tJob 2) = some tImg ∧ (∃ r, updateJob (tFit 2) (phaseJob 1 (tJob 2)) tImg [] = .got r) ∧ (∃ r, exportOf (tFit 3) (phaseJob 1 (tJob 3)) tImg [] = .got r) ∧
    (∃ r, retimeJob (tFit 4) (phaseJob 1 (tJob 4)) tImg [] = .got r) ∧ (∃ r, uninstallJob (tFit 5) (phaseJob 1 (tJob 5)) tImg [] = .got r) ∧
    vaBytes (tFit 1) 0x60000 0x50000 0 = .got [] ∧ jobImage { tFit 2 with images := [] } (tJob 2) = none ∧ (tJob 2).result = none ∧
    ({ tJob 1 with result := some (0, 3) } : Job).result = some (0, 3) ∧ (∀ x ∈ (tJob 1).waits, tIdle.wacks.contains x = false) ∧
    rootAdd (testWalk (tFit 1) (boundRoot tIdle 0) 0) (boundRoot tIdle 0) 0 (2 ^ 63) = .done (testWalk (tFit 1) (boundRoot tIdle 0) 0) :=
  ⟨rfl, ⟨_, rfl⟩, ⟨_, rfl⟩, ⟨_, rfl⟩, ⟨_, rfl⟩, rfl, rfl, rfl, rfl, by simp [tJob], if_pos rfl⟩

theorem test_hyp_UnitEvents_jobs :
    (tJob 1).job = 1 ∧ (jobImage { tIdle with launches := [] } (tJob 5)).isSome = true ∧ imageBusy { tIdle with launches := [] } 0 = false ∧
    ((jobImage { tIdle with launches := [] } (tJob 5)).map (fun i => i.hold)) = some true ∧ tIdle.readWait = [] ∧
    ((jobImage tWindow (tJob 5)).map (fun i => i.hold)) = some false ∧ (match vaBytes (asReader tIdle [6]) 0x60000 0x50000 4 with | .got l => l == [0, 0, 0, 0] | _ => false) = true := by
  decide +kernel

/-- Links, shoot-downs, health, heat. -/
def tShoot : Shoot := { id := 4, init := 0, lo := 0, len := 65536, image := 0, acks := [], acted := true, rolled := true, waits := [], late := false, scope := 2, fenced := 0, waiter := none }
theorem test_hyp_UnitEvents_rest :
    (11 : Nat) < 12 ∧ tget 0 ([(3, 6)] : Tab Nat) 3 < 7 ∧ 7 ≤ tget 0 ([(3, 7)] : Tab Nat) 3 ∧
    ({ tIdle with shoots := [{ tShoot with init := 2 }] } : State).shoots.find? (fun y => y.id == 4 && y.init != ownRank tIdle) = some { tShoot with init := 2 } ∧
    shootOf { tIdle with shoots := [tShoot] } (ownRank tIdle) 4 = some tShoot ∧ tShoot.acted = true ∧ (511 : Nat) < healthUnits 2 ∧
    healthT 2 [] ≤ healthT 2 [] ∧ healthT 2 [] < healthT 2 [] + 1 ∧ unitOut tIdle 2 511 = false ∧ unitOut { tIdle with pass := [511] } 2 511 = true ∧ tIdle.power ≠ .off ∧
    ({ tIdle with power := .idle } : State).power = .idle ∧ ({ tIdle with regs := { Regs.init with inset := true } } : State).regs.inset = true ∧ ({ tIdle with clock := 1300 } : State).clock = 1300 ∧
    noWork { tIdle with cores := [], launches := [] } = true := by decide +kernel


/-! The coupler, sets and enclaves. -/

/-- RFC 8032, 7.1, test 1; FIPS 180-4's digest of "abc", its first bytes. -/
theorem test_ed25519 : edVerify (beBytes 0xd75a980182b10ab7d54bfed3c964073a0ee172f3daa62325af021a68f707511a 32) []
    (beBytes 0xe5564300c360ac729086e2cc806e828a84877f1eb8e5d974d873e065224901555fb8821590a33bacc61e39701cf9b46bd25bf5f0595bbe24655141438e7a100b 64) = true := by
  decide +kernel
theorem test_sha512 : (sha512 [0x61, 0x62, 0x63]).take 8 = beBytes 0xddaf35a193617aba 8 := by decide +kernel

/-- Device 0 of a set of two, enclaved; a flit from device 1. -/
def tSet : State :=
  { mach [] with
    cur := .none, th := Thread.init, grp := Group.init, regs := { Regs.init with inset := true, ndev := 1, encl := true },
    keys := [(0, { kind := 1, key := List.replicate 32 7, bind := 1 })] }
def tFlit (kind addr : Nat) (bs : List Byte) : Flit := { dst := 0, src := 1, kind := kind, cls := 0, len := bs.length, addr := addr, lseq := 0, data := bs, ek := 0 }

theorem test_hyp_CouplerEvents_flits :
    tSet.cur = .none ∧ awake tSet = true ∧ (2 : Nat) ≤ 1024 ∧ (1023 : Nat) < 1024 ∧
    (∀ k ∈ [0, 1, 2, 3, 4, 5, 6, 7, 9, 10, 11], flitOk (wake tSet) (tFlit k 0x90000 (List.replicate 72 1)) k = true) ∧
    flitOk (wake tSet) (tFlit 2 0x90000 []) 2 = true ∧ (List.replicate 72 (1 : Byte)).length ≠ 11 ∧
    ({ tSet with readWait := [(1, 0x2400, 0, [2, 0, 1])] } : State).readWait.find? (fun x => x.1 == 1 && x.2.1 == 0x90000 / 64) =
      some (1, 0x2400, 0, [2, 0, 1]) ∧
    saddleOut tSet (64 * 0x2400) = false ∧ inMap tSet (64 * 0x2400) = true ∧
    ([0, 8] ++ leBytes 5 8 ++ leBytes 0 8).take 2 = [0, BitVec.ofNat 8 8] ∧ ([0, 8] ++ leBytes 5 8 ++ leBytes 0 8 : List Byte).length = 18 ∧
    compressSector 0 (List.replicate 64 0) ≠ none ∧ compressSector 0 ((upFrom 0 64).map (BitVec.ofNat 8)) = none ∧
    isPoisoned tSet 0x90000 = false ∧ isPoisoned { tSet with poisoned := [0x2400] } 0x90000 = true ∧ saddleOut tSet 0x500000000000 = true ∧
    leNat (([0, 8] ++ leBytes 5 8 ++ leBytes 0 8 ++ [1, 2] : List Byte).take 1) < 16 ∧ ([0, 8] ++ leBytes 5 8 ++ leBytes 0 8 ++ [1, 2] : List Byte).length = 20 ∧
    flitOk (wake tSet) (tFlit 11 0 (BitVec.ofNat 8 8 :: (leBytes 0 8 ++ leBytes 1 4))) 11 = true ∧
    (tFlit 12 0 []).dst = ownRank tSet ∧ { tFlit 12 0 [] with dst := 1 }.dst ≠ ownRank tSet ∧ ofKey tSet (5 * 1024) = some 5 ∧ ofKey tSet (5 * 1024 + 1) = none ∧ 12 ≤ (tFlit 12 0 []).kind := by decide +kernel

/-- A policy with one authority key (R265), and an order that this key signs, revoking device 1. -/
def tKey : List Byte := beBytes 0xEA4A6C63E29C520ABEF5507B132EC5F9954776AEBEBE7B92421EEA691446D22C 32
def tPolicy : List Byte := leBytes 0x4C4F5045 4 ++ leBytes 1 2 ++ leBytes 2 2 ++ [1, 1, 0, 0, 0, 0, 0, 0] ++ tKey
def tOrderHead (r : Nat) : List Byte := leBytes 0x4B564552 4 ++ leBytes 1 4 ++ sha512 tPolicy ++ leBytes r 2 ++ [1, 0, 0, 0, 0, 0]
def tOrder (r sig : Nat) : List Byte := tOrderHead r ++ List.replicate 8 0 ++ beBytes sig 64
def tSig1 : Nat := 0xFE7E3235CA0416811958EF5D4B2DE8BB13BC49FE2AC300207E66419198FB172FA3D7B021C9326CA1DBFB5BD3949ADE8F1528A90016E308613B1E6BB53E143100
def tSig0 : Nat := 0xD1DDF2F5CDA5388B35CF7B5F88FF3413ADEC7C5A32D90351A944A0E4EC047CDAADAA4C7C5026A55A826913F8BA099BF19E7D0DB21E25C0842689DD5BB7128206
def tEncl : State := { tSet with encl := { Enclave.init with policy := tPolicy, poldig := sha512 tPolicy, members := [0] } }

theorem test_hyp_CouplerEvents_policy : policyOk tPolicy = true ∧ policyOk [] = false ∧ orderOk tEncl [] = false := by decide +kernel

theorem test_hyp_CouplerEvents_orders :
    orderOk tEncl (tOrder 1 tSig1) = true ∧ numAt (tOrder 1 tSig1) 0x48 2 ≠ tEncl.regs.rank := by decide +kernel

theorem test_hyp_CouplerEvents_self : orderOk tEncl (tOrder 0 tSig0) = true ∧ numAt (tOrder 0 tSig0) 0x48 2 = tEncl.regs.rank := by decide +kernel

/-- A candidate whose measurement 4 is this device's own. -/
theorem test_hyp_CouplerEvents_admission :
    tEncl.regs.encl = true ∧ tEncl.encl.coord = tEncl.regs.rank ∧ 1 ∉ tEncl.encl.members ∧ 1 ≤ tEncl.regs.ndev ∧
    admits tEncl [[], [], [], [], measBytes tEncl 4] = true ∧ isFenced tEncl 1 = false ∧ tEncl.encl.members.length < numAt tEncl.encl.policy 6 2 ∧
    ({ tEncl with encl := { tEncl.encl with coord := 1, members := [] } } : State).encl.coord ≠ tEncl.regs.rank := by decide +kernel

/-- Two orders that stand together, the first with the lower sequence number. -/
theorem test_hyp_CouplerEvents_together :
    nextOrders ({ tEncl with agenda := [.idle] } : State).agenda = [] ∧ numAt (tOrder 0 0) 4 4 < numAt ([0, 0, 0, 0] ++ leBytes 2 4) 4 4 := by decide +kernel

/-- SPDM: each request's code on a device that is ready and one that is not, in its order. -/
def tReady (stage : Nat) : State :=
  { tSet with
    regs := { tSet.regs with sysent := 1 }, chans := [{ chan := 2, stage := stage, log := [] }],
    sess := [{ chan := 2, id := 7, done := true }, { chan := 2, id := 8, done := false }] }

theorem test_hyp_CouplerEvents_spdm :
    sysentV (tReady 1) = true ∧ sysentV tSet = false ∧ ({ tSet with power := .booting } : State).power = .booting ∧
    (chanOf (tReady 1) 2).stage = 1 ∧ (chanOf (tReady 3) 2).stage = 3 ∧ numAt [0x12, 0x84, 0, 0] 1 1 = 0x84 ∧
    (numAt ([0x12, 0xE3, 0, 0] ++ leBytes 0 4 ++ leBytes 0x400 4 ++ leBytes 4 4) 8 4).testBit 10 = true ∧
    (numAt ([0x12, 0xE3, 0, 0] ++ leBytes 0 4 ++ leBytes 0x400 4 ++ leBytes 4 4) 12 4).testBit 2 = true ∧
    numAt [0x12, 0x82, 0, 0, 0, 0, 0, 1] 2 1 % 16 = 0 ∧ numAt [0x12, 0x82, 0, 0, 0, 0, 0, 1] 4 2 ≤ 0 ∧
    numAt [0x12, 0xE0, 0, 8] 3 1 = 7 + 1 ∧ (tReady 3).sess.length < 32 ∧ (tReady 3).sess.any (fun x => x.chan == 2 && !x.done) = true ∧
    (tReady 3).sess = [] ++ { chan := 2, id := 7, done := true } :: [{ chan := 2, id := 8, done := false }] ∧
    (∀ y ∈ ([{ chan := 2, id := 8, done := false }] : List SpdmSess), y.chan ≠ 2 ∨ y.done = false) ∧ spdmKnown (numAt [0x12, 0x85, 0, 0] 1 1) = false := by
  decide +kernel

/-! The host's side, power and reset. -/

/-- A launch message of kernel 0, image 0, one group; one of an image that is not installed; a Fitter job of kind 5. -/
def tMsg (image groups : Nat) : BitVec 512 := BitVec.ofNat 512 (image * 2 ^ 16 + groups * 2 ^ 32)
def tJobMsg : BitVec 512 := BitVec.ofNat 512 (5 + 0xFFFF * 2 ^ 16 + 64 * 2 ^ 32)
def tHost : State := { tReady 0 with images := tSet.images.map (fun i => { i with hold := false }) }

/-- The tables below the first level on device 1, or a leaf that migrates: what a counter at VA 8 meets. -/
def tHostFar : State := homeStore tHost 0x68000 (leBytes 0x8001 2)
def tHostMig : State := homeStore tHost 0x48000 (leBytes 0x9008F 8)

theorem test_hyp_HostEvents :
    awake tHost = true ∧ isJob (tMsg 0 1) = false ∧ isJob tJobMsg = true ∧ namesBallast tHost (tMsg 0 1) = false ∧
    namesBallast { tHost with images := tHost.images.map (fun i => { i with kernels := [{ tKern with kind := 2 }] }) } (tMsg 0 1) = true ∧
    portOpen tHost 63 false = true ∧ portOpen tSet 63 false = false ∧ portOpen tSet 63 true = true ∧ launchCode (asReader tHost [7]) 63 false (tMsg 0 1) 0 = .ok ∧ depWaits (launchOfMsg tHost 63 false (tMsg 0 1)) = false ∧
    tHost.pend = [] ∧ { tHost with pend := [{ mbox := 63, station := false, msg := tMsg 0 1, tries := 0 }] }.pend ≠ [] ∧
    launchCode (asReader tHostFar [7]) 63 false (tMsg 0 1 + BitVec.ofNat 512 (8 * 2 ^ 256)) 0 = .wait 1 0x1000 ∧
    launchCode (asReader tHostMig [7]) 63 false (tMsg 0 1 + BitVec.ofNat 512 (8 * 2 ^ 256)) 0 = .mig ∧
    launchCode (asReader tHost [7]) 63 false (tMsg 5 1) 0 = .code 1 ∧ msgField tJobMsg 9 7 = 0 ∧ msgField tJobMsg 8 1 = 0 ∧ counterCheck (asReader tHost [7]) (boundRoot (asReader tHost [7]) 63) true (msgField tJobMsg 0x20 8) 0 = .no ∧
    jobCode (asReader tHost [7]) 63 (tJobMsg + BitVec.ofNat 512 (2 ^ 72)) 0 = .code 4 ∧ ({ tHost with power := .booting } : State).power = .booting ∧
    ({ tHost with hostReads := [(0x90000, 4)] } : State).hostReads = (0x90000, 4) :: [] ∧
    mboxDepth tHost 63 < 32 ∧ msgField tJobMsg 0 2 = 5 ∧ 64 ≤ msgField tJobMsg 4 4 ∧
    (0x1FFFFFFFF : BitVec 64).toNat / 2 ^ 34 = 0 ∧ (0x1FFFFFFFF : BitVec 64).toNat / 2 ^ 32 = 1 ∧ (0x200000003 : BitVec 64).toNat / 2 ^ 32 = 2 ∧
    ({ tHost with awaiting := [(3, tReport 0)] } : State).awaiting.find? (fun a => a.1 == (0x200000003 : BitVec 64).toNat % 2 ^ 32) = some (3, tReport 0) ∧
    (0xFFF : Nat) < 0x1000 ∧ tHost.ide = false ∧ ({ tHost with ide := true } : State).ide = true ∧
    (∀ k, 0x90000 / 64 ≤ k → k < (0x90000 + 64) / 64 + 1 → inMap tHost (64 * k) = true ∧ saddleOut tHost (64 * k) = false) := by
  and_intros <;>
    first
    | decide +kernel
    | (intro k h1 h2
       have : k = 0x2400 ∨ k = 0x2401 := by omega
       rcases this with rfl | rfl <;> decide +kernel)

/-- A boot image whose stages its keys sign, and one with no signature. -/
def tSigB : Nat := 0x6D4C7F936BB1536C2B2A2162708198910E2EAA6A6D6ABC613F56164087C509AC610FC80E4296D0FC3821DAC490CFB795103C325C5A0C1196785C4488AA36A80B
def tBoot : BootImage :=
  { stage1 := [1], sig1 := beBytes tSigB 64, stage2 := [1], key2 := tKey, sig2 := beBytes tSigB 64, ipool := 48, signers := [], signerKey := [],
    sysSegment := [], sysAddr := 0x100000 }
def tFused : State := { tReset with fuses := { root := tKey, hwconf := [] } }

theorem test_hyp_PowerAndReset_boot :
    edVerify tFused.fuses.root tBoot.stage1 tBoot.sig1 = true ∧ edVerify tBoot.key2 tBoot.stage2 tBoot.sig2 = true := by
  have h : edVerify tKey [1] (beBytes tSigB 64) = true := by decide +kernel
  exact ⟨h, h⟩

theorem test_hyp_PowerAndReset :
    edVerify tFused.fuses.root tBoot.stage1 [] = false ∧ edVerify tBoot.key2 tBoot.stage2 [] = false ∧ ({ tReset with power := .off } : State).cur = .none ∧
    ({ tReset with power := .off } : State).power = .off ∧ ({ tReset with power := .off } : State).agenda = [] ∧ tReset.power = .booting ∧ tReset.boot = none ∧
    ({ tReset with boot := some tBoot } : State).boot ≠ none := by
  and_intros <;> decide +kernel

/-- R395: EDVER finds the slot whose key signed the message; the slot before it holds no signer. -/
def tSlots : State :=
  { homeStore (mach []) 0x40100 (beBytes tSigB 64) with keys := [(0, { kind := 1, key := tKey, bind := 0 }), (3, { kind := 2, key := tKey, bind := 0 })] }
def tEdver : HeldOp := tPriv (.edverSlots 1 2 3 4 0 0) 0x40000 1 0x40100

theorem test_hyp_PrivilegedPerformed_slots : let u := privHome { tSlots with th := { tSlots.th with heldPriv := [tEdver] } } tEdver.ins 0x40000 1 0x40100
    u.keys = [(0, { kind := 1, key := tKey, bind := 0 })] ++ (3, { kind := 2, key := tKey, bind := 0 }) :: [] ∧
    anyPoison u 0x40000 1 = false ∧ anyPoison u 0x40100 64 = false ∧ edVerify tKey (memBytes u 0x40000 1) (memBytes u 0x40100 64) = true := by
  and_intros <;> decide +kernel

theorem test_hyp_StepKeepsMemoryForm : Memory.wf tStep.mem = true ∧ (match step tStep with | .next t => Memory.wf t.mem | _ => false) = true := by
  decide +kernel

end
end

section
/-!
PROOFS. The gate as a map from places to bytes (R21, R22), loads that the gate answers, and the integer that a load's bytes make
(R2, R327).
-/
namespace Sys2Proof.Machine
open Sys2Proof

/-! One store into the gate (R21). -/

theorem gatePut_nil {t : Thread} (hg : t.gate = []) (a : GAddr) (cls va : Nat) (m : BitVec 64) (x : BitVec 512) :
    gatePut t a cls m x va = some { t with gate := [{ at_ := a, cls := cls, mask := m, data := x, va := va }] } := by
  simp only [gatePut, hg]

theorem gatePut_cons {t : Thread} {e : GateEnt} {r : List GateEnt} (hg : t.gate = e :: r) (a : GAddr) (cls va : Nat)
    (m : BitVec 64) (x : BitVec 512) :
    gatePut t a cls m x va =
      if (e.at_ = a ∧ e.cls = cls) ∧ fenceFloor t.fences cls < r.length + 1 then
        some { t with gate := { e with mask := e.mask ||| m, data := mergeBytes m x e.data } :: r }
      else if r.length < 127 then
        some { t with gate := { at_ := a, cls := cls, mask := m, data := x, va := va } :: e :: r }
      else none := by
  have room : (r.length + 1 < 128) = (r.length < 127) := by rw [eq_iff_iff]; omega
  simp only [gatePut, hg, Bool.and_eq_true, beq_iff_eq, decide_eq_true_eq, List.length_cons, room]

/-! The gate's byte at a place (R22). -/

/-- A place in sector n of the space that `l` lies in: its number lies in that sector, and it is k bytes after `l` when its number is
k above. -/
theorem Loc.of_sec_eq_gsec {m l : Loc} {n : Nat} (hs : m.sec = l.gsec n) :
    m.num / 64 = n ∧ ∀ k, m.num = l.num + k → m = l.plus k := by
  cases l with
  | mem d a => cases m with
    | mem d' a' =>
      obtain ⟨rfl, rfl⟩ := GAddr.mem.inj hs
      exact ⟨rfl, fun k h => congrArg (Loc.mem d') h⟩
    | scr | pl => cases hs
  | scr a => cases m with
    | scr a' =>
      obtain rfl := GAddr.scr.inj hs
      exact ⟨rfl, fun k h => congrArg Loc.scr h⟩
    | mem | pl => cases hs
  | pl r o => cases m with
    | pl r' o' =>
      obtain ⟨rfl, rfl⟩ := GAddr.pl.inj hs
      exact ⟨rfl, fun k h => congrArg (Loc.pl r') h⟩
    | mem | scr => cases hs

/-- Writes to other sectors leave what is read at a sector. -/
theorem secRead_of_ne {g : Nat → GAddr} {b : GAddr} (h : ∀ n, b ≠ g n) (i : Nat) (ws : List (Nat × BitVec 64 × BitVec 512))
    (f : Option Byte) : secRead g b i ws f = f := by
  induction ws with
  | nil => rfl
  | cons w r ih => simpa only [secRead, List.foldl_cons, (h w.1).symm, false_and, if_false] using ih

/-- Outside the bytes it stores, a store leaves the gate's bytes as they were. -/
theorem gateAt_puts_other {t g : Thread} {l : Loc} {bs : List Byte} {cls va : Nat}
    (h : gatePuts t cls (gateWrites l va bs) = some g) {m : Loc} (hm : ∀ i, i < bs.length → m ≠ l.plus i) :
    gateAt g m = gateAt t m := by
  have hi : m.num % 64 < 64 := Nat.mod_lt _ (by omega)
  unfold gateAt
  rw [gateByte_puts _ h _ _ hi, putsRead_gateWrites]
  by_cases hs : ∃ n, m.sec = l.gsec n
  · obtain ⟨n, hn⟩ := hs
    obtain ⟨hd, hplus⟩ := Loc.of_sec_eq_gsec hn
    rw [hn, secRead_store l.gsec (gsec_inj l) n _ hi, if_neg]
    rintro ⟨hlo, hhi⟩
    exact hm (m.num - l.num) (by omega) (hplus _ (by omega))
  · exact secRead_of_ne (fun n e => hs ⟨n, e⟩) _ _ _

/-! A load whose bytes are all known when it issues (R22, R327). -/

/-- Outside a plane region a load takes the gate's byte where the gate holds one. -/
theorem srcOf_of_gateAt {t : Thread} {l : Loc} {b : Byte} (hl : ∀ reg o, l ≠ .pl reg o) (h : gateAt t l = some b) :
    srcOf t l = .known b := by
  cases l with
  | mem d a => simp only [srcOf, h]
  | scr a => simp only [srcOf, h]
  | pl reg o => exact absurd rfl (hl reg o)

theorem Loc.plus_ne_pl {l : Loc} (hl : ∀ reg o, l ≠ .pl reg o) (i reg o : Nat) : l.plus i ≠ .pl reg o := by
  cases l with
  | mem d a => simp [Loc.plus]
  | scr a => simp [Loc.plus]
  | pl r p => exact absurd rfl (hl r p)

/-- Where the gate holds every byte of a load, the load's sources are those bytes. -/
theorem map_srcOf_of_gateAt {t : Thread} {l : Loc} (hl : ∀ reg o, l ≠ .pl reg o) (bs : List Byte) (k : Nat)
    (h : ∀ i, i < bs.length → gateAt t (l.plus (k + i)) = some (bs.getD i 0)) :
    ((upFrom k bs.length).map l.plus).map (srcOf t) = bs.map .known := by
  induction bs generalizing k with
  | nil => rfl
  | cons b r ih =>
    have head := srcOf_of_gateAt (Loc.plus_ne_pl hl k) (h 0 (by simp))
    have tail := ih (k + 1) (fun i hi => by
      have := h (i + 1) (by simpa using hi)
      rwa [show k + (i + 1) = k + 1 + i by omega] at this)
    simp only [List.length_cons, upFrom, List.map_cons, tail]
    simpa using head

theorem srcLines_known (bs : List Byte) : srcLines (bs.map .known) = [] := by
  induction bs with
  | nil => rfl
  | cons b r ih => simpa only [List.map_cons, srcLines] using ih

theorem touchAll_known (s : State) (bs : List Byte) : touchAll s (bs.map .known) = s := by
  induction bs with
  | nil => rfl
  | cons b r ih => simpa only [touchAll, List.map_cons, List.foldl_cons] using ih

section
variable {s : State} {cx cls : Nat} {q : Nat × Nat} (h : ∀ c ∈ s.grp.ch, readsBefore s cx cls q c.2 = false)
include h

theorem no_readsBefore : s.grp.ch.any (fun x => readsBefore s cx cls q x.2) = false := by
  simpa using h

theorem copyLate_of_no_readsBefore : copyLate s cx cls q = false := by
  unfold copyLate
  rw [List.any_eq_false]
  intro c hc
  simp [h c hc]

theorem copiesRead_of_no_readsBefore : copiesRead s cx cls q = s := by
  unfold copiesRead
  rw [no_readsBefore h]
  rfl

end

/-- A load of known bytes, with no earlier access of its class outstanding, takes its value as it issues. -/
theorem startLoad_known {s : State} {cls : Nat} (he : earlierLoad s.th cls = false) (ht : earlierTld s cls = false)
    (hc : ∀ c ∈ s.grp.ch, readsBefore s (cxOf s) cls (s.th.pos, s.th.slot) c.2 = false) (r : RegName) (bs : List Byte)
    (fin : LoadFin) (addrs : List Nat) (lc : Nat) :
    startLoad s r (bs.map .known) cls fin addrs lc = { s with th := pushReg s.th r (finVal fin bs) lc } := by
  have free : loadHeld s cls = false := by simp [loadHeld, he, ht, copyLate_of_no_readsBefore hc]
  have hit : (bs.map ByteSrc.known).all (fun x => (hitByte s x).isSome) = true := by simp [hitByte]
  have clean : (bs.map ByteSrc.known).any (srcPoison s) = false := by simp [srcPoison]
  have taken : (bs.map ByteSrc.known).map (takeByte s) = bs := by simp [Function.comp_def, takeByte, hitByte]
  simp only [startLoad, srcLines_known, List.foldl_nil, touchAll_known, copiesRead_of_no_readsBefore hc, free, hit, clean, taken]
  rfl

/-! The integer that bytes make (R2, R327). -/

/-- Bit i of a little-endian number is bit i mod 8 of byte i / 8. -/
theorem testBit_leNat (bs : List Byte) (i : Nat) : (leNat bs).testBit i = (bs.getD (i / 8) 0).getLsbD (i % 8) := by
  induction bs generalizing i with
  | nil => simp [leNat]
  | cons b r ih =>
    rw [leNat, Nat.add_comm, show 256 = 2 ^ 8 from rfl, Nat.testBit_two_pow_mul_add _ b.isLt]
    by_cases hi : i < 8
    · have hd : i / 8 = 0 := by omega
      rw [if_pos hi, hd, Nat.mod_eq_of_lt hi]
      rfl
    · have hd : i / 8 = (i - 8) / 8 + 1 := by omega
      have hm : i % 8 = (i - 8) % 8 := by omega
      rw [if_neg hi, ih, hd, hm]
      rfl

/-- `sext` of R7 is the signed reading of the w-bit word. -/
theorem sextNat_eq_toInt (x w : Nat) : sextNat x w = (BitVec.ofNat w x).toInt := by
  unfold sextNat
  rw [BitVec.toInt_eq_toNat_cond, BitVec.toNat_ofNat]
  cases w with
  | zero => simp [Nat.mod_one]
  | succ k =>
    have half : x % 2 ^ (k + 1) < 2 ^ k ↔ 2 * (x % 2 ^ (k + 1)) < 2 ^ (k + 1) := by rw [Nat.pow_succ]; omega
    simp only [Nat.add_one_ne_zero, if_false, Nat.add_sub_cancel, half]

/-- The bits of a w-bit value extended with its sign to 64 bits. -/
theorem getLsbD_ofInt_sextNat {x w i : Nat} (hw : 0 < w) (hi : i < 64) :
    (BitVec.ofInt 64 (sextNat x w)).getLsbD i = if i < w then x.testBit i else x.testBit (w - 1) := by
  have hmsb : (BitVec.ofNat w x).msb = x.testBit (w - 1) := by
    rw [BitVec.msb_eq_getLsbD_last, BitVec.getLsbD_ofNat, decide_eq_true (by omega), Bool.true_and]
  rw [sextNat_eq_toInt, ← BitVec.signExtend, BitVec.getLsbD_signExtend, hmsb, BitVec.getLsbD_ofNat]
  by_cases hiw : i < w
  · simp [hi, hiw]
  · simp [hi, hiw]

theorem finVal_unsigned_bits (bs : List Byte) : ∃ v : Word, finVal (.int false) bs = .s v ∧
    ∀ i, i < 64 → v.getLsbD i = (bs.getD (i / 8) 0).getLsbD (i % 8) := by
  refine ⟨BitVec.ofNat 64 (leNat bs), rfl, fun i hi => ?_⟩
  rw [BitVec.getLsbD_ofNat, testBit_leNat, decide_eq_true hi, Bool.true_and]

theorem finVal_signed_bits (bs : List Byte) : ∃ v : Word, finVal (.int true) bs = .s v ∧
    ∀ i, i < 64 → 0 < bs.length → v.getLsbD i =
      if i < 8 * bs.length then (bs.getD (i / 8) 0).getLsbD (i % 8) else (bs.getD (bs.length - 1) 0).getLsbD 7 := by
  refine ⟨BitVec.ofInt 64 (sextNat (leNat bs) (8 * bs.length)), rfl, fun i hi hl => ?_⟩
  have hd : (8 * bs.length - 1) / 8 = bs.length - 1 := by omega
  have hm : (8 * bs.length - 1) % 8 = 7 := by omega
  rw [getLsbD_ofInt_sextNat (by omega) hi, testBit_leNat, testBit_leNat, hd, hm]

end Sys2Proof.Machine

open Sys2Proof Sys2Proof.Machine

/-- Settles O27: the gate read as a map from places to bytes after a store, the cases of one sector's store, and loads of bytes that
the gate holds. -/
theorem gateStore : Obligations.GateStore := by
  unfold Obligations.GateStore
  refine ⟨⟨fun s l bs cls va => ⟨fun g h => ?stored, fun h => ?overflow⟩, fun t a cls va m x => ⟨fun hg => ?first, fun e r hg hf => ?later⟩⟩,
    fun s r l n cls va fin bs hl hn hb he ht hc => ?load, fun bs _ => ⟨finVal_unsigned_bits bs, finVal_signed_bits bs⟩⟩
  case stored =>
    obtain ⟨hs, hbytes⟩ := storeAt_reads s l bs cls va g h
    exact ⟨hs, hbytes, fun m hm => gateAt_puts_other h hm⟩
  case overflow => simp only [storeAt, h]
  case first => exact ⟨_, gatePut_nil hg .., rfl, rfl, rfl⟩
  case later =>
    rw [gatePut_cons hg]
    refine ⟨fun hsame => ?_, fun hdiff hroom => ?_, fun hdiff hfull => ?_⟩
    · obtain ⟨ha, hcls⟩ := hsame
      exact ⟨_, if_pos ⟨⟨ha, hcls⟩, hf⟩, ha, hcls, rfl⟩
    · rw [if_neg fun ⟨⟨ha, hcls⟩, _⟩ => hdiff.elim (· ha) (· hcls), if_pos hroom]
      exact ⟨_, rfl, rfl, rfl, rfl, rfl⟩
    · rw [if_neg fun ⟨⟨ha, hcls⟩, _⟩ => hdiff.elim (· ha) (· hcls), if_neg (by omega)]
  case load =>
    subst hn
    rw [loadAt, locBytes, map_srcOf_of_gateAt hl bs 0 (by simpa using hb)]
    exact startLoad_known he ht hc ..

end

section
/-!
PROOFS. Inserting into a front (R95, R96): what each outcome of an insertion leaves, and that the held tuples stay apart and within
the capacity.
-/
namespace Sys2Proof.Machine
open Sys2Proof

/-! Tuples apart (R95). -/

/-- Neither tuple dominates the other, and they are not equal: what `FrontOk` asks of every two held tuples. -/
def FrApart (c : BitVec 32) (t u : Tuple) : Prop := frDom c t u = false ∧ frDom c u t = false ∧ frEq c t u = false

theorem frontOk_iff (f : Front) : FrontOk f ↔ f.tup.length ≤ frCap f.cfg ∧ f.tup.Pairwise (FrApart f.cfg) := Iff.rfl

theorem frEq_comm (c : BitVec 32) (t u : Tuple) : frEq c t u = frEq c u t := by
  simp only [frEq, Bool.and_comm]

theorem FrApart.symm {c : BitVec 32} {t u : Tuple} (h : FrApart c t u) : FrApart c u t := by
  obtain ⟨htu, hut, heq⟩ := h
  exact ⟨hut, htu, frEq_comm c t u ▸ heq⟩

/-! The held tuples that a new one leaves, and where it is placed (R96). -/

/-- The held tuples that `t` does not dominate. -/
def frKept (f : Front) (t : Tuple) : List Tuple := f.tup.filter (fun u => !frDom f.cfg t u)

theorem frKept_sublist (f : Front) (t : Tuple) : (frKept f t).Sublist f.tup := List.filter_sublist

theorem mem_frKept {f : Front} {t u : Tuple} : u ∈ frKept f t ↔ u ∈ f.tup ∧ frDom f.cfg t u = false := by
  simp [frKept]

theorem frPlace_perm (c : BitVec 32) (t : Tuple) (l : List Tuple) : (frPlace c t l).Perm (t :: l) := by
  induction l with
  | nil => exact .refl _
  | cons h r ih =>
    rw [frPlace]
    split
    · exact (ih.cons h).trans (.swap t h r)
    · exact .refl _

/-- The slot of the worst tuple is that of one of those compared. -/
theorem frWorst_lt (c : BitVec 32) (r : List Tuple) (w : Tuple) {k i : Nat} (hk : k < i) : frWorst c w k i r < i + r.length := by
  induction r generalizing w k i with
  | nil => exact hk
  | cons h r ih =>
    rw [frWorst, List.length_cons, Nat.add_comm r.length, ← Nat.add_assoc]
    split
    · exact ih w (Nat.lt_succ_of_lt hk)
    · exact ih h (Nat.lt_succ_self i)

theorem frDrop_eq_eraseIdx (k : Nat) (l : List Tuple) : frDrop k l = l.eraseIdx k :=
  (List.eraseIdx_eq_take_drop_succ l k).symm

/-! The outcomes of an insertion (R96). -/

theorem frInsert_of_nan {f : Front} {t : Tuple} (h : frNan f.cfg t = true) :
    frInsert f t = some { f with nanc := frUp f.nanc } := by
  simp only [frInsert, h, if_true]

theorem no_cover_of_fresh {f : Front} {t : Tuple} (hf : ∀ u ∈ f.tup, frDom f.cfg u t = false ∧ frEq f.cfg u t = false) :
    f.tup.any (fun u => frDom f.cfg u t || frEq f.cfg u t) = false := by
  rw [List.any_eq_false]
  intro u hu
  simp [hf u hu]

section
variable {f : Front} {t : Tuple} (hn : frNan f.cfg t = false)
include hn

theorem frInsert_of_covered (h : ∃ u ∈ f.tup, frDom f.cfg u t = true ∨ frEq f.cfg u t = true) : frInsert f t = some f := by
  have covered : f.tup.any (fun u => frDom f.cfg u t || frEq f.cfg u t) = true := by simpa using h
  simp [frInsert, hn, covered]

variable (hf : ∀ u ∈ f.tup, frDom f.cfg u t = false ∧ frEq f.cfg u t = false)
include hf

/-- With room after the evictions by dominance, the tuple is placed. -/
theorem frInsert_of_room (hroom : (frKept f t).length < frCap f.cfg) :
    frInsert f t = some { f with tup := frPlace f.cfg t (frKept f t) } := by
  unfold frKept at hroom
  simp [frInsert, hn, no_cover_of_fresh hf, hroom, frKept]

/-- Meeting a full front, the tuple is discarded, or takes the place of one more held tuple. -/
theorem frInsert_of_full {g : Front} (hfull : ¬ (frKept f t).length < frCap f.cfg) (hg : frInsert f t = some g) :
    g = { f with tup := frKept f t, ovf := frUp f.ovf } ∨
    ∃ k, k < (frKept f t).length ∧ g = { f with tup := frPlace f.cfg t ((frKept f t).eraseIdx k), ovf := frUp f.ovf } := by
  unfold frKept at hfull ⊢
  simp only [frInsert, hn, no_cover_of_fresh hf, if_neg hfull, Bool.false_eq_true, if_false] at hg
  split at hg
  · next h r _ hl =>
    refine .inr ⟨frWorst f.cfg h 0 1 r, ?_, ?_⟩
    · rw [hl, List.length_cons, Nat.add_comm]
      exact frWorst_lt f.cfg r h Nat.one_pos
    · rw [← frDrop_eq_eraseIdx]
      exact (Option.some.inj hg).symm
  · cases hg
  · exact .inl (Option.some.inj hg).symm

end

/-! What an insertion keeps of a front (R92, R96). -/

section
variable {f : Front} (ok : FrontOk f)
include ok

theorem FrontOk.of_sublist {g : Front} (hc : g.cfg = f.cfg) (hs : g.tup.Sublist f.tup) : FrontOk g := by
  obtain ⟨hlen, hpair⟩ := (frontOk_iff f).1 ok
  rw [frontOk_iff, hc]
  exact ⟨Nat.le_trans hs.length_le hlen, hpair.sublist hs⟩

/-- Placing a tuple among some of those held from which it is apart, with room for it. -/
theorem FrontOk.of_place {g : Front} {t : Tuple} {l : List Tuple} (hc : g.cfg = f.cfg) (ht : g.tup = frPlace f.cfg t l)
    (hs : l.Sublist f.tup) (hroom : l.length < frCap f.cfg) (hapart : ∀ u ∈ l, FrApart f.cfg t u) : FrontOk g := by
  obtain ⟨-, hpair⟩ := (frontOk_iff f).1 ok
  have perm := frPlace_perm f.cfg t l
  rw [frontOk_iff, hc, ht, perm.length_eq, perm.pairwise_iff FrApart.symm]
  exact ⟨hroom, List.pairwise_cons.2 ⟨hapart, hpair.sublist hs⟩⟩

end

/-- A tuple that no held one dominates or equals is apart from those that it leaves. -/
theorem frApart_of_mem_frKept {f : Front} {t u : Tuple} (hf : ∀ u ∈ f.tup, frDom f.cfg u t = false ∧ frEq f.cfg u t = false)
    (hu : u ∈ frKept f t) : FrApart f.cfg t u := by
  obtain ⟨hheld, htu⟩ := mem_frKept.1 hu
  obtain ⟨hut, heq⟩ := hf u hheld
  exact ⟨htu, hut, frEq_comm f.cfg u t ▸ heq⟩

/-- Inserting changes neither the configuration nor, unless the tuple has a NaN, NANC; and it keeps the invariant. -/
theorem frInsert_keeps {f g : Front} {t : Tuple} (ok : FrontOk f) (hg : frInsert f t = some g) :
    FrontOk g ∧ g.cfg = f.cfg ∧ (frNan f.cfg t = false → g.nanc = f.nanc) := by
  cases hn : frNan f.cfg t with
  | true =>
    obtain rfl := Option.some.inj ((frInsert_of_nan hn).symm.trans hg)
    exact ⟨ok, rfl, nofun⟩
  | false =>
    by_cases hf : ∃ u ∈ f.tup, frDom f.cfg u t = true ∨ frEq f.cfg u t = true
    · obtain rfl := Option.some.inj ((frInsert_of_covered hn hf).symm.trans hg)
      exact ⟨ok, rfl, fun _ => rfl⟩
    · have fresh : ∀ u ∈ f.tup, frDom f.cfg u t = false ∧ frEq f.cfg u t = false := by simpa using hf
      by_cases hroom : (frKept f t).length < frCap f.cfg
      · obtain rfl := Option.some.inj ((frInsert_of_room hn fresh hroom).symm.trans hg)
        exact ⟨ok.of_place rfl rfl (frKept_sublist f t) hroom fun u => frApart_of_mem_frKept fresh, rfl, fun _ => rfl⟩
      · obtain rfl | ⟨k, hk, rfl⟩ := frInsert_of_full hn fresh hroom hg
        · exact ⟨ok.of_sublist rfl (frKept_sublist f t), rfl, fun _ => rfl⟩
        · have sub := List.eraseIdx_sublist (frKept f t) k
          have room : ((frKept f t).eraseIdx k).length < frCap f.cfg := by
            obtain ⟨hcap, -⟩ := (frontOk_iff f).1 ok
            have hkept := (frKept_sublist f t).length_le
            rw [List.length_eraseIdx_of_lt hk]
            omega
          exact ⟨ok.of_place rfl rfl (sub.trans (frKept_sublist f t)) room
            fun u hu => frApart_of_mem_frKept fresh (sub.subset hu), rfl, fun _ => rfl⟩

end Sys2Proof.Machine

open Sys2Proof Sys2Proof.Machine

/-- Settles O50: the invariant by the outcomes of an insertion, and each of the named outcomes. -/
theorem frontInsertion : Obligations.FrontInsertion := by
  unfold Obligations.FrontInsertion
  intro f g t ok hg
  obtain ⟨keeps, hcfg, hnanc⟩ := frInsert_keeps ok hg
  refine ⟨keeps, hcfg, fun hn => ?nan, fun hn => ⟨hnanc hn, fun hcov => ?covered⟩, fun hn hf hroom => ?placed⟩
  case nan =>
    obtain rfl := Option.some.inj ((frInsert_of_nan hn).symm.trans hg)
    exact ⟨rfl, rfl, rfl⟩
  case covered => exact Option.some.inj (hg.symm.trans (frInsert_of_covered hn hcov))
  case placed =>
    obtain rfl := Option.some.inj ((frInsert_of_room hn hf hroom).symm.trans hg)
    have mem : ∀ u, u ∈ frPlace f.cfg t (frKept f t) ↔ u = t ∨ u ∈ f.tup ∧ frDom f.cfg t u = false := fun u => by
      rw [(frPlace_perm f.cfg t _).mem_iff, List.mem_cons, mem_frKept]
    exact ⟨(mem t).2 (.inl rfl), rfl, mem⟩

end

section
/-!
PROOFS. The front instructions (R92 to R106, R360 to R362): what their wrappers answer, the bytes of an image, and an image read by a
load that nothing holds up.
-/
namespace Sys2Proof.Machine
open Sys2Proof

/-! Lanes of a register that is built lane by lane (R37). -/

theorem lanesNat_lane (f : Nat → BitVec 32) (l n k : Nat) (hk : k < n) :
    lanesNat f l n / 2 ^ (32 * k) % 2 ^ 32 = (f (l + k)).toNat := by
  induction n generalizing l k with
  | zero => exact absurd hk (Nat.not_lt_zero k)
  | succ n ih =>
    have low : (f l).toNat < 2 ^ 32 := (f l).isLt
    cases k with
    | zero => rw [lanesNat, Nat.mul_zero, Nat.pow_zero, Nat.div_one, Nat.add_mul_mod_self_left, Nat.mod_eq_of_lt low, Nat.add_zero]
    | succ k =>
      rw [lanesNat, Nat.mul_succ, Nat.add_comm (32 * k), Nat.pow_add, ← Nat.div_div_eq_div_mul, Nat.add_mul_div_left _ _ (by decide),
        Nat.div_eq_of_lt low, Nat.zero_add, ih (l + 1) k (Nat.lt_of_succ_lt_succ hk), Nat.add_right_comm, Nat.add_assoc]

theorem laneOf_ofNat {w : Nat} (x : Nat) {l : Nat} (hl : 32 * l + 32 ≤ w) :
    laneOf (BitVec.ofNat w x) l = BitVec.ofNat 32 (x / 2 ^ (32 * l)) := by
  ext i hi
  simp only [laneOf, ← BitVec.getLsbD_eq_getElem, BitVec.getLsbD_extractLsb', BitVec.getLsbD_ofNat, Nat.testBit_div_two_pow]
  simp [hi, show 32 * l + i < w by omega, Nat.add_comm i]

theorem laneOf_mkV (f : Nat → BitVec 32) {l : Nat} (hl : l < 16) : laneOf (mkV f) l = f l := by
  apply BitVec.eq_of_toNat_eq
  rw [mkV, laneOf_ofNat _ (by omega), BitVec.toNat_ofNat, lanesNat_lane f 0 16 l hl, Nat.zero_add]

/-! The wrapper of every front instruction: its fronts are declared, free and then claimed (R94, R101, R362). -/

/-- The state in which the fronts `is` are claimed. -/
def frClaim (s : State) (is : List Nat) : State :=
  { s with th := { s.th with heldBusy := is.foldl (fun b f => b ||| BitVec.ofNat 8 (2 ^ f)) s.th.heldBusy } }

@[simp] theorem fReg_frClaim (s : State) (is : List Nat) (i : Nat) : fReg (frClaim s is).th i = fReg s.th i := rfl
@[simp] theorem frCount_frClaim (s : State) (is : List Nat) (a : BitVec 6) : frCount (frClaim s is) a = frCount s a := rfl
@[simp] theorem frLane_frClaim (s : State) (is : List Nat) (cl : BitVec 3) (vb : BitVec 5) (c : BitVec 32) :
    frLane (frClaim s is) cl vb c = frLane s cl vb c := rfl

section
variable {s : State} {p : BitVec 5} {is : List Nat} (hp : predOk s.th p = true) (k : State → Out)
include hp

theorem frSlot_undeclared (h : ∃ f ∈ is, s.grp.kern.fronts ≤ f) : frSlot s p is k = .next (raise s .formatInvalid 0) := by
  have undeclared : is.any (fun f => decide (s.grp.kern.fronts ≤ f)) = true := by simpa using h
  simp only [frSlot, hp, undeclared, Bool.not_true, Bool.false_eq_true, if_false, if_true]

variable (hd : ∀ f ∈ is, f < s.grp.kern.fronts)
include hd

theorem frSlot_busy (h : ∃ f ∈ is, s.th.fbusy.getLsbD f = true) : frSlot s p is k = .next (block s) := by
  have declared : is.any (fun f => decide (s.grp.kern.fronts ≤ f)) = false := by simpa using hd
  have busy : is.any (fun f => s.th.fbusy.getLsbD f) = true := by simpa using h
  simp only [frSlot, hp, declared, busy, Bool.not_true, Bool.false_eq_true, if_false, if_true]

theorem frSlot_free (h : ∀ f ∈ is, s.th.fbusy.getLsbD f = false) : frSlot s p is k = k (frClaim s is) := by
  have declared : is.any (fun f => decide (s.grp.kern.fronts ≤ f)) = false := by simpa using hd
  have free : is.any (fun f => s.th.fbusy.getLsbD f) = false := by simpa using h
  simp only [frSlot, hp, declared, free, Bool.not_true, Bool.false_eq_true, if_false]
  rfl

end

/-- Of an instruction that goes on with `k` once its fronts are claimed: it is enough to show `q` from what `k` answers. -/
theorem onFronts_of_frSlot {i : Instr} {s : State} {p : BitVec 5} {is : List Nat} {k : State → Out} {q : State → Prop}
    (hp : predOk s.th p = true) (hi : exec i s = frSlot s p is k)
    (hq : (∀ {t}, k (frClaim s is) = .next t → Gives i s t) → q (frClaim s is)) : OnFronts i s is q :=
  ⟨fun hu => hi.trans (frSlot_undeclared hp k hu),
    fun hd hb => hi.trans (frSlot_busy hp k hd hb),
    fun hd hf => hq fun ht => (hi.trans (frSlot_free hp k hd hf)).trans ht⟩

/-! What `exec` dispatches to. -/

section
variable (s : State) (cl fr fs : BitVec 3) (vb vd : BitVec 5) (a d x : BitVec 6) (sel : BitVec 2) (h cls : BitVec 4) (imm : BitVec 24)
  (p : BitVec 5)

theorem exec_pfcfg : exec (.pfcfg cl fr a p) s = execPfcfg cl fr a p s := rfl
theorem exec_pfins : exec (.pfins cl fr vb a p) s = execPfins cl fr vb a p s := rfl
theorem exec_pftst : exec (.pftst cl vd fr vb a p) s = execPftst cl vd fr vb a p s := rfl
theorem exec_pfmrg : exec (.pfmrg cl fr fs p) s = execPfmrg cl fr fs p s := rfl
theorem exec_pfrd : exec (.pfrd cl vb fr a p) s = execPfrd cl vb fr a p s := rfl
theorem exec_pfcnt : exec (.pfcnt cl d fr sel p) s = execPfcnt cl d fr sel p s := rfl
theorem exec_pfclr : exec (.pfclr cl fr p) s = execPfclr cl fr p s := rfl
theorem exec_pfspl : exec (.pfspl cl fr h x imm cls p) s = execPfspl cl fr h x imm cls p s := rfl
theorem exec_pffil : exec (.pffil cl fr h x imm cls p) s = execPffil cl fr h x imm cls p s := rfl

end

/-! The register block of PFINS, PFTST and PFRD (R360, R381). -/

section
variable {s : State} {cl : BitVec 3} {vb : BitVec 5} {f : Front} {more : List Nat} {k : Out}

theorem frBlock_past (h : 31 < vb.toNat + frKeys f.cfg) : frBlock s cl vb f more k = .next (raise s .formatInvalid 0) := if_pos h

theorem frBlock_free (h : vb.toNat + frKeys f.cfg ≤ 31) (hb : vBusy s (upFrom (vNum cl vb) (frKeys f.cfg + 1) ++ more) = false) :
    frBlock s cl vb f more k = k := by
  simp only [frBlock, Nat.not_lt.2 h, hb, Bool.false_eq_true, if_false]

theorem frBlock_free_alone (h : vb.toNat + frKeys f.cfg ≤ 31) (hb : vBusy s (upFrom (vNum cl vb) (frKeys f.cfg + 1)) = false) :
    frBlock s cl vb f [] k = k := frBlock_free h (by rwa [List.append_nil])

end

/-- PFCNT's selectors (R361). -/
theorem frSelector_cases (sel : BitVec 2) : sel = 0 ∨ sel = 1 ∨ sel = 2 ∨ sel = 3 := by
  revert sel
  decide

/-! The handle of an image (R103, R128). -/

/-- A walk translates to a handle of memory. -/
theorem space_of_walkFor {s t : State} {va : Nat} {h : Handle} (hw : walkFor s va = .ok t h) : h.space = .memory := by
  unfold walkFor at hw
  dsimp only at hw
  split at hw
  · cases hw
    rfl
  · cases hw
  · split at hw <;> cases hw
  · cases hw

/-- An access through a handle of no memory is not noted for shoot-downs. -/
theorem noteAccess_of_not_memory {s : State} {h : Handle} (hs : h.space ≠ .memory) : noteAccess s h = s := by
  have note : noteUse s.th h = s.th := by simp [noteUse, hs]
  have page : notePage s.core s.grp.image h = s.core := by simp [notePage, hs]
  rw [noteAccess, note, page]

/-- Using a handle of scratch or of a plane changes nothing. -/
theorem eq_of_useHandle {s t : State} {i : Nat} {h : Handle} (hu : useHandle s i = .ok t h) (hs : h.space ≠ .memory) : t = s := by
  unfold useHandle at hu
  dsimp only at hu
  split at hu
  · split at hu
    · next hw =>
      cases hu
      exact absurd (space_of_walkFor hw) hs
    · next hno => exact absurd hu (hno t h)
  · cases hu
    exact noteAccess_of_not_memory hs

section
variable {s t : State} {h : BitVec 4} {x : BitVec 6} {imm : BitVec 24} {n : Nat} {need : Need} {k : State → Loc → Nat → Out} {hh : Handle}

theorem withImage_bad {c : FaultCode} {e : Nat} (hu : useHandle s h.toNat = .bad c e) :
    withImage s h x imm n need k = .next (raise s c e) := by simp only [withImage, hu]

theorem withImage_refused (hu : useHandle s h.toNat = .ok t hh) (hh' : hh.st = .empty ∨ hh.space = .memory) :
    withImage s h x imm n need k = .next (raise t .handlePerm 0) := by
  have refused : (hh.st == .empty || hh.space == .memory) = true := by simpa using hh'
  simp only [withImage, hu, refused, if_true]

theorem withImage_ok {l : Loc} {va : Nat} (hu : useHandle s h.toNat = .ok t hh) (hst : hh.st ≠ .empty) (hsp : hh.space ≠ .memory)
    (hl : locate t hh (effOff t x imm.toInt) n 4 need = .ok (l, va)) : withImage s h x imm n need k = k t l va := by
  have accepted : (hh.st == .empty || hh.space == .memory) = false := by simp [hst, hsp]
  simp only [withImage, hu, accepted, Bool.false_eq_true, if_false, hl]

end

/-! The bytes of an image (R102). -/

theorem upFrom_append (a m n : Nat) : upFrom a (m + n) = upFrom a m ++ upFrom (a + m) n := by
  induction m generalizing a with
  | zero => rw [Nat.zero_add]; rfl
  | succ m ih => rw [Nat.add_right_comm, upFrom, ih, Nat.add_right_comm a 1]; rfl

theorem upFrom_length (a n : Nat) : (upFrom a n).length = n := by
  induction n generalizing a with
  | zero => rfl
  | succ n ih => rw [upFrom, List.length_cons, ih]

theorem upFrom_map_add (k a n : Nat) : (upFrom a n).map (k + ·) = upFrom (k + a) n := by
  induction n generalizing a with
  | zero => rfl
  | succ n ih => rw [upFrom, List.map_cons, ih]; rfl

theorem Loc.plus_plus (l : Loc) (m i : Nat) : (l.plus m).plus i = l.plus (m + i) := by
  cases l <;> simp only [Loc.plus, Nat.add_assoc]

theorem locBytes_append (l : Loc) (m n : Nat) : locBytes l (m + n) = locBytes l m ++ locBytes (l.plus m) n := by
  have shift : (l.plus m).plus = l.plus ∘ (m + ·) := funext fun i => l.plus_plus m i
  rw [locBytes, locBytes, locBytes, upFrom_append, List.map_append, shift, ← List.map_map, upFrom_map_add, Nat.zero_add, Nat.add_zero]

theorem imageSrcs_append (s : State) (l : Loc) (m n : Nat) : imageSrcs s l (m + n) = imageSrcs s l m ++ imageSrcs s (l.plus m) n := by
  rw [imageSrcs, locBytes_append, List.map_append]; rfl

theorem imageSrcs_length (s : State) (l : Loc) (n : Nat) : (imageSrcs s l n).length = n := by
  rw [imageSrcs, locBytes, List.length_map, List.length_map, upFrom_length]

/-- A number that lies in the first part of some bytes. -/
theorem le4_append {bs r : List Byte} {o : Nat} (h : o + 4 ≤ bs.length) : le4 (bs ++ r) o = le4 bs o := by
  rw [le4, le4, List.drop_append_of_le_length (by omega), List.take_append_of_le_length (by rw [List.length_drop]; omega)]

/-- Where no byte of an image is poisoned, none of its header is and none of what follows. -/
theorem imageSrcs_clean {s : State} {l : Loc} {m n : Nat} (h : ∀ y ∈ imageSrcs s l (m + n), srcPoison s y = false) :
    (imageSrcs s l m).any (srcPoison s) = false ∧ (imageSrcs s (l.plus m) n).any (srcPoison s) = false := by
  simpa [imageSrcs_append, or_imp, forall_and] using h

/-- An image that fills a front has a header that passes R104's check of its CFG and its count. -/
theorem header_of_frFill {bs r : List Byte} {k : Front} (hlen : bs.length = 16) (h : frFill (bs ++ r) = some k) :
    (frCfgBad (BitVec.ofNat 32 (le4 bs 0)) || decide (frCap (BitVec.ofNat 32 (le4 bs 0)) < le4 bs 4)) = false := by
  unfold frFill at h
  dsimp only at h
  split at h
  · cases h
  · next accepted =>
    rw [le4_append (by omega), le4_append (by omega)] at accepted
    exact eq_false_of_ne_true accepted

/-! A load that no earlier access of its class holds up (R149, R150). -/

/-- A fold whose every step leaves the start as it is. -/
theorem foldl_eq_of_fixed {α β : Type} {f : β → α → β} {b : β} (l : List α) (h : ∀ x ∈ l, f b x = b) : l.foldl f b = b := by
  induction l with
  | nil => rfl
  | cons x r ih =>
    rw [List.foldl_cons, h x List.mem_cons_self]
    exact ih fun y hy => h y (List.mem_cons_of_mem x hy)

theorem ownLoads_of_none_earlier {s : State} {cls : Nat} (h : earlierLoad s.th cls = false) : ownLoads s cls = s := by
  refine foldl_eq_of_fixed _ fun e he => ?_
  have hm : e ∈ s.th.pend := (List.mem_filter.1 he).1
  have other := List.any_eq_false.1 h e hm
  revert other
  cases e.load with
  | none => exact fun _ => rfl
  | some q => exact fun other => if_neg other

theorem ownTlds_of_none_earlier {s : State} {cls : Nat} (h : earlierTld s cls = false) : ownTlds s cls = s := by
  have none : s.grp.tld.filter (fun c => c.th == cxOf s && c.pos == s.th.pos && c.cls == cls) = [] := by
    rw [List.filter_eq_nil_iff]
    intro c hc
    have other := List.any_eq_false.1 h c hc
    rw [Bool.and_eq_true] at other
    rw [Bool.and_eq_true, Bool.and_eq_true]
    exact fun ⟨⟨hth, _⟩, hcls⟩ => other ⟨hth, hcls⟩
  rw [ownTlds, none]
  rfl

/-- With no copy in flight, an access finds the bytes as they are. -/
theorem touchAll_of_no_copies {s : State} (h : s.grp.ch = []) (l : List ByteSrc) : touchAll s l = s := by
  have untouched : ∀ ch a, touchCopy s ch a = s := fun ch a => by simp only [touchCopy, h, tfind]
  refine foldl_eq_of_fixed l fun x _ => ?_
  cases x with
  | scratch a => exact foldl_eq_of_fixed _ fun ch _ => untouched ch a
  | _ => rfl

theorem copiesRead_of_no_copies {s : State} (h : s.grp.ch = []) (cx cls : Nat) (q : Nat × Nat) : copiesRead s cx cls q = s :=
  copiesRead_of_no_readsBefore (by simp [h])

theorem loadHeld_of_none_earlier {s : State} {cls : Nat} (hl : earlierLoad s.th cls = false) (ht : earlierTld s cls = false)
    (hc : s.grp.ch = []) : loadHeld s cls = false := by
  simp [loadHeld, hl, ht, copyLate, hc]

end Sys2Proof.Machine

open Sys2Proof Sys2Proof.Machine

/-- Settles O49: each instruction from its fronts claimed, by the lemmas of the wrapper, the register block and the image. -/
theorem frontInstructions : Obligations.FrontInstructions := by
  unfold Obligations.FrontInstructions
  intro s cl fr fs vb vd a d sel h cls x imm p f g c hp hf hg hc
  subst hf hg hc
  refine ⟨?pfcfg, ?pfins, ?pftst, ?pfmrg, ?pfrd, ?pfcnt, ?pfclr, ?pfspl, ?pffil⟩
  case pfcfg =>
    exact onFronts_of_frSlot hp (exec_pfcfg ..) fun gives =>
      ⟨fun hbad => gives (congrArg _ (if_pos hbad)),
        fun hok => gives (congrArg _ (if_neg (Bool.eq_false_iff.1 hok)))⟩
  case pfins =>
    refine onFronts_of_frSlot hp (exec_pfins ..) fun gives => ⟨fun hpast => gives (frBlock_past hpast), fun hin hfree l hl => ?_⟩
    have presented : (upFrom 0 (frCount s a)).map (frLane s cl vb (fReg s.th fr.toNat).cfg) = l := hl.symm
    refine ⟨fun k hk => gives ((frBlock_free_alone hin hfree).trans ?_), fun hk => gives ((frBlock_free_alone hin hfree).trans ?_)⟩
    · simp only [frCount_frClaim, frLane_frClaim, fReg_frClaim, presented, hk]
      rfl
    · simp only [frCount_frClaim, frLane_frClaim, fReg_frClaim, presented, hk]
  case pftst =>
    refine onFronts_of_frSlot hp (exec_pftst ..) fun gives => ⟨fun hpast => gives (frBlock_past hpast), fun hin hfree => ?_⟩
    refine ⟨_, gives (frBlock_free hin hfree), fun l hl => ?_⟩
    have taking : l < frCount s a ↔ l < (sReg s.th a.toNat).toNat := by rw [frCount]; omega
    simp only [laneOf_mkV _ hl, frCount_frClaim, frLane_frClaim, fReg_frClaim, taking]
  case pfmrg =>
    refine onFronts_of_frSlot hp (exec_pfmrg ..) fun gives => ⟨fun hd => gives ?_, fun hs => ⟨fun k hk => gives ?_, fun hk => gives ?_⟩⟩
    · simp [hd]
    · simp only [fReg_frClaim, hs, hk, bne_self_eq_false, Bool.false_eq_true, if_false]
      rfl
    · simp [hs, hk]
  case pfrd =>
    refine onFronts_of_frSlot hp (exec_pfrd ..) fun gives => ⟨fun hpast => gives (frBlock_past hpast), fun hin hfree => gives ?_⟩
    exact frBlock_free_alone hin hfree
  case pfcnt =>
    refine onFronts_of_frSlot hp (exec_pfcnt ..) fun gives => gives ?_
    obtain rfl | rfl | rfl | rfl := frSelector_cases sel <;> rfl
  case pfclr =>
    exact onFronts_of_frSlot hp (exec_pfclr ..) fun gives => gives rfl
  case pfspl =>
    refine onFronts_of_frSlot hp (exec_pfspl ..) fun gives => ⟨fun c e hu => gives (withImage_bad hu), fun t hh hu =>
      ⟨fun hr => gives (withImage_refused hu hr), fun hst hsp l va hl => gives ?_⟩⟩
    obtain rfl := eq_of_useHandle hu hsp
    exact withImage_ok hu hst hsp hl
  case pffil =>
    refine onFronts_of_frSlot hp (exec_pffil ..) fun gives => ⟨fun c e hu => gives (withImage_bad hu), fun t hh hu =>
      ⟨fun hr => gives (withImage_refused hu hr), fun l va n b k hst hsp hch hld htl hn hhd hall hclean hb hk => gives ?_⟩⟩
    obtain rfl := eq_of_useHandle hu hsp
    subst hb
    replace hch : (frClaim s [fr.toNat]).grp.ch = [] := hch
    replace hld : earlierLoad (frClaim s [fr.toNat]).th cls.toNat = false := hld
    replace htl : earlierTld (frClaim s [fr.toNat]) cls.toNat = false := htl
    have count : le4 ((imageSrcs (frClaim s [fr.toNat]) l 16).map (takeByte (frClaim s [fr.toNat]))) 4 = n := hn.symm
    have header := header_of_frFill (by rw [List.length_map, imageSrcs_length]) hk
    rw [count] at header
    obtain ⟨headClean, tailClean⟩ := imageSrcs_clean hclean
    refine (withImage_ok hu hst hsp hhd).trans ?_
    simp only [ownLoads_of_none_earlier hld, ownTlds_of_none_earlier htl, loadHeld_of_none_earlier hld htl hch,
      copiesRead_of_no_copies hch, touchAll_of_no_copies hch, headClean, header, count, Bool.false_eq_true, if_false]
    refine (withImage_ok hu hst hsp hall).trans ?_
    simp only [touchAll_of_no_copies hch, tailClean, hk, Bool.false_eq_true, if_false]
    rfl

end

section
/-!
PROOFS. Read-modify-writes (R332, R333, R335): the new value that each operation computes, and what performing one at step 2 of its
mark leaves of memory, scratch and the thread (R148, R160).
-/
namespace Sys2Proof.Machine
open Sys2Proof

/-! Bytes stored and read back as a number (R2). -/

theorem length_leBytes (x n : Nat) : (leBytes x n).length = n := by
  induction n generalizing x with
  | zero => rfl
  | succ n ih => rw [leBytes, List.length_cons, ih]

theorem leNat_leBytes (x n : Nat) : leNat (leBytes x n) = x % 2 ^ (8 * n) := by
  induction n generalizing x with
  | zero => rw [leBytes, leNat, Nat.mul_zero, Nat.pow_zero, Nat.mod_one]
  | succ n ih =>
    rw [leBytes, leNat, ih, BitVec.toNat_ofNat, Nat.mul_succ, Nat.add_comm (8 * n), Nat.pow_add]
    exact Nat.mod_mul.symm

/-- Where a table holds the bytes of a list in turn, the list is what is read. -/
theorem tbytes_eq {t : Tab Byte} {a : Nat} (bs : List Byte) (h : ∀ i, i < bs.length → tget 0 t (a + i) = bs.getD i 0) :
    tbytes t a bs.length = bs := by
  induction bs generalizing a with
  | nil => rfl
  | cons b r ih =>
    have head : tget 0 t a = b := h 0 (Nat.zero_lt_succ _)
    have tail : ∀ i, i < r.length → tget 0 t (a + 1 + i) = r.getD i 0 := fun i hi => by
      rw [Nat.add_assoc, Nat.add_comm 1]
      exact h (i + 1) (Nat.succ_lt_succ hi)
    rw [List.length_cons, tbytes, head, ih tail]

theorem tbytes_tstore (t : Tab Byte) (a : Nat) (bs : List Byte) : tbytes (tstore t a bs) a bs.length = bs :=
  tbytes_eq bs fun i hi => by rw [tget_tstore, if_pos (by omega), Nat.add_sub_cancel_left]

theorem memBytes_homeStore (s : State) (a : Nat) (bs : List Byte) : memBytes (homeStore s a bs) a bs.length = bs :=
  tbytes_eq bs fun i hi => by
    refine (memRead_homeStore s a bs (a + i)).trans ?_
    rw [if_pos (by omega), Nat.add_sub_cancel_left]

theorem leNat_tbytes_tstore (t : Tab Byte) (a x n : Nat) : leNat (tbytes (tstore t a (leBytes x n)) a n) = x % 2 ^ (8 * n) := by
  have stored := tbytes_tstore t a (leBytes x n)
  rw [length_leBytes] at stored
  rw [stored, leNat_leBytes]

theorem memNat_homeStore (s : State) (a x n : Nat) : memNat (homeStore s a (leBytes x n)) a n = x % 2 ^ (8 * n) := by
  have stored := memBytes_homeStore s a (leBytes x n)
  rw [length_leBytes] at stored
  rw [memNat, stored, leNat_leBytes]

/-! Launches that wait for a counter (R62): telling them changes neither memory nor the thread. -/

/-- `t` is `s` but for launches with their order of readiness, the watches of counters, and what leaves for other devices. -/
def TellsOnly (s t : State) : Prop :=
  t = { s with launches := t.launches, nextId := t.nextId, watches := t.watches, out := t.out, lseq := t.lseq }

theorem TellsOnly.refl (s : State) : TellsOnly s s := rfl

theorem TellsOnly.trans {s t u : State} (h : TellsOnly s t) (k : TellsOnly t u) : TellsOnly s u := by
  unfold TellsOnly at h k ⊢
  rw [k, h]

theorem TellsOnly.mem {s t : State} (h : TellsOnly s t) : t.mem = s.mem := by rw [h]
theorem TellsOnly.th {s t : State} (h : TellsOnly s t) : t.th = s.th := by rw [h]

theorem tellsOnly_ite {s a b : State} {c : Prop} [Decidable c] (ha : TellsOnly s a) (hb : TellsOnly s b) :
    TellsOnly s (if c then a else b) := by split <;> assumption

theorem tellsOnly_foldl {α : Type} {f : State → α → State} (hf : ∀ s x, TellsOnly s (f s x)) (l : List α) (s : State) :
    TellsOnly s (l.foldl f s) := by
  induction l generalizing s with
  | nil => exact .refl s
  | cons x r ih => exact (hf s x).trans (ih _)

theorem sendFlit_tells (s : State) (dst kind cls addr : Nat) (d : List Byte) : TellsOnly s (sendFlit s dst kind cls addr d) :=
  tellsOnly_ite (.refl s) rfl

theorem depMet_tells (s : State) (id : Nat) : TellsOnly s (depMet s id) := by
  unfold depMet
  split
  · exact .refl s
  · exact tellsOnly_ite (.refl s) rfl

theorem tellWatches_tells (s : State) (pa : Nat) : TellsOnly s (tellWatches s pa) :=
  TellsOnly.trans (t := { s with watches := _ }) rfl
    (tellsOnly_foldl (fun s _ => tellsOnly_ite (depMet_tells s _) (sendFlit_tells s ..)) _ _)

theorem noticeCounter_tells (s : State) (pa : Nat) : TellsOnly s (noticeCounter s pa) :=
  TellsOnly.trans (tellsOnly_foldl (fun u _ => tellsOnly_ite (depMet_tells u _) (.refl u)) _ s)
    (tellsOnly_ite (.refl _) (tellWatches_tells _ pa))

/-! The new value (R332). -/

theorem sextNat_of_lt {v w : Nat} (hw : 0 < w) (hv : v < 2 ^ w) :
    sextNat v w = if v < 2 ^ (w - 1) then (v : Int) else (v : Int) - 2 ^ w := by
  simp only [sextNat, Nat.mod_eq_of_lt hv, Nat.ne_of_gt hw, if_false]
  norm_cast

/-- What is picked by comparing values has the lesser, or the greater, of them. -/
theorem pick_lesser (f : Nat → Int) (x y : Nat) : f (if f x < f y then x else y) = min (f x) (f y) ∧
    ((if f x < f y then x else y) = x ∨ (if f x < f y then x else y) = y) := by
  split
  · next lt => exact ⟨(Int.min_eq_left (Int.le_of_lt lt)).symm, .inl rfl⟩
  · next ge => exact ⟨(Int.min_eq_right (Int.not_lt.1 ge)).symm, .inr rfl⟩

theorem pick_greater (f : Nat → Int) (x y : Nat) : f (if f x < f y then y else x) = max (f x) (f y) ∧
    ((if f x < f y then y else x) = x ∨ (if f x < f y then y else x) = y) := by
  split
  · next lt => exact ⟨(Int.max_eq_right (Int.le_of_lt lt)).symm, .inr rfl⟩
  · next ge => exact ⟨(Int.max_eq_left (Int.not_lt.1 ge)).symm, .inl rfl⟩

section
variable {d x ra : BitVec 6} {h cls : BitVec 4} {imm : BitVec 14} {dw : BitVec 1} {p : BitVec 5} {i : Instr} {w old a b : Nat}

theorem rmw_signed_min (hi : i ∈ [Instr.amin d h x imm ra dw cls p, .nmrMin h x imm ra dw cls p]) :
    rmw i w old a b = if sextNat old w < sextNat a w then old else a := by
  obtain rfl | rfl : i = _ ∨ i = _ := by simpa using hi
  all_goals simp only [rmw, decide_eq_true_eq]

theorem rmw_signed_max (hi : i ∈ [Instr.amax d h x imm ra dw cls p, .nmrMax h x imm ra dw cls p]) :
    rmw i w old a b = if sextNat old w < sextNat a w then a else old := by
  obtain rfl | rfl : i = _ ∨ i = _ := by simpa using hi
  all_goals simp only [rmw, decide_eq_true_eq]

end

/-! Performing one (R148). -/

theorem HomeOnly.th {s t : State} (h : HomeOnly s t) : t.th = s.th := by rw [h]

/-- The old value goes to the destination, if there is one, in the load class. -/
def giveOld (d : Option Nat) (s : State) (old : Nat) : State :=
  match d with
  | some r => putS s r (BitVec.ofNat 64 old) clsLoad
  | none => s

/-- The value a held operation puts into its cell of `n` bytes that holds `old`. -/
def heldNew (o : HeldOp) (n old : Nat) : Nat :=
  rmw o.ins (8 * n) old (o.a.toNat % 2 ^ (8 * n)) (o.b.toNat % 2 ^ (8 * n))

@[simp] theorem giveOld_mem (d : Option Nat) (s : State) (old : Nat) : (giveOld d s old).mem = s.mem := by cases d <;> rfl
@[simp] theorem giveOld_grp (d : Option Nat) (s : State) (old : Nat) : (giveOld d s old).grp = s.grp := by cases d <;> rfl

/-- The destination of a thread is written as in any other state that has the thread. -/
theorem giveOld_th {s t : State} (h : t.th = s.th) (d : Option Nat) (old : Nat) :
    (∀ r, d = some r → (giveOld d t old).th = (putS s r (BitVec.ofNat 64 old) clsLoad).th) ∧
    (d = none → (giveOld d t old).th = s.th) := by
  refine ⟨fun r hr => ?_, fun hn => ?_⟩
  · subst hr
    exact congrArg (fun u => pushReg u (.s r) (.s (BitVec.ofNat 64 old)) clsLoad) h
  · subst hn
    exact h

/-- The state after an operation on this device's memory, `s1` being the state with the line written back. -/
def heldAtHome (s1 : State) (o : HeldOp) (d : Option Nat) (n : Nat) : State :=
  let old := memNat s1 o.pa n
  giveOld d (noticeCounter (homeStore s1 o.pa (leBytes (heldNew o n old) n)) (o.pa / 8 * 8)) old

/-- The state after an operation in scratch. -/
def heldInScratch (s : State) (o : HeldOp) (d : Option Nat) (n : Nat) : State :=
  let old := leNat (tbytes s.grp.scratch o.pa n)
  giveOld d { s with grp := { s.grp with scratch := tstore s.grp.scratch o.pa (leBytes (heldNew o n old) n) } } old

section
variable {s s1 : State} {o : HeldOp}

theorem rmwPerform_memory (hm : o.h.space = .memory) (h1 : s1 = cleanLine s o.h.dev (o.pa / 256) true) (d : Option Nat) (n : Nat) :
    rmwPerform s o d n = if isPoisoned s1 o.pa then .bad .poison else if saddleOut s1 o.pa then .bad .scratchUnmapped
      else .done (heldAtHome s1 o d n) := by
  have notScratch : ¬ (o.h.space == .scratch) = true := by rw [hm]; decide
  subst h1
  unfold rmwPerform
  dsimp only
  rw [if_neg notScratch]
  cases d <;> rfl

theorem rmwPerform_scratch (hs : o.h.space = .scratch) (d : Option Nat) (n : Nat) :
    rmwPerform s o d n = if s.grp.badScr.contains (o.pa / 64) then .bad .poison else .done (heldInScratch s o d n) := by
  unfold rmwPerform
  rw [hs]
  cases d <;> rfl

end

/-- Telling who waits for the counter, and giving the old value, leave memory as the store made it. -/
theorem heldAtHome_mem (s1 : State) (o : HeldOp) (d : Option Nat) (n : Nat) :
    (heldAtHome s1 o d n).mem = (homeStore s1 o.pa (leBytes (heldNew o n (memNat s1 o.pa n)) n)).mem :=
  (giveOld_mem ..).trans (noticeCounter_tells ..).mem

theorem heldAtHome_value (s1 : State) (o : HeldOp) (d : Option Nat) (n : Nat) :
    memNat (heldAtHome s1 o d n) o.pa n = heldNew o n (memNat s1 o.pa n) % 2 ^ (8 * n) := by
  rw [← memNat_homeStore s1 o.pa _ n]
  unfold memNat memBytes
  rw [heldAtHome_mem]
  rfl

theorem heldAtHome_frame {s1 : State} {o : HeldOp} {n a : Nat} (d : Option Nat) (ha : a < o.pa ∨ o.pa + n ≤ a) :
    memRead (heldAtHome s1 o d n) a = memRead s1 a := by
  unfold memRead
  rw [heldAtHome_mem]
  refine (memRead_homeStore ..).trans (if_neg ?_)
  rw [length_leBytes]
  omega

theorem heldInScratch_grp (s : State) (o : HeldOp) (d : Option Nat) (n : Nat) : (heldInScratch s o d n).grp.scratch =
    tstore s.grp.scratch o.pa (leBytes (heldNew o n (leNat (tbytes s.grp.scratch o.pa n))) n) :=
  congrArg Group.scratch (giveOld_grp ..)

theorem heldInScratch_frame {s : State} {o : HeldOp} {n a : Nat} (d : Option Nat) (ha : a < o.pa ∨ o.pa + n ≤ a) :
    tget 0 (heldInScratch s o d n).grp.scratch a = tget 0 s.grp.scratch a := by
  rw [heldInScratch_grp, tget_tstore, length_leBytes, if_neg (by omega)]

end Sys2Proof.Machine

open Sys2Proof Sys2Proof.Machine

/-- Settles O31: each operation's value, and the store at the operation's own place after the line's write-back. -/
theorem readModifyWriteValue : Obligations.ReadModifyWriteValue := by
  unfold Obligations.ReadModifyWriteValue
  refine ⟨fun d x ra rb h cls imm dw p w old a b n hw hold ha hb hn => ?values,
    fun s s1 o d n old new hn hal hm hdev h1 sound inside hold hnew => ?home,
    fun s o d n old new => ⟨fun hm bad => ?badHome, fun hs bad => ?badScratch, fun hs sound hn hold hnew => ?scratch⟩⟩
  case values =>
    have pos : 0 < w := by omega
    have readOld : n old = sextNat old w := (hn old).trans (sextNat_of_lt pos hold).symm
    have readA : n a = sextNat a w := (hn a).trans (sextNat_of_lt pos ha).symm
    refine ⟨?add, ?and, ?or, ?xor, fun i hi => ?min, fun i hi => ?max, ?minu, ?maxu, rfl, rfl, ?fadd⟩
    case min =>
      rw [rmw_signed_min hi, ← readOld, ← readA]
      exact pick_lesser n old a
    case max =>
      rw [rmw_signed_max hi, ← readOld, ← readA]
      exact pick_greater n old a
    case and => simp [rmw, Nat.testBit_and]
    case or => simp [rmw, Nat.testBit_or]
    case xor => simp [rmw, Nat.testBit_xor]
    case add | minu | maxu | fadd => simp [rmw]
  case home =>
    subst hold hnew
    have run : rmwPerform s o d n = .done (heldAtHome s1 o d n) := by
      rw [rmwPerform_memory hm h1, sound, inside]
      rfl
    have thread : (noticeCounter (homeStore s1 o.pa (leBytes (heldNew o n (memNat s1 o.pa n)) n)) (o.pa / 8 * 8)).th = s.th := by
      rw [(noticeCounter_tells ..).th, (homeStore_homeOnly ..).th, h1, (cleanLine_homeOnly ..).th]
    exact ⟨_, run, heldAtHome_value .., fun a ha => heldAtHome_frame d ha, giveOld_th thread d _⟩
  case badHome => rw [rmwPerform_memory hm rfl, bad]; rfl
  case badScratch => rw [rmwPerform_scratch hs, if_pos (List.contains_iff_mem.2 bad)]
  case scratch =>
    subst hold hnew
    have run : rmwPerform s o d n = .done (heldInScratch s o d n) := by
      rw [rmwPerform_scratch hs, if_neg fun bad => sound (List.contains_iff_mem.1 bad)]
    refine ⟨_, run, giveOld_mem .., ?_, fun a ha => heldInScratch_frame d ha, giveOld_th rfl d _⟩
    rw [heldInScratch_grp, leNat_tbytes_tstore]
    rfl

end

section
/-!
PROOFS. The ordering instructions: FENCE and REL as they issue (R143, R144, R336), what an ACQ does to a sector of the core array
(R145), and a WAITGE that reads its counter at home (R150, R151, R334).
-/
namespace Sys2Proof.Machine
open Sys2Proof

/-! A sparse table whose values are mapped, entries that become the default dropped. -/

theorem not_mem_tkeys_of_twfFrom {α : Type} [DecidableEq α] {d : α} {t : Tab α} {a k : Nat} (ha : a ≤ k)
    (w : twfFrom d (some k) t = true) : a ∉ tkeys t := by
  induction t generalizing k with
  | nil => exact List.not_mem_nil
  | cons x r ih =>
    obtain ⟨j, v⟩ := x
    simp only [twfFrom, Bool.and_eq_true, decide_eq_true_eq] at w
    obtain ⟨⟨rise, -⟩, rest⟩ := w
    rw [tkeys, List.map_cons, List.mem_cons, not_or]
    exact ⟨by omega, ih (by omega) rest⟩

section
variable {α : Type} {d : α} {f : α → α} {g : Nat × α → Option (Nat × α)}

/-- `g` maps an entry's value by `f`, and leaves out only entries that become the default. -/
def MapsEntry (d : α) (f : α → α) (g : Nat × α → Option (Nat × α)) : Prop :=
  ∀ k v, g (k, v) = some (k, f v) ∨ (g (k, v) = none ∧ f v = d)

variable (hg : MapsEntry d f g)
include hg

theorem tget_filterMap_of_not_mem {t : Tab α} {a : Nat} (h : a ∉ tkeys t) : tget d (t.filterMap g) a = d := by
  induction t with
  | nil => rfl
  | cons x r ih =>
    obtain ⟨k, v⟩ := x
    rw [tkeys, List.map_cons, List.mem_cons, not_or] at h
    obtain ⟨hk, hr⟩ := h
    obtain kept | ⟨gone, -⟩ := hg k v
    · rw [List.filterMap_cons_some kept, tget, if_neg (Ne.symm hk), ih hr]
    · rw [List.filterMap_cons_none gone, ih hr]

theorem tget_filterMap [DecidableEq α] (hd : f d = d) {t : Tab α} {b : Option Nat} (w : twfFrom d b t = true) (a : Nat) :
    tget d (t.filterMap g) a = f (tget d t a) := by
  induction t generalizing b with
  | nil => exact hd.symm
  | cons x r ih =>
    obtain ⟨k, v⟩ := x
    simp only [twfFrom, Bool.and_eq_true] at w
    obtain ⟨-, rest⟩ := w
    rw [tget]
    obtain kept | ⟨gone, dropped⟩ := hg k v
    · rw [List.filterMap_cons_some kept, tget, ih rest, apply_ite f]
    · rw [List.filterMap_cons_none gone]
      split
      · next hk =>
        rw [dropped]
        exact tget_filterMap_of_not_mem hg (not_mem_tkeys_of_twfFrom (Nat.le_of_eq hk.symm) rest)
      · exact ih rest

end

/-! An ACQ on the array (R145). -/

/-- A sector after an ACQ whose mask has, or has not, the class of the access that filled it. -/
def acquiredSector (mask : Nat) (x : Sector) : Sector :=
  if mask.testBit x.cls then (if x.dirty == 0 then Sector.none else { x with valid := x.dirty }) else x

theorem arrGet_acquire {c : Core} (w : twf Sector.none c.arr = true) (mask dev sec : Nat) :
    arrGet (acquire c mask) dev sec = acquiredSector mask (arrGet c dev sec) := by
  refine tget_filterMap (fun k v => ?_) ?_ w _
  · unfold acquiredSector
    dsimp only
    split
    · split
      · exact .inr ⟨rfl, rfl⟩
      · exact .inl rfl
    · exact .inl rfl
  · unfold acquiredSector
    split <;> rfl

theorem acquiredSector_spared {mask : Nat} {x : Sector} (h : mask.testBit x.cls = false) : acquiredSector mask x = x :=
  if_neg (by rw [h]; decide)

/-- Exactly the dirty bytes stay, with their data. -/
theorem acquiredSector_taken {mask : Nat} {x : Sector} (h : mask.testBit x.cls = true) :
    (acquiredSector mask x).valid = x.dirty ∧ (acquiredSector mask x).dirty = x.dirty ∧
    (x.dirty ≠ 0 → (acquiredSector mask x).data = x.data) := by
  unfold acquiredSector
  rw [if_pos h]
  split
  · next clean =>
    have zero : x.dirty = 0 := eq_of_beq clean
    exact ⟨zero.symm, zero.symm, fun hd => absurd zero hd⟩
  · exact ⟨rfl, rfl, fun _ => rfl⟩

/-! The instructions that only order (R336). -/

section
variable {s : State} {p : BitVec 5} (hp : predOk s.th p = true) (mask : BitVec 16) (sc : BitVec 3)
include hp

theorem exec_fence : exec (.fence mask p) s = if mask = 0 then .next s else if beforeFence s mask then .next (block s)
    else .next { s with th := { s.th with fences := (mask.toNat, s.th.gate.length) :: s.th.fences } } :=
  slotOn_true _ hp

theorem exec_rel : exec (.rel mask sc p) s = .next { s with th := { s.th with heldRel := some (mask.toNat, sc.toNat) } } :=
  slotOn_true _ hp

theorem exec_acq : exec (.acq mask sc p) s = if mask = 0 then .next s else if beforeAcq s mask then .next (block s)
    else if sc = 1 then .next s else .next (acquireHere s (coOf s) mask.toNat) :=
  slotOn_true _ hp

end

/-- What was read before the ACQ for the core's readers is forgotten; what other readers have been given stays. -/
theorem mem_rdata_acquireHere (s : State) (co mask : Nat) (e : Nat × Nat × List Nat × List Byte) :
    e ∈ (acquireHere s co mask).rdata ↔ e ∈ s.rdata ∧ coreReader co e.2.2.1 = false := by
  simp [acquireHere, forget, forgetAt]

/-! A counter's eight bytes at home (R334). -/

theorem getD_tbytes (t : Tab Byte) (a n i : Nat) : (tbytes t a n).getD i 0 = if i < n then tget 0 t (a + i) else 0 := by
  induction n generalizing a i with
  | zero => simp [tbytes]
  | succ n ih =>
    cases i with
    | zero => simp [tbytes]
    | succ i =>
      have shift : a + 1 + i = a + (i + 1) := by omega
      simp only [tbytes, List.getD_cons_succ, ih, shift, Nat.add_lt_add_iff_right]

/-- An aligned word of a sector is the number that its eight bytes make. -/
theorem homeSector_word (s : State) {a : Nat} (ha : a % 8 = 0) :
    ((homeSector s (a / 64)).extractLsb' (8 * (a % 64)) 64).toNat = memNat s a 8 := by
  refine Nat.eq_of_testBit_eq fun i => ?_
  have left : ((homeSector s (a / 64)).extractLsb' (8 * (a % 64)) 64).toNat.testBit i =
      (decide (i < 64) && (decide (8 * (a % 64) + i < 512) && (memNat s (64 * (a / 64)) 64).testBit (8 * (a % 64) + i))) := by
    rw [BitVec.testBit_toNat, BitVec.getLsbD_extractLsb', homeSector, BitVec.getLsbD_ofNat]
  rw [left, memNat, memNat, memBytes, memBytes, testBit_leNat, testBit_leNat, getD_tbytes, getD_tbytes]
  have place : (8 * (a % 64) + i) / 8 = a % 64 + i / 8 := by omega
  have bit : (8 * (a % 64) + i) % 8 = i % 8 := by omega
  have addr : 64 * (a / 64) + (a % 64 + i / 8) = a + i / 8 := by omega
  rw [place, bit, addr]
  by_cases hi : i < 64
  · rw [if_pos (by omega), if_pos (by omega), decide_eq_true hi, decide_eq_true (by omega), Bool.true_and, Bool.true_and]
  · rw [if_neg (by omega : ¬ i / 8 < 8), decide_eq_false hi]
    simp

/-! A sector of the array written, and its clean bytes dropped (R110). -/

@[simp] theorem arrGet_arrSet_self (c : Core) (dev sec : Nat) (x : Sector) :
    arrGet (arrSet c dev sec x) dev sec = if x.valid == 0 then Sector.none else x :=
  tget_tset_self ..

theorem dropClean_valid (s : State) (dev sec : Nat) :
    (arrGet (dropClean s dev sec).core dev sec).valid = (arrGet s.core dev sec).dirty := by
  unfold dropClean
  rw [arrGet_arrSet_self]
  split
  · next zero => exact (eq_of_beq zero).symm
  · rfl

/-! Copies that read before a later access (R150) change what they hold, and the health of what they read. -/

theorem tested_health (s : State) (l : List ByteSrc) : HealthOnly s (tested s l) := by
  unfold tested
  exact healthOnly_ite (.refl s) (healthOnly_foldl (fun s _ => healthOnly_ite (.refl s) (testSec_health s _)) _ s)

theorem copiesRead_eq (s : State) (cx cls : Nat) (q : Nat × Nat) :
    ∃ u ch, HealthOnly s u ∧ copiesRead s cx cls q = { u with grp := { u.grp with ch := ch } } := by
  unfold copiesRead
  split
  · exact ⟨s, s.grp.ch, .refl s, rfl⟩
  · exact ⟨_, _, healthOnly_foldl (fun s _ => healthOnly_ite (tested_health s _) (.refl s)) _ s, rfl⟩

/-! WAITGE on a counter of this device (R334). -/

/-- Who reads is no part of the thread, its group, the core, or the registers. -/
theorem asReader_frame (s : State) (tag : List Nat) : (asReader s tag).th = s.th ∧ (asReader s tag).grp = s.grp ∧
    (asReader s tag).core = s.core ∧ (asReader s tag).regs = s.regs := by
  unfold asReader
  split <;> exact ⟨rfl, rfl, rfl, rfl⟩

theorem isRemote_congr {s t : State} (h : t.regs = s.regs) (d : Nat) : isRemote t d = isRemote s d := by
  rw [isRemote, isRemote, ownRank, ownRank, h]

theorem withCounter_ok {s t : State} {h : BitVec 4} {x : BitVec 6} {imm : BitVec 14} {need : Need} {hh : Handle} {l : Loc} {va : Nat}
    (hs : (hReg s.th h.toNat).space = .memory) (hr : Reaches s h (offset s x imm.toInt) 8 8 need t hh l va)
    (k : State → Handle → Loc → Nat → Out) : withCounter s h x imm need k = k t hh l va := by
  obtain ⟨used, located⟩ := hr
  unfold withCounter
  dsimp only
  rw [hs, if_neg (by simp)]
  exact withAccess_ok used located

/-- The counter at `num` read by reader `r`: the earlier copies of its class have read, and the array's clean copy of it is gone. -/
def counterRead (r : State) (dev num : Nat) (cls : BitVec 4) : State :=
  let u := copiesRead r (cxOf r) cls.toNat (r.th.pos, r.th.slot)
  dropClean (forgetAt u (fun d x t => d == dev && x == num / 64 && t == u.rtag)) dev (num / 64)

/-- The thread waits on where the counter is below its register. -/
def waitBelow (r u : State) (num : Nat) (a : BitVec 6) : State :=
  if ((homeSector r (num / 64)).extractLsb' (8 * (num % 64)) 64).ult (sReg u.th a.toNat)
  then { u with th := { u.th with run := .waitge } } else u

/-- Copies that read leave thread and core as they are, and of the group change only the copies. -/
theorem copiesRead_frame (s : State) (cx cls : Nat) (q : Nat × Nat) : (copiesRead s cx cls q).th = s.th ∧
    (copiesRead s cx cls q).core = s.core ∧ (copiesRead s cx cls q).grp = { s.grp with ch := (copiesRead s cx cls q).grp.ch } := by
  obtain ⟨u, ch, health, e⟩ := copiesRead_eq s cx cls q
  rw [e, health]
  exact ⟨rfl, rfl, rfl⟩

section
variable (r : State) (dev num : Nat) (cls : BitVec 4)

theorem counterRead_th : (counterRead r dev num cls).th = r.th := (copiesRead_frame r _ _ _).1

theorem counterRead_grp : (counterRead r dev num cls).grp = { r.grp with ch := (counterRead r dev num cls).grp.ch } :=
  (copiesRead_frame r _ _ _).2.2

theorem counterRead_outside : SameOutside r (counterRead r dev num cls) := (copiesRead_outside ..).trans (outside_of rfl)

theorem counterRead_valid :
    (arrGet (counterRead r dev num cls).core dev (num / 64)).valid = (arrGet r.core dev (num / 64)).dirty := by
  obtain ⟨-, core, -⟩ := copiesRead_frame r (cxOf r) cls.toNat (r.th.pos, r.th.slot)
  rw [← core]
  exact dropClean_valid ..

end

theorem waitBelow_eq (r u : State) {num : Nat} (ha : num % 8 = 0) (a : BitVec 6) : waitBelow r u num a =
    { u with th := if (sReg u.th a.toNat).toNat ≤ memNat r num 8 then u.th else { u.th with run := .waitge } } := by
  have below : (((homeSector r (num / 64)).extractLsb' (8 * (num % 64)) 64).ult (sReg u.th a.toNat) = true) =
      ¬ (sReg u.th a.toNat).toNat ≤ memNat r num 8 := by
    rw [BitVec.ult, homeSector_word r ha, decide_eq_true_eq, Nat.not_le]
  simp only [waitBelow, below, ite_not]
  split <;> rfl

theorem SameOutside.mem {s t : State} (h : SameOutside s t) : t.mem = s.mem := by
  obtain ⟨mem, -⟩ := h
  exact mem

theorem SameOutside.isPoisoned {s t : State} (h : SameOutside s t) (pa : Nat) : isPoisoned t pa = isPoisoned s pa := by
  obtain ⟨-, bad, -⟩ := h
  exact bad (pa / 64)

theorem withThread_outside (u : State) (x : Thread) : SameOutside u { u with th := x } := outside_of rfl

theorem exec_waitge {s t r : State} {h cls : BitVec 4} {x a : BitVec 6} {imm : BitVec 14} {p : BitVec 5} {hh : Handle} {l : Loc}
    {va : Nat} (hp : predOk s.th p = true) (hs : (hReg s.th h.toNat).space = .memory)
    (hr : Reaches s h (offset s x imm.toInt) 8 8 .r t hh l va) (near : isRemote t hh.dev = false)
    (er : r = asReader t [0, coOf t, cxOf t]) :
    exec (.waitge h x imm a cls p) s = if loadHeld r cls.toNat then .next (block r)
      else if isPoisoned r l.num then .next (raise (testSec r (l.num / 64)) .poison va)
      else .next (waitBelow r (counterRead r hh.dev l.num cls) l.num a) := by
  obtain ⟨-, -, -, regs⟩ := asReader_frame t [0, coOf t, cxOf t]
  have nearR : isRemote r hh.dev = false := by rw [er, isRemote_congr regs, near]
  refine (slotOn_true _ hp).trans ((withCounter_ok hs hr _).trans ?_)
  dsimp only
  rw [← er]
  simp only [lineLocked, homeData, nearR, Bool.false_and, Bool.or_false, Bool.false_eq_true, if_false, waitBelow]
  split
  · rfl
  · split
    · rfl
    · exact (apply_ite _ _ _ _).symm

end Sys2Proof.Machine

open Sys2Proof Sys2Proof.Machine

/-- Settles O32: each ordering instruction as it issues, WAITGE's outcomes at home, and a sector of the array after an ACQ. -/
theorem orderingInstructions : Obligations.OrderingInstructions := by
  unfold Obligations.OrderingInstructions
  refine ⟨fun s t mask sc x a h cls imm p hh l va hp => ⟨?fenceNone, fun hm free => ?fence, fun hm held => ?fenceHeld, exec_rel hp ..,
    ?acqNone, fun hm held => ?acqHeld, fun hm free => ?acqCore, fun hm free wide => ?acq,
    fun hs hr near r er => ⟨fun held => ?waitHeld, fun free => ⟨fun bad => ?waitBad, fun sound aligned => ?wait⟩⟩⟩,
    fun c mask dev sec w => ?sector⟩
  case fenceNone => exact (exec_fence hp _).trans (if_pos rfl)
  case fence => exact (exec_fence hp _).trans ((if_neg hm).trans (if_neg (ne_true_of_eq_false free)))
  case fenceHeld => exact (exec_fence hp _).trans ((if_neg hm).trans (if_pos held))
  case acqNone => exact (exec_acq hp ..).trans (if_pos rfl)
  case acqHeld => exact (exec_acq hp ..).trans ((if_neg hm).trans (if_pos held))
  case acqCore => exact (exec_acq hp ..).trans ((if_neg hm).trans ((if_neg (ne_true_of_eq_false free)).trans (if_pos rfl)))
  case acq =>
    exact ⟨acquireHere s (coOf s) mask.toNat,
      (exec_acq hp ..).trans ((if_neg hm).trans ((if_neg (ne_true_of_eq_false free)).trans (if_neg wide))), rfl,
      mem_rdata_acquireHere s (coOf s) mask.toNat⟩
  case waitHeld => exact (exec_waitge hp hs hr near er).trans (if_pos held)
  case waitBad =>
    obtain ⟨th, -, -, -⟩ := asReader_frame t [0, coOf t, cxOf t]
    have outside : SameOutside t r := er ▸ asReader_outside ..
    have badR : isPoisoned r l.num = true := (outside.isPoisoned _).trans bad
    refine ⟨testSec r (l.num / 64), ?_, ?_, outside.trans (testSec_outside ..)⟩
    · exact (exec_waitge hp hs hr near er).trans ((if_neg (ne_true_of_eq_false free)).trans (if_pos badR))
    · rw [testSec_health r, er, th]
  case wait =>
    obtain ⟨th, grp, core, -⟩ := asReader_frame t [0, coOf t, cxOf t]
    rw [← er] at th grp core
    have outside : SameOutside t r := er ▸ asReader_outside ..
    have soundR : isPoisoned r l.num = false := (outside.isPoisoned _).trans sound
    have runs : exec (.waitge h x imm a cls p) s = .next (waitBelow r (counterRead r hh.dev l.num cls) l.num a) :=
      (exec_waitge hp hs hr near er).trans
        ((if_neg (ne_true_of_eq_false free)).trans (if_neg (ne_true_of_eq_false soundR)))
    rw [waitBelow_eq _ _ aligned, counterRead_th, memNat, memBytes, th, outside.mem] at runs
    refine ⟨_, runs, outside.trans ((counterRead_outside ..).trans (withThread_outside ..)), ?_, rfl, ?_⟩
    · rw [← grp]
      exact counterRead_grp r hh.dev l.num cls
    · rw [← core]
      exact counterRead_valid r hh.dev l.num cls
  case sector =>
    rw [arrGet_acquire w]
    exact ⟨acquiredSector_spared, acquiredSector_taken⟩

end

section
/-!
PROOFS. WCLOC (R217): the word that locates an element of a tensor and its block scale, and what the
instruction answers with and without a pattern.
-/
namespace Sys2Proof.Machine
open Sys2Proof

/-! The word as R217 packs it: tensor row in bits 23:0, byte in the row in 34:24, bit offset in 39:35, width in 44:40. -/

/-- The word for `width` bits at bit `off` of column `c`'s word in row `r` of tile `t`. -/
def locatorWord (P : Tensor) (t c r off width : Nat) : Word :=
  BitVec.ofNat 64 (t * (P.e + P.sc) + r + colByte c r * 2 ^ 24 + off * 2 ^ 35 + width * 2 ^ 40)

section
variable {P : Tensor} {i t c k : Nat} (located : coordOf P i = (t, c, k))
include located

/-- An element's string of bits begins at the tile's first row (R215). -/
theorem wclocWord_element :
    wclocWord P i false = locatorWord P t c (k * tensorB P / 32) (k * tensorB P % 32) (tensorB P) := by
  simp [wclocWord, locatorWord, located]

/-- The scale bytes lie below the tile's E element rows, one for each 32 elements of a column (R215). -/
theorem wclocWord_scale (scaled : P.sc ≠ 0) :
    wclocWord P i true = locatorWord P t c (P.e + k / 32 / 4) (8 * (k / 32 % 4)) 8 := by
  simp [wclocWord, locatorWord, located, scaled]

end

theorem wclocWord_unscaled {P : Tensor} (plain : P.sc = 0) (i : Nat) : wclocWord P i true = 0xFFFFFFFFFFFFFFFF := by
  simp [wclocWord, plain]

/-! What WCLOC answers. -/

section
variable {s : State} {a b : BitVec 6} {p : BitVec 5} (hp : predOk s.th p = true) (d : BitVec 6) (sel : BitVec 1)
include hp

theorem exec_wcloc_none (absent : patternOf s (sReg s.th a.toNat) (sReg s.th b.toNat) = none) :
    Faults (.wcloc d a b sel p) s .coordRange (sReg s.th b.toNat).toNat :=
  (slotOn_true _ hp).trans (by rw [absent])

theorem exec_wcloc_some {P : Tensor} {x : Word} (found : patternOf s (sReg s.th a.toNat) (sReg s.th b.toNat) = some P)
    (word : wclocWord P (sReg s.th b.toNat).toNat (sel == 1) = x) : GivesS (.wcloc d a b sel p) s d clsLoad x :=
  (slotOn_true _ hp).trans (by rw [found, ← word])

end

end Sys2Proof.Machine

open Sys2Proof Sys2Proof.Machine

/-- Settles O35: WCLOC's answer by whether a pattern is found, then its word by what SEL asks for. -/
theorem wclocWord : Obligations.WclocWord := by
  unfold Obligations.WclocWord
  rintro s d a b sel p P i k n K t c kk w r off width beta hp rfl rfl rfl
  refine ⟨exec_wcloc_none hp d sel, fun found hk hn ht hc hkk hbeta => ?_⟩
  have located : coordOf P (sReg s.th b.toNat).toNat = (t, c, kk) := by
    subst hk hn ht hc hkk
    rfl
  refine ⟨?element, ?unscaled, ?scale⟩
  case element =>
    rintro rfl rfl rfl rfl
    exact exec_wcloc_some hp d 0 found (wclocWord_element located)
  case unscaled =>
    rintro rfl plain
    exact exec_wcloc_some hp d 1 found (wclocWord_unscaled plain _)
  case scale =>
    rintro rfl scaled rfl rfl rfl
    subst hbeta
    exact exec_wcloc_some hp d 1 found (wclocWord_scale located scaled)

end
